-- ==== Sys2Proof/Word.lean ====
section
/-! DEFINITION. The word types of the SL4: bytes, record fields, addresses and whole records. -/

namespace Sys2Proof

/-- One byte of a record or of a frame. -/
abbrev Byte := BitVec 8

/-- A register, a tick, a tag or a counter: four bytes (R192). -/
abbrev Word := BitVec 32

/-- A system memory address: eight bytes (R192). -/
abbrev Addr := BitVec 64

/-- One record as the part reads it: 64 bytes in a single transfer (R192). -/
abbrev Record := Vector Byte 64

/-- The number of a cell inside the part, 0 to 31 (R24). -/
abbrev CellId := Fin 32

/-- One of the eight send rings, S0 to S7 (ring numbers 1 to 8). -/
abbrev SendId := Fin 8

/-- One of the four arrival rings, A0 to A3 (ring numbers 9 to 12). -/
abbrev ArrivalId := Fin 4

/-- A frame's class, 0 the most urgent (R9). -/
abbrev ClassId := Fin 4

/-- A slot of a response window, 0 to 7 (R16). -/
abbrev Slot := Fin 8

end Sys2Proof
end

