-- ==== Sys2Proof/Syntax.lean ====
section
/-! DEFINITION. The commands of the block: one constructor of `Instr` per row of spec/opcode_table.json, and the
types of their operands. Register writes carry the 32-bit value written, transfer ends carry what the system bus
answered, line events carry what the line engine read: the pulses of the cells since the last point of the frame, pulse
lengths and quiet runs, in cycles of REFCLK, the clock in which RXD is sampled (10.7). -/

namespace Sys2Proof

/-- The eight registers of the window (R175, 11.9). -/
inductive Register where
  | control | status | bootLo | bootHi | post | release | cause | mask
  deriving DecidableEq, Repr

/-- The width of one access to the register window (R175). -/
inductive AccessWidth where
  | byte | half | word
  deriving DecidableEq, Repr

/-- How a read of the master port ended: with all 64 bytes, or with a host-bus error, which delivers no bytes (R188). -/
inductive ReadEnd where
  | data (record : Record)
  | busError
  deriving DecidableEq, Repr

/-- How a write of the master port ended (R188). -/
inductive WriteEnd where
  | written
  | busError
  deriving DecidableEq, Repr

/-- The seven parameter bytes of NODE_SET (11.3). -/
structure NodeSetForm where
  nodeId        : Byte
  rateCode      : Byte
  defaultBudget : Byte
  yieldValue    : Byte
  txLimit       : Byte
  rxLimit       : Byte
  rxHold        : Byte
  deriving DecidableEq, Repr

/-- The parameters of OPEN_SEND as the record carries them (11.3). -/
structure OpenSendForm where
  ring  : Byte
  cls   : Byte
  size  : BitVec 16
  base  : Addr
  deriving DecidableEq, Repr

/-- The parameters of OPEN_ARRIVAL as the record carries them (11.3). -/
structure OpenArrivalForm where
  ring  : Byte
  count : Byte
  size  : BitVec 16
  delay : Byte
  base  : Addr
  deriving DecidableEq, Repr

/-- The eleven bytes of the acceptance entry form, as FILTER_WRITE carries them (11.5). -/
structure EntryForm where
  flags       : Byte
  action      : Byte
  ring        : Byte
  slot        : Byte
  reply       : Byte
  targetValue : Byte
  targetMask  : Byte
  topicValue  : Byte
  topicMask   : Byte
  sourceValue : Byte
  sourceMask  : Byte
  deriving DecidableEq, Repr

/-- An administrative command with its parameters as the record carries them, before they are judged (R161, 11.3). -/
inductive AdminCommand where
  | nodeSet (p : NodeSetForm)
  | lineMode (code : Byte)
  | openSend (p : OpenSendForm)
  | openArrival (p : OpenArrivalForm)
  | closeRing (ring : Byte)
  | filterWrite (index : Byte) (form : EntryForm)
  | filterRead (index : Byte)
  | countsRead (clear : Byte) (address : Addr)
  deriving DecidableEq, Repr

/-- One dominant pulse on the line inside a frame: its leading edge, in REFCLK cycles after the frame's SOF edge, and its
length in REFCLK cycles (R3, R4). -/
structure LinePulse where
  edge   : Nat
  length : Nat
  deriving DecidableEq, Repr

/-- What the line showed in one cell: the dominant pulses read in it, in order (R4). The SOF part is a cell of its own,
cell 0, which begins with the SOF pulse; the data cells count from 1, and the cells of the EOD, the window and the EOF
count on (R8). -/
abbrev CellPulses := List LinePulse

/-- When an SOF edge falls: at a moment of its own, or at the moment of a deadline expiry that was taken first and has
emptied the offer slot (R60, R69). -/
inductive SofMoment where
  | plain
  | afterExpiry
  deriving DecidableEq, Repr

/-- How an attempt begins: the engine drives an SOF of its own, or reads another node's SOF edge (R69), and the moment at
which it would drive it or reads it (R60). -/
inductive SofKind where
  | driven (moment : SofMoment)
  | edgeRead (moment : SofMoment)
  deriving DecidableEq, Repr

/-- A pulse read outside a frame: its length in REFCLK cycles (R7), and the moment of its leading edge (R60). -/
structure PulseRead where
  length : Nat
  moment : SofMoment
  deriving DecidableEq, Repr

/-- The cells of a frame read since the last of its points the engine has reached, in order, up to the cell whose
end gives the command (R23). -/
abbrev CellsRead := List CellPulses

/-- When an attempt ends: at a moment of its own, or at the moment of an event on its cell that is taken next, a flush of its
send ring (R61) or its expiry (R60). -/
inductive EndMoment where
  | plain
  | beforeNext
  deriving DecidableEq, Repr

/-- The end of an attempt: the quiet run at its last reading (R6), and its moment (R60, R61). -/
structure AttemptEnding where
  quiet  : Nat
  moment : EndMoment
  deriving DecidableEq, Repr

/-- The end of a frame as a receiver reads it: the cells up to the last EOF cell, and the quiet run at its end (R77). -/
structure TailRead where
  cells : CellsRead
  quiet : Nat
  deriving DecidableEq, Repr

/-- The commands the block takes: one constructor per row of the opcode table. -/
inductive Instr where
  | resetPinAssert
  | resetPinRelease
  | softReset (value : Word)
  | softResetComplete
  | enable (value : Word)
  | bootLoWrite (value : Word)
  | bootHiWrite (value : Word)
  | post (value : Word)
  | release (value : Word)
  | causeWrite (value : Word)
  | maskWrite (value : Word)
  | registerWrite (register : Register) (width : AccessWidth) (value : Word)
  | bootReadEnd (result : ReadEnd)
  | fetchEnd (result : ReadEnd)
  | adminFetchEnd (result : ReadEnd) (quiet : Nat)
  | nodeSet (tag : Word) (form : NodeSetForm)
  | lineMode (tag : Word) (code : Byte) (quiet : Nat)
  | openSend (tag : Word) (form : OpenSendForm)
  | openArrival (tag : Word) (form : OpenArrivalForm)
  | closeRing (tag : Word) (ring : Byte)
  | filterWrite (tag : Word) (index : Byte) (form : EntryForm)
  | filterRead (tag : Word) (index : Byte)
  | countsRead (tag : Word) (clear : Byte) (address : Addr)
  | countsWriteEnd (result : WriteEnd)
  | arrivalWriteEnd (result : WriteEnd)
  | completionWriteEnd (result : WriteEnd)
  | tick
  | deadlineExpiry (cell : CellId)
  | arrivalTimerExpiry (ring : ArrivalId)
  | crTimerExpiry
  | joinComplete (quiet : Nat)
  | attemptStart (kind : SofKind) (quiet : Nat)
  | frameStart (quiet : Nat) (pulse : PulseRead)
  | arbitrationWon
  | attemptEnd (before : CellsRead) (last : CellPulses) (ending : AttemptEnding)
  | headerEnd (cells : CellsRead)
  | checkEnd (payload : CellsRead) (check : CellsRead)
  | slotEnd (slot : Slot) (cells : CellsRead)
  | frameEnd (tail : TailRead)
  | frameAbandoned (cells : CellsRead) (quiet : Nat)
  | stuckLine (dominant : Nat)
  | faultExit (quiet : Nat)
  | recoveryEnd (quiet : Nat)
  | eodEnd
  deriving DecidableEq, Repr

end Sys2Proof
end

