-- ==== Sys2Proof/Decode.lean ====
section
/-! DEFINITION. The block fetches no instruction and the rows of spec/opcode_table.json give no bits: no word spells
a command, and the decoder answers none on every word. -/

namespace Sys2Proof

/-- The command that a word spells by the opcode table's bits. No row of the table gives bits (each row's "fields" is
empty and none has "fixed"), so every word spells none. -/
def decodeTableWord (_nbits _w : Nat) : Option Instr := none

end Sys2Proof
end

