-- ==== Sys2Proof/Config.lean ====
section
/-! DEFINITION. What the SL4 fixes once: the figures of the scope chapter that no register or record changes.
The spec leaves no value of the machine open, so no free value stands here. -/

namespace Sys2Proof.Config

/-- The transmit cells kept for class 0 records: the urgent reserve (R30). -/
def urgentReserve : Nat := 2

/-- The most admin results that stand in the completion pending list (R158). -/
def adminResultCap : Nat := 4

/-- Line errors in a row after which the node mutes (R81, R82). -/
def muteThreshold : Nat := 16

/-- The signature of a boot block (R180, 11.7). -/
def bootSignature : Word := 0x534C3442

/-- The revision that STATUS returns (R176). -/
def revision : BitVec 3 := 1

/-- The start value of the check register (R11). -/
def checkStart : BitVec 16 := 0xFFFF

/-- The generator polynomial of the check (R11). -/
def checkPolynomial : BitVec 16 := 0x1021

/-- The code byte of an ACK on the line (R17). -/
def codeAck : Byte := 0x96

/-- The code byte of a BUSY on the line (R17). -/
def codeBusy : Byte := 0x5A

/-- The code byte of a REJECT on the line (R17). -/
def codeReject : Byte := 0x3C

end Sys2Proof.Config
end

