-- ==== Sys2Proof/Machine/State.lean ====
section
/-! DEFINITION. The state of the SL4, block by block (00_scope.md, block overview), its reset values, and the reasons
a step can stop. Ring sizes, indices and use counts are `Nat`; what software sees as a word is a bit vector. -/

namespace Sys2Proof.Machine

/-! ## Names -/

/-- The engine state (10.2). -/
inductive EngineState where
  | reset | loading | running | halted | resetting
  deriving DecidableEq, Repr

/-- The halt reason STATUS shows (R179). -/
inductive HaltReason where
  | noReason | bootRead | bootInvalid | crWrite
  deriving DecidableEq, Repr

/-- The line mode (R64). -/
inductive LineMode where
  | offline | listen | online | loopback
  deriving DecidableEq, Repr

/-- The line phase (R65). -/
inductive Phase where
  | off | joining | idle | arbitrating | sending | windowOut | receiving | recovering | fault
  deriving DecidableEq, Repr

/-- The line rate selected by the rate code (R2). -/
inductive RateCode where
  | kbit20 | kbit50 | kbit100
  deriving DecidableEq, Repr

/-- The state of a send or arrival ring (R113, R130). -/
inductive RingState where
  | closed | opened | draining | faulted
  deriving DecidableEq, Repr

/-- The state of the admin ring, which is never DRAINING (R156). -/
inductive AdminRingState where
  | closed | opened | faulted
  deriving DecidableEq, Repr

/-- The state of the completion ring, which is never DRAINING and never FAULTED (R144). -/
inductive CompletionRingState where
  | closed | opened
  deriving DecidableEq, Repr

/-- A frame's response mode: no window, one slot, or eight slots (R10). -/
inductive ResponseMode where
  | noWindow | single | roll
  deriving DecidableEq, Repr

/-- The verdict mark of a transmit cell (R41). A cell without one holds `none`. -/
inductive Verdict where
  | invalid | fetchFailed | expired | flush
  deriving DecidableEq, Repr

/-- The last failure of a transmit cell (R25, R149). -/
inductive Failure where
  | noFailure | bitError | formatError | lineFault | busy | noResponse | garbled | missing
  deriving DecidableEq, Repr

/-- The final status of a send record (R149). -/
inductive SendStatus where
  | ok | rejected | exhausted | expired | flushed | invalid | fetchFailed
  deriving DecidableEq, Repr

/-- The status of an admin result (R148). -/
inductive AdminStatus where
  | done | invalidField | wrongState | unknownCommand | limitBelowUse | writeFailed | fetchFailed
  deriving DecidableEq, Repr

/-- The three response codes (R17). -/
inductive ResponseCode where
  | ack | busy | reject
  deriving DecidableEq, Repr

/-- The reading of a slot that is not ABSENT (R18, R192). -/
inductive SlotReading where
  | ack | busy | reject | garbled
  deriving DecidableEq, Repr

/-- The originator's classification of a slot, with the value byte read (R18, R25). -/
inductive SlotClass where
  | absent
  | read (reading : SlotReading) (value : Byte)
  deriving DecidableEq, Repr

/-- The outcome of an attempt (R22). -/
inductive AttemptOutcome where
  | lost | bitError | formatError | lineFault
  | sentClean (slots : List SlotClass)
  deriving DecidableEq, Repr

/-- What an acceptance entry does with a frame it matches (R91). -/
inductive Action where
  | accept | discard | refuse
  deriving DecidableEq, Repr

/-! ## Cells (R24 to R26) -/

/-- One response list entry of a transmit cell (R25). -/
structure ResponseEntry where
  slot    : Slot
  reading : SlotReading
  value   : Byte
  deriving DecidableEq, Repr

/-- The fields of a transmit cell (R25). -/
structure TxCell where
  ring         : SendId
  index        : Nat
  cls          : ClassId
  target       : Byte
  topic        : BitVec 6
  mode         : ResponseMode
  length       : Nat
  payload      : List Byte
  expect       : BitVec 8
  tag          : Word
  budget       : BitVec 4
  attemptsUsed : BitVec 4
  lostCount    : BitVec 8
  deadline     : Option Word
  verdict      : Option Verdict
  lastFailure  : Failure
  responses    : List ResponseEntry
  deriving DecidableEq, Repr

/-- The fields of a receive cell (R26); `answer` is the slot of the ACK confirmed at the commit. -/
structure RxCell where
  ring        : ArrivalId
  entry       : Fin 32
  cls         : ClassId
  target      : Byte
  topic       : BitVec 6
  source      : Byte
  mode        : ResponseMode
  length      : Nat
  payload     : List Byte
  answer      : Option Slot
  arrivalTick : Word
  deriving DecidableEq, Repr

/-- A cell is FREE, a transmit cell or a receive cell (R24). A FREE cell has no contents. -/
inductive Cell where
  | free
  | tx (c : TxCell)
  | rx (c : RxCell)
  deriving DecidableEq, Repr

/-! ## Ring contexts (R112, R129, R144, R156) -/

/-- The admin ring context (R156). -/
structure AdminRing where
  state         : AdminRingState
  base          : Addr
  size          : Nat
  head          : Nat
  tail          : Nat
  fetchInFlight : Bool
  deriving DecidableEq, Repr

/-- A send ring context (R112). -/
structure SendRing where
  state         : RingState
  base          : Addr
  size          : Nat
  head          : Nat
  tail          : Nat
  cls           : ClassId
  held          : Nat
  fetchInFlight : Bool
  deriving DecidableEq, Repr

/-- An arrival ring context (R129). The lap tag is `true` for 1; a stopped timer is `none`. -/
structure ArrivalRing where
  state         : RingState
  base          : Addr
  size          : Nat
  tail          : Nat
  head          : Nat
  lapTag        : Bool
  count         : Nat
  delay         : BitVec 8
  unnotified    : Nat
  timer         : Option Word
  discards      : BitVec 16
  held          : Nat
  writeInFlight : Bool
  deriving DecidableEq, Repr

/-- The completion ring context (R144). -/
structure CompletionRing where
  state         : CompletionRingState
  base          : Addr
  size          : Nat
  tail          : Nat
  head          : Nat
  lapTag        : Bool
  count         : Nat
  delay         : BitVec 8
  unnotified    : Nat
  timer         : Option Word
  writeInFlight : Bool
  deriving DecidableEq, Repr

/-- The Ring Context Table: fourteen contexts. -/
structure RingTable where
  admin      : AdminRing
  send       : Vector SendRing 8
  arrival    : Vector ArrivalRing 4
  completion : CompletionRing
  deriving DecidableEq, Repr

/-! ## Host Port -/

/-- The four requesters of the arbiter, in its cyclic order (R187). -/
inductive Requester where
  | fe | ae | aw | cw
  deriving DecidableEq, Repr

/-- Whose transfer stands on the system bus: the host port's own boot read, or a requester's (R180, R187). -/
inductive BusOwner where
  | boot
  | requester (q : Requester)
  deriving DecidableEq, Repr

/-- The direction of a transfer (10.5). -/
inductive Direction where
  | read | write
  deriving DecidableEq, Repr

/-- One transfer: its direction, its address, and the bytes a write carries (none for a read). -/
structure Transfer where
  direction : Direction
  address   : Addr
  bytes     : List Byte
  deriving DecidableEq, Repr

/-- The waiting requests of the master port, at most one for each requester (R187). -/
structure Waiting where
  fe : Option Transfer
  ae : Option Transfer
  aw : Option Transfer
  cw : Option Transfer
  deriving DecidableEq, Repr

/-- The host port: engine state, registers, master port (chapter 10). `enabled` is what CONTROL reads as ENABLE
(R177); `bootLo` holds bits 31:6 (R178); CAUSE and MASK hold the nine causes in the bit order of 11.9. -/
structure HostPort where
  engine      : EngineState
  haltReason  : HaltReason
  enabled     : Bool
  bootLo      : BitVec 26
  bootHi      : Word
  cause       : BitVec 9
  mask        : BitVec 9
  onBus       : Option (BusOwner × Transfer)
  waiting     : Waiting
  pointer     : Requester
  pinAsserted : Bool
  deriving DecidableEq, Repr

/-! ## Fetch Engine (R116) -/

/-- The fetch in flight: the ring, the record index and the cell (R116). -/
structure Fetch where
  ring  : SendId
  index : Nat
  cell  : CellId
  deriving DecidableEq, Repr

/-- The fetch engine (R116). -/
structure FetchEngine where
  pointer  : SendId
  inFlight : Option Fetch
  waiting  : Bool
  deriving DecidableEq, Repr

/-! ## Cell Pool (R24, R30, R34) -/

/-- The cell pool: the cells, the three use counts, the limits and the notice-owed flag. -/
structure CellPool where
  cells      : Vector Cell 32
  txInUse    : Nat
  lowInUse   : Nat
  rxInUse    : Nat
  txLimit    : Nat
  rxLimit    : Nat
  rxHold     : Nat
  noticeOwed : Bool
  deriving DecidableEq, Repr

/-! ## Scheduler (R38) -/

/-- The passed-over counts of classes 1, 2 and 3; class 0 has none (R38). -/
structure PassedOver where
  class1 : BitVec 4
  class2 : BitVec 4
  class3 : BitVec 4
  deriving DecidableEq, Repr

/-- The scheduler: the four class lists (head first), the passed-over counts, the tick, and SOF reported (R38). -/
structure Scheduler where
  lists       : Vector (List CellId) 4
  passed      : PassedOver
  tick        : Word
  tickRunning : Bool
  sofReported : Bool
  deriving DecidableEq, Repr

/-! ## Line Engine (R63) -/

/-- The role of the frame in progress (R63). -/
inductive Role where
  | originator | receiver
  deriving DecidableEq, Repr

/-- The point of R23 that the frame in progress has reached; `start` before the header end, `slot n` after slot n. -/
inductive Point where
  | start | headerEnd | checkEnd
  | slot (n : Slot)
  deriving DecidableEq, Repr

/-- A planned answer: slot, code and value (R100). -/
structure Answer where
  slot  : Slot
  code  : ResponseCode
  value : Byte
  deriving DecidableEq, Repr

/-- The fields of header and control byte as the header end hands them over (R74). -/
structure FrameHead where
  cls    : ClassId
  target : Byte
  topic  : BitVec 6
  source : Byte
  mode   : ResponseMode
  length : Nat
  deriving DecidableEq, Repr

/-- What became of this node's drive in its slot (R17): not reached, carried to the end, or withdrawn at a response
cell (numbered from 0). -/
inductive SlotDrive where
  | pending
  | complete
  | withdrawn (cell : Nat)
  deriving DecidableEq, Repr

/-- The frame in progress (R63): role, header and control as read (the bits kept before the header end, the fields
after it), the check register, the point reached, the planned answer with the answer-allowed flag of the header end
(R74, R76), the slot classifications so far (R72), and the fate of this node's own drive in its slot. The grid is kept
with it (R4): the next cell to read and its expected start, in REFCLK cycles after the SOF edge, and the pulses this node
has driven in the frame, on TXD or on the internal line. -/
structure Frame where
  role          : Role
  kept          : List Bool
  head          : Option FrameHead
  checkRegister : BitVec 16
  point         : Point
  answer        : Option Answer
  answerAllowed : Bool
  slots         : List SlotClass
  slotDrive     : SlotDrive
  cell          : Nat
  expected      : Nat
  driven        : List LinePulse
  deriving DecidableEq, Repr

/-- The counter store's eight counters (R87). -/
structure Counters where
  txSent         : Word
  txErrors       : Word
  lostArb        : Word
  rxAccepted     : Word
  rxDropped      : Word
  busyAnswered   : Word
  rxCheckErrors  : Word
  rxFormatErrors : Word
  deriving DecidableEq, Repr

/-- The TXD pin between events: released, or in a part of a frame in which the engine drives pulses (R1, R64). -/
inductive Drive where
  | released | driving
  deriving DecidableEq, Repr

/-- The line engine (R63); `quietRun` is in REFCLK cycles, `snapshot` is the copy of COUNTS_READ (R88). -/
structure LineEngine where
  mode        : LineMode
  phase       : Phase
  muted       : Bool
  fault       : Bool
  errorRun    : Nat
  slot        : Option CellId
  pendingMode : Option LineMode
  quietRun    : Nat
  frame       : Option Frame
  counters    : Counters
  snapshot    : Option Counters
  txd         : Drive
  deriving DecidableEq, Repr

/-! ## Acceptance Unit (R91, R94) -/

/-- An acceptance entry (R91). The slot number is kept with respond off as well: FILTER_READ returns it (11.5). -/
structure Entry where
  valid       : Bool
  targetValue : Byte
  targetMask  : Byte
  topicValue  : BitVec 6
  topicMask   : BitVec 6
  sourceValue : Byte
  sourceMask  : Byte
  action      : Action
  ring        : ArrivalId
  respond     : Bool
  slot        : Slot
  reply       : Byte
  hits        : BitVec 16
  deriving DecidableEq, Repr

/-- The reception in progress (R94); `check` is `some true` for a good check. -/
structure Reception where
  entry     : Option (Fin 32)
  action    : Option Action
  solicited : Bool
  cell      : Option CellId
  answer    : Option Answer
  check     : Option Bool
  deriving DecidableEq, Repr

/-- The acceptance unit: its table and the reception in progress. -/
structure AcceptanceUnit where
  table     : Vector Entry 32
  reception : Option Reception
  deriving DecidableEq, Repr

/-! ## Arrival Writer (R132, R133) -/

/-- The arrival write in flight: the cell, the ring and the entry written (R133). -/
structure ArrivalWrite where
  cell  : CellId
  ring  : ArrivalId
  index : Nat
  deriving DecidableEq, Repr

/-- The arrival writer: four pending lists (oldest first), its round-robin pointer and the write in flight. -/
structure ArrivalWriter where
  pending  : Vector (List CellId) 4
  pointer  : ArrivalId
  inFlight : Option ArrivalWrite
  deriving DecidableEq, Repr

/-! ## Completion Writer (R146, R147) -/

/-- An admin result: status, command tag, AR index and the data of the response area (R162). -/
structure AdminResult where
  status : AdminStatus
  tag    : Word
  index  : Nat
  area   : List Byte
  deriving DecidableEq, Repr

/-- A RING_FAULT notice: the faulted ring, the entry of the failed write, the number of cells lost (R139). -/
structure FaultNotice where
  ring  : ArrivalId
  index : Nat
  lost  : Nat
  deriving DecidableEq, Repr

/-- An entry of the completion pending list: one of three kinds (R146). -/
inductive CompletionEntry where
  | cell (id : CellId) (status : SendStatus)
  | admin (result : AdminResult)
  | ringFault (notice : FaultNotice)
  deriving DecidableEq, Repr

/-- The completion write in flight: the entry and the CR index it is written to (R147). -/
structure CompletionWrite where
  entry : CompletionEntry
  index : Nat
  deriving DecidableEq, Repr

/-- The completion writer: the completion pending list (oldest first) and the write in flight. -/
structure CompletionWriter where
  pending  : List CompletionEntry
  inFlight : Option CompletionWrite
  deriving DecidableEq, Repr

/-! ## Admin Engine (R157, R163) -/

/-- The admin engine's phase (R157). -/
inductive AdminPhase where
  | idle | fetching | executing
  deriving DecidableEq, Repr

/-- What an EXECUTING command waits for (R157). -/
inductive Awaited where
  | nothing | modeReport | ringClosed | countsWriteEnd
  deriving DecidableEq, Repr

/-- The current command: its tag, its AR index and its parameters (R157). -/
structure CurrentCommand where
  tag     : Word
  index   : Nat
  command : AdminCommand
  deriving DecidableEq, Repr

/-- The admin engine, with the four values of the node configuration it holds (R157, R163). -/
structure AdminEngine where
  phase         : AdminPhase
  current       : Option CurrentCommand
  awaited       : Awaited
  nodeId        : Byte
  rate          : RateCode
  defaultBudget : BitVec 4
  yieldValue    : BitVec 4
  deriving DecidableEq, Repr

/-! ## The state -/

/-- The whole machine: its ten blocks, and the commands that wait to be taken, first in, first out. -/
structure State where
  hp      : HostPort
  rct     : RingTable
  fe      : FetchEngine
  cp      : CellPool
  sch     : Scheduler
  le      : LineEngine
  au      : AcceptanceUnit
  aw      : ArrivalWriter
  cw      : CompletionWriter
  ae      : AdminEngine
  pending : List Instr
  deriving DecidableEq, Repr

/-- Why a step can stop with a fault. None: the spec gives every command of the table an effect in every state in
which its event arises, and a command whose event does not arise leaves the state as it is (log entry 1), so the
block never stops. -/
inductive Fault where
  deriving DecidableEq, Repr

/-- Why a step can be refused. -/
inductive Refusal where
  /-- A command that has no meaning yet, rejected by name in `exec`'s arm: no command is. Safe. -/
  | notModelled (mnemonic : String)
  deriving DecidableEq, Repr

/-! ## Reset values -/

namespace Reset

/-- A send ring context after either reset (R112). -/
def sendRing : SendRing :=
  { state := .closed, base := 0, size := 0, head := 0, tail := 0, cls := 0, held := 0, fetchInFlight := false }

/-- An arrival ring context after either reset (R129). -/
def arrivalRing : ArrivalRing :=
  { state := .closed, base := 0, size := 0, tail := 0, head := 0, lapTag := true, count := 1, delay := 0,
    unnotified := 0, timer := none, discards := 0, held := 0, writeInFlight := false }

/-- The completion ring context after either reset (R144). -/
def completionRing : CompletionRing :=
  { state := .closed, base := 0, size := 0, tail := 0, head := 0, lapTag := true, count := 1, delay := 0,
    unnotified := 0, timer := none, writeInFlight := false }

/-- The admin ring context after either reset (R156). -/
def adminRing : AdminRing :=
  { state := .closed, base := 0, size := 0, head := 0, tail := 0, fetchInFlight := false }

/-- The Ring Context Table after either reset. -/
def ringTable : RingTable :=
  { admin := adminRing, send := Vector.replicate 8 sendRing, arrival := Vector.replicate 4 arrivalRing,
    completion := completionRing }

/-- The host port after the reset pin (R175, R179, R187). -/
def hostPort : HostPort :=
  { engine := .reset, haltReason := .noReason, enabled := false, bootLo := 0, bootHi := 0, cause := 0, mask := 0,
    onBus := none, waiting := { fe := none, ae := none, aw := none, cw := none }, pointer := .fe,
    pinAsserted := false }

/-- The fetch engine after either reset (R116). -/
def fetchEngine : FetchEngine := { pointer := 0, inFlight := none, waiting := false }

/-- The cell pool after either reset (R37). -/
def cellPool : CellPool :=
  { cells := Vector.replicate 32 .free, txInUse := 0, lowInUse := 0, rxInUse := 0, txLimit := 20, rxLimit := 12,
    rxHold := 8, noticeOwed := false }

/-- The scheduler after either reset (R62). -/
def scheduler : Scheduler :=
  { lists := Vector.replicate 4 [], passed := { class1 := 0, class2 := 0, class3 := 0 }, tick := 0,
    tickRunning := false, sofReported := false }

/-- The counters after either reset (R87). -/
def counters : Counters :=
  { txSent := 0, txErrors := 0, lostArb := 0, rxAccepted := 0, rxDropped := 0, busyAnswered := 0, rxCheckErrors := 0,
    rxFormatErrors := 0 }

/-- The line engine after either reset (R63, R90). The quiet run has no reset value in the spec: DESIGN CHOICE 0,
log entry 3. -/
def lineEngine : LineEngine :=
  { mode := .offline, phase := .off, muted := false, fault := false, errorRun := 0, slot := none, pendingMode := none,
    quietRun := 0, frame := none, counters := counters, snapshot := none, txd := .released }

/-- An acceptance entry after either reset (R91). -/
def entry : Entry :=
  { valid := false, targetValue := 0, targetMask := 0, topicValue := 0, topicMask := 0, sourceValue := 0,
    sourceMask := 0, action := .accept, ring := 0, respond := false, slot := 0, reply := 0, hits := 0 }

/-- The acceptance unit after either reset (R111). -/
def acceptanceUnit : AcceptanceUnit := { table := Vector.replicate 32 entry, reception := none }

/-- The arrival writer after either reset (R143). -/
def arrivalWriter : ArrivalWriter := { pending := Vector.replicate 4 [], pointer := 0, inFlight := none }

/-- The completion writer after either reset (R155). -/
def completionWriter : CompletionWriter := { pending := [], inFlight := none }

/-- The admin engine after either reset (R157, R163). -/
def adminEngine : AdminEngine :=
  { phase := .idle, current := none, awaited := .nothing, nodeId := 0, rate := .kbit20, defaultBudget := 4,
    yieldValue := 4 }

end Reset

/-- The machine right after the reset pin is released (R191): every block at its reset values, nothing waiting. -/
def State.reset : State :=
  { hp := Reset.hostPort, rct := Reset.ringTable, fe := Reset.fetchEngine, cp := Reset.cellPool,
    sch := Reset.scheduler, le := Reset.lineEngine, au := Reset.acceptanceUnit, aw := Reset.arrivalWriter,
    cw := Reset.completionWriter, ae := Reset.adminEngine, pending := [] }

end Sys2Proof.Machine
end

