-- ==== Sys2Proof/Machine/Line.lean ====
section
/-! DEFINITION. The line as the SL4 reads and drives it (chapter 1): bit times, pulse classification, the parts of a
frame, the check, slot classification, format errors. Pure functions; no state is changed here. -/

namespace Sys2Proof.Machine

/-! ## Time and pulses (R2 to R6) -/

/-- One bit time in cycles of the 10 MHz REFCLK: 50, 20 or 10 µs by the rate code (R2, 10.7). -/
def RateCode.bitCycles : RateCode → Nat
  | .kbit20 => 500
  | .kbit50 => 200
  | .kbit100 => 100

/-- A rate code byte (R163): 0, 1 or 2. -/
def RateCode.ofByte (b : Byte) : RateCode :=
  if b = 1 then .kbit50 else if b = 2 then .kbit100 else .kbit20

/-- The classes of a measured dominant pulse (R3). -/
inductive Symbol where
  | glitch | data1 | data0 | invalid | sof | breakPulse | stuck
  deriving DecidableEq, Repr

/-- A dominant pulse of `length` cycles is classified by the receive tolerances of R3. -/
def classifyPulse (rate : RateCode) (length : Nat) : Symbol :=
  let bit := rate.bitCycles
  if 8 * length < bit then .glitch
  else if 2 * length < bit then .data1
  else if length < bit then .data0
  else if 2 * length < 3 * bit then .invalid
  else if 2 * length < 5 * bit then .sof
  else if length < 8 * bit then .invalid
  else if length < 64 * bit then .breakPulse
  else .stuck

/-- The pulses the SL4 drives (R2). -/
inductive DrivenPulse where
  | data1 | data0 | sof | slotMark
  deriving DecidableEq, Repr

/-- The nominal dominant length of a driven pulse, in quarters of a bit time (R2). -/
def DrivenPulse.quarterBits : DrivenPulse → Nat
  | .data1 => 1
  | .data0 => 3
  | .sof => 8
  | .slotMark => 3

/-- The nominal length in REFCLK cycles. -/
def DrivenPulse.cycles (rate : RateCode) (p : DrivenPulse) : Nat := p.quarterBits * rate.bitCycles / 4

/-- The pulse that carries a data bit (R2). -/
def DrivenPulse.ofBit (b : Bool) : DrivenPulse := if b then .data1 else .data0

/-- The line's bit when several nodes drive one cell: data 1 reads as data 1 only when every driver drives data 1
(R5). -/
def lineBit (drivers : List Bool) : Bool := drivers.all id

/-- How one cell reads (R3, R4): quiet, a data bit, or a symbol that is no data bit. -/
inductive Reading where
  | quiet
  | data (bit : Bool)
  | invalid | sof | breakPulse | stuck
  deriving DecidableEq, Repr

/-- The reading a single pulse gives its cell. -/
def Reading.ofSymbol : Symbol → Reading
  | .glitch => .quiet
  | .data1 => .data true
  | .data0 => .data false
  | .invalid => .invalid
  | .sof => .sof
  | .breakPulse => .breakPulse
  | .stuck => .stuck

/-- A quiet run of 8 bit times or more: the inter-frame space (R6, R13, R66, R80). -/
def quietAtLeast8 (rate : RateCode) (cycles : Nat) : Bool := 8 * rate.bitCycles ≤ cycles

/-- A quiet run of 6 bit times or more: the end of recovery (R20, R78). -/
def quietAtLeast6 (rate : RateCode) (cycles : Nat) : Bool := 6 * rate.bitCycles ≤ cycles

/-- A quiet run of 7 3/4 bit times or more: another node's SOF may still be joined (R13, R69). -/
def quietAllowsJoin (rate : RateCode) (cycles : Nat) : Bool := 31 * rate.bitCycles ≤ 4 * cycles

/-- A dominant period of 64 bit times or more: a stuck line (R21). -/
def isStuck (rate : RateCode) (cycles : Nat) : Bool := 64 * rate.bitCycles ≤ cycles

/-! ## Fields of the frame (R8 to R10) -/

/-- The bits of a field in line order, most significant bit first (R8). -/
def lineBits {w : Nat} (x : BitVec w) : List Bool := (List.range w).map x.getMsbD

/-- The bits of a payload in line order (R8). -/
def payloadBits (bytes : List Byte) : List Bool := bytes.flatMap lineBits

/-- The number whose bits, most significant first, are `bits`. -/
def bitsToNat (bits : List Bool) : Nat := bits.foldl (fun n b => 2 * n + b.toNat) 0

/-- The first `n` bytes that bits in line order spell (R8). -/
def bytesOfBits (n : Nat) (bits : List Bool) : List Byte :=
  (List.range n).map (fun i => BitVec.ofNat 8 (bitsToNat ((bits.drop (8 * i)).take 8)))

/-- The two-bit code of a response mode (R10). -/
def ResponseMode.code : ResponseMode → BitVec 2
  | .noWindow => 0
  | .single => 1
  | .roll => 2

/-- The response mode of a code; 3 is none (R10). -/
def ResponseMode.ofCode (c : BitVec 2) : Option ResponseMode :=
  if c = 0 then some .noWindow else if c = 1 then some .single else if c = 2 then some .roll else none

/-- The slots of the response window (R16). -/
def ResponseMode.slotCount : ResponseMode → Nat
  | .noWindow => 0
  | .single => 1
  | .roll => 8

/-- The cells of the response window, 17 for each slot (R8, R16). -/
def ResponseMode.windowCells (m : ResponseMode) : Nat := 17 * m.slotCount

/-- The header and control byte as one 32-bit number in line order: class, target, topic, source, response mode,
length (R9, R10). -/
def FrameHead.bits (h : FrameHead) : BitVec 32 :=
  BitVec.ofNat 2 h.cls.val ++ h.target ++ h.topic ++ h.source ++ h.mode.code ++ BitVec.ofNat 6 h.length

/-- The fields of 32 header and control bits, when the control byte is legal: mode 0 to 2 and length 0 to 32 (R9, R10). -/
def FrameHead.ofBits (b : BitVec 32) : Option FrameHead :=
  match ResponseMode.ofCode (b.extractLsb' 6 2) with
  | none => none
  | some mode =>
    if 32 < (b.extractLsb' 0 6).toNat then none
    else some
      { cls := (b.extractLsb' 30 2).toFin, target := b.extractLsb' 22 8, topic := b.extractLsb' 16 6,
        source := b.extractLsb' 8 8, mode := mode, length := (b.extractLsb' 0 6).toNat }

/-! ## The check (R11, R12) -/

/-- One step of the check register: compare, shift, combine (R11). -/
def checkStep (register : BitVec 16) (bit : Bool) : BitVec 16 :=
  if bit = register.msb then register <<< 1 else (register <<< 1) ^^^ Config.checkPolynomial

/-- The check register run over bits in line order (R11). -/
def runCheck (register : BitVec 16) (bits : List Bool) : BitVec 16 := bits.foldl checkStep register

/-- The check of a frame over its header, control byte and payload (R11). -/
def frameCheck (head : BitVec 32) (payload : List Byte) : BitVec 16 :=
  runCheck (runCheck Config.checkStart (lineBits head)) (payloadBits payload)

/-- The bits of data cells 1 to 48 + 8L, in line order (R8). -/
def imageBits (head : BitVec 32) (payload : List Byte) : List Bool :=
  lineBits head ++ payloadBits payload ++ lineBits (frameCheck head payload)

/-! ## The parts of a frame (R8, R16) -/

/-- The parts of a frame. -/
inductive Part where
  | sofPart | header | control | payload | check | eod | slotMark | response | eof
  deriving DecidableEq, Repr

/-- The number of the last EOF cell of a frame of length L and mode m (R6, R8). -/
def lastCell (length : Nat) (mode : ResponseMode) : Nat := 56 + 8 * length + mode.windowCells

/-- The part a cell belongs to; cell 0 is the SOF part, data cells are 1 to 48 + 8L, then come two EOD cells, the
window and six EOF cells (R8, R16). `none` past the end of the frame. -/
def partOfCell (length : Nat) (mode : ResponseMode) (cell : Nat) : Option Part :=
  if cell = 0 then some .sofPart
  else if cell ≤ 24 then some .header
  else if cell ≤ 32 then some .control
  else if cell ≤ 32 + 8 * length then some .payload
  else if cell ≤ 48 + 8 * length then some .check
  else if cell ≤ 50 + 8 * length then some .eod
  else if cell ≤ 50 + 8 * length + mode.windowCells then
    (if (cell - (51 + 8 * length)) % 17 = 0 then some .slotMark else some .response)
  else if cell ≤ lastCell length mode then some .eof
  else none

/-- The reading is a format error in this part, for a node that does not drive the cell (R19). An SOF or a BREAK breaks the
frame from the end of the SOF part on; the pulse read in the SOF part is the SOF, and a BREAK that begins there ends, and
is read, after it (DEDUCED, log entry 6). -/
def isFormatError (part : Part) (reading : Reading) : Bool :=
  match part, reading with
  | _, .stuck => false
  | _, .invalid => true
  | _, .breakPulse => true
  | .sofPart, _ => false
  | _, .sof => true
  | .header, .quiet => true
  | .control, .quiet => true
  | .payload, .quiet => true
  | .check, .quiet => true
  | .eod, .data _ => true
  | .slotMark, .data bit => bit
  | .slotMark, .quiet => true
  | .eof, .data _ => true
  | _, _ => false

/-- The outcome a reading gives an attempt in a cell the participant drives with `own`, or in a cell it does not
drive (`none`); a reading that lets the frame go on gives none. In the header a 0 read against an own 1 is LOST; every
other data bit different from the own one is a BIT_ERROR (R14, R15, R22); a quiet cell where the engine drives is a
format error (R71, R72). -/
def attemptReading (part : Part) (own : Option Bool) (reading : Reading) : Option AttemptOutcome :=
  match reading, own with
  | .stuck, _ => some .lineFault
  | .data bit, some o =>
    if bit = o then none else if part = .header ∧ o = true then some .lost else some .bitError
  | .quiet, some _ => some .formatError
  | r, _ => if isFormatError part r then some .formatError else none

/-! ## Slots (R17, R18, R25) -/

/-- The code byte of a response code (R17). -/
def ResponseCode.byte : ResponseCode → Byte
  | .ack => Config.codeAck
  | .busy => Config.codeBusy
  | .reject => Config.codeReject

/-- The sixteen bits an answer drives, code first and value second (R17). -/
def Answer.bits (a : Answer) : List Bool := lineBits a.code.byte ++ lineBits a.value

/-- A reading that may stand in a response cell: quiet or a data bit (R16, R18). -/
def Reading.isResponse : Reading → Bool
  | .quiet => true
  | .data _ => true
  | _ => false

/-- A response cell read at mid-cell: a quiet cell reads as 1 (R5, R25). -/
def Reading.midCell : Reading → Bool
  | .data bit => bit
  | _ => true

/-- The classification of a slot from its sixteen response cells (R18), with the value byte of R25; none when some
cell holds a symbol that is no response reading, which is a format error of the frame. -/
def classifySlot (cells : List Reading) : Option SlotClass :=
  if cells.any (fun r => !r.isResponse) then none
  else if cells.all (fun r => r == .quiet) then some .absent
  else
    let bits := cells.map Reading.midCell
    let code := BitVec.ofNat 8 (bitsToNat (bits.take 8))
    let value := BitVec.ofNat 8 (bitsToNat (bits.drop 8))
    if cells.any (fun r => r == .quiet) then some (.read .garbled value)
    else if code = Config.codeAck then some (.read .ack value)
    else if code = Config.codeBusy then some (.read .busy value)
    else if code = Config.codeReject then some (.read .reject value)
    else some (.read .garbled value)

/-- The response list of a window: one entry for each slot not read ABSENT, in slot order, from slot `n` on (R56). -/
def responseListFrom : Nat → List SlotClass → List ResponseEntry
  | _, [] => []
  | n, .absent :: rest => responseListFrom (n + 1) rest
  | n, .read reading value :: rest =>
    { slot := Fin.ofNat 8 n, reading := reading, value := value } :: responseListFrom (n + 1) rest

/-- How far a responder's drive goes against the cells it reads (R17): it withdraws at the first cell that does not
read as its own bit. A quiet cell read against an own bit counts as a loss (log entry 9). -/
def driveSlot : Nat → List Bool → List Reading → SlotDrive
  | _, [], _ => .complete
  | _, _, [] => .complete
  | n, own :: bits, reading :: cells =>
    if reading = .data own then driveSlot (n + 1) bits cells else .withdrawn n

end Sys2Proof.Machine
end

