-- ==== Sys2Proof/Machine/Grid.lean ====
section
/-! DEFINITION. The cell grid (R4): start windows, cell starts, the expected start of the next cell, the start of a driven
pulse, and the reading of the cells of a frame one after the other. All moments are in REFCLK cycles after the frame's SOF
edge. Pure functions; no state is changed here. -/

namespace Sys2Proof.Machine

/-! ## One cell -/

/-- The pulses of a cell that count: glitches are disregarded entirely (R3). -/
def dominantPulses (rate : RateCode) (pulses : CellPulses) : CellPulses :=
  pulses.filter (fun p => classifyPulse rate p.length != .glitch)

/-- An edge lies in the start window: from 1/4 bit before the expected start to 1/4 bit after it (R4). -/
def inStartWindow (rate : RateCode) (expected edge : Nat) : Bool :=
  4 * expected ≤ 4 * edge + rate.bitCycles && 4 * edge ≤ 4 * expected + rate.bitCycles

/-- The first dominant edge read inside the cell's start window, if there is one (R4). -/
def windowEdge (rate : RateCode) (expected : Nat) (pulses : CellPulses) : Option Nat :=
  ((dominantPulses rate pulses).map (fun p => p.edge)).find? (inStartWindow rate expected)

/-- The start of a cell: the first dominant edge in its window, or its expected start (R4). -/
def cellStart (rate : RateCode) (expected : Nat) (pulses : CellPulses) : Nat :=
  match windowEdge rate expected pulses with
  | some edge => edge
  | none => expected

/-- The expected start of the cell after this one: 3 bit times after the SOF's leading edge for the first header cell,
1 bit time after this cell's start for every other (R4). -/
def nextExpected (rate : RateCode) (number expected : Nat) (pulses : CellPulses) : Nat :=
  if number = 0 then expected + 3 * rate.bitCycles else cellStart rate expected pulses + rate.bitCycles

/-- The moment a node that drives a pulse in a cell starts it: its own expected start, or the first dominant edge it reads
in the start window where that is earlier (R4). -/
def driveStart (rate : RateCode) (expected : Nat) (pulses : CellPulses) : Nat :=
  match windowEdge rate expected pulses with
  | some edge => min expected edge
  | none => expected

/-- A driven pulse: held for its nominal length from the moment it is started (R2, R4). -/
def drivePulse (rate : RateCode) (expected : Nat) (pulses : CellPulses) (p : DrivenPulse) : LinePulse :=
  { edge := driveStart rate expected pulses, length := p.cycles rate }

/-- The reading of a cell from the pulses in it (R3, R4). No pulse but glitches is a quiet cell. An edge outside the start
window is an invalid symbol, whatever the pulse's length. A pulse that starts in the window is classified, and it is the
cell's reading, unless a second pulse makes an invalid symbol of it; one that reaches 64 bit times is a stuck line at that
moment. Such a pulse outlasts the start windows of the cells after it: that its own cell then reads stuck, and none of them
quiet before it, is the model's choice (R4, R21, R22; DESIGN CHOICE, log entry 30). -/
def readCell (rate : RateCode) (expected : Nat) (pulses : CellPulses) : Reading :=
  match dominantPulses rate pulses with
  | [] => .quiet
  | p :: rest =>
    if !inStartWindow rate expected p.edge then .invalid
    else if classifyPulse rate p.length = .stuck then .stuck
    else if rest.isEmpty then Reading.ofSymbol (classifyPulse rate p.length)
    else .invalid

/-! ## The cells of a frame in order -/

/-- One cell of a frame on the grid: its number, its expected start, and the pulses read in it. -/
structure GridCell where
  number   : Nat
  expected : Nat
  pulses   : CellPulses
  deriving DecidableEq, Repr

/-- The reading of a cell on the grid. -/
def GridCell.reading (rate : RateCode) (g : GridCell) : Reading := readCell rate g.expected g.pulses

/-- The cells read from cell `number`, expected at `expected`, on: each later cell is expected by the start of the one
before it (R4). -/
def gridOf (rate : RateCode) : Nat → Nat → CellsRead → List GridCell
  | _, _, [] => []
  | number, expected, pulses :: rest =>
    { number := number, expected := expected, pulses := pulses }
      :: gridOf rate (number + 1) (nextExpected rate number expected pulses) rest

/-- The expected start of the cell after the cells read (R4). -/
def gridEnd (rate : RateCode) : Nat → Nat → CellsRead → Nat
  | _, expected, [] => expected
  | number, expected, pulses :: rest => gridEnd rate (number + 1) (nextExpected rate number expected pulses) rest

/-- The data bit a cell reads as, if it is one of the data cells and beyond: the SOF part holds none (R8). -/
def GridCell.dataBit (rate : RateCode) (g : GridCell) : Option Bool :=
  match g.reading rate with
  | .data bit => if g.number = 0 then none else some bit
  | _ => none

/-- The data bits among the readings of cells, in line order. -/
def dataBits (rate : RateCode) (grid : List GridCell) : List Bool := grid.filterMap (GridCell.dataBit rate)

/-- The cells of a line that carries the pulses due alone, each started at its cell's expected start (R4, R83): the next
`n` cells from cell `number` on. -/
def lineOfOwnPulses (rate : RateCode) (due : Nat → Option DrivenPulse) : Nat → Nat → Nat → CellsRead
  | 0, _, _ => []
  | n + 1, number, expected =>
    let pulses : CellPulses :=
      match due number with
      | some p => [drivePulse rate expected [] p]
      | none => []
    pulses :: lineOfOwnPulses rate due n (number + 1) (nextExpected rate number expected pulses)

end Sys2Proof.Machine
end

