-- ==== Sys2Proof/Machine/Updates.lean ====
section
/-! DEFINITION. Named reads and updates of the state: one update per block, and one read and one update for each
indexed piece (a send ring, an arrival ring, a class list, a pending list, a cell). Every operation is built from
these, so that what a step leaves alone is seen from the names it uses. -/

namespace Sys2Proof.Machine

def State.updHp (f : HostPort → HostPort) (s : State) : State := { s with hp := f s.hp }
def State.updRct (f : RingTable → RingTable) (s : State) : State := { s with rct := f s.rct }
def State.updFe (f : FetchEngine → FetchEngine) (s : State) : State := { s with fe := f s.fe }
def State.updCp (f : CellPool → CellPool) (s : State) : State := { s with cp := f s.cp }
def State.updSch (f : Scheduler → Scheduler) (s : State) : State := { s with sch := f s.sch }
def State.updLe (f : LineEngine → LineEngine) (s : State) : State := { s with le := f s.le }
def State.updAu (f : AcceptanceUnit → AcceptanceUnit) (s : State) : State := { s with au := f s.au }
def State.updAw (f : ArrivalWriter → ArrivalWriter) (s : State) : State := { s with aw := f s.aw }
def State.updCw (f : CompletionWriter → CompletionWriter) (s : State) : State := { s with cw := f s.cw }
def State.updAe (f : AdminEngine → AdminEngine) (s : State) : State := { s with ae := f s.ae }

/-- The context of a send ring. -/
def State.send (s : State) (r : SendId) : SendRing := s.rct.send[r.val]

/-- Changes the context of one send ring. -/
def State.updSend (r : SendId) (f : SendRing → SendRing) (s : State) : State :=
  s.updRct (fun t => { t with send := t.send.set r.val (f t.send[r.val]) })

/-- The context of an arrival ring. -/
def State.arrival (s : State) (r : ArrivalId) : ArrivalRing := s.rct.arrival[r.val]

/-- Changes the context of one arrival ring. -/
def State.updArrival (r : ArrivalId) (f : ArrivalRing → ArrivalRing) (s : State) : State :=
  s.updRct (fun t => { t with arrival := t.arrival.set r.val (f t.arrival[r.val]) })

/-- Changes the completion ring context. -/
def State.updCompletion (f : CompletionRing → CompletionRing) (s : State) : State :=
  s.updRct (fun t => { t with completion := f t.completion })

/-- Changes the admin ring context. -/
def State.updAdmin (f : AdminRing → AdminRing) (s : State) : State :=
  s.updRct (fun t => { t with admin := f t.admin })

/-- One cell of the pool. -/
def State.cell (s : State) (id : CellId) : Cell := s.cp.cells[id.val]

/-- Replaces one cell of the pool. -/
def State.setCell (id : CellId) (c : Cell) (s : State) : State :=
  s.updCp (fun p => { p with cells := p.cells.set id.val c })

/-- Changes the fields of a transmit cell; another cell is left alone. -/
def State.updTx (id : CellId) (f : TxCell → TxCell) (s : State) : State :=
  match s.cell id with
  | .tx c => s.setCell id (.tx (f c))
  | _ => s

/-- Changes the fields of a receive cell; another cell is left alone. -/
def State.updRx (id : CellId) (f : RxCell → RxCell) (s : State) : State :=
  match s.cell id with
  | .rx c => s.setCell id (.rx (f c))
  | _ => s

/-- One class list, head first. -/
def State.classList (s : State) (c : ClassId) : List CellId := s.sch.lists[c.val]

/-- One arrival pending list, oldest first. -/
def State.arrivalPending (s : State) (r : ArrivalId) : List CellId := s.aw.pending[r.val]

/-- Replaces one arrival pending list. -/
def State.setArrivalPending (r : ArrivalId) (l : List CellId) (s : State) : State :=
  s.updAw (fun w => { w with pending := w.pending.set r.val l })

/-- One acceptance entry. -/
def State.entry (s : State) (i : Fin 32) : Entry := s.au.table[i.val]

/-- Replaces one acceptance entry. -/
def State.setEntry (i : Fin 32) (e : Entry) (s : State) : State :=
  s.updAu (fun u => { u with table := u.table.set i.val e })

/-- A saturating count raised by one (scope chapter, Conventions). -/
def satInc {w : Nat} (x : BitVec w) : BitVec w := if x = BitVec.allOnes w then x else x + 1

/-- The next ring index, modulo the ring size (scope chapter, Ring arithmetic). -/
def nextIndex (i size : Nat) : Nat := (i + 1) % size

/-- `(a − b) mod size` for two indices of one ring (scope chapter, Ring arithmetic). -/
def ringDistance (a b size : Nat) : Nat := (a + size - b) % size

/-- The address of entry `i` of a ring of entries of `bytes` bytes (R112, R129, R144, R156). -/
def entryAddress (base : Addr) (bytes i : Nat) : Addr := base + BitVec.ofNat 64 (bytes * i)

end Sys2Proof.Machine
end

