-- ==== Sys2Proof/Machine/Bus.lean ====
section
/-! DEFINITION. The bus-master port (10.5): requests that wait, the round-robin arbiter, and the transfer on the bus. -/

namespace Sys2Proof.Machine

/-- The requester after `q` in the arbiter's cyclic order FE, AE, AW, CW (R187). -/
def Requester.next : Requester → Requester
  | .fe => .ae
  | .ae => .aw
  | .aw => .cw
  | .cw => .fe

/-- The order in which a decision visits the requesters from the pointer (R187). -/
def Requester.order (q : Requester) : List Requester := [q, q.next, q.next.next, q.next.next.next]

/-- The waiting request of a requester. -/
def Waiting.get (w : Waiting) : Requester → Option Transfer
  | .fe => w.fe
  | .ae => w.ae
  | .aw => w.aw
  | .cw => w.cw

/-- Replaces the waiting request of a requester. -/
def Waiting.put (w : Waiting) (t : Option Transfer) : Requester → Waiting
  | .fe => { w with fe := t }
  | .ae => { w with ae := t }
  | .aw => { w with aw := t }
  | .cw => { w with cw := t }

/-- A block asks the host port for one transfer; the request waits until the arbiter passes it (R187). -/
def request (q : Requester) (t : Transfer) (s : State) : State :=
  s.updHp (fun h => { h with waiting := h.waiting.put (some t) q })

/-- A block asks for one read. -/
def requestRead (q : Requester) (address : Addr) (s : State) : State :=
  request q { direction := .read, address := address, bytes := [] } s

/-- A block asks for one write of the given bytes. -/
def requestWrite (q : Requester) (address : Addr) (bytes : List Byte) (s : State) : State :=
  request q { direction := .write, address := address, bytes := bytes } s

/-- Which waiting requests the arbiter may pass: all in RUNNING, reads alone in HALTED (R189), none otherwise (R190). -/
def mayPass (engine : EngineState) (t : Transfer) : Bool :=
  match engine with
  | .running => true
  | .halted => t.direction == .read
  | .reset | .loading | .resetting => false

/-- The waiting request of `q` that the arbiter may pass. -/
def passable (h : HostPort) (q : Requester) : Option Transfer :=
  match h.waiting.get q with
  | some t => if mayPass h.engine t then some t else none
  | none => none

/-- The first requester from the pointer with a request that may pass, and its request (R187). -/
def nextGrant (h : HostPort) : Option (Requester × Transfer) :=
  h.pointer.order.findSome? (fun q => (passable h q).map (fun t => (q, t)))

/-- The arbiter's decision (R187): when the port has no transfer on the bus, the first waiting request from the
pointer passes to the bus and the pointer moves to the requester after it. -/
def arbitrate (s : State) : State :=
  match s.hp.onBus with
  | some _ => s
  | none =>
    match nextGrant s.hp with
    | none => s
    | some (q, t) =>
      s.updHp (fun h =>
        { h with onBus := some (.requester q, t), waiting := h.waiting.put none q, pointer := q.next })

/-- The transfer on the bus belongs to this owner and has this direction. -/
def onBusOf (owner : BusOwner) (d : Direction) (s : State) : Bool :=
  match s.hp.onBus with
  | some (o, t) => o == owner && t.direction == d
  | none => false

/-- The bus has answered: no transfer is on it. -/
def clearBus (s : State) : State := s.updHp (fun h => { h with onBus := none })

end Sys2Proof.Machine
end

