-- ==== Sys2Proof/Machine/Flags.lean ====
section
/-! DEFINITION. The nine causes, MASK and the interrupt line (R185, R186), and what a read of each register returns
(R175 to R178, 11.9). -/

namespace Sys2Proof.Machine

/-- The nine causes (R185). -/
inductive Cause where
  | cr
  | arrival (r : ArrivalId)
  | line | overrun | indexError | halt
  deriving DecidableEq, Repr

/-- The bit of a cause in CAUSE and MASK (11.9). -/
def Cause.bit : Cause → Nat
  | .cr => 0
  | .arrival r => 1 + r.val
  | .line => 5
  | .overrun => 6
  | .indexError => 7
  | .halt => 8

/-- A block asks the host port to set a cause; a cause already set stays set (R185). -/
def setCause (c : Cause) (s : State) : State :=
  s.updHp (fun h => { h with cause := h.cause ||| BitVec.twoPow 9 c.bit })

/-- The cause is set. -/
def State.causeSet (s : State) (c : Cause) : Bool := s.hp.cause.getLsbD c.bit

/-- The interrupt line: active while at least one cause is both set and unmasked (R186), inactive while the reset pin
is asserted (R191). -/
def State.irq (s : State) : Bool := !s.hp.pinAsserted && (s.hp.cause &&& s.hp.mask) != 0

/-! ## Codes of STATUS (11.9) -/

def EngineState.code : EngineState → BitVec 3
  | .reset => 0
  | .loading => 1
  | .running => 2
  | .halted => 3
  | .resetting => 4

def HaltReason.code : HaltReason → BitVec 2
  | .noReason => 0
  | .bootRead => 1
  | .bootInvalid => 2
  | .crWrite => 3

def LineMode.code : LineMode → BitVec 2
  | .offline => 0
  | .listen => 1
  | .online => 2
  | .loopback => 3

def Phase.code : Phase → BitVec 4
  | .off => 0
  | .joining => 1
  | .idle => 2
  | .arbitrating => 3
  | .sending => 4
  | .windowOut => 5
  | .receiving => 6
  | .recovering => 7
  | .fault => 8

/-- What a read of STATUS returns (R176, 11.9): from bit 31 down, revision, receive cells in use, three reserved bits,
transmit cells in use, two reserved bits, fault, muted, phase, mode, halt reason, one reserved bit, engine state. -/
def State.statusWord (s : State) : Word :=
  Config.revision ++ BitVec.ofNat 5 s.cp.rxInUse ++ BitVec.ofNat 3 0 ++ BitVec.ofNat 5 s.cp.txInUse ++ BitVec.ofNat 2 0
    ++ BitVec.ofBool s.le.fault ++ BitVec.ofBool s.le.muted ++ s.le.phase.code ++ s.le.mode.code
    ++ s.hp.haltReason.code ++ BitVec.ofNat 1 0 ++ s.hp.engine.code

/-- What a read of CONTROL returns (R177): ENABLE from the write that started LOADING until the next reset, SOFT_RESET
while the engine is RESETTING. -/
def State.controlWord (s : State) : Word :=
  BitVec.ofNat 30 0 ++ BitVec.ofBool (s.hp.engine == .resetting) ++ BitVec.ofBool s.hp.enabled

/-- What a 32-bit read of a register returns (R175 to R178, R185, R186, R195). A read while the reset pin is asserted, when
the window is not accessible (R175, R191), answers the registers as they then stand: the guide states no value (DESIGN
CHOICE, log entry 28). -/
def State.readRegister (s : State) : Register → Word
  | .control => s.controlWord
  | .status => s.statusWord
  | .bootLo => s.hp.bootLo ++ BitVec.ofNat 6 0
  | .bootHi => s.hp.bootHi
  | .post => 0
  | .release => 0
  | .cause => s.hp.cause.setWidth 32
  | .mask => s.hp.mask.setWidth 32

/-- The bytes of a register that a narrow read returns, from byte offset `byte` on: the addressed bytes (R175). What a read
that is not aligned to its width returns is the model's choice (DESIGN CHOICE, log entry 31): a half-word read at offset 1
bytes 1 and 2, at offset 3 the top byte with a zero byte above it, a word read the whole register. -/
def State.readNarrow (s : State) (r : Register) (byte : Fin 4) : AccessWidth → Word
  | .byte => ((s.readRegister r).extractLsb' (8 * byte.val) 8).setWidth 32
  | .half => ((s.readRegister r).extractLsb' (8 * byte.val) 16).setWidth 32
  | .word => s.readRegister r

/-- The boot address: BOOT_HI, bits 31:6 of BOOT_LO, and six zero bits (R178). -/
def State.bootAddress (s : State) : Addr := s.hp.bootHi ++ s.hp.bootLo ++ BitVec.ofNat 6 0

end Sys2Proof.Machine
end

