-- ==== Sys2Proof/Machine/Records.lean ====
section
/-! DEFINITION. The byte layouts of every record (chapter 11): what the part reads from send records, admin records
and the boot block, and the bytes of what it writes. Every field of more than one byte is stored least significant
byte first (R192). -/

namespace Sys2Proof.Machine

/-! ## Byte order (R192) -/

/-- Byte `i` of a record. -/
def byteAt (r : Record) (i : Nat) : Byte := r.toList.getD i 0

/-- A two-byte field at offset `i`. -/
def half (r : Record) (i : Nat) : BitVec 16 := byteAt r (i + 1) ++ byteAt r i

/-- A four-byte field at offset `i`. -/
def word (r : Record) (i : Nat) : Word := half r (i + 2) ++ half r i

/-- An eight-byte field at offset `i`. -/
def addr (r : Record) (i : Nat) : Addr := word r (i + 4) ++ word r i

/-- The bytes at the given offsets are all 0. -/
def zeroAt (r : Record) (offsets : List Nat) : Bool := offsets.all (fun i => byteAt r i == 0)

/-- The offsets from `lo` up to, not including, `hi`. -/
def span (lo hi : Nat) : List Nat := (List.range (hi - lo)).map (lo + ·)

/-- The two bytes of a half word, least significant first. -/
def leHalf (x : BitVec 16) : List Byte := [x.extractLsb' 0 8, x.extractLsb' 8 8]

/-- The four bytes of a word, least significant first. -/
def leWord (x : Word) : List Byte :=
  [x.extractLsb' 0 8, x.extractLsb' 8 8, x.extractLsb' 16 8, x.extractLsb' 24 8]

/-- The eight bytes of an address, least significant first. -/
def leAddr (x : Addr) : List Byte := leWord (x.extractLsb' 0 32) ++ leWord (x.extractLsb' 32 32)

/-- The two bytes of a ring index or a count. -/
def leIndex (n : Nat) : List Byte := leHalf (BitVec.ofNat 16 n)

/-- A list of bytes cut or filled with 0 to `n` bytes (R194). -/
def padTo (n : Nat) (bytes : List Byte) : List Byte := bytes.take n ++ List.replicate (n - bytes.length) 0

/-- A flag as a byte: bit 0, and bits 7:1 are 0 (11.4, 11.6). -/
def boolByte (b : Bool) : Byte := if b then 1 else 0

/-- A ring size the spec admits: a power of two from 8 to 1024. -/
def sizeValid (n : Nat) : Bool := [8, 16, 32, 64, 128, 256, 512, 1024].contains n

/-! ## Send record (11.2, R121) -/

/-- The reserved bytes and bits of a send record are 0 (R121, R193). -/
def sendReservedZero (r : Record) : Bool :=
  zeroAt r (span 12 32) && (byteAt r 1).extractLsb' 6 2 == 0#2 && (byteAt r 2).extractLsb' 2 6 == 0#6
    && (byteAt r 4).extractLsb' 4 4 == 0#4 && (byteAt r 5).extractLsb' 6 2 == 0#2

/-- The response mode code of a send record. -/
def sendModeCode (r : Record) : BitVec 2 := (byteAt r 2).extractLsb' 0 2

/-- The length field of a send record. -/
def sendLength (r : Record) : Nat := ((byteAt r 5).extractLsb' 0 6).toNat

/-- The attempt budget field of a send record. -/
def sendBudget (r : Record) : BitVec 4 := (byteAt r 4).extractLsb' 0 4

/-- The deadline field of a send record, in ms. -/
def sendDeadline (r : Record) : BitVec 16 := half r 6

/-- The user tag of a send record. -/
def sendTag (r : Record) : Word := word r 8

/-- Target 0 or a group target, 240 to 255, which no SINGLE frame may have (R121). -/
def isSharedTarget (target : Byte) : Bool := target == 0 || 240 ≤ target.toNat

/-- The validation of a send record (R121). -/
def sendRecordValid (r : Record) : Bool :=
  sendReservedZero r
    && sendModeCode r != 3#2
    && sendLength r ≤ 32
    && (byteAt r 3 == 0 || sendModeCode r == 2#2)
    && !(sendModeCode r == 1#2 && isSharedTarget (byteAt r 0))

/-- The cell with the fields taken from a valid record (R120). -/
def TxCell.fromRecord (c : TxCell) (r : Record) : TxCell :=
  { c with
    target := byteAt r 0, topic := (byteAt r 1).extractLsb' 0 6,
    mode := (ResponseMode.ofCode (sendModeCode r)).getD .noWindow,
    expect := byteAt r 3, length := sendLength r,
    payload := (r.toList.drop 32).take (sendLength r), tag := sendTag r }

/-! ## Admin record (11.3, R161, R193) -/

/-- The entry form at admin record offsets 9 to 19 (11.5). -/
def entryFormAt (r : Record) : EntryForm :=
  { flags := byteAt r 9, action := byteAt r 10, ring := byteAt r 11, slot := byteAt r 12, reply := byteAt r 13,
    targetValue := byteAt r 14, targetMask := byteAt r 15, topicValue := byteAt r 16, topicMask := byteAt r 17,
    sourceValue := byteAt r 18, sourceMask := byteAt r 19 }

/-- The command tag of an admin record. -/
def adminTag (r : Record) : Word := word r 4

/-- The command of a record by its command code; none for a code other than 1 to 8 (R161). -/
def adminCommandOf (r : Record) : Option AdminCommand :=
  match (byteAt r 0).toNat with
  | 1 => some (.nodeSet
      { nodeId := byteAt r 8, rateCode := byteAt r 9, defaultBudget := byteAt r 10, yieldValue := byteAt r 11,
        txLimit := byteAt r 12, rxLimit := byteAt r 13, rxHold := byteAt r 14 })
  | 2 => some (.lineMode (byteAt r 8))
  | 3 => some (.openSend { ring := byteAt r 8, cls := byteAt r 9, size := half r 10, base := addr r 16 })
  | 4 => some (.openArrival
      { ring := byteAt r 8, count := byteAt r 9, size := half r 10, delay := byteAt r 12, base := addr r 16 })
  | 5 => some (.closeRing (byteAt r 8))
  | 6 => some (.filterWrite (byteAt r 8) (entryFormAt r))
  | 7 => some (.filterRead (byteAt r 8))
  | 8 => some (.countsRead (byteAt r 8) (addr r 16))
  | _ => none

/-- The offsets of the reserved bytes of a command's record: bytes 1 to 3, and every byte of 8 to 63 that is no
parameter of the command (11.3). -/
def adminReservedOffsets : AdminCommand → List Nat
  | .nodeSet _ => span 1 4 ++ span 15 64
  | .lineMode _ => span 1 4 ++ span 9 64
  | .openSend _ => span 1 4 ++ span 12 16 ++ span 24 64
  | .openArrival _ => span 1 4 ++ span 13 16 ++ span 24 64
  | .closeRing _ => span 1 4 ++ span 9 64
  | .filterWrite _ _ => span 1 4 ++ span 20 64
  | .filterRead _ => span 1 4 ++ span 9 64
  | .countsRead _ _ => span 1 4 ++ span 9 16 ++ span 24 64

/-- The command code (R161). -/
def adminCode : AdminCommand → Byte
  | .nodeSet _ => 1
  | .lineMode _ => 2
  | .openSend _ => 3
  | .openArrival _ => 4
  | .closeRing _ => 5
  | .filterWrite _ _ => 6
  | .filterRead _ => 7
  | .countsRead _ _ => 8

/-- The eleven bytes of an entry form (11.5). -/
def entryFormBytes (f : EntryForm) : List Byte :=
  [f.flags, f.action, f.ring, f.slot, f.reply, f.targetValue, f.targetMask, f.topicValue, f.topicMask, f.sourceValue,
    f.sourceMask]

/-- Bytes 8 to 63 of a command's record, reserved bytes 0 (11.3). -/
def adminParameterBytes : AdminCommand → List Byte
  | .nodeSet p => [p.nodeId, p.rateCode, p.defaultBudget, p.yieldValue, p.txLimit, p.rxLimit, p.rxHold]
  | .lineMode code => [code]
  | .openSend p => [p.ring, p.cls] ++ leHalf p.size ++ [0, 0, 0, 0] ++ leAddr p.base
  | .openArrival p => [p.ring, p.count] ++ leHalf p.size ++ [p.delay, 0, 0, 0] ++ leAddr p.base
  | .closeRing ring => [ring]
  | .filterWrite index form => [index] ++ entryFormBytes form
  | .filterRead index => [index]
  | .countsRead clear address => [clear, 0, 0, 0, 0, 0, 0, 0] ++ leAddr address

/-- The 64 bytes of the admin record that spells a command under a tag, with every reserved byte 0 (11.3). -/
def adminRecordBytes (tag : Word) (c : AdminCommand) : List Byte :=
  padTo 64 ([adminCode c, 0, 0, 0] ++ leWord tag ++ adminParameterBytes c)

/-- The same as a record. -/
def adminRecord (tag : Word) (c : AdminCommand) : Record :=
  Vector.ofFn (fun i => (adminRecordBytes tag c).getD i.val 0)

/-! ## Acceptance entry form (11.5) -/

/-- The code of an action (11.5). -/
def Action.code : Action → Byte
  | .accept => 0
  | .discard => 1
  | .refuse => 2

/-- The action a code names; a code above 2 names none (R170). -/
def Action.ofCode (b : Byte) : Option Action :=
  if b = 0 then some .accept else if b = 1 then some .discard else if b = 2 then some .refuse else none

/-- The entry a FILTER_WRITE form spells, hit count 0; none when a reserved flag bit is set or a field is out of range
(R170, R193). -/
def entryOfForm (f : EntryForm) : Option Entry :=
  match Action.ofCode f.action with
  | none => none
  | some action =>
    if f.flags.extractLsb' 2 6 = 0#6 ∧ f.ring.toNat < 4 ∧ f.slot.toNat < 8 ∧ f.topicValue.toNat < 64
        ∧ f.topicMask.toNat < 64 then
      some
        { valid := f.flags.getLsbD 0, targetValue := f.targetValue, targetMask := f.targetMask,
          topicValue := f.topicValue.extractLsb' 0 6, topicMask := f.topicMask.extractLsb' 0 6,
          sourceValue := f.sourceValue, sourceMask := f.sourceMask, action := action,
          ring := Fin.ofNat 4 f.ring.toNat, respond := f.flags.getLsbD 1, slot := Fin.ofNat 8 f.slot.toNat,
          reply := f.reply, hits := 0 }
    else none

/-- The form of an entry (11.5). -/
def Entry.toForm (e : Entry) : EntryForm :=
  { flags := BitVec.ofNat 6 0 ++ BitVec.ofBool e.respond ++ BitVec.ofBool e.valid, action := e.action.code,
    ring := BitVec.ofNat 8 e.ring.val, slot := BitVec.ofNat 8 e.slot.val, reply := e.reply,
    targetValue := e.targetValue, targetMask := e.targetMask, topicValue := e.topicValue.setWidth 8,
    topicMask := e.topicMask.setWidth 8, sourceValue := e.sourceValue, sourceMask := e.sourceMask }

/-- The sixteen response area bytes of a FILTER_READ result: the entry form, a reserved 0, the hit count, two reserved
0 (11.5). -/
def Entry.areaBytes (e : Entry) : List Byte := entryFormBytes e.toForm ++ [0] ++ leHalf e.hits ++ [0, 0]

/-! ## Boot block (11.7, R180) -/

/-- What the part takes from a boot block. -/
structure BootBlock where
  arBase  : Addr
  arSize  : Nat
  crBase  : Addr
  crSize  : Nat
  crCount : Nat
  crDelay : BitVec 8
  deriving DecidableEq, Repr

/-- An address is a multiple of 64. -/
def alignedTo64 (a : Addr) : Bool := a.extractLsb' 0 6 == 0#6

/-- An address is a multiple of 32. -/
def alignedTo32 (a : Addr) : Bool := a.extractLsb' 0 5 == 0#5

/-- The boot block as read; none when one of the five checks of R180 fails. The reserved bytes are not judged. -/
def bootBlockOf (r : Record) : Option BootBlock :=
  if word r 0 = Config.bootSignature ∧ sizeValid (half r 16).toNat ∧ sizeValid (half r 32).toNat
      ∧ alignedTo64 (addr r 8) ∧ alignedTo32 (addr r 24) ∧ 1 ≤ (byteAt r 34).toNat ∧ (byteAt r 34).toNat ≤ 64 then
    some
      { arBase := addr r 8, arSize := (half r 16).toNat, crBase := addr r 24, crSize := (half r 32).toNat,
        crCount := (byteAt r 34).toNat, crDelay := byteAt r 35 }
  else none

/-! ## Completion record (11.4, R148, R150) -/

/-- Status codes of send records (11.4). -/
def SendStatus.code : SendStatus → Byte
  | .ok => 0
  | .rejected => 1
  | .exhausted => 2
  | .expired => 3
  | .flushed => 4
  | .invalid => 5
  | .fetchFailed => 6

/-- The status code of a RING_FAULT notice (11.4). -/
def ringFaultCode : Byte := 7

/-- Status codes of admin results (11.4). -/
def AdminStatus.code : AdminStatus → Byte
  | .done => 16
  | .invalidField => 17
  | .wrongState => 18
  | .unknownCommand => 19
  | .limitBelowUse => 20
  | .writeFailed => 21
  | .fetchFailed => 22

/-- Last failure codes (11.4). -/
def Failure.code : Failure → Byte
  | .noFailure => 0
  | .bitError => 1
  | .formatError => 2
  | .lineFault => 3
  | .busy => 4
  | .noResponse => 5
  | .garbled => 6
  | .missing => 7

/-- Reading codes of a response list entry (R192). -/
def SlotReading.code : SlotReading → BitVec 2
  | .ack => 0
  | .busy => 1
  | .reject => 2
  | .garbled => 3

/-- The two bytes of a response list entry (11.4). -/
def ResponseEntry.bytes (e : ResponseEntry) : List Byte :=
  [BitVec.ofNat 3 0 ++ e.reading.code ++ BitVec.ofNat 3 e.slot.val, e.value]

/-- The 32 bytes of a completion record from its fields (11.4); bytes 13 to 15 and unfilled area bytes are 0 (R194). -/
def completionBytes (lapTag : Bool) (ring : Nat) (index : Nat) (status failure : Byte) (attempts lost : Byte)
    (tag : Word) (responses : Nat) (area : List Byte) : List Byte :=
  [boolByte lapTag, BitVec.ofNat 8 ring] ++ leIndex index ++ [status, failure, attempts, lost] ++ leWord tag
    ++ [BitVec.ofNat 8 responses, 0, 0, 0] ++ padTo 16 area

/-- The completion record of a transmit cell (R148). -/
def TxCell.completionRecord (c : TxCell) (status : SendStatus) (lapTag : Bool) : List Byte :=
  completionBytes lapTag (c.ring.val + 1) c.index status.code c.lastFailure.code (c.attemptsUsed.setWidth 8)
    c.lostCount c.tag c.responses.length (c.responses.flatMap ResponseEntry.bytes)

/-- The completion record of an admin result (R148): ring number 0. -/
def AdminResult.completionRecord (r : AdminResult) (lapTag : Bool) : List Byte :=
  completionBytes lapTag 0 r.index r.status.code 0 0 0 r.tag 0 r.area

/-- The completion record of a RING_FAULT notice (R148): ring number 9 to 12. -/
def FaultNotice.completionRecord (n : FaultNotice) (lapTag : Bool) : List Byte :=
  completionBytes lapTag (n.ring.val + 9) n.index ringFaultCode 0 0 0 0 0 (leIndex n.lost)

/-! ## Arrival record and counters block (11.6, 11.7) -/

/-- The 64 bytes of a cell's arrival record (R134, 11.6); byte 2 is the deciding entry. -/
def RxCell.arrivalRecord (c : RxCell) (lapTag : Bool) : List Byte :=
  [boolByte lapTag, BitVec.ofNat 8 c.ring.val, BitVec.ofNat 8 c.entry.val, BitVec.ofNat 8 c.cls.val, c.target,
    c.topic.setWidth 8, c.source, c.mode.code.setWidth 8]
    ++ (match c.answer with
        | some slot => [1, BitVec.ofNat 8 slot.val, Config.codeAck]
        | none => [0, 0, 0])
    ++ [BitVec.ofNat 8 c.length] ++ leWord c.arrivalTick ++ List.replicate 16 0
    ++ padTo 32 (c.payload.take c.length)

/-- The 32 bytes of the counters block (11.7). -/
def Counters.bytes (c : Counters) : List Byte :=
  leWord c.txSent ++ leWord c.txErrors ++ leWord c.lostArb ++ leWord c.rxAccepted ++ leWord c.rxDropped
    ++ leWord c.busyAnswered ++ leWord c.rxCheckErrors ++ leWord c.rxFormatErrors

end Sys2Proof.Machine
end

