-- ==== Sys2Proof/Machine/Operands.lean ====
section
/-! DEFINITION. The operand forms of the commands: the listed fields of a register write (R195), ring numbers
(introduction, R192), mode and rate codes, and the ranges the admin parameters are judged against (chapter 9). -/

namespace Sys2Proof.Machine

/-! ## Register writes (11.9, R195: reserved bits are ignored) -/

/-- The ring number of a POST or RELEASE write: bits 3:0. -/
def ringNumberField (value : Word) : Nat := (value.extractLsb' 0 4).toNat

/-- The index of a POST or RELEASE write: bits 25:16. -/
def indexField (value : Word) : Nat := (value.extractLsb' 16 10).toNat

/-- ENABLE of a CONTROL write: bit 0. -/
def enableField (value : Word) : Bool := value.getLsbD 0

/-- SOFT_RESET of a CONTROL write: bit 1. -/
def softResetField (value : Word) : Bool := value.getLsbD 1

/-- The nine cause bits of a CAUSE or MASK write. -/
def causeField (value : Word) : BitVec 9 := value.extractLsb' 0 9

/-! ## Ring numbers (R192) -/

/-- The rings, by ring number. -/
inductive RingName where
  | admin
  | send (r : SendId)
  | arrival (r : ArrivalId)
  | completion
  deriving DecidableEq, Repr

/-- The ring a number names: AR 0, S0 to S7 1 to 8, A0 to A3 9 to 12, CR 13; no ring above 13. -/
def RingName.ofNumber (n : Nat) : Option RingName :=
  if n = 0 then some .admin
  else if n ≤ 8 then some (.send (Fin.ofNat 8 (n - 1)))
  else if n ≤ 12 then some (.arrival (Fin.ofNat 4 (n - 9)))
  else if n = 13 then some .completion
  else none

/-- The send ring of a ring number 1 to 8. -/
def sendOfNumber (n : Nat) : Option SendId :=
  match RingName.ofNumber n with
  | some (.send r) => some r
  | _ => none

/-- The arrival ring of a ring number 9 to 12. -/
def arrivalOfNumber (n : Nat) : Option ArrivalId :=
  match RingName.ofNumber n with
  | some (.arrival r) => some r
  | _ => none

/-! ## Admin parameters (check 2 of R161) -/

/-- The line mode a code names (R165). -/
def LineMode.ofCode (b : Byte) : Option LineMode :=
  if b = 0 then some .offline else if b = 1 then some .listen else if b = 2 then some .online
  else if b = 3 then some .loopback else none

/-- The ranges of NODE_SET (R164). -/
def nodeSetInRange (p : NodeSetForm) : Bool :=
  p.nodeId.toNat ≤ 239 && p.rateCode.toNat ≤ 2 && (1 ≤ p.defaultBudget.toNat && p.defaultBudget.toNat ≤ 15)
    && p.yieldValue.toNat ≤ 15 && (4 ≤ p.txLimit.toNat && p.txLimit.toNat ≤ 28)
    && (4 ≤ p.rxLimit.toNat && p.rxLimit.toNat ≤ 28) && p.txLimit.toNat + p.rxLimit.toNat ≤ 32
    && (1 ≤ p.rxHold.toNat && p.rxHold.toNat ≤ p.rxLimit.toNat)

/-- The ranges of OPEN_SEND (R166). -/
def openSendInRange (p : OpenSendForm) : Bool :=
  (sendOfNumber p.ring.toNat).isSome && alignedTo64 p.base && sizeValid p.size.toNat && p.cls.toNat ≤ 3

/-- The ranges of OPEN_ARRIVAL (R167); the delay is a byte and always within range. -/
def openArrivalInRange (p : OpenArrivalForm) : Bool :=
  (arrivalOfNumber p.ring.toNat).isSome && alignedTo64 p.base && sizeValid p.size.toNat
    && (1 ≤ p.count.toNat && p.count.toNat ≤ 64)

/-- The ring number of CLOSE_RING names a send or an arrival ring (R168). -/
def closeRingInRange (ring : Byte) : Bool :=
  (sendOfNumber ring.toNat).isSome || (arrivalOfNumber ring.toNat).isSome

/-- Every parameter of a command is within its range (check 2 of R161; R164 to R172). -/
def adminInRange : AdminCommand → Bool
  | .nodeSet p => nodeSetInRange p
  | .lineMode code => (LineMode.ofCode code).isSome
  | .openSend p => openSendInRange p
  | .openArrival p => openArrivalInRange p
  | .closeRing ring => closeRingInRange ring
  | .filterWrite index form => index.toNat ≤ 31 && (entryOfForm form).isSome
  | .filterRead index => index.toNat ≤ 31
  | .countsRead clear address => clear.toNat ≤ 1 && alignedTo32 address

/-- The state the command requires holds (check 3 of R161; R164 to R168). -/
def adminStateHolds (s : State) : AdminCommand → Bool
  | .nodeSet _ => s.le.mode == .offline
  | .lineMode code => !(code == 2 && s.ae.nodeId == 0)
  | .openSend p =>
    match sendOfNumber p.ring.toNat with
    | some r => (s.send r).state == .closed
    | none => false
  | .openArrival p =>
    match arrivalOfNumber p.ring.toNat with
    | some r => (s.arrival r).state == .closed
    | none => false
  | .closeRing ring =>
    match RingName.ofNumber ring.toNat with
    | some (.send r) => (s.send r).state != .closed
    | some (.arrival r) => (s.arrival r).state != .closed
    | _ => false
  | .filterWrite _ _ => true
  | .filterRead _ => true
  | .countsRead _ _ => true

end Sys2Proof.Machine
end

