-- ==== Sys2Proof/Machine/Pool.lean ====
section
/-! DEFINITION. The cell pool (chapter 2): claims, frees, and the limit change. -/

namespace Sys2Proof.Machine

/-- The pool's answer to a claim (R31, R32). -/
inductive ClaimAnswer where
  | granted | halted | limit | reserve | hold
  deriving DecidableEq, Repr

/-- The pool refuses every claim with HALTED in HALTED and in RESETTING (R31, R32, R37). -/
def poolRefuses (s : State) : Bool := s.hp.engine == .halted || s.hp.engine == .resetting

/-- A transmit claim of a class is judged (R31). -/
def judgeTransmitClaim (cls : ClassId) (s : State) : ClaimAnswer :=
  if poolRefuses s then .halted
  else if s.cp.txLimit ≤ s.cp.txInUse then .limit
  else if cls ≠ 0 ∧ s.cp.txLimit ≤ s.cp.lowInUse + Config.urgentReserve then .reserve
  else .granted

/-- A receive claim is judged: solicited at RX_HOLD, unsolicited at RX_LIMIT (R32). -/
def judgeReceiveClaim (solicited : Bool) (s : State) : ClaimAnswer :=
  if poolRefuses s then .halted
  else if solicited then (if s.cp.rxHold ≤ s.cp.rxInUse then .hold else .granted)
  else (if s.cp.rxLimit ≤ s.cp.rxInUse then .limit else .granted)

/-- The cell holds neither a send record nor a received frame. -/
def Cell.isFree : Cell → Bool
  | .free => true
  | _ => false

/-- The free cell with the lowest number (R24). -/
def lowestFree (s : State) : Option CellId := (List.finRange 32).find? (fun i => (s.cell i).isFree)

/-- A fresh transmit cell (R25): every field but the claim's at its starting value. -/
def freshTx (ring : SendId) (index : Nat) (cls : ClassId) : TxCell :=
  { ring := ring, index := index, cls := cls, target := 0, topic := 0, mode := .noWindow, length := 0, payload := [],
    expect := 0, tag := 0, budget := 4, attemptsUsed := 0, lostCount := 0, deadline := none, verdict := none,
    lastFailure := .noFailure, responses := [] }

/-- A fresh receive cell (R26, R101): the header as read, an empty payload, no answer, arrival tick 0. -/
def freshRx (ring : ArrivalId) (entry : Fin 32) (h : FrameHead) : RxCell :=
  { ring := ring, entry := entry, cls := h.cls, target := h.target, topic := h.topic, source := h.source,
    mode := h.mode, length := h.length, payload := [], answer := none, arrivalTick := 0 }

/-- A granted transmit claim: the cell is filled, the counts and the ring's cells held rise by one (R24, R30). -/
def grantTx (id : CellId) (c : TxCell) (s : State) : State :=
  ((s.setCell id (.tx c)).updCp (fun p =>
      { p with txInUse := p.txInUse + 1, lowInUse := if c.cls = 0 then p.lowInUse else p.lowInUse + 1 })).updSend c.ring
    (fun r => { r with held := r.held + 1 })

/-- A granted receive claim (R24, R30). -/
def grantRx (id : CellId) (c : RxCell) (s : State) : State :=
  ((s.setCell id (.rx c)).updCp (fun p => { p with rxInUse := p.rxInUse + 1 })).updArrival c.ring
    (fun r => { r with held := r.held + 1 })

/-- A free (R35): the counts of the cell's direction and its ring's cells held fall by one, and the cell is FREE. -/
def freeCell (id : CellId) (s : State) : State :=
  match s.cell id with
  | .free => s
  | .tx c =>
    ((s.setCell id .free).updCp (fun p =>
        { p with txInUse := p.txInUse - 1, lowInUse := if c.cls = 0 then p.lowInUse else p.lowInUse - 1 })).updSend
      c.ring (fun r => { r with held := r.held - 1 })
  | .rx c =>
    ((s.setCell id .free).updCp (fun p => { p with rxInUse := p.rxInUse - 1 })).updArrival c.ring
      (fun r => { r with held := r.held - 1 })

/-- The pool takes a limit change: no new limit stands below the use it bounds (R36). -/
def limitChangeTaken (txLimit rxLimit : Nat) (s : State) : Bool :=
  s.cp.txInUse ≤ txLimit && s.cp.lowInUse + Config.urgentReserve ≤ txLimit && s.cp.rxInUse ≤ rxLimit

/-- The three limits are replaced at once (R36). -/
def setLimits (txLimit rxLimit rxHold : Nat) (s : State) : State :=
  s.updCp (fun p => { p with txLimit := txLimit, rxLimit := rxLimit, rxHold := rxHold })

/-- The notice-owed flag is set: a transmit claim was refused with LIMIT or RESERVE (R34). -/
def oweNotice (s : State) : State := s.updCp (fun p => { p with noticeOwed := true })

end Sys2Proof.Machine
end

