-- ==== Sys2Proof/Machine/Completion.lean ====
section
/-! DEFINITION. The completion pending list and the completion writer (chapter 8), and the coalescing that all produced
rings share (7.4, R153). -/

namespace Sys2Proof.Machine

/-! ## Coalescing (R137, R138, R153) -/

/-- A ring's coalescing after one more record: the unnotified count, the timer, and whether the cause is set (R137).
Reaching the coalescing count sets the cause, returns the count to 0 and stops the timer; the raise from 0 to 1 starts
the timer when the delay is above 0. -/
def coalesce (count : Nat) (delay : BitVec 8) (unnotified : Nat) (timer : Option Word) (tick : Word) :
    Nat × Option Word × Bool :=
  if count ≤ unnotified + 1 then (0, none, true)
  else if unnotified = 0 ∧ delay ≠ 0 then (1, some (tick + delay.setWidth 32), false)
  else (unnotified + 1, timer, false)

/-- A cause is set when a condition holds. -/
def setCauseIf (b : Bool) (c : Cause) (s : State) : State := if b then setCause c s else s

/-! ## The completion pending list (R146) -/

/-- An entry joins the tail of the completion pending list (R146). -/
def joinPending (e : CompletionEntry) (s : State) : State :=
  s.updCw (fun w => { w with pending := w.pending ++ [e] })

/-- The entry is an admin result. -/
def CompletionEntry.isAdmin : CompletionEntry → Bool
  | .admin _ => true
  | _ => false

/-- The admin results that stand in the completion pending list (R158). -/
def adminResultsPending (s : State) : Nat := (s.cw.pending.filter CompletionEntry.isAdmin).length

/-- A settled transmit cell joins the completion pending list with its status; its deadline is disarmed (R28, R58). -/
def completeCell (id : CellId) (status : SendStatus) (s : State) : State :=
  joinPending (.cell id status) (s.updTx id (fun c => { c with deadline := none }))

/-! ## The completion writer (R147, R148) -/

/-- The 32 bytes of the record of an entry, built when its write begins (R148). -/
def entryRecord (s : State) (e : CompletionEntry) : List Byte :=
  match e with
  | .cell id status =>
    match s.cell id with
    | .tx c => c.completionRecord status s.rct.completion.lapTag
    | _ => []
  | .admin r => r.completionRecord s.rct.completion.lapTag
  | .ringFault n => n.completionRecord s.rct.completion.lapTag

/-- CR is ready for a write, as far as the engine and CR go (R147). -/
def completionReady (s : State) : Bool :=
  let r := s.rct.completion
  s.hp.engine == .running && r.state == .opened && !r.writeInFlight
    && ringDistance r.tail r.head r.size + 1 < r.size

/-- A completion write begins with the head entry of the list (R147). -/
def beginCompletionWrite (e : CompletionEntry) (rest : List CompletionEntry) (s : State) : State :=
  let r := s.rct.completion
  requestWrite .cw (entryAddress r.base 32 r.tail) (entryRecord s e)
    ((s.updCw (fun _ => { pending := rest, inFlight := some { entry := e, index := r.tail } })).updCompletion
      (fun r => { r with writeInFlight := true }))

/-- The completion writer's write decision (R147). -/
def completionDecision (s : State) : State :=
  match s.cw.pending with
  | [] => s
  | e :: rest => if completionReady s then beginCompletionWrite e rest s else s

/-- The record just written counts for CR's notification (R153). -/
def coalesceCompletion (s : State) : State :=
  let r := s.rct.completion
  let (unnotified, timer, notify) := coalesce r.count r.delay r.unnotified r.timer s.sch.tick
  setCauseIf notify .cr
    (s.updCompletion (fun r => { r with unnotified := unnotified, timer := timer }))

/-- CR's timer expires (R153): the cause is set when records are unnotified, the count returns to 0, the timer stops. -/
def expireCompletionTimer (s : State) : State :=
  setCauseIf (0 < s.rct.completion.unnotified) .cr
    (s.updCompletion (fun r => { r with unnotified := 0, timer := none }))

/-- The tail moves past a written completion record; the lap tag flips at the wrap (R151). -/
def advanceCompletionTail (s : State) : State :=
  s.updCompletion (fun r =>
    { r with
      tail := nextIndex r.tail r.size,
      lapTag := if nextIndex r.tail r.size = 0 then !r.lapTag else r.lapTag,
      writeInFlight := false })

end Sys2Proof.Machine
end

