-- ==== Sys2Proof/Machine/AdminEngine.lean ====
section
/-! DEFINITION. The admin engine's fetch decision and the end of a command (chapter 9). -/

namespace Sys2Proof.Machine

/-- The admin engine may begin a fetch (R158). -/
def adminMayFetch (s : State) : Bool :=
  s.ae.phase == .idle && s.hp.engine == .running && s.rct.admin.state == .opened && !s.rct.admin.fetchInFlight
    && 0 < ringDistance s.rct.admin.tail s.rct.admin.head s.rct.admin.size
    && adminResultsPending s < Config.adminResultCap

/-- The admin engine's fetch decision (R158). -/
def adminDecision (s : State) : State :=
  if adminMayFetch s then
    requestRead .ae (entryAddress s.rct.admin.base 64 s.rct.admin.head)
      ((s.updAe (fun a => { a with phase := .fetching })).updAdmin (fun r => { r with fetchInFlight := true }))
  else s

/-- The admin engine has no command and waits for nothing (R162). -/
def idleAdmin (s : State) : State :=
  s.updAe (fun a => { a with phase := .idle, current := none, awaited := .nothing })

/-- A command ends (R162): its result joins the completion pending list with the command's tag and AR index, and the
admin engine becomes IDLE. The fetch decision of the event is taken at the event's end. -/
def endCommand (status : AdminStatus) (area : List Byte) (s : State) : State :=
  match s.ae.current with
  | none => s
  | some c =>
    idleAdmin (joinPending (.admin { status := status, tag := c.tag, index := c.index, area := area }) s)

/-- The command in execution now waits for an event (R157). -/
def awaitEvent (a : Awaited) (s : State) : State := s.updAe (fun e => { e with phase := .executing, awaited := a })

/-- A CLOSE_RING in execution ends DONE with its ring (R169); the data is the discard count for an arrival ring. -/
def endCloseRing (area : List Byte) (s : State) : State :=
  if s.ae.awaited = .ringClosed then endCommand .done area s else s

/-- A LINE_MODE in execution ends DONE with the line engine's report (R85, R165). -/
def reportMode (s : State) : State :=
  if s.ae.awaited = .modeReport then endCommand .done [] s else s

end Sys2Proof.Machine
end

