-- ==== Sys2Proof/Machine/Scheduler.lean ====
section
/-! DEFINITION. The scheduler (chapter 3): class lists, verdicts and their departures, the offer, the settlement of
attempt outcomes, deadlines, and the flush of a send ring. -/

namespace Sys2Proof.Machine

/-! ## Passed-over counts (R43) -/

/-- The passed-over count of a class; class 0 has none and counts 0 (R38). -/
def PassedOver.get (p : PassedOver) (c : ClassId) : BitVec 4 :=
  match c with
  | 0 => 0
  | 1 => p.class1
  | 2 => p.class2
  | 3 => p.class3

/-- Replaces the passed-over count of a class from 1 to 3. -/
def PassedOver.put (p : PassedOver) (v : BitVec 4) (c : ClassId) : PassedOver :=
  match c with
  | 0 => p
  | 1 => { p with class1 := v }
  | 2 => { p with class2 := v }
  | 3 => { p with class3 := v }

/-- Replaces a class list; when it becomes empty the class's passed-over count returns to 0 (R43). -/
def setClassList (c : ClassId) (l : List CellId) (s : State) : State :=
  s.updSch (fun h =>
    { h with
      lists := h.lists.set c.val l,
      passed := if l = [] ∧ h.lists[c.val] ≠ [] then h.passed.put 0 c else h.passed })

/-- A class's count after the win of an attempt of class `won` (R43): classes waiting behind it are raised, its own
count returns to 0. -/
def countAfterWin (won c : ClassId) (waiting : Bool) (count : BitVec 4) : BitVec 4 :=
  if c = won then 0 else if won < c ∧ waiting then satInc count else count

/-- The win report (R43). -/
def winReport (won : ClassId) (s : State) : State :=
  s.updSch (fun h =>
    { h with passed :=
      { class1 := countAfterWin won 1 (h.lists[1] != []) h.passed.class1,
        class2 := countAfterWin won 2 (h.lists[2] != []) h.passed.class2,
        class3 := countAfterWin won 3 (h.lists[3] != []) h.passed.class3 } })

/-- A cell joins the tail of a class list (R39, R42). -/
def joinTail (c : ClassId) (id : CellId) (s : State) : State := setClassList c (s.classList c ++ [id]) s

/-- A cell joins the head of a class list (R39, R48, R54). -/
def joinHead (c : ClassId) (id : CellId) (s : State) : State := setClassList c (id :: s.classList c) s

/-! ## Verdicts (R40, R41) -/

/-- The verdict after a new one is set: FLUSH replaces INVALID, otherwise the verdict held stays (R41). -/
def markVerdict (held : Option Verdict) (v : Verdict) : Option Verdict :=
  match held with
  | none => some v
  | some .invalid => if v = .flush then some .flush else some .invalid
  | some h => some h

/-- A verdict is set on a transmit cell. -/
def setVerdict (v : Verdict) (id : CellId) (s : State) : State :=
  s.updTx id (fun c => { c with verdict := markVerdict c.verdict v })

/-- The completion status a verdict gives (R41). -/
def Verdict.status : Verdict → SendStatus
  | .invalid => .invalid
  | .fetchFailed => .fetchFailed
  | .expired => .expired
  | .flush => .flushed

/-- The cell is a transmit cell of the send ring. -/
def isOfRing (s : State) (ring : SendId) (id : CellId) : Bool :=
  match s.cell id with
  | .tx c => c.ring == ring
  | _ => false

/-- The verdict a cell carries. -/
def verdictOf (s : State) (id : CellId) : Option Verdict :=
  match s.cell id with
  | .tx c => c.verdict
  | _ => none

/-- The offer slot holds a cell of the ring. -/
def offeredOfRing (s : State) (ring : SendId) : Bool :=
  match s.le.slot with
  | some id => isOfRing s ring id
  | none => false

/-- The cells of one ring that leave a class list together, in list order, and the list they leave (R40): from the
ring's first cell on, each that carries a verdict, up to the first that carries none. -/
def splitDeparting (ofRing : CellId → Bool) (verdict : CellId → Option Verdict) :
    List CellId → List (CellId × Verdict) × List CellId
  | [] => ([], [])
  | id :: rest =>
    if ofRing id then
      match verdict id with
      | some v =>
        let (out, stay) := splitDeparting ofRing verdict rest
        ((id, v) :: out, stay)
      | none => ([], id :: rest)
    else
      let (out, stay) := splitDeparting ofRing verdict rest
      (out, id :: stay)

/-- The marked cells of a ring that are ring-oldest leave their class list for the completion pending list, one after
another in the same event (R40). A cell of the ring in the offer slot holds them back. -/
def verdictDepartures (ring : SendId) (s : State) : State :=
  if offeredOfRing s ring then s
  else
    let c := (s.send ring).cls
    let (out, stay) := splitDeparting (isOfRing s ring) (verdictOf s) (s.classList c)
    out.foldl (fun s p => completeCell p.1 p.2.status s) (setClassList c stay s)

/-! ## The offer (R45 to R48) -/

/-- The line engine is ready for an offer (R45, R65). -/
def lineReady (s : State) : Bool :=
  s.le.phase == .idle && ((s.le.mode == .online && !s.le.muted) || s.le.mode == .loopback)

/-- The class whose head an offer decision takes (R46): the most urgent non-empty class from 1 to 3 whose count has
reached YIELD, when YIELD is above 0; otherwise the most urgent non-empty class. -/
def chooseClass (s : State) : Option ClassId :=
  let waiting := fun c => s.classList c != []
  let held := fun c => s.ae.yieldValue != 0 && waiting c && s.ae.yieldValue ≤ s.sch.passed.get c
  match ([1, 2, 3] : List ClassId).find? held with
  | some c => some c
  | none => ([0, 1, 2, 3] : List ClassId).find? waiting

/-- A cell is offered: it leaves its class list for the offer slot, its SOF not reported (R46). -/
def offerHead (c : ClassId) (s : State) : State :=
  match s.classList c with
  | [] => s
  | id :: rest =>
    ((setClassList c rest s).updLe (fun l => { l with slot := some id })).updSch
      (fun h => { h with sofReported := false })

/-- The offer decision (R45, R46): taken when the engine is RUNNING, the slot is empty, the line engine is ready and
some class list is non-empty. -/
def offerDecision (s : State) : State :=
  if s.hp.engine = .running ∧ s.le.slot = none ∧ lineReady s = true then
    match chooseClass s with
    | some c => offerHead c s
    | none => s
  else s

/-- The offer slot is emptied (R68). -/
def emptySlot (s : State) : State := s.updLe (fun l => { l with slot := none })

/-- An offered cell whose SOF has not been reported is withdrawn on a mode change (R48): it joins the head of its
class list, and a marked one passes on as ring-oldest. -/
def withdrawOffer (s : State) : State :=
  match s.le.slot with
  | none => s
  | some id =>
    if s.sch.sofReported then s
    else
      match s.cell id with
      | .tx c => verdictDepartures c.ring (joinHead c.cls id (emptySlot s))
      | _ => s

/-! ## Attempt outcomes (R49 to R56) -/

/-- The result an outcome gives a cell (R49). -/
inductive AttemptResult where
  | final (status : SendStatus)
  | failure (reason : Failure)
  | lost
  deriving DecidableEq, Repr

/-- The classification of slot `k` of a window; a slot not in the window reads ABSENT. -/
def slotAt (slots : List SlotClass) (k : Nat) : SlotClass := slots.getD k .absent

/-- The result of a SENT_CLEAN SINGLE frame, by slot 0 (R52). -/
def judgeSingle : SlotClass → AttemptResult
  | .read .ack _ => .final .ok
  | .read .reject _ => .final .rejected
  | .read .busy _ => .failure .busy
  | .read .garbled _ => .failure .garbled
  | .absent => .failure .noResponse

/-- The slot reads as named. -/
def SlotClass.reads (reading : SlotReading) : SlotClass → Bool
  | .read r _ => r == reading
  | .absent => false

/-- The slots of an expect mask: bit k stands for slot k (R53, R192). -/
def maskSlots (mask : BitVec 8) : List Nat := (List.range 8).filter mask.getLsbD

/-- The result of a SENT_CLEAN ROLL frame against the expect mask (R53). -/
def judgeRoll (mask : BitVec 8) (slots : List SlotClass) : AttemptResult :=
  if mask = 0 then .final .ok
  else if (maskSlots mask).any (fun k => (slotAt slots k).reads .reject) then .final .rejected
  else if (maskSlots mask).all (fun k => (slotAt slots k).reads .ack) then .final .ok
  else .failure .missing

/-- The result of a SENT_CLEAN outcome, by the frame's mode (R52, R53). -/
def judgeClean (c : TxCell) (slots : List SlotClass) : AttemptResult :=
  match c.mode with
  | .noWindow => .final .ok
  | .single => judgeSingle (slotAt slots 0)
  | .roll => judgeRoll c.expect slots

/-- The result of an outcome (R50 to R53). -/
def attemptResult (c : TxCell) : AttemptOutcome → AttemptResult
  | .lost => .lost
  | .bitError => .failure .bitError
  | .formatError => .failure .formatError
  | .lineFault => .failure .lineFault
  | .sentClean slots => judgeClean c slots

/-- The last failure after a result: a failure sets it, other results leave it (R50 to R53). -/
def failureAfter (old : Failure) : AttemptResult → Failure
  | .failure reason => reason
  | _ => old

/-- The cell's counts, last failure and response list after an outcome (R50 to R53, R56). The attempts used stay at 15, the
most their four bits hold, where the guide gives no saturation (DESIGN CHOICE, log entry 29). -/
def countOutcome (c : TxCell) (o : AttemptOutcome) : TxCell :=
  match o with
  | .lost => { c with lostCount := satInc c.lostCount }
  | .sentClean slots =>
    { c with attemptsUsed := satInc c.attemptsUsed, lastFailure := failureAfter c.lastFailure (judgeClean c slots),
             responses := responseListFrom 0 slots }
  | .bitError | .formatError | .lineFault =>
    { c with attemptsUsed := satInc c.attemptsUsed, lastFailure := failureAfter c.lastFailure (attemptResult c o) }

/-- Where a cell goes after its attempt: the completion pending list with a status, or back to its class list. -/
inductive Settlement where
  | complete (status : SendStatus)
  | retry
  deriving DecidableEq, Repr

/-- The status of a failure or a LOST under a verdict (R55). -/
def verdictSettlement (v : Verdict) (exhausted : Bool) : SendStatus :=
  if v = .flush then .flushed else if exhausted then .exhausted else v.status

/-- The settlement of a result, by the cell's verdict and budget; `c` is the cell after `countOutcome` (R54, R55). -/
def settlement (c : TxCell) (r : AttemptResult) : Settlement :=
  match r with
  | .final status => .complete status
  | .lost =>
    match c.verdict with
    | none => .retry
    | some v => .complete (verdictSettlement v false)
  | .failure _ =>
    match c.verdict with
    | none => if c.attemptsUsed < c.budget then .retry else .complete .exhausted
    | some v => .complete (verdictSettlement v (!(decide (c.attemptsUsed < c.budget))))

/-- The scheduler settles the cell of an attempt that has ended (R49); the offer slot is already empty. When the cell
joins the completion pending list, the marked cells of its ring may follow it (R40). -/
def settleAttempt (id : CellId) (o : AttemptOutcome) (s : State) : State :=
  match s.cell id with
  | .tx c =>
    let counted := countOutcome c o
    let s := s.setCell id (.tx counted)
    match settlement counted (attemptResult c o) with
    | .retry => joinHead c.cls id s
    | .complete status => verdictDepartures c.ring (completeCell id status s)
  | _ => s

/-! ## Deadlines (R58, R59) -/

/-- The deadline tick a record's deadline arms: absent for 0, the tick plus d otherwise (R58). -/
def armDeadline (tick : Word) (d : BitVec 16) : Option Word := if d = 0 then none else some (tick + d.setWidth 32)

/-- The cell stands in its class list. -/
def isQueued (s : State) (id : CellId) (c : TxCell) : Bool := (s.classList c.cls).contains id

/-- A cell's deadline expires (R59), by its place and marks. -/
def expireCell (id : CellId) (c : TxCell) (s : State) : State :=
  if s.le.slot = some id then
    if s.sch.sofReported then setVerdict .expired id s
    else
      verdictDepartures c.ring
        (completeCell id (match c.verdict with | some v => v.status | none => .expired) (emptySlot s))
  else if isQueued s id c ∧ c.verdict = none then verdictDepartures c.ring (setVerdict .expired id s)
  else s

/-! ## The flush of a send ring (R61) -/

/-- The scheduler's flush of a send ring: FLUSH is set on every queued cell of the ring in list order and on the
offered cell if it belongs to the ring, and the ring-oldest ones leave (R61). -/
def flushRing (ring : SendId) (s : State) : State :=
  let queued := (s.classList (s.send ring).cls).filter (isOfRing s ring)
  let offered := s.le.slot.toList.filter (isOfRing s ring)
  verdictDepartures ring ((queued ++ offered).foldl (fun s id => setVerdict .flush id s) s)

/-- A DRAINING send ring whose cells held is 0 becomes CLOSED, and its CLOSE_RING ends DONE (R126). -/
def closeIfDrainedSend (ring : SendId) (s : State) : State :=
  if (s.send ring).state = .draining ∧ (s.send ring).held = 0 then
    endCloseRing [] (s.updSend ring (fun r => { r with state := .closed }))
  else s

end Sys2Proof.Machine
end

