-- ==== Sys2Proof/Machine/Fetching.lean ====
section
/-! DEFINITION. The fetch engine (chapter 6): fetch decisions, the beginning and the end of a fetch, room notices. -/

namespace Sys2Proof.Machine

/-- A send ring is eligible for a fetch (R117). -/
def fetchEligible (s : State) (r : SendId) : Bool :=
  (s.send r).state == .opened && !(s.send r).fetchInFlight
    && 0 < ringDistance (s.send r).tail (s.send r).head (s.send r).size

/-- The rings in the order a decision visits them from the pointer (R118). -/
def fetchOrder (pointer : SendId) : List SendId := (List.finRange 8).map (pointer + ·)

/-- The waiting flag of the fetch engine (R116). -/
def setFetchWaiting (b : Bool) (s : State) : State := s.updFe (fun f => { f with waiting := b })

/-- The fetch of a ring begins with a granted cell (R118, R119): the cell is FETCHING, the flags are set, the pointer
moves to the ring after it, and one read of 64 bytes is requested. -/
def beginFetch (r : SendId) (id : CellId) (s : State) : State :=
  let ring := s.send r
  requestRead .fe (entryAddress ring.base 64 ring.head)
    (((grantTx id (freshTx r ring.head ring.cls) s).updFe (fun _ =>
        { pointer := r + 1, inFlight := some { ring := r, index := ring.head, cell := id }, waiting := false })).updSend
      r (fun c => { c with fetchInFlight := true }))

/-- A fetch decision over the rings still to visit; `reserved` tells whether a claim was refused with RESERVE (R118).
A granted claim finds a free cell by R30; with none left the claim would be refused as at the limit. -/
def fetchVisit : List SendId → Bool → State → State
  | [], reserved, s => setFetchWaiting reserved s
  | r :: rest, reserved, s =>
    if fetchEligible s r then
      match judgeTransmitClaim (s.send r).cls s with
      | .granted =>
        match lowestFree s with
        | some id => beginFetch r id s
        | none => setFetchWaiting true (oweNotice s)
      | .reserve => fetchVisit rest true (oweNotice s)
      | .limit | .hold => setFetchWaiting true (oweNotice s)
      | .halted => setFetchWaiting false s
    else fetchVisit rest reserved s

/-- The fetch engine's fetch decision, taken when the engine is RUNNING and no fetch is in flight (R117, R118). -/
def fetchDecision (s : State) : State :=
  if s.hp.engine = .running ∧ s.fe.inFlight = none then fetchVisit (fetchOrder s.fe.pointer) false s else s

/-- A room notice, when one is owed (R34): the flag is cleared and the fetch engine takes a decision. -/
def roomNotice (s : State) : State :=
  if s.cp.noticeOwed then fetchDecision (s.updCp (fun p => { p with noticeOwed := false })) else s

/-- The verdict a fetch end decides (R120): by the ring's state, the end of the read, and the validation. -/
def fetchVerdict (ring : RingState) (result : ReadEnd) : Option Verdict :=
  if ring = .draining then some .flush
  else
    match result with
    | .busError => some .fetchFailed
    | .data r => if sendRecordValid r then none else some .invalid

/-- The cell filled at its fetch end (R120, R42): all fields for a valid record, with the budget and the deadline the
scheduler sets; the user tag alone for a record that was read but not taken; nothing for a failed read. -/
def filledCell (c : TxCell) (verdict : Option Verdict) (result : ReadEnd) (defaultBudget : BitVec 4) (tick : Word) :
    TxCell :=
  match result, verdict with
  | .data r, none =>
    { c.fromRecord r with
      budget := if sendBudget r = 0 then defaultBudget else sendBudget r,
      deadline := armDeadline tick (sendDeadline r) }
  | .data r, some v => { c with tag := sendTag r, verdict := some v }
  | .busError, v => { c with verdict := v }

/-- The ring after a fetch end (R120, R122): the head has moved, the flag is cleared, and a failed read on a ring that
is not DRAINING faults it. -/
def fetchedRing (r : SendRing) (result : ReadEnd) : SendRing :=
  { r with
    head := nextIndex r.head r.size, fetchInFlight := false,
    state := if result = .busError ∧ r.state ≠ .draining then .faulted else r.state }

/-- The fetch end (R120): the five steps, but for the arbiter's decision of the event. -/
def takeFetchEnd (result : ReadEnd) (s : State) : State :=
  match s.fe.inFlight with
  | none => s
  | some f =>
    let verdict := fetchVerdict (s.send f.ring).state result
    let cls := (s.send f.ring).cls
    let s := (s.updSend f.ring (fun r => fetchedRing r result)).updFe (fun e => { e with inFlight := none })
    let s := s.updTx f.cell (fun c => filledCell c verdict result s.ae.defaultBudget s.sch.tick)
    fetchDecision (verdictDepartures f.ring (joinTail cls f.cell s))

end Sys2Proof.Machine
end

