-- ==== Sys2Proof/Machine/Arrival.lean ====
section
/-! DEFINITION. The arrival writer (chapter 7): pending lists, write decisions, write ends, coalescing, discards, faults
and closes. -/

namespace Sys2Proof.Machine

/-- The unnotified records of a ring are notified, if there are any; the count returns to 0 and the timer stops
(R138, R139, R141). -/
def notifyArrival (r : ArrivalId) (s : State) : State :=
  setCauseIf (0 < (s.arrival r).unnotified) (.arrival r)
    (s.updArrival r (fun c => { c with unnotified := 0, timer := none }))

/-- A DRAINING arrival ring whose cells held is 0 becomes CLOSED (R141): its last records are notified, and its
CLOSE_RING ends DONE with the discard count. -/
def closeIfDrainedArrival (r : ArrivalId) (s : State) : State :=
  if (s.arrival r).state = .draining ∧ (s.arrival r).held = 0 then
    endCloseRing (leHalf (s.arrival r).discards)
      (notifyArrival r (s.updArrival r (fun c => { c with state := .closed })))
  else s

/-- A cell of the ring is discarded (R132): the discard count rises by one and the cell is freed. -/
def discardCell (r : ArrivalId) (id : CellId) (s : State) : State :=
  freeCell id (s.updArrival r (fun c => { c with discards := satInc c.discards }))

/-- Every cell of the ring's pending list is discarded (R139, R140). -/
def discardPending (r : ArrivalId) (s : State) : State :=
  (s.arrivalPending r).foldl (fun s id => discardCell r id s) (s.setArrivalPending r [])

/-- Some arrival ring has its write-in-flight flag set (R133). -/
def arrivalWriting (s : State) : Bool := (List.finRange 4).any (fun r => (s.arrival r).writeInFlight)

/-- A ring is ready for a write (R133). -/
def arrivalReady (s : State) (r : ArrivalId) : Bool :=
  (s.arrival r).state == .opened && s.arrivalPending r != [] && !arrivalWriting s
    && ringDistance (s.arrival r).tail (s.arrival r).head (s.arrival r).size + 1 < (s.arrival r).size

/-- The rings in the order a decision visits them from the pointer (R133). -/
def arrivalOrder (pointer : ArrivalId) : List ArrivalId := (List.finRange 4).map (pointer + ·)

/-- The 64 bytes of the arrival record of a cell, built when its write begins (R134). -/
def arrivalRecordOf (s : State) (r : ArrivalId) (id : CellId) : List Byte :=
  match s.cell id with
  | .rx c => c.arrivalRecord (s.arrival r).lapTag
  | _ => []

/-- The write of a ring's head pending cell begins (R134). -/
def beginArrivalWrite (r : ArrivalId) (s : State) : State :=
  match s.arrivalPending r with
  | [] => s
  | id :: rest =>
    let ring := s.arrival r
    requestWrite .aw (entryAddress ring.base 64 ring.tail) (arrivalRecordOf s r id)
      (((s.setArrivalPending r rest).updAw (fun w =>
          { w with pointer := r + 1, inFlight := some { cell := id, ring := r, index := ring.tail } })).updArrival r
        (fun c => { c with writeInFlight := true }))

/-- The arrival writer's write decision (R133). -/
def arrivalDecision (s : State) : State :=
  if s.hp.engine = .running ∧ s.aw.inFlight = none then
    match (arrivalOrder s.aw.pointer).find? (arrivalReady s) with
    | some r => beginArrivalWrite r s
    | none => s
  else s

/-- A record delivered to a ring counts for its notification (R137). -/
def coalesceArrival (r : ArrivalId) (s : State) : State :=
  let c := s.arrival r
  let (unnotified, timer, notify) := coalesce c.count c.delay c.unnotified c.timer s.sch.tick
  setCauseIf notify (.arrival r) (s.updArrival r (fun c => { c with unnotified := unnotified, timer := timer }))

/-- The tail moves past a written record and the lap tag flips at the wrap (R135). -/
def advanceArrivalTail (r : ArrivalId) (s : State) : State :=
  s.updArrival r (fun c =>
    { c with
      tail := nextIndex c.tail c.size,
      lapTag := if nextIndex c.tail c.size = 0 then !c.lapTag else c.lapTag })

/-- The write in flight and the ring's flag are cleared (R135, R139, R140). -/
def clearArrivalWrite (r : ArrivalId) (s : State) : State :=
  (s.updAw (fun w => { w with inFlight := none })).updArrival r (fun c => { c with writeInFlight := false })

/-- An arrival write has ended without error (R135, R140): the record is delivered and counted, the cell is freed; a
DRAINING ring that held only this cell becomes CLOSED, with the record just delivered among those it notifies. -/
def arrivalDelivered (w : ArrivalWrite) (s : State) : State :=
  closeIfDrainedArrival w.ring
    (coalesceArrival w.ring (freeCell w.cell (clearArrivalWrite w.ring (advanceArrivalTail w.ring s))))

/-- An arrival write has ended with a host-bus error on a ring that is not DRAINING (R139): the ring faults, the cell
of the write and every pending cell are lost, the records delivered before are notified, and a notice joins the
completion pending list. -/
def arrivalFaulted (w : ArrivalWrite) (s : State) : State :=
  let lost := 1 + (s.arrivalPending w.ring).length
  let s := clearArrivalWrite w.ring (s.updArrival w.ring (fun c => { c with state := .faulted }))
  joinPending (.ringFault { ring := w.ring, index := w.index, lost := lost })
    (notifyArrival w.ring (discardPending w.ring (discardCell w.ring w.cell s)))

/-- An arrival write has ended with a host-bus error on a DRAINING ring (R140): the cell is discarded, nothing else. -/
def arrivalLostDraining (w : ArrivalWrite) (s : State) : State :=
  closeIfDrainedArrival w.ring (discardCell w.ring w.cell (clearArrivalWrite w.ring s))

/-- The end of an arrival write (R135, R139, R140), and the write decision that follows. -/
def takeArrivalEnd (result : WriteEnd) (s : State) : State :=
  match s.aw.inFlight with
  | none => s
  | some w =>
    arrivalDecision
      (match result with
       | .written => arrivalDelivered w s
       | .busError =>
         if (s.arrival w.ring).state = .draining then arrivalLostDraining w s else arrivalFaulted w s)

/-- A committed cell joins its ring's pending list (R102, R132); on an OPEN ring it waits and a write decision is
taken, on any other it is discarded in the same event. -/
def commitToRing (r : ArrivalId) (id : CellId) (s : State) : State :=
  if (s.arrival r).state = .opened then
    arrivalDecision (s.setArrivalPending r (s.arrivalPending r ++ [id]))
  else closeIfDrainedArrival r (discardCell r id s)

end Sys2Proof.Machine
end

