-- ==== Sys2Proof/Machine/Reception.lean ====
section
/-! DEFINITION. The acceptance unit (chapter 5): matching, the decision at the header end, commit and cancellation at
the check end, abandonment, and the reception counters. -/

namespace Sys2Proof.Machine

/-! ## Counters (R87) -/

/-- Changes the counter store. -/
def updCounters (f : Counters → Counters) (s : State) : State := s.updLe (fun l => { l with counters := f l.counters })

def countRxAccepted (s : State) : State := updCounters (fun c => { c with rxAccepted := satInc c.rxAccepted }) s
def countRxDropped (s : State) : State := updCounters (fun c => { c with rxDropped := satInc c.rxDropped }) s
def countBusyAnswered (s : State) : State := updCounters (fun c => { c with busyAnswered := satInc c.busyAnswered }) s
def countCheckError (s : State) : State := updCounters (fun c => { c with rxCheckErrors := satInc c.rxCheckErrors }) s
def countFormatError (s : State) : State := updCounters (fun c => { c with rxFormatErrors := satInc c.rxFormatErrors }) s

/-! ## Matching (R92, R93) -/

/-- A field matches when it equals the entry's value in every bit set in the mask (R92). -/
def maskedEq {w : Nat} (field value mask : BitVec w) : Bool := (field &&& mask) == (value &&& mask)

/-- An entry matches a frame when it is valid and its three fields match (R92). -/
def Entry.matchesHead (e : Entry) (h : FrameHead) : Bool :=
  e.valid && maskedEq h.target e.targetValue e.targetMask && maskedEq h.topic e.topicValue e.topicMask
    && maskedEq h.source e.sourceValue e.sourceMask

/-- The entry that decides a frame: the first that matches, in index order (R93). -/
def decidingEntry (s : State) (h : FrameHead) : Option (Fin 32) :=
  (List.finRange 32).find? (fun i => (s.entry i).matchesHead h)

/-- The effective action of an entry: an ACCEPT whose arrival ring is not OPEN becomes DISCARD (R96). -/
def effectiveAction (s : State) (e : Entry) : Action :=
  if e.action = .accept ∧ (s.arrival e.ring).state ≠ .opened then .discard else e.action

/-- The frame may be answered by this entry: its mode has a window, respond is on, and the answer-allowed flag of the
call is set (R97, R99). -/
def answerable (e : Entry) (h : FrameHead) (allowed : Bool) : Bool := h.mode != .noWindow && e.respond && allowed

/-- The answer an entry plans: slot 0 for SINGLE, the entry's slot for ROLL, the entry's reply value (R100). -/
def plannedAnswer (e : Entry) (h : FrameHead) (code : ResponseCode) : Answer :=
  { slot := if h.mode = .single then 0 else e.slot, code := code, value := e.reply }

/-! ## The header end (R94 to R101) -/

/-- The reception record is created (R94), and the line engine holds the planned answer of the frame (R74). -/
def beginReception (r : Reception) (s : State) : State :=
  (s.updAu (fun u => { u with reception := some r })).updLe
    (fun l => { l with frame := l.frame.map (fun f => { f with answer := r.answer }) })

/-- A reception that decides nothing: the frame is exempt or unmatched (R93, R95). -/
def silentReception : Reception :=
  { entry := none, action := none, solicited := false, cell := none, answer := none, check := none }

/-- The deciding entry's hit count rises by one, saturating (R93). -/
def countHit (i : Fin 32) (s : State) : State := s.setEntry i { s.entry i with hits := satInc (s.entry i).hits }

/-- The decision for an effective ACCEPT (R98): a receive claim, and what follows from its answer. A granted claim
finds a free cell by R30. -/
def acceptFrame (i : Fin 32) (e : Entry) (h : FrameHead) (solicited : Bool) (s : State) : State :=
  let base : Reception :=
    { entry := some i, action := some .accept, solicited := solicited, cell := none, answer := none, check := none }
  match judgeReceiveClaim solicited s with
  | .granted =>
    match lowestFree s with
    | some id =>
      beginReception
        { base with cell := some id, answer := if solicited then some (plannedAnswer e h .ack) else none }
        (grantRx id (freshRx e.ring i h) s)
    | none => beginReception base s
  | .hold => beginReception { base with answer := some (plannedAnswer e h .busy) } s
  | .limit => beginReception base (setCause .overrun (countRxDropped s))
  | .reserve | .halted => beginReception base s

/-- The decision for an effective REFUSE (R99): REJECT is planned when the frame may be answered; in HALTED no new
answer is planned (R110). -/
def refuseFrame (i : Fin 32) (e : Entry) (h : FrameHead) (solicited : Bool) (s : State) : State :=
  beginReception
    { entry := some i, action := some .refuse, solicited := solicited, cell := none,
      answer := if solicited ∧ s.hp.engine ≠ .halted then some (plannedAnswer e h .reject) else none, check := none } s

/-- The decision by the entry that matches first (R93, R96 to R99). -/
def decideFrame (i : Fin 32) (h : FrameHead) (allowed : Bool) (s : State) : State :=
  let e := s.entry i
  let solicited := answerable e h allowed
  let s := countHit i s
  match effectiveAction s e with
  | .accept => acceptFrame i e h solicited s
  | .refuse => refuseFrame i e h solicited s
  | .discard =>
    beginReception
      { entry := some i, action := some .discard, solicited := solicited, cell := none, answer := none, check := none } s

/-- The header-end call (R74): own frames are exempt in LISTEN and ONLINE (R95); the first matching entry decides. -/
def headerCall (h : FrameHead) (own allowed : Bool) (s : State) : State :=
  if own ∧ (s.le.mode = .listen ∨ s.le.mode = .online) then beginReception silentReception s
  else
    match decidingEntry s h with
    | some i => decideFrame i h allowed s
    | none => beginReception silentReception s

/-! ## The check end (R102 to R104) -/

/-- The reception after its check end, and the answer the line engine then holds (R75, R102 to R104). -/
def settleReception (check : Bool) (answer : Option Answer) (r : Reception) (s : State) : State :=
  beginReception { r with check := some check, cell := none, answer := answer } s

/-- The slot an ACK is confirmed in, for the cell's answer field (R102). -/
def confirmedSlot (a : Option Answer) : Option Slot :=
  match a with
  | some a => if a.code = .ack then some a.slot else none
  | none => none

/-- The commit of a stored frame at its good check (R102). -/
def commitReception (r : Reception) (id : CellId) (payload : List Byte) (s : State) : State :=
  match s.cell id with
  | .rx c =>
    commitToRing c.ring id
      (countRxAccepted
        ((settleReception true r.answer r s).setCell id
          (.rx { c with payload := payload, arrivalTick := s.sch.tick, answer := confirmedSlot r.answer })))
  | _ => settleReception true r.answer r s

/-- A good check of a frame that holds no cell (R103): a planned answer is confirmed; a BUSY is counted. -/
def confirmAnswer (r : Reception) (s : State) : State :=
  let s := settleReception true r.answer r s
  match r.answer with
  | some a => if a.code = .busy then countBusyAnswered s else s
  | none => s

/-- The cell of a reception is freed, and a DRAINING ring that held only this cell becomes CLOSED (R104, R105, R141). -/
def dropReceptionCell (id : CellId) (s : State) : State :=
  match s.cell id with
  | .rx c => closeIfDrainedArrival c.ring (freeCell id s)
  | _ => s

/-- A bad check (R104): the planned answer is cancelled, and a held cell is freed and counted. -/
def cancelReception (r : Reception) (s : State) : State :=
  match r.cell with
  | some id => dropReceptionCell id (countCheckError (settleReception false none r s))
  | none => settleReception false none r s

/-- The check-end report (R75): commit, confirmation or cancellation. -/
def checkCall (good : Bool) (payload : List Byte) (s : State) : State :=
  match s.au.reception with
  | none => s
  | some r =>
    if good then
      match r.cell with
      | some id => commitReception r id payload s
      | none => confirmAnswer r s
    else cancelReception r s

/-! ## The frame end and the abandonment (R105) -/

/-- The reception record is cleared. -/
def clearReception (s : State) : State := s.updAu (fun u => { u with reception := none })

/-- The abandonment report (R105): a cell still held, which is so before the check end alone, is freed and counted; the
record is cleared. -/
def abandonReception (s : State) : State :=
  match s.au.reception with
  | none => s
  | some r =>
    match r.cell with
    | some id => dropReceptionCell id (countFormatError (clearReception s))
    | none => clearReception s

end Sys2Proof.Machine
end

