-- ==== Sys2Proof/Machine/LineEngine.lean ====
section
/-! DEFINITION. The line engine (chapter 4): boundary phases and mode changes, attempts, the frame in progress, stuck
lines. -/

namespace Sys2Proof.Machine

/-! ## Phases (R65) -/

/-- The boundary phases, in which a mode change is taken at once (R65). -/
def Phase.isBoundary : Phase → Bool
  | .off | .joining | .idle | .recovering | .fault => true
  | .arbitrating | .sending | .windowOut | .receiving => false

/-- The phases of an attempt: the engine is a participant (R65). -/
def Phase.isAttempt : Phase → Bool
  | .arbitrating | .sending | .windowOut => true
  | .off | .joining | .idle | .receiving | .recovering | .fault => false

/-- The phases in which the engine decodes the line outside a frame and measures its quiet run; IDLE alone takes a frame start
(R65, R20, R66, R80). -/
def Phase.isBetweenFrames : Phase → Bool
  | .joining | .idle | .recovering | .fault => true
  | .off | .arbitrating | .sending | .windowOut | .receiving => false

def setPhase (p : Phase) (s : State) : State := s.updLe (fun l => { l with phase := p })

/-- The quiet run as the line engine measures it at a line event (R6). -/
def measureQuiet (cycles : Nat) (s : State) : State := s.updLe (fun l => { l with quietRun := cycles })

/-- A pulse on the line that begins no frame: the quiet run is 0 while it lasts and starts again from 0 at its end (R6, R7,
R20, R66, R80). In LOOPBACK the internal line is quiet between frames (R83). -/
def restartQuiet (s : State) : State :=
  if s.le.phase.isBetweenFrames ∧ s.le.mode ≠ .loopback then measureQuiet 0 s else s

/-- The fault flag is cleared, with a LINE cause if it was set (R80, R86, R89). -/
def clearFault (s : State) : State :=
  if s.le.fault then setCause .line (s.updLe (fun l => { l with fault := false })) else s

/-- The engine goes to OFF: TXD is released, nothing is decoded, no frame is followed (R86, R89). -/
def goOff (s : State) : State :=
  clearFault (s.updLe (fun l => { l with phase := .off, txd := .released, frame := none }))

/-- The engine leaves JOINING for IDLE when its quiet run stands at 8 bit times or more, with the LINE cause (R66). -/
def joinIfQuiet (s : State) : State :=
  if quietAtLeast8 s.ae.rate s.le.quietRun then setCause .line (setPhase .idle s) else s

/-! ## Mode changes (R85, R86) -/

/-- The phase effect of taking a mode, by the mode in effect before (R86, R66, R83). -/
def applyMode (old new : LineMode) (s : State) : State :=
  if new = old then s
  else
    match new with
    | .offline => goOff s
    | .loopback =>
      setCause .line
        (setPhase .idle (measureQuiet (8 * s.ae.rate.bitCycles) (clearFault s)))
    | .listen | .online =>
      if old = .offline ∨ old = .loopback then setPhase .joining (measureQuiet 0 s)
      else if s.le.phase = .fault then s
      else joinIfQuiet (setPhase .joining s)

/-- The engine takes a mode (R85): the pending mode, the run and the muted flag are cleared, R86 applies, an offered
cell whose SOF has not been reported is withdrawn on a change out of ONLINE or LOOPBACK (R48), and the admin engine
hears that the mode is in effect. A withdrawn cell that passes on (R40) joins the completion pending list before the
LINE_MODE's DONE: R146 leaves the order open (DESIGN CHOICE, log entry 27). -/
def takeMode (m : LineMode) (s : State) : State :=
  let old := s.le.mode
  let s := applyMode old m
    (s.updLe (fun l => { l with mode := m, pendingMode := none, errorRun := 0, muted := false }))
  reportMode (if (old = .online ∨ old = .loopback) ∧ m ≠ old then withdrawOffer s else s)

/-- What the engine does at a boundary phase: in HALTED it goes to OFF (R89); in RUNNING it takes a pending mode (R85). -/
def atBoundary (s : State) : State :=
  if s.le.phase.isBoundary then
    match s.hp.engine with
    | .halted => goOff s
    | .running =>
      match s.le.pendingMode with
      | some m => takeMode m s
      | none => s
    | .reset | .loading | .resetting => s
  else s

/-- The admin engine hands a mode over (R85, R165). -/
def requestMode (m : LineMode) (s : State) : State := atBoundary (s.updLe (fun l => { l with pendingMode := some m }))

/-! ## The frame in progress (R63, R69) -/

/-- The header and control the engine drives for a cell (R69). -/
def drivenHead (c : TxCell) (nodeId : Byte) : FrameHead :=
  { cls := c.cls, target := c.target, topic := c.topic, source := nodeId, mode := c.mode, length := c.length }

/-- A frame at its SOF edge: cell 0 is read next, and the moments of its grid count from its leading edge (R4, R7). -/
def newFrame (role : Role) : Frame :=
  { role := role, kept := [], head := none, checkRegister := Config.checkStart, point := .start, answer := none,
    answerAllowed := false, slots := [], slotDrive := .pending, cell := 0, expected := 0, driven := [] }

/-- The transmit cell in the offer slot. -/
def offeredCell (s : State) : Option TxCell :=
  match s.le.slot with
  | some id =>
    match s.cell id with
    | .tx c => some c
    | _ => none
  | none => none

/-- The answer-allowed flag of a header-end call (R74). -/
def answerAllowed (s : State) : Bool := (s.le.mode == .online && !s.le.muted) || s.le.mode == .loopback

/-- The drive an originator has in hand: on TXD in ONLINE alone (R64, R83). -/
def originatorDrive (s : State) : Drive := if s.le.mode = .online then .driving else .released

/-- The engine may begin an attempt: the slot holds a transmit cell, the engine is ready and RUNNING (R69). -/
def mayStart (s : State) : Bool := (offeredCell s).isSome && lineReady s && s.hp.engine == .running

/-- The engine may begin an attempt at an SOF edge of the given moment. At the edge of an expiry taken first the slot counts
as empty (R60, R69), and a cell offered in the expiry's own event waits there (DEDUCED, log entry 26). -/
def mayStartAt (moment : SofMoment) (s : State) : Bool := moment == .plain && mayStart s

/-- An attempt begins at the SOF edge (R69): the SOF is reported, the phase becomes ARBITRATING, the role is
originator; while the SOF pulse is on the line the quiet run is 0 (R6). -/
def startAttempt (s : State) : State :=
  (s.updLe (fun l =>
      { l with phase := .arbitrating, frame := some (newFrame .originator), quietRun := 0,
               txd := originatorDrive s })).updSch
    (fun h => { h with sofReported := true })

/-- An SOF that is not joined starts a frame followed as a receiver (R67). -/
def startReceiving (s : State) : State :=
  s.updLe (fun l => { l with phase := .receiving, frame := some (newFrame .receiver), quietRun := 0 })

/-- Another node's SOF edge: in IDLE joined when an attempt may begin at it and the quiet run stands at 7 3/4 bit times or
more (R13, R69), followed as a receiver otherwise (R67), as at the edge of an expiry that has emptied the slot (R60). In
JOINING, RECOVERING and FAULT it starts no frame, and the quiet run starts again (R20, R66, R80). In LOOPBACK RXD is not
decoded (R83). -/
def sofEdge (moment : SofMoment) (quiet : Nat) (s : State) : State :=
  if s.le.phase = .idle ∧ s.le.mode ≠ .loopback then
    if mayStartAt moment s ∧ quietAllowsJoin s.ae.rate quiet then startAttempt s else startReceiving s
  else restartQuiet s

/-! ## Attempt ends (R73, R81, R82) -/

/-- The outcome is a line error: it raises TX_ERRORS and the consecutive-error run (R73, R81). -/
def AttemptOutcome.isLineError : AttemptOutcome → Bool
  | .bitError | .formatError | .lineFault => true
  | .lost | .sentClean _ => false

/-- The phase an outcome calls for (R73). After a bit or format error it is RECOVERING, whatever the quiet run stands at: its end is
RECOVERY_END's (R78; DESIGN CHOICE, log entry 34). -/
def AttemptOutcome.phaseAfter : AttemptOutcome → Phase
  | .sentClean _ => .idle
  | .lost => .receiving
  | .bitError | .formatError => .recovering
  | .lineFault => .fault

/-- The consecutive-error run after an outcome (R81). -/
def runAfter (run : Nat) : AttemptOutcome → Nat
  | .sentClean _ => 0
  | .lost => run
  | .bitError | .formatError | .lineFault => min (run + 1) Config.muteThreshold

/-- The counters after an outcome (R73, R87). -/
def countersAfter (c : Counters) : AttemptOutcome → Counters
  | .sentClean _ => { c with txSent := satInc c.txSent }
  | .lost => { c with lostArb := satInc c.lostArb }
  | .bitError | .formatError | .lineFault => { c with txErrors := satInc c.txErrors }

/-- A raise that brings the run to 16 mutes: the muted flag is set with the LINE cause (R81, R82). -/
def muteIfDue (o : AttemptOutcome) (s : State) : State :=
  if o.isLineError ∧ s.le.errorRun = Config.muteThreshold then
    setCause .line (s.updLe (fun l => { l with muted := true }))
  else s

/-- The frame after an attempt end: a LOST attempt leaves a receiver that keeps the header bits read so far, the cell grid
and what it has driven (R70); every other outcome leaves no frame. -/
def frameAfter (o : AttemptOutcome) (f : Frame) : Option Frame :=
  match o with
  | .lost =>
    some { newFrame .receiver with kept := f.kept, cell := f.cell, expected := f.expected, driven := f.driven }
  | _ => none

/-- The line engine's part of an attempt end (R73): the slot is emptied, counters, run and phase follow the outcome,
TXD is released; `rest` is the frame the engine goes on following, if there is one. -/
def leaveAttempt (o : AttemptOutcome) (rest : Option Frame) (s : State) : State :=
  muteIfDue o
    (s.updLe (fun l =>
      { l with slot := none, counters := countersAfter l.counters o, errorRun := runAfter l.errorRun o,
               phase := o.phaseAfter, frame := rest, txd := .released }))

/-- An attempt ends with its outcome (R73), and the scheduler settles the cell (R49). Unless the outcome is LOST the
engine also leaves the frame, and the reception of the own frame is reported abandoned or ended (R105). -/
def endAttempt (o : AttemptOutcome) (rest : Option Frame) (s : State) : State :=
  match s.le.slot with
  | none => s
  | some id =>
    let s := leaveAttempt o rest s
    settleAttempt id o (if o = .lost then s else abandonReception s)

/-! ## Stuck line (R79) -/

/-- The engine enters FAULT (R79), from any phase but OFF, and takes what waits at a boundary phase. In LOOPBACK the
external line is not seen, and a period that goes on in FAULT gives nothing new (R80). A settled cell joins the completion
pending list before the result of a LINE_MODE taken in the same event: R146 leaves the order open (DESIGN CHOICE, log
entry 27). -/
def enterFault (s : State) : State :=
  if s.le.phase = .off ∨ s.le.mode = .loopback then s
  else if s.le.phase = .fault then measureQuiet 0 s
  else
    let s := if s.le.phase.isAttempt then endAttempt .lineFault none s else s
    let s := if s.le.phase = .receiving then abandonReception s else s
    atBoundary
      (setCause .line
        (s.updLe (fun l =>
          { l with phase := .fault, fault := true, frame := none, txd := .released, quietRun := 0 })))

/-! ## Cells of the frame in progress (R8, R63) -/

/-- The length and the response mode of the frame in progress, once its control byte is known. -/
def frameShape (f : Frame) : Nat × ResponseMode :=
  match f.head with
  | some h => (h.length, h.mode)
  | none => (0, .noWindow)

/-- The first cell of slot `k`'s seventeen (R16). -/
def slotStart (length k : Nat) : Nat := 51 + 8 * length + 17 * k

/-- The cell is one that ends while the engine stands where it does: in the phase, and past the points of R23 it has
reached but not past the next one. -/
def cellIsDue (phase : Phase) (f : Frame) (cell : Nat) : Bool :=
  let (length, mode) := frameShape f
  match phase, f.point with
  | .arbitrating, .start => cell ≤ 24
  | .sending, .start => 25 ≤ cell && cell ≤ 32
  | .sending, .headerEnd => 33 ≤ cell && cell ≤ 48 + 8 * length
  | .sending, .checkEnd => 49 + 8 * length ≤ cell && (cell ≤ 50 + 8 * length || mode == .noWindow)
  | .windowOut, .checkEnd => 51 + 8 * length ≤ cell && cell < slotStart length 1
  | .windowOut, .slot k =>
    if k.val + 1 < mode.slotCount then slotStart length (k.val + 1) ≤ cell && cell < slotStart length (k.val + 2)
    else slotStart length mode.slotCount ≤ cell
  | .receiving, .start => cell ≤ 32
  | .receiving, .headerEnd => 33 ≤ cell && cell ≤ 48 + 8 * length
  | .receiving, .checkEnd => 49 + 8 * length ≤ cell
  | .receiving, .slot _ => 51 + 8 * length ≤ cell
  | _, _ => false

/-- The part a cell of the frame belongs to (R8). -/
def Frame.partOf (f : Frame) (cell : Nat) : Option Part := partOfCell (frameShape f).1 (frameShape f).2 cell

/-- The first response cell of a slot, after its mark (R16). -/
def firstResponse (length : Nat) (slot : Slot) : Nat := slotStart length slot.val + 1

/-- The bits this node drives in the data cells of the frame, cell 1 first: its own image as originator (R69). -/
def drivenImage (f : Frame) (s : State) : List Bool :=
  match f.role, offeredCell s with
  | .originator, some c => imageBits (drivenHead c s.ae.nodeId).bits c.payload
  | _, _ => []

/-- The bit the originator drives in a cell: its image in the data cells, and data 0 in a slot mark (R15, R16). -/
def ownBit (f : Frame) (image : List Bool) (part : Part) (cell : Nat) : Option Bool :=
  match part with
  | .header | .control | .payload | .check => image[cell - 1]?
  | .slotMark => if f.role = .originator then some false else none
  | .sofPart | .eod | .response | .eof => none

/-- The bit of this node's answer in a cell, while its drive in the slot goes on (R17, R76). -/
def answerBit (f : Frame) (drive : SlotDrive) (cell : Nat) : Option Bool :=
  match f.answer with
  | none => none
  | some a =>
    let first := firstResponse (frameShape f).1 a.slot
    if f.answerAllowed = true ∧ first ≤ cell then
      match drive with
      | .withdrawn lost => if cell ≤ first + lost then a.bits[cell - first]? else none
      | .pending | .complete => a.bits[cell - first]?
    else none

/-- The pulse this node drives in a cell of the frame: as originator the SOF, its data and the slot marks, as responder
its answer; nothing elsewhere (R15, R16, R64, R76). -/
def pulseIn (f : Frame) (image : List Bool) (drive : SlotDrive) (cell : Nat) : Option DrivenPulse :=
  match f.partOf cell with
  | some .sofPart => if f.role = .originator then some .sof else none
  | some .slotMark => if f.role = .originator then some .slotMark else none
  | some .header | some .control | some .payload | some .check => (image[cell - 1]?).map DrivenPulse.ofBit
  | some .response => (answerBit f drive cell).map DrivenPulse.ofBit
  | some .eod | some .eof | none => none

/-- The line the engine decodes up to a cell of the frame: RXD as read, or in LOOPBACK the internal line, which carries
this node's own pulses alone, whatever RXD shows (R1, R83). -/
def decodedLine (f : Frame) (last : Nat) (cells : CellsRead) (s : State) : CellsRead :=
  if s.le.mode = .loopback then
    lineOfOwnPulses s.ae.rate (pulseIn f (drivenImage f s) f.slotDrive) (last + 1 - f.cell) f.cell f.expected
  else cells

/-- The cells read, on the frame's grid (R4). -/
def Frame.grid (f : Frame) (line : CellsRead) (s : State) : List GridCell := gridOf s.ae.rate f.cell f.expected line

/-- What the reading of one cell makes of the frame: for a participant the outcome it fixes, if it ends the attempt (R22,
R70 to R72), for a receiver FORMAT_ERROR where it breaks the frame (R19). In LOOPBACK the engine drives every pulse it
reads, and no reading breaks a frame (R83). -/
def cellOutcome (f : Frame) (s : State) (g : GridCell) : Option AttemptOutcome :=
  if s.le.mode = .loopback then none
  else
    match f.partOf g.number with
    | none => none
    | some part => attemptReading part (ownBit f (drivenImage f s) part g.number) (g.reading s.ae.rate)

/-- The cell belongs to the frame, and its reading lets the frame go on. -/
def goesOn (f : Frame) (s : State) (g : GridCell) : Bool := (f.partOf g.number).isSome && cellOutcome f s g == none

/-- The cells read reach the end of cell `last`, each of them letting the frame go on. -/
def reaches (f : Frame) (last : Nat) (line : CellsRead) (s : State) : Bool :=
  f.cell + line.length == last + 1 && (f.grid line s).all (goesOn f s)

/-- The fate of this node's drive in its slot, once the cells read cover the slot (R17, R76). -/
def slotDriveAfter (f : Frame) (line : CellsRead) (s : State) : SlotDrive :=
  match f.answer with
  | none => f.slotDrive
  | some a =>
    let first := firstResponse (frameShape f).1 a.slot
    if f.answerAllowed = true ∧ f.cell ≤ first ∧ first + 16 ≤ f.cell + line.length then
      driveSlot 0 a.bits ((((f.grid line s).drop (first - f.cell)).take 16).map (GridCell.reading s.ae.rate))
    else f.slotDrive

/-- The pulses this node has driven in the cells read, each started by the rule of R4. -/
def pulsesDriven (f : Frame) (line : CellsRead) (s : State) : List LinePulse :=
  (f.grid line s).filterMap (fun g =>
    (pulseIn f (drivenImage f s) (slotDriveAfter f line s) g.number).map (drivePulse s.ae.rate g.expected g.pulses))

/-- The frame after the cells read: the grid goes on from the start of the last one (R4), and what this node drove in
them is known. -/
def followCells (f : Frame) (line : CellsRead) (s : State) : Frame :=
  { f with
    cell := f.cell + line.length, expected := gridEnd s.ae.rate f.cell f.expected line,
    slotDrive := slotDriveAfter f line s, driven := f.driven ++ pulsesDriven f line s }

/-- The header and control bits kept of a frame with those of the cells read (R63, R70). -/
def keptBits (f : Frame) (line : CellsRead) (s : State) : List Bool := f.kept ++ dataBits s.ae.rate (f.grid line s)

/-! ## Attempt ends and abandonment at a cell (R73, R77) -/

/-- The outcome the last cell read gives the attempt in progress, when every cell before it lets the frame go on (R22, R70
to R72). The last EOF cell ending quiet gives SENT_CLEAN. -/
def attemptOutcomeAt (f : Frame) (line : CellsRead) (s : State) : Option AttemptOutcome :=
  match (f.grid line s).getLast? with
  | none => none
  | some g =>
    if cellIsDue s.le.phase f g.number && (f.grid line s).dropLast.all (goesOn f s) then
      if g.number = lastCell (frameShape f).1 (frameShape f).2 ∧ g.reading s.ae.rate = .quiet then
        some (.sentClean f.slots)
      else cellOutcome f s g
    else none

/-- An attempt ends at the reading of a cell (R73); LINE_FAULT is the entry into FAULT (R79). The settled cell joins the
completion pending list before the result of a LINE_MODE taken in the same event: R146 leaves the order open (DESIGN
CHOICE, log entry 27). -/
def attemptEndAt (cells : CellsRead) (quiet : Nat) (s : State) : State :=
  match s.le.frame with
  | none => s
  | some f =>
    let line := decodedLine f (lastCell (frameShape f).1 (frameShape f).2) cells s
    match attemptOutcomeAt f line s with
    | none => s
    | some .lineFault => enterFault s
    | some o =>
      atBoundary
        (endAttempt o (frameAfter o { followCells f line s with kept := keptBits f line s }) (measureQuiet quiet s))

/-- The 32 header and control bits of a frame, cell 1 first, as one number (R8). -/
def headBits (f : Frame) (line : CellsRead) (s : State) : BitVec 32 := BitVec.ofNat 32 (bitsToNat (keptBits f line s))

/-- A receiver abandons the frame at the last cell read, when every cell before it lets the frame go on: a reading that R19
names, or the end of cell 32 with an illegal control byte (R10, R77). -/
def abandons (f : Frame) (cells : CellsRead) (s : State) : Bool :=
  match (f.grid cells s).getLast? with
  | none => false
  | some g =>
    cellIsDue s.le.phase f g.number && (f.grid cells s).dropLast.all (goesOn f s)
      && (cellOutcome f s g == some .formatError
        || (g.number == 32 && goesOn f s g && FrameHead.ofBits (headBits f cells s) == none))

/-- A receiver abandons the frame (R77): the abandonment is reported, and the phase becomes RECOVERING. The quiet run may
stand at 6 bit times or more already, as at a quiet slot mark after ABSENT slots: R78 does not say whether RECOVERING then
ends in this event, and the model stays there until RECOVERY_END comes (DESIGN CHOICE, log entry 34). -/
def abandonFrame (quiet : Nat) (s : State) : State :=
  atBoundary
    ((abandonReception s).updLe (fun l => { l with phase := .recovering, frame := none, txd := .released, quietRun := quiet }))

/-- The frame a receiver follows ends (R77): the frame end is reported, and the phase becomes IDLE. -/
def endFrame (quiet : Nat) (s : State) : State :=
  atBoundary
    ((clearReception s).updLe (fun l => { l with phase := .idle, frame := none, txd := .released, quietRun := quiet }))

/-! ## Points of the frame (R23, R74 to R76) -/

/-- The slot that begins after a point of the frame, if the window has one there (R16, R23). -/
def nextSlot (f : Frame) : Option Nat :=
  match f.point with
  | .checkEnd => if 0 < (frameShape f).2.slotCount then some 0 else none
  | .slot k => if k.val + 1 < (frameShape f).2.slotCount then some (k.val + 1) else none
  | .start | .headerEnd => none

/-- The slot this node answers in is the one that begins next (R76). -/
def answersNext (f : Frame) : Bool :=
  match f.answer with
  | some a => f.answerAllowed && nextSlot f == some a.slot.val
  | none => false

/-- A receiver's TXD: it drives its answer in the answer's slot, in ONLINE alone and not while muted (R1, R64, R76). -/
def responderDrive (l : LineEngine) : Drive :=
  match l.frame with
  | some f =>
    if l.phase = .receiving ∧ l.mode = .online ∧ l.muted = false ∧ answersNext f = true then .driving else .released
  | none => .released

/-- TXD after a point at which an answer may fall due; an originator drives nothing there. -/
def takeUpAnswer (s : State) : State := s.updLe (fun l => { l with txd := responderDrive l })

/-- The header end (R74): the check register has run over header and control, and the acceptance unit is called. -/
def reachHeaderEnd (f : Frame) (bits : BitVec 32) (h : FrameHead) (s : State) : State :=
  headerCall h (f.role = .originator) (answerAllowed s)
    (s.updLe (fun l =>
      { l with
        frame := some
          { f with kept := lineBits bits, head := some h, point := .headerEnd, answerAllowed := answerAllowed s,
                   checkRegister := runCheck f.checkRegister (lineBits bits) } }))

/-- The payload of the frame as read: the first 8L of the data bits of cells 33 to 48 + 8L (R75). -/
def payloadRead (f : Frame) (line : CellsRead) (s : State) : List Byte :=
  bytesOfBits (frameShape f).1 (dataBits s.ae.rate (f.grid line s))

/-- The check of the frame as read: the sixteen data bits after the payload (R8, R12). -/
def checkRead (f : Frame) (line : CellsRead) (s : State) : BitVec 16 :=
  BitVec.ofNat 16 (bitsToNat ((dataBits s.ae.rate (f.grid line s)).drop (8 * (frameShape f).1)))

/-- The check end (R75, R12): the register has run over the payload and the result is reported; an originator has driven
its last data cell, and a responder takes up its answer when its slot comes next. -/
def reachCheckEnd (f : Frame) (payload : List Byte) (check : BitVec 16) (s : State) : State :=
  let register := runCheck f.checkRegister (payloadBits payload)
  takeUpAnswer
    (checkCall (register == check) payload
      (s.updLe (fun l =>
        { l with frame := some { f with point := .checkEnd, checkRegister := register }, txd := .released })))

/-- A slot a receiver reads: one of the window, after the check end and after every slot reached before (R23, log entry
22). -/
def isLaterSlot (f : Frame) (mode : ResponseMode) (slot : Slot) : Bool :=
  slot.val < mode.slotCount &&
    (match f.point with
     | .checkEnd => true
     | .slot k => k.val < slot.val
     | .start | .headerEnd => false)

/-- The readings of a slot's sixteen response cells: the last of the cells read up to the slot's end (R72, R84). -/
def slotReadings (f : Frame) (line : CellsRead) (s : State) : List Reading :=
  ((f.grid line s).drop (line.length - 16)).map (GridCell.reading s.ae.rate)

/-- The originator's slot end (R72): the classification is kept; the next slot's mark is driven, if there is one. -/
def originatorSlotEnd (f : Frame) (slot : Slot) (mode : ResponseMode) (readings : List Reading) (s : State) : State :=
  match classifySlot readings with
  | none => s
  | some c =>
    s.updLe (fun l =>
      { l with
        frame := some { f with point := .slot slot, slots := f.slots ++ [c] },
        txd := if slot.val + 1 < mode.slotCount then originatorDrive s else .released })

/-- A receiver's slot end (R17, R76): as responder it has driven its answer in its slot, as listener nothing. -/
def receiverSlotEnd (f : Frame) (slot : Slot) (s : State) : State :=
  takeUpAnswer (s.updLe (fun l => { l with frame := some { f with point := .slot slot } }))

end Sys2Proof.Machine
end

