-- ==== Sys2Proof/Machine/Ops.lean ====
section
/-! DEFINITION. The operations that concern the whole part: the end of an event, the ends of transfers, HALTED, RUNNING,
the two resets, and the administrative commands. -/

namespace Sys2Proof.Machine

/-! ## The end of an event -/

/-- The decisions at the end of an event but for the offer's: the completion writer (R147), the admin engine, which also
hears of an admin result leaving the list (R158), and last the arbiter, which sees every request the event made (R187). -/
def concludeWithoutOffer (s : State) : State := arbitrate (adminDecision (completionDecision s))

/-- The decisions at the end of an event, in one order for every event: the offer (R45), then the others. -/
def conclude (s : State) : State := concludeWithoutOffer (offerDecision s)

/-- The end of an attempt's event. When a flush (R61) or the cell's expiry (R60) is taken next at the same moment, a cell that
has rejoined its class list is still QUEUED there: the offer decision is then the one at the end of that event (log entry
33). -/
def concludeAttempt (moment : EndMoment) (s : State) : State :=
  match moment with
  | .plain => conclude s
  | .beforeNext => concludeWithoutOffer s

/-! ## Engine states (10.2) -/

/-- The entry into RUNNING (R181): AR and CR are opened from the boot block, and the tick starts from 0. The blocks'
decisions begin nothing in that event. -/
def enterRunning (b : BootBlock) (s : State) : State :=
  let s := s.updHp (fun h => { h with engine := .running })
  let s := s.updAdmin (fun r => { r with state := .opened, base := b.arBase, size := b.arSize, head := 0, tail := 0 })
  let s := s.updCompletion (fun r =>
    { r with state := .opened, base := b.crBase, size := b.crSize, count := b.crCount, delay := b.crDelay, head := 0,
             tail := 0, lapTag := true, unnotified := 0, timer := none })
  arrivalDecision (s.updSch (fun h => { h with tick := 0, tickRunning := true }))

/-- The entry into HALTED (R182): engine state, halt reason and HALT cause; the tick stops (R57); the line engine goes
to OFF at once from a boundary phase (R89). -/
def enterHalted (reason : HaltReason) (s : State) : State :=
  let s := setCause .halt (s.updHp (fun h => { h with engine := .halted, haltReason := reason }))
  atBoundary (s.updSch (fun h => { h with tickRunning := false }))

/-- Every block takes its reset values at the end of a soft reset; the boot address is kept (R175, R190). -/
def softResetState (s : State) : State :=
  { State.reset with
    hp := { Reset.hostPort with bootLo := s.hp.bootLo, bootHi := s.hp.bootHi }, pending := s.pending }

/-- The line engine stops in the event that enters RESETTING: TXD released, phase OFF, nothing decoded (R90). -/
def stopLine (s : State) : State := s.updLe (fun l => { l with phase := .off, txd := .released, frame := none })

/-- A soft reset begins (R190): every block stops, the waiting requests are dropped; RESET is reached in the same event
when no transfer is on the bus. -/
def beginSoftReset (s : State) : State :=
  let s := (stopLine s).updSch (fun h => { h with tickRunning := false })
  let s := s.updHp (fun h =>
    { h with engine := .resetting, haltReason := .noReason,
             waiting := { fe := none, ae := none, aw := none, cw := none } })
  if s.hp.onBus = none then softResetState s else s

/-- The register window takes writes: not while the reset pin is asserted (R191), not while RESETTING (R175). -/
def windowOpen (s : State) : Bool := !s.hp.pinAsserted && s.hp.engine != .resetting

/-! ## Ends of transfers (R187 to R190) -/

/-- The end of a transfer: when the owner's transfer of this direction is on the bus, the bus is free, the owner takes
its end by its own rule, and the event concludes; during RESETTING the end is not reported and RESET is reached (R190).
Otherwise no such event arises. -/
def transferEnd (owner : BusOwner) (d : Direction) (take : State → State) (s : State) : State :=
  if onBusOf owner d s then
    (if s.hp.engine = .resetting then softResetState s else conclude (take (clearBus s)))
  else s

/-! ## Completion write end (R151, R154) -/

/-- What frees the entry of a written record: a transmit cell returns to the pool, with a room notice when one is owed,
and its DRAINING send ring may become CLOSED (R35, R34, R126). An admin result or a notice is done with. -/
def releaseEntry (e : CompletionEntry) (s : State) : State :=
  match e with
  | .cell id _ =>
    match s.cell id with
    | .tx c => closeIfDrainedSend c.ring (roomNotice (freeCell id s))
    | _ => s
  | .admin _ => s
  | .ringFault _ => s

/-- A completion write has ended without error (R151). -/
def completionWritten (w : CompletionWrite) (s : State) : State :=
  coalesceCompletion
    (releaseEntry w.entry ((advanceCompletionTail s).updCw (fun c => { c with inFlight := none })))

/-- The end of a completion write (R151, R154). A failed write halts a RUNNING engine and leaves the entry in flight; in
HALTED the halt reason stays. -/
def takeCompletionEnd (result : WriteEnd) (s : State) : State :=
  match s.cw.inFlight with
  | none => s
  | some w =>
    match result with
    | .written => completionWritten w s
    | .busError => if s.hp.engine = .running then enterHalted .crWrite s else s

/-! ## Boot read end (R180) -/

/-- The boot block read is judged (R180). -/
def judgeBoot (result : ReadEnd) (s : State) : State :=
  match result with
  | .busError => enterHalted .bootRead s
  | .data r =>
    match bootBlockOf r with
    | some b => enterRunning b s
    | none => enterHalted .bootInvalid s

/-- The end of the boot block read, which stands on the bus in LOADING only (R180). -/
def takeBootEnd (result : ReadEnd) (s : State) : State :=
  if s.hp.engine = .loading then judgeBoot result s else s

/-! ## Administrative commands (chapter 9) -/

/-- NODE_SET after its range and state checks (R164): the pool takes or refuses the limit change; when it takes it, the
other four values are replaced, and a raise of TX_LIMIT gives a room notice (R34, R36). -/
def performNodeSet (p : NodeSetForm) (s : State) : State :=
  if limitChangeTaken p.txLimit.toNat p.rxLimit.toNat s then
    let raised : Bool := s.cp.txLimit < p.txLimit.toNat
    let s := setLimits p.txLimit.toNat p.rxLimit.toNat p.rxHold.toNat s
    let s := s.updAe (fun a =>
      { a with nodeId := p.nodeId, rate := RateCode.ofByte p.rateCode,
               defaultBudget := p.defaultBudget.extractLsb' 0 4, yieldValue := p.yieldValue.extractLsb' 0 4 })
    endCommand .done [] (if raised then roomNotice s else s)
  else endCommand .limitBelowUse [] s

/-- LINE_MODE after its checks (R165): the mode is handed to the line engine, which takes it at its next boundary
phase; the run of quiet time it measures then is `quiet`. -/
def performLineMode (code : Byte) (quiet : Nat) (s : State) : State :=
  match LineMode.ofCode code with
  | some m =>
    requestMode m (awaitEvent .modeReport (if s.le.phase = .off then s else measureQuiet quiet s))
  | none => s

/-- OPEN_SEND after its checks (R114). -/
def performOpenSend (p : OpenSendForm) (s : State) : State :=
  match sendOfNumber p.ring.toNat with
  | some r =>
    endCommand .done []
      (s.updSend r (fun c =>
        { c with state := .opened, base := p.base, size := p.size.toNat, cls := Fin.ofNat 4 p.cls.toNat, head := 0,
                 tail := 0 }))
  | none => s

/-- OPEN_ARRIVAL after its checks (R131). -/
def performOpenArrival (p : OpenArrivalForm) (s : State) : State :=
  match arrivalOfNumber p.ring.toNat with
  | some r =>
    endCommand .done []
      (s.updArrival r (fun c =>
        { c with state := .opened, base := p.base, size := p.size.toNat, count := p.count.toNat, delay := p.delay,
                 head := 0, tail := 0, lapTag := true, unnotified := 0, discards := 0, timer := none }))
  | none => s

/-- CLOSE_RING of a send ring (R124, R168): DRAINING, the flush, and CLOSED at once when no cell is held. -/
def performCloseSend (r : SendId) (s : State) : State :=
  closeIfDrainedSend r
    (flushRing r (awaitEvent .ringClosed (s.updSend r (fun c => { c with state := .draining }))))

/-- CLOSE_RING of an arrival ring (R140, R168): DRAINING, the pending cells discarded, and CLOSED at once when no cell
is held. -/
def performCloseArrival (r : ArrivalId) (s : State) : State :=
  closeIfDrainedArrival r
    (discardPending r (awaitEvent .ringClosed (s.updArrival r (fun c => { c with state := .draining }))))

/-- CLOSE_RING after its checks (R168). -/
def performCloseRing (ring : Byte) (s : State) : State :=
  match RingName.ofNumber ring.toNat with
  | some (.send r) => performCloseSend r s
  | some (.arrival r) => performCloseArrival r s
  | _ => s

/-- The index of an acceptance entry named by a byte within range. -/
def entryIndex (b : Byte) : Fin 32 := Fin.ofNat 32 b.toNat

/-- FILTER_WRITE after its checks (R107, R170): one table write, hit count 0. -/
def performFilterWrite (index : Byte) (form : EntryForm) (s : State) : State :=
  match entryOfForm form with
  | some e => endCommand .done [] (s.setEntry (entryIndex index) e)
  | none => s

/-- FILTER_READ after its check (R108, R171): the entry and its hit count as they stand. -/
def performFilterRead (index : Byte) (s : State) : State :=
  endCommand .done (s.entry (entryIndex index)).areaBytes s

/-- COUNTS_READ after its checks (R88, R172): the snapshot is taken and its 32 bytes are to be written. -/
def performCountsRead (address : Addr) (s : State) : State :=
  requestWrite .ae address s.le.counters.bytes
    (awaitEvent .countsWriteEnd (s.updLe (fun l => { l with snapshot := some l.counters })))

/-- A command is executed by its own rule after its checks have passed (R159). -/
def performCommand (c : AdminCommand) (quiet : Nat) (s : State) : State :=
  match c with
  | .nodeSet p => performNodeSet p s
  | .lineMode code => performLineMode code quiet s
  | .openSend p => performOpenSend p s
  | .openArrival p => performOpenArrival p s
  | .closeRing ring => performCloseRing ring s
  | .filterWrite index form => performFilterWrite index form s
  | .filterRead index => performFilterRead index s
  | .countsRead _ address => performCountsRead address s

/-- A command is judged by checks 2 and 3 of R161 and executed when they pass; NODE_SET's check 4 is its execution's. -/
def judgeCommand (c : AdminCommand) (reservedZero : Bool) (quiet : Nat) (s : State) : State :=
  if adminInRange c = false ∨ reservedZero = false then endCommand .invalidField [] s
  else if adminStateHolds s c = false then endCommand .wrongState [] s
  else performCommand c quiet s

/-- AR after an admin fetch end: the head has moved and the flag is cleared (R159, R160). -/
def advanceAdminHead (s : State) : State :=
  s.updAdmin (fun r => { r with head := nextIndex r.head r.size, fetchInFlight := false })

/-- What an admin record spells: an unknown command code, or a command with the state of its reserved bytes. -/
inductive AdminReading where
  | unknown
  | command (c : AdminCommand) (reservedZero : Bool)
  deriving DecidableEq, Repr

/-- The reading of a record (R161, R193). -/
def readAdminRecord (r : Record) : AdminReading :=
  match adminCommandOf r with
  | none => .unknown
  | some c => .command c (zeroAt r (adminReservedOffsets c))

/-- An admin fetch has ended without error (R159): the head moves; in HALTED the record gives no command (R173); else an
unknown command ends at once and a known one becomes the current command and is judged. -/
def takeAdminRecord (tag : Word) (reading : AdminReading) (quiet : Nat) (s : State) : State :=
  let index := s.rct.admin.head
  let s := advanceAdminHead s
  if s.hp.engine = .halted then idleAdmin s
  else
    match reading with
    | .unknown =>
      idleAdmin (joinPending (.admin { status := .unknownCommand, tag := tag, index := index, area := [] }) s)
    | .command c reservedZero =>
      judgeCommand c reservedZero quiet
        (s.updAe (fun a => { a with phase := .executing, current := some { tag := tag, index := index, command := c } }))

/-- An admin fetch has ended with a host-bus error (R160): AR is FAULTED, and a FETCH_FAILED result joins. -/
def takeAdminError (s : State) : State :=
  let index := s.rct.admin.head
  let s := (advanceAdminHead s).updAdmin (fun r => { r with state := .faulted })
  idleAdmin (joinPending (.admin { status := .fetchFailed, tag := 0, index := index, area := [] }) s)

/-- The end of an admin read is taken by an engine that is FETCHING (R157, R158); otherwise no such event arises. -/
def whenFetching (take : State → State) (s : State) : State := if s.ae.phase = .fetching then take s else s

/-- The end of an admin fetch (R159, R160). -/
def takeAdminEnd (result : ReadEnd) (quiet : Nat) (s : State) : State :=
  whenFetching
    (match result with
     | .busError => takeAdminError
     | .data r => takeAdminRecord (adminTag r) (readAdminRecord r) quiet) s

/-- A row named by an administrative command: the end of the fetch of its record, whose reserved bytes are 0 (R159). -/
def adminCommandEnd (tag : Word) (c : AdminCommand) (quiet : Nat) (s : State) : State :=
  transferEnd (.requester .ae) .read (whenFetching (takeAdminRecord tag (.command c true) quiet)) s

/-- The counters lowered by their copied values (R88). -/
def lowerCounters (now copy : Counters) : Counters :=
  { txSent := now.txSent - copy.txSent, txErrors := now.txErrors - copy.txErrors,
    lostArb := now.lostArb - copy.lostArb, rxAccepted := now.rxAccepted - copy.rxAccepted,
    rxDropped := now.rxDropped - copy.rxDropped, busyAnswered := now.busyAnswered - copy.busyAnswered,
    rxCheckErrors := now.rxCheckErrors - copy.rxCheckErrors,
    rxFormatErrors := now.rxFormatErrors - copy.rxFormatErrors }

/-- The clear flag of the COUNTS_READ in execution is set (R172). -/
def clearFlagSet (s : State) : Bool :=
  match s.ae.current with
  | some { command := .countsRead clear _, .. } => clear == 1
  | _ => false

/-- The second event of COUNTS_READ at the store (R88): each counter is lowered by its copied value. -/
def clearCounters (s : State) : State :=
  s.updLe (fun l =>
    { l with counters := match l.snapshot with | some copy => lowerCounters l.counters copy | none => l.counters })

/-- The copy of COUNTS_READ is done with. -/
def dropSnapshot (s : State) : State := s.updLe (fun l => { l with snapshot := none })

/-- The end of the counters block write (R172). -/
def takeCountsEnd (result : WriteEnd) (s : State) : State :=
  if s.ae.awaited = .countsWriteEnd then
    match result with
    | .written => endCommand .done [] (dropSnapshot (if clearFlagSet s then clearCounters s else s))
    | .busError => endCommand .writeFailed [] (dropSnapshot s)
  else s

/-! ## Register writes (chapter 10) -/

/-- A CONTROL write starts LOADING in RESET (R177, R180): the boot block read passes to the bus in the same event. -/
def startLoading (s : State) : State :=
  s.updHp (fun h =>
    { h with engine := .loading, enabled := true,
             onBus := some (.boot, { direction := .read, address := s.bootAddress, bytes := [] }) })

/-- A write to CONTROL is judged by its two bits (R177). -/
def writeControl (value : Word) (s : State) : State :=
  if softResetField value then beginSoftReset s
  else if enableField value ∧ s.hp.engine = .reset then startLoading s
  else s

/-- A write to BOOT_LO is taken in RESET; the six least significant bits are not stored (R178). -/
def writeBootLo (value : Word) (s : State) : State :=
  if s.hp.engine = .reset then s.updHp (fun h => { h with bootLo := value.extractLsb' 6 26 }) else s

/-- A write to BOOT_HI is taken in RESET (R178). -/
def writeBootHi (value : Word) (s : State) : State :=
  if s.hp.engine = .reset then s.updHp (fun h => { h with bootHi := value }) else s

/-- A refused POST or RELEASE changes no index and sets INDEX_ERROR (R183, R184). -/
def refuseIndex (s : State) : State := setCause .indexError s

/-- The range and direction checks of POST (R183). -/
def postIndexTaken (newTail head tail size : Nat) : Bool :=
  newTail < size && ringDistance tail head size ≤ ringDistance newTail head size

/-- A POST write (R183). -/
def writePost (value : Word) (s : State) : State :=
  let tail := indexField value
  if s.hp.engine = .running then
    match RingName.ofNumber (ringNumberField value) with
    | some .admin =>
      let r := s.rct.admin
      if r.state = .opened ∧ postIndexTaken tail r.head r.tail r.size then
        conclude (s.updAdmin (fun r => { r with tail := tail }))
      else refuseIndex s
    | some (.send n) =>
      let r := s.send n
      if r.state = .opened ∧ postIndexTaken tail r.head r.tail r.size then
        conclude (fetchDecision (s.updSend n (fun r => { r with tail := tail })))
      else refuseIndex s
    | _ => refuseIndex s
  else refuseIndex s

/-- The range and distance checks of RELEASE (R184). -/
def releaseIndexTaken (newHead head tail size : Nat) : Bool :=
  newHead < size && ringDistance newHead head size ≤ ringDistance tail head size

/-- A RELEASE write (R184). -/
def writeRelease (value : Word) (s : State) : State :=
  let head := indexField value
  if s.hp.engine = .running then
    match RingName.ofNumber (ringNumberField value) with
    | some (.arrival n) =>
      let r := s.arrival n
      if r.state ≠ .closed ∧ releaseIndexTaken head r.head r.tail r.size then
        conclude (arrivalDecision (s.updArrival n (fun r => { r with head := head })))
      else refuseIndex s
    | some .completion =>
      let r := s.rct.completion
      if r.state = .opened ∧ releaseIndexTaken head r.head r.tail r.size then
        conclude (s.updCompletion (fun r => { r with head := head }))
      else refuseIndex s
    | _ => refuseIndex s
  else refuseIndex s

/-- A write to CAUSE clears each cause whose bit is written as 1 (R185). -/
def writeCause (value : Word) (s : State) : State :=
  s.updHp (fun h => { h with cause := h.cause &&& ~~~(causeField value) })

/-- A write to MASK replaces all nine bits (R186). -/
def writeMask (value : Word) (s : State) : State := s.updHp (fun h => { h with mask := causeField value })

/-- A 32-bit write to a register of the window (R175): STATUS ignores it. -/
def writeRegister (r : Register) (value : Word) (s : State) : State :=
  match r with
  | .control => writeControl value s
  | .status => s
  | .bootLo => writeBootLo value s
  | .bootHi => writeBootHi value s
  | .post => writePost value s
  | .release => writeRelease value s
  | .cause => writeCause value s
  | .mask => writeMask value s

/-- A write through the window: ignored while the window is closed (R175, R191). -/
def windowWrite (r : Register) (value : Word) (s : State) : State :=
  if windowOpen s then writeRegister r value s else s

end Sys2Proof.Machine
end

