-- ==== Sys2Proof/Machine/AdminCommands.lean ====
section
/-! DEFINITION. The eight administrative commands (chapter 9). Each row is the event in which the fetch of its record
ends without error, the record spelling this command with every reserved byte 0: R159 judges and executes the command in
that event (log entry 2). ADMIN_FETCH_END takes the same event from the record's bytes. -/

namespace Sys2Proof.Machine

/-- NODE_SET (R164). -/
def execNodeSet (tag : Word) (form : NodeSetForm) (s : State) : Host.Outcome State Fault Refusal :=
  .next (adminCommandEnd tag (.nodeSet form) 0 s)

/-- LINE_MODE (R165); `quiet` is the quiet run at that moment (R66). -/
def execLineMode (tag : Word) (code : Byte) (quiet : Nat) (s : State) : Host.Outcome State Fault Refusal :=
  .next (adminCommandEnd tag (.lineMode code) quiet s)

/-- OPEN_SEND (R166). -/
def execOpenSend (tag : Word) (form : OpenSendForm) (s : State) : Host.Outcome State Fault Refusal :=
  .next (adminCommandEnd tag (.openSend form) 0 s)

/-- OPEN_ARRIVAL (R167). -/
def execOpenArrival (tag : Word) (form : OpenArrivalForm) (s : State) : Host.Outcome State Fault Refusal :=
  .next (adminCommandEnd tag (.openArrival form) 0 s)

/-- CLOSE_RING (R168). -/
def execCloseRing (tag : Word) (ring : Byte) (s : State) : Host.Outcome State Fault Refusal :=
  .next (adminCommandEnd tag (.closeRing ring) 0 s)

/-- FILTER_WRITE (R170). -/
def execFilterWrite (tag : Word) (index : Byte) (form : EntryForm) (s : State) : Host.Outcome State Fault Refusal :=
  .next (adminCommandEnd tag (.filterWrite index form) 0 s)

/-- FILTER_READ (R171). -/
def execFilterRead (tag : Word) (index : Byte) (s : State) : Host.Outcome State Fault Refusal :=
  .next (adminCommandEnd tag (.filterRead index) 0 s)

/-- COUNTS_READ (R172). -/
def execCountsRead (tag : Word) (clear : Byte) (address : Addr) (s : State) : Host.Outcome State Fault Refusal :=
  .next (adminCommandEnd tag (.countsRead clear address) 0 s)

end Sys2Proof.Machine
end

