-- ==== Sys2Proof/Machine/BusEnds.lean ====
section
/-! DEFINITION. The ends of the master port's transfers (10.5): boot read, send record, admin record, counters block,
arrival record, completion record. -/

namespace Sys2Proof.Machine

/-- The boot block read ends (R180). -/
def execBootReadEnd (result : ReadEnd) (s : State) : Host.Outcome State Fault Refusal :=
  .next (transferEnd .boot .read (takeBootEnd result) s)

/-- A send record read ends (R120). -/
def execFetchEnd (result : ReadEnd) (s : State) : Host.Outcome State Fault Refusal :=
  .next (transferEnd (.requester .fe) .read (takeFetchEnd result) s)

/-- An admin record read ends (R159, R160); `quiet` is the quiet run at that moment, which a LINE_MODE reads (R66). -/
def execAdminFetchEnd (result : ReadEnd) (quiet : Nat) (s : State) : Host.Outcome State Fault Refusal :=
  .next (transferEnd (.requester .ae) .read (takeAdminEnd result quiet) s)

/-- The counters block write ends (R172). -/
def execCountsWriteEnd (result : WriteEnd) (s : State) : Host.Outcome State Fault Refusal :=
  .next (transferEnd (.requester .ae) .write (takeCountsEnd result) s)

/-- An arrival record write ends (R135, R139, R140). -/
def execArrivalWriteEnd (result : WriteEnd) (s : State) : Host.Outcome State Fault Refusal :=
  .next (transferEnd (.requester .aw) .write (takeArrivalEnd result) s)

/-- A completion record write ends (R151, R154). -/
def execCompletionWriteEnd (result : WriteEnd) (s : State) : Host.Outcome State Fault Refusal :=
  .next (transferEnd (.requester .cw) .write (takeCompletionEnd result) s)

end Sys2Proof.Machine
end

