-- ==== Sys2Proof/Machine/LineEvents.lean ====
section
/-! DEFINITION. The line events (chapter 4): joins, SOFs, attempts, the points of a frame, frame ends, faults. A point of a
frame carries the cells read since the point before it, and arises when they reach its last cell and each of them lets the
frame go on; ARBITRATION_WON and EOD_END carry none (log entry 6). A reading whose condition does not hold in the state is
no such event and changes nothing (log entry 1). -/

namespace Sys2Proof.Machine

/-- JOIN_COMPLETE (R66): in JOINING the quiet run stands at 8 bit times or more. -/
def execJoinComplete (quiet : Nat) (s : State) : Host.Outcome State Fault Refusal :=
  .next (if s.le.phase = .joining then conclude (joinIfQuiet (measureQuiet quiet s)) else s)

/-- ATTEMPT_START (R69): an SOF driven at a quiet run of 8 bit times or more, or another node's SOF edge read, which is
joined or, when an expiry taken first has emptied the slot or the run is short, followed as a receiver. At the moment of
such an expiry no SOF is driven (R60). -/
def execAttemptStart (kind : SofKind) (quiet : Nat) (s : State) : Host.Outcome State Fault Refusal :=
  .next
    (match kind with
     | .driven moment => if mayStartAt moment s ∧ quietAtLeast8 s.ae.rate quiet then startAttempt s else s
     | .edgeRead moment => sofEdge moment quiet s)

/-- FRAME_START (R67, R6): a pulse read outside a frame, after a quiet run. In IDLE an SOF starts a frame (`sofEdge`); any
other pulse, and every pulse in JOINING, RECOVERING or FAULT, restarts the quiet run (R20, R66, R80); a glitch is
disregarded (R3), in FAULT too (log entry 32). The end of a stuck period is read in FAULT, which its 64 bit times have
entered (STUCK_LINE). -/
def execFrameStart (quiet : Nat) (pulse : PulseRead) (s : State) : Host.Outcome State Fault Refusal :=
  .next
    (match classifyPulse s.ae.rate pulse.length with
     | .sof => sofEdge pulse.moment quiet s
     | .data1 | .data0 | .invalid | .breakPulse => restartQuiet s
     | .stuck => if s.le.phase = .fault then restartQuiet s else s
     | .glitch => s)

/-- ARBITRATION_WON (R70): header cell 24 ends with the engine still a participant; the win report is given (R43) and
the phase becomes SENDING. The row is the reading of each header cell as the own bit; the cells themselves come with the
next command of the frame (log entry 6). -/
def execArbitrationWon (s : State) : Host.Outcome State Fault Refusal :=
  .next
    (match s.le.frame, offeredCell s with
     | some _, some c => if s.le.phase = .arbitrating then winReport c.cls (setPhase .sending s) else s
     | _, _ => s)

/-- ATTEMPT_END (R73): the reading of a cell ends the attempt with the outcome the line gives it (R22). A flush taken after
it at the same moment finds the cell settled, and QUEUED if it is to be retried (R61). -/
def execAttemptEnd (before : CellsRead) (last : CellPulses) (ending : AttemptEnding) (s : State) :
    Host.Outcome State Fault Refusal :=
  .next
    (if s.le.phase.isAttempt then concludeAttempt ending.moment (attemptEndAt (before ++ [last]) ending.quiet s) else s)

/-- HEADER_END (R74): data cell 32 ends with a legal control byte, in SENDING or RECEIVING. -/
def execHeaderEnd (cells : CellsRead) (s : State) : Host.Outcome State Fault Refusal :=
  .next
    (match s.le.frame with
     | some f =>
       let line := decodedLine f 32 cells s
       if (s.le.phase = .sending ∨ s.le.phase = .receiving) ∧ f.point = .start ∧ reaches f 32 line s then
         match FrameHead.ofBits (headBits f line s) with
         | some h => reachHeaderEnd (followCells f line s) (headBits f line s) h s
         | none => s
       else s
     | none => s)

/-- The last check cell of the frame (R8). -/
def checkCell (f : Frame) : Nat := 48 + 8 * (frameShape f).1

/-- CHECK_END (R75): the last check cell ends, after a payload of the length of the control byte. -/
def execCheckEnd (payload check : CellsRead) (s : State) : Host.Outcome State Fault Refusal :=
  .next
    (match s.le.frame with
     | some f =>
       let line := decodedLine f (checkCell f) (payload ++ check) s
       if (s.le.phase = .sending ∨ s.le.phase = .receiving) ∧ f.point = .headerEnd ∧ reaches f (checkCell f) line s then
         conclude (reachCheckEnd (followCells f line s) (payloadRead f line s) (checkRead f line s) s)
       else s
     | none => s)

/-- EOD_END (R71): the second EOD cell of an own frame with a window ends quiet, as the first did; WINDOW_OUT begins with a
slot mark. -/
def execEodEnd (s : State) : Host.Outcome State Fault Refusal :=
  .next
    (match s.le.frame with
     | some f =>
       let line := decodedLine f (checkCell f + 2) [[], []] s
       if s.le.phase = .sending ∧ f.point = .checkEnd ∧ (frameShape f).2 ≠ .noWindow
           ∧ reaches f (checkCell f + 2) line s then
         s.updLe (fun l =>
           { l with phase := .windowOut, frame := some (followCells f line s), txd := originatorDrive s })
       else s
     | none => s)

/-- The last response cell of a slot (R16). -/
def slotEndCell (f : Frame) (slot : Slot) : Nat := firstResponse (frameShape f).1 slot + 15

/-- SLOT_END (R72, R76): a slot's sixteenth response cell ends; the originator classifies the slot, a responder has
driven its answer there. -/
def execSlotEnd (slot : Slot) (cells : CellsRead) (s : State) : Host.Outcome State Fault Refusal :=
  .next
    (match s.le.frame with
     | some f =>
       let line := decodedLine f (slotEndCell f slot) cells s
       if s.le.phase = .windowOut ∧ nextSlot f = some slot.val ∧ reaches f (slotEndCell f slot) line s then
         originatorSlotEnd (followCells f line s) slot (frameShape f).2 (slotReadings f line s) s
       else if s.le.phase = .receiving ∧ isLaterSlot f (frameShape f).2 slot ∧ reaches f (slotEndCell f slot) line s then
         receiverSlotEnd (followCells f line s) slot s
       else s
     | none => s)

/-- The receiver has read the frame's check; the window and the EOF follow (R23). -/
def pastCheck (f : Frame) : Bool :=
  match f.point with
  | .checkEnd | .slot _ => true
  | .start | .headerEnd => false

/-- FRAME_END (R77): the last EOF cell of a frame followed as a receiver ends quiet. -/
def execFrameEnd (tail : TailRead) (s : State) : Host.Outcome State Fault Refusal :=
  .next
    (match s.le.frame with
     | some f =>
       if s.le.phase = .receiving ∧ pastCheck f
           ∧ reaches f (lastCell (frameShape f).1 (frameShape f).2) tail.cells s then
         conclude (endFrame tail.quiet s)
       else s
     | none => s)

/-- FRAME_ABANDONED (R77): a format error ends a frame followed as a receiver. -/
def execFrameAbandoned (cells : CellsRead) (quiet : Nat) (s : State) : Host.Outcome State Fault Refusal :=
  .next
    (match s.le.frame with
     | some f => if s.le.phase = .receiving ∧ abandons f cells s then conclude (abandonFrame quiet s) else s
     | none => s)

/-- STUCK_LINE (R79): a dominant period of `dominant` cycles reaches 64 bit times. -/
def execStuckLine (dominant : Nat) (s : State) : Host.Outcome State Fault Refusal :=
  .next (if isStuck s.ae.rate dominant then conclude (enterFault s) else s)

/-- FAULT_EXIT (R80): the line has been recessive for 8 bit times; IDLE with a quiet run of 8, the fault flag cleared,
the LINE cause set. -/
def execFaultExit (quiet : Nat) (s : State) : Host.Outcome State Fault Refusal :=
  .next
    (if s.le.phase = .fault ∧ quietAtLeast8 s.ae.rate quiet then
      conclude
        (setCause .line
          (s.updLe (fun l => { l with phase := .idle, fault := false, quietRun := 8 * s.ae.rate.bitCycles })))
     else s)

/-- RECOVERY_END (R78): in RECOVERING the quiet run reaches 6 bit times; the phase becomes IDLE. A run that stood at 6 or more
when RECOVERING was entered ends it here too, and not before (DESIGN CHOICE, log entry 34). -/
def execRecoveryEnd (quiet : Nat) (s : State) : Host.Outcome State Fault Refusal :=
  .next
    (if s.le.phase = .recovering ∧ quietAtLeast6 s.ae.rate quiet then
      conclude (s.updLe (fun l => { l with phase := .idle, quietRun := quiet }))
     else s)

end Sys2Proof.Machine
end

