-- ==== Sys2Proof/Machine/Registers.lean ====
section
/-! DEFINITION. The register write commands of the window (10.1, 10.3, 10.4). -/

namespace Sys2Proof.Machine

/-- A CONTROL write with ENABLE 1 and SOFT_RESET 0 (R177, R180). -/
def execEnable (value : Word) (s : State) : Host.Outcome State Fault Refusal := .next (windowWrite .control value s)

/-- A write to BOOT_LO (R178). -/
def execBootLoWrite (value : Word) (s : State) : Host.Outcome State Fault Refusal :=
  .next (windowWrite .bootLo value s)

/-- A write to BOOT_HI (R178). -/
def execBootHiWrite (value : Word) (s : State) : Host.Outcome State Fault Refusal :=
  .next (windowWrite .bootHi value s)

/-- A write to POST (R183). -/
def execPost (value : Word) (s : State) : Host.Outcome State Fault Refusal := .next (windowWrite .post value s)

/-- A write to RELEASE (R184). -/
def execRelease (value : Word) (s : State) : Host.Outcome State Fault Refusal := .next (windowWrite .release value s)

/-- A write to CAUSE (R185). -/
def execCauseWrite (value : Word) (s : State) : Host.Outcome State Fault Refusal := .next (windowWrite .cause value s)

/-- A write to MASK (R186). -/
def execMaskWrite (value : Word) (s : State) : Host.Outcome State Fault Refusal := .next (windowWrite .mask value s)

/-- Any register write (R175): a write narrower than 32 bits is ignored, and so is a write to STATUS and a write during
RESETTING; a full write to another register is what that register makes of it. -/
def execRegisterWrite (register : Register) (width : AccessWidth) (value : Word) (s : State) :
    Host.Outcome State Fault Refusal :=
  .next (if width = .word then windowWrite register value s else s)

end Sys2Proof.Machine
end

