-- ==== Sys2Proof/Machine/Resets.lean ====
section
/-! DEFINITION. The reset commands: RESET_PIN_ASSERT, RESET_PIN_RELEASE, SOFT_RESET, SOFT_RESET_COMPLETE (10.6). -/

namespace Sys2Proof.Machine

/-- RST_N is asserted (R191): every block takes its reset values at once, the transfer on the bus is abandoned, TXD is
released. -/
def execResetPinAssert (s : State) : Host.Outcome State Fault Refusal :=
  .next { State.reset with hp := { Reset.hostPort with pinAsserted := true }, pending := s.pending }

/-- RST_N is released (R191): the engine is RESET with the reset values, and the window is accessible again. -/
def execResetPinRelease (s : State) : Host.Outcome State Fault Refusal :=
  .next (s.updHp (fun h => { h with pinAsserted := false }))

/-- A CONTROL write with SOFT_RESET 1 (R177, R190). -/
def execSoftReset (value : Word) (s : State) : Host.Outcome State Fault Refusal :=
  .next (windowWrite .control value s)

/-- The master port has no transfer on the bus any more (R190): a RESETTING engine reaches RESET. -/
def execSoftResetComplete (s : State) : Host.Outcome State Fault Refusal :=
  .next (if s.hp.engine = .resetting then softResetState s else s)

end Sys2Proof.Machine
end

