-- ==== Sys2Proof/Machine/Timers.lean ====
section
/-! DEFINITION. The tick and what expires by it: TICK, DEADLINE_EXPIRY, ARRIVAL_TIMER_EXPIRY, CR_TIMER_EXPIRY. -/

namespace Sys2Proof.Machine

/-- The end of a millisecond (R57): a running tick counter advances by one and wraps; a stopped one keeps its value. -/
def execTick (s : State) : Host.Outcome State Fault Refusal :=
  .next (if s.sch.tickRunning then s.updSch (fun h => { h with tick := h.tick + 1 }) else s)

/-- A cell's deadline tick is reached by a running counter (R58, R59). An expiry that empties the offer slot lets the next
head be offered in its own event (R45, R59); an SOF edge of that same moment still finds the slot empty (R60, R69; `sofEdge`,
log entry 26). -/
def expireDeadline (id : CellId) (s : State) : State :=
  match s.cell id with
  | .tx c => if s.sch.tickRunning ∧ c.deadline = some s.sch.tick then conclude (expireCell id c s) else s
  | _ => s

/-- DEADLINE_EXPIRY (R59). -/
def execDeadlineExpiry (cell : CellId) (s : State) : Host.Outcome State Fault Refusal := .next (expireDeadline cell s)

/-- ARRIVAL_TIMER_EXPIRY (R138): a running timer of the ring has reached its expiry tick. -/
def execArrivalTimerExpiry (ring : ArrivalId) (s : State) : Host.Outcome State Fault Refusal :=
  .next (if s.sch.tickRunning ∧ (s.arrival ring).timer = some s.sch.tick then notifyArrival ring s else s)

/-- CR_TIMER_EXPIRY (R153). -/
def execCrTimerExpiry (s : State) : Host.Outcome State Fault Refusal :=
  .next (if s.sch.tickRunning ∧ s.rct.completion.timer = some s.sch.tick then expireCompletionTimer s else s)

end Sys2Proof.Machine
end

