-- ==== Sys2Proof/Machine/Dispatch.lean ====
section
/-! DEFINITION. One arm per command: the meaning of each row of the opcode table. -/

namespace Sys2Proof.Machine

def exec (i : Instr) (s : State) : Host.Outcome State Fault Refusal :=
  match i with
  | .resetPinAssert => Sys2Proof.Machine.execResetPinAssert s
  | .resetPinRelease => Sys2Proof.Machine.execResetPinRelease s
  | .softReset value => Sys2Proof.Machine.execSoftReset value s
  | .softResetComplete => Sys2Proof.Machine.execSoftResetComplete s
  | .enable value => Sys2Proof.Machine.execEnable value s
  | .bootLoWrite value => Sys2Proof.Machine.execBootLoWrite value s
  | .bootHiWrite value => Sys2Proof.Machine.execBootHiWrite value s
  | .post value => Sys2Proof.Machine.execPost value s
  | .release value => Sys2Proof.Machine.execRelease value s
  | .causeWrite value => Sys2Proof.Machine.execCauseWrite value s
  | .maskWrite value => Sys2Proof.Machine.execMaskWrite value s
  | .registerWrite register width value => Sys2Proof.Machine.execRegisterWrite register width value s
  | .bootReadEnd result => Sys2Proof.Machine.execBootReadEnd result s
  | .fetchEnd result => Sys2Proof.Machine.execFetchEnd result s
  | .adminFetchEnd result quiet => Sys2Proof.Machine.execAdminFetchEnd result quiet s
  | .nodeSet tag form => Sys2Proof.Machine.execNodeSet tag form s
  | .lineMode tag code quiet => Sys2Proof.Machine.execLineMode tag code quiet s
  | .openSend tag form => Sys2Proof.Machine.execOpenSend tag form s
  | .openArrival tag form => Sys2Proof.Machine.execOpenArrival tag form s
  | .closeRing tag ring => Sys2Proof.Machine.execCloseRing tag ring s
  | .filterWrite tag index form => Sys2Proof.Machine.execFilterWrite tag index form s
  | .filterRead tag index => Sys2Proof.Machine.execFilterRead tag index s
  | .countsRead tag clear address => Sys2Proof.Machine.execCountsRead tag clear address s
  | .countsWriteEnd result => Sys2Proof.Machine.execCountsWriteEnd result s
  | .arrivalWriteEnd result => Sys2Proof.Machine.execArrivalWriteEnd result s
  | .completionWriteEnd result => Sys2Proof.Machine.execCompletionWriteEnd result s
  | .tick => Sys2Proof.Machine.execTick s
  | .deadlineExpiry cell => Sys2Proof.Machine.execDeadlineExpiry cell s
  | .arrivalTimerExpiry ring => Sys2Proof.Machine.execArrivalTimerExpiry ring s
  | .crTimerExpiry => Sys2Proof.Machine.execCrTimerExpiry s
  | .joinComplete quiet => Sys2Proof.Machine.execJoinComplete quiet s
  | .attemptStart kind quiet => Sys2Proof.Machine.execAttemptStart kind quiet s
  | .frameStart quiet pulse => Sys2Proof.Machine.execFrameStart quiet pulse s
  | .arbitrationWon => Sys2Proof.Machine.execArbitrationWon s
  | .attemptEnd before last ending => Sys2Proof.Machine.execAttemptEnd before last ending s
  | .headerEnd cells => Sys2Proof.Machine.execHeaderEnd cells s
  | .checkEnd payload check => Sys2Proof.Machine.execCheckEnd payload check s
  | .slotEnd slot cells => Sys2Proof.Machine.execSlotEnd slot cells s
  | .frameEnd tail => Sys2Proof.Machine.execFrameEnd tail s
  | .frameAbandoned cells quiet => Sys2Proof.Machine.execFrameAbandoned cells quiet s
  | .stuckLine dominant => Sys2Proof.Machine.execStuckLine dominant s
  | .faultExit quiet => Sys2Proof.Machine.execFaultExit quiet s
  | .recoveryEnd quiet => Sys2Proof.Machine.execRecoveryEnd quiet s
  | .eodEnd => Sys2Proof.Machine.execEodEnd s

end Sys2Proof.Machine
end

