-- ==== Sys2Proof/Safety.lean ====
section
/-! DEFINITION. What counts as a safe run: the relations between parts of the state that the spec promises at every
moment, and the two sorts of command that the whole-machine promises speak of. -/

namespace Sys2Proof.Machine

/-! ## The cell pool (R30, R163) -/

/-- The cell is a transmit cell. -/
def Cell.isTx : Cell → Bool
  | .tx _ => true
  | .free | .rx _ => false

/-- The cell is a transmit cell of class 1, 2 or 3. -/
def Cell.isLow : Cell → Bool
  | .tx c => c.cls != 0
  | .free | .rx _ => false

/-- The cell is a receive cell. -/
def Cell.isRx : Cell → Bool
  | .rx _ => true
  | .free | .tx _ => false

/-- The cell refers to the send ring. -/
def Cell.isOfSend (r : SendId) : Cell → Bool
  | .tx c => c.ring == r
  | .free | .rx _ => false

/-- The cell refers to the arrival ring. -/
def Cell.isOfArrival (r : ArrivalId) : Cell → Bool
  | .rx c => c.ring == r
  | .free | .tx _ => false

/-- The use counts are the numbers of the cells they count (R30). -/
abbrev UseCounts (s : State) : Prop :=
  s.cp.txInUse = s.cp.cells.countP Cell.isTx ∧ s.cp.lowInUse = s.cp.cells.countP Cell.isLow
    ∧ s.cp.rxInUse = s.cp.cells.countP Cell.isRx

/-- A ring's cells held is the number of cells whose referenced ring it is (R30). -/
abbrev HeldCounts (s : State) : Prop :=
  (∀ r : SendId, (s.send r).held = s.cp.cells.countP (Cell.isOfSend r))
    ∧ ∀ r : ArrivalId, (s.arrival r).held = s.cp.cells.countP (Cell.isOfArrival r)

/-- The limits are in their ranges, and no use count exceeds the limit that bounds it (R30, R163). -/
abbrev UseWithinLimits (s : State) : Prop :=
  4 ≤ s.cp.txLimit ∧ s.cp.txLimit ≤ 28 ∧ 4 ≤ s.cp.rxLimit ∧ s.cp.rxLimit ≤ 28 ∧ s.cp.txLimit + s.cp.rxLimit ≤ 32
    ∧ 1 ≤ s.cp.rxHold ∧ s.cp.rxHold ≤ s.cp.rxLimit ∧ s.cp.txInUse ≤ s.cp.txLimit
    ∧ s.cp.lowInUse + Config.urgentReserve ≤ s.cp.txLimit ∧ s.cp.rxInUse ≤ s.cp.rxLimit

/-- What the pool keeps at every moment. -/
abbrev PoolSound (s : State) : Prop := UseCounts s ∧ HeldCounts s ∧ UseWithinLimits s

/-! ## The line engine (R63, R64, R81, R82) -/

/-- What the line engine keeps at every moment: the run is at most 16 and the engine is muted exactly at 16; an attempt
is in progress in ONLINE or LOOPBACK only and never while muted; LOOPBACK is never muted; the fault flag stands in FAULT
alone, and in a mode that decodes the line, but for a soft reset begun there; OFFLINE is OFF; TXD is driven in ONLINE
alone, never while muted, and only in an attempt or in a frame that this node may answer. -/
abbrev LineSound (s : State) : Prop :=
  s.le.errorRun ≤ Config.muteThreshold ∧ (s.le.muted = true ↔ s.le.errorRun = Config.muteThreshold)
    ∧ (s.le.phase.isAttempt = true → (s.le.mode = .online ∨ s.le.mode = .loopback) ∧ s.le.muted = false)
    ∧ (s.le.mode = .loopback → s.le.muted = false)
    ∧ (s.le.fault = true →
        s.le.phase = .fault ∧ (s.le.mode = .listen ∨ s.le.mode = .online) ∨ s.hp.engine = .resetting)
    ∧ (s.le.mode = .offline → s.le.phase = .off)
    ∧ (s.le.txd = .driving →
        s.le.mode = .online ∧ s.le.muted = false ∧ (s.le.phase.isAttempt = true ∨ s.le.phase = .receiving))

/-! ## The scheduler (R43) -/

/-- A class whose list is empty has passed-over count 0. -/
abbrev PassedOverSound (s : State) : Prop := ∀ c : ClassId, s.classList c = [] → s.sch.passed.get c = 0

/-! ## The rings (R112, R129, R144, R156) -/

/-- A ring size, and indices below it. -/
abbrev indicesSound (size head tail : Nat) : Prop := sizeValid size = true ∧ head < size ∧ tail < size

/-- Coalescing settings in range and an unnotified count below the coalescing count. -/
abbrev coalescingSound (count unnotified : Nat) : Prop := 1 ≤ count ∧ count ≤ 64 ∧ unnotified < count

/-- Every OPEN ring has a size the spec admits, indices below it, and coalescing in range. -/
abbrev OpenRingsSound (s : State) : Prop :=
  (s.rct.admin.state = .opened → indicesSound s.rct.admin.size s.rct.admin.head s.rct.admin.tail)
    ∧ (∀ r : SendId, (s.send r).state = .opened → indicesSound (s.send r).size (s.send r).head (s.send r).tail)
    ∧ (∀ r : ArrivalId, (s.arrival r).state = .opened →
        indicesSound (s.arrival r).size (s.arrival r).head (s.arrival r).tail
          ∧ coalescingSound (s.arrival r).count (s.arrival r).unnotified)
    ∧ (s.rct.completion.state = .opened →
        indicesSound s.rct.completion.size s.rct.completion.head s.rct.completion.tail
          ∧ coalescingSound s.rct.completion.count s.rct.completion.unnotified)

/-! ## The admin engine (R157, R158) -/

/-- At most 4 admin results stand in the completion pending list, at most 3 while a fetch or a command is in progress,
and a command is current in EXECUTING alone. -/
abbrev AdminSound (s : State) : Prop :=
  adminResultsPending s ≤ Config.adminResultCap
    ∧ (s.ae.phase ≠ .idle → adminResultsPending s < Config.adminResultCap)
    ∧ (s.ae.current ≠ none → s.ae.phase = .executing)

/-! ## Before the boot (10.2) -/

/-- In RESET and LOADING every block but the host port stands at its reset values, and no request waits; in RESET the bus
is free, in LOADING it carries the boot block read. -/
abbrev UnbootedSound (s : State) : Prop :=
  (s.hp.engine = .reset ∨ s.hp.engine = .loading →
      s.rct = Reset.ringTable ∧ s.fe = Reset.fetchEngine ∧ s.cp = Reset.cellPool ∧ s.sch = Reset.scheduler
        ∧ s.le = Reset.lineEngine ∧ s.aw = Reset.arrivalWriter ∧ s.cw = Reset.completionWriter
        ∧ s.ae = Reset.adminEngine ∧ s.au = Reset.acceptanceUnit ∧ s.hp.waiting = Reset.hostPort.waiting
        ∧ s.hp.haltReason = .noReason)
    ∧ (s.hp.engine = .reset → s.hp.onBus = none ∧ s.hp.enabled = false)
    ∧ (s.hp.engine = .loading → onBusOf .boot .read s = true ∧ s.hp.enabled = true)

/-! ## Sorts of command -/

/-- The transfer that a command ends: whose it is and in which direction it goes (10.5). -/
def endsTransfer : Instr → Option (BusOwner × Direction)
  | .bootReadEnd _ => some (.boot, .read)
  | .fetchEnd _ => some (.requester .fe, .read)
  | .adminFetchEnd _ _ | .nodeSet _ _ | .lineMode _ _ _ | .openSend _ _ | .openArrival _ _ | .closeRing _ _
  | .filterWrite _ _ _ | .filterRead _ _ | .countsRead _ _ _ => some (.requester .ae, .read)
  | .countsWriteEnd _ => some (.requester .ae, .write)
  | .arrivalWriteEnd _ => some (.requester .aw, .write)
  | .completionWriteEnd _ => some (.requester .cw, .write)
  | .resetPinAssert | .resetPinRelease | .softReset _ | .softResetComplete | .enable _ | .bootLoWrite _
  | .bootHiWrite _ | .post _ | .release _ | .causeWrite _ | .maskWrite _ | .registerWrite _ _ _ | .tick
  | .deadlineExpiry _ | .arrivalTimerExpiry _ | .crTimerExpiry | .joinComplete _ | .attemptStart _ _
  | .frameStart _ _ | .arbitrationWon | .attemptEnd _ _ _ | .headerEnd _ | .checkEnd _ _ | .slotEnd _ _
  | .frameEnd _ | .frameAbandoned _ _ | .stuckLine _ | .faultExit _ | .recoveryEnd _ | .eodEnd => none

/-- The command is the reset pin, or a CONTROL write with SOFT_RESET 1 (10.6): what alone ends HALTED (R179). -/
def startsReset : Instr → Bool
  | .resetPinAssert => true
  | .softReset value | .enable value | .registerWrite .control .word value => softResetField value
  | .resetPinRelease | .softResetComplete | .bootLoWrite _ | .bootHiWrite _ | .post _ | .release _ | .causeWrite _
  | .maskWrite _ | .registerWrite _ _ _ | .bootReadEnd _ | .fetchEnd _ | .adminFetchEnd _ _ | .nodeSet _ _
  | .lineMode _ _ _ | .openSend _ _ | .openArrival _ _ | .closeRing _ _ | .filterWrite _ _ _ | .filterRead _ _
  | .countsRead _ _ _ | .countsWriteEnd _ | .arrivalWriteEnd _ | .completionWriteEnd _ | .tick | .deadlineExpiry _
  | .arrivalTimerExpiry _ | .crTimerExpiry | .joinComplete _ | .attemptStart _ _ | .frameStart _ _ | .arbitrationWon
  | .attemptEnd _ _ _ | .headerEnd _ | .checkEnd _ _ | .slotEnd _ _ | .frameEnd _ | .frameAbandoned _ _
  | .stuckLine _ | .faultExit _ | .recoveryEnd _ | .eodEnd => false

/-- The command writes CAUSE (R185). -/
def writesCause : Instr → Bool
  | .causeWrite _ | .registerWrite .cause .word _ => true
  | .resetPinAssert | .resetPinRelease | .softReset _ | .softResetComplete | .enable _ | .bootLoWrite _
  | .bootHiWrite _ | .post _ | .release _ | .maskWrite _ | .registerWrite _ _ _ | .bootReadEnd _ | .fetchEnd _
  | .adminFetchEnd _ _ | .nodeSet _ _ | .lineMode _ _ _ | .openSend _ _ | .openArrival _ _ | .closeRing _ _
  | .filterWrite _ _ _ | .filterRead _ _ | .countsRead _ _ _ | .countsWriteEnd _ | .arrivalWriteEnd _
  | .completionWriteEnd _ | .tick | .deadlineExpiry _ | .arrivalTimerExpiry _ | .crTimerExpiry | .joinComplete _
  | .attemptStart _ _ | .frameStart _ _ | .arbitrationWon | .attemptEnd _ _ _ | .headerEnd _ | .checkEnd _ _
  | .slotEnd _ _ | .frameEnd _ | .frameAbandoned _ _ | .stuckLine _ | .faultExit _ | .recoveryEnd _ | .eodEnd => false

/-! ## States named by several statements -/

/-- What the end of a soft reset leaves (R175, R190): the reset values, with the boot address kept. -/
def afterSoftReset (s : State) : State :=
  { State.reset with
    hp := { State.reset.hp with bootLo := s.hp.bootLo, bootHi := s.hp.bootHi }, pending := s.pending }

/-- The row of the opcode table that an administrative command stands under. -/
def commandRow (tag : Word) (quiet : Nat) : AdminCommand → Instr
  | .nodeSet p => .nodeSet tag p
  | .lineMode code => .lineMode tag code quiet
  | .openSend p => .openSend tag p
  | .openArrival p => .openArrival tag p
  | .closeRing ring => .closeRing tag ring
  | .filterWrite index form => .filterWrite tag index form
  | .filterRead index => .filterRead tag index
  | .countsRead clear address => .countsRead tag clear address

/-- An admin record's fetch ends in this state and gives a command (R159): its read is on the bus, the admin engine is
FETCHING, and the engine is neither RESETTING (R190) nor HALTED (R173). -/
abbrev AdminFetchDue (s : State) : Prop :=
  onBusOf (.requester .ae) .read s = true ∧ s.ae.phase = .fetching ∧ s.hp.engine ≠ .resetting
    ∧ s.hp.engine ≠ .halted

/-- The bus after the end of its transfer, and AR after the record's head move (R159, R187). -/
def adminRecordRead (s : State) : State :=
  { s with
    hp := { s.hp with onBus := none },
    rct := { s.rct with
      admin := { s.rct.admin with
        head := nextIndex s.rct.admin.head s.rct.admin.size, fetchInFlight := false } } }

/-- The admin engine has ended the command of the record just read (R162): its result has joined the completion pending
list under the tag and the AR index of the record, and the engine is IDLE. -/
def adminResulted (tag : Word) (status : AdminStatus) (area : List Byte) (s : State) : State :=
  { adminRecordRead s with
    cw := { s.cw with
      pending := s.cw.pending ++
        [.admin { status := status, tag := tag, index := s.rct.admin.head, area := area }] },
    ae := { s.ae with phase := .idle, current := none, awaited := .nothing } }

/-- The command of the record just read is in execution and waits for an event (R157, R159). -/
def adminWaits (tag : Word) (c : AdminCommand) (awaited : Awaited) (s : State) : State :=
  { adminRecordRead s with
    ae := { s.ae with
      phase := .executing, current := some { tag := tag, index := s.rct.admin.head, command := c },
      awaited := awaited } }

/-- A DRAINING arrival ring that holds no cell any more has become CLOSED (R141): the records delivered before are notified,
and the CLOSE_RING that waits for the ring has ended DONE with the discard count. -/
def arrivalClosed (r : ArrivalId) (s : State) : State :=
  let waiting := if s.ae.awaited = .ringClosed then s.ae.current else none
  { (s.updArrival r (fun c => { c with state := .closed, unnotified := 0, timer := none })) with
    hp := { s.hp with
      cause := if 0 < (s.arrival r).unnotified then s.hp.cause ||| BitVec.twoPow 9 (1 + r.val) else s.hp.cause },
    cw := (match waiting with
      | some c =>
        { s.cw with
          pending := s.cw.pending ++
            [.admin { status := .done, tag := c.tag, index := c.index,
                      area := [(s.arrival r).discards.extractLsb' 0 8, (s.arrival r).discards.extractLsb' 8 8] }] }
      | none => s.cw),
    ae := (match waiting with
      | some _ => { s.ae with phase := .idle, current := none, awaited := .nothing }
      | none => s.ae) }

end Sys2Proof.Machine
end

