-- ==== Sys2Proof/Certificates/Slice0/Obligations.lean ====
section
/-! DEFINITION. The statements about the block, one `Prop` each. Their order follows the spec: the step and the resets,
the host port, the rings and their engines, the administrative commands, the scheduler, the line, the invariants. -/

section

open Sys2Proof Sys2Proof.Machine

/-! ## The step and the resets -/

/-- A step runs the command at the front of the queue on the state with the queue's rest, and on an empty queue the block
idles (the model's choice, log entry 4). Every command of the table completes in every state, and none touches the queue
(the model's choice, log entry 1). -/
def Obligations.StepRunsFrontCommand : Prop :=
  ((∀ (c : Instr) (rest : List Instr) (s : State), step { s with pending := c :: rest } = exec c { s with pending := rest })
      ∧ ∀ s : State, s.pending = [] → step s = .next s)
    ∧ (∀ (c : Instr) (s : State), ∃ t, exec c s = .next t ∧ t.pending = s.pending)

/-- The values the spec gives every block after reset, field by field (R37, R62, R63, R87, R91, R111, R112, R116, R129,
R143, R144, R155, R156, R157, R163, R175, R179, R187), all but the quiet run, to which the spec gives none (log entry
3); and that the state after reset has every invariant stated here. -/
def Obligations.ResetValues : Prop :=
  (State.reset.hp =
        { engine := .reset, haltReason := .noReason, enabled := false, bootLo := 0, bootHi := 0, cause := 0, mask := 0,
          onBus := none, waiting := { fe := none, ae := none, aw := none, cw := none }, pointer := .fe,
          pinAsserted := false }
      ∧ State.reset.rct.admin =
        { state := .closed, base := 0, size := 0, head := 0, tail := 0, fetchInFlight := false }
      ∧ (∀ r : SendId, State.reset.send r =
        { state := .closed, base := 0, size := 0, head := 0, tail := 0, cls := 0, held := 0, fetchInFlight := false })
      ∧ (∀ r : ArrivalId, State.reset.arrival r =
        { state := .closed, base := 0, size := 0, tail := 0, head := 0, lapTag := true, count := 1, delay := 0,
          unnotified := 0, timer := none, discards := 0, held := 0, writeInFlight := false })
      ∧ State.reset.rct.completion =
        { state := .closed, base := 0, size := 0, tail := 0, head := 0, lapTag := true, count := 1, delay := 0,
          unnotified := 0, timer := none, writeInFlight := false }
      ∧ State.reset.fe = { pointer := 0, inFlight := none, waiting := false }
      ∧ (∀ i : CellId, State.reset.cell i = .free)
      ∧ State.reset.cp =
        { cells := State.reset.cp.cells, txInUse := 0, lowInUse := 0, rxInUse := 0, txLimit := 20, rxLimit := 12,
          rxHold := 8, noticeOwed := false }
      ∧ (∀ c : ClassId, State.reset.classList c = [])
      ∧ State.reset.sch =
        { lists := State.reset.sch.lists, passed := { class1 := 0, class2 := 0, class3 := 0 }, tick := 0,
          tickRunning := false, sofReported := false }
      ∧ (∃ quiet : Nat, State.reset.le =
        { mode := .offline, phase := .off, muted := false, fault := false, errorRun := 0, slot := none,
          pendingMode := none, quietRun := quiet, frame := none,
          counters :=
            { txSent := 0, txErrors := 0, lostArb := 0, rxAccepted := 0, rxDropped := 0, busyAnswered := 0,
              rxCheckErrors := 0, rxFormatErrors := 0 },
          snapshot := none, txd := .released })
      ∧ (∀ i : Fin 32, State.reset.entry i =
        { valid := false, targetValue := 0, targetMask := 0, topicValue := 0, topicMask := 0, sourceValue := 0,
          sourceMask := 0, action := .accept, ring := 0, respond := false, slot := 0, reply := 0, hits := 0 })
      ∧ State.reset.au.reception = none
      ∧ (∀ r : ArrivalId, State.reset.arrivalPending r = [])
      ∧ State.reset.aw.pointer = 0 ∧ State.reset.aw.inFlight = none
      ∧ State.reset.cw = { pending := [], inFlight := none }
      ∧ State.reset.ae =
        { phase := .idle, current := none, awaited := .nothing, nodeId := 0, rate := .kbit20, defaultBudget := 4,
          yieldValue := 4 }
      ∧ State.reset.pending = [])
    ∧ (PoolSound State.reset ∧ LineSound State.reset ∧ PassedOverSound State.reset ∧ OpenRingsSound State.reset
        ∧ AdminSound State.reset ∧ UnbootedSound State.reset)

/-- The reset pin (R191): its assertion gives every block its reset values whatever the state, with the interrupt line
inactive and TXD released; its release gives the state after reset and changes nothing but the pin. -/
def Obligations.ResetPin : Prop :=
  (∀ s : State, ∃ t, exec .resetPinAssert s = .next t
      ∧ t = { State.reset with hp := { State.reset.hp with pinAsserted := true }, pending := s.pending }
      ∧ t.irq = false ∧ t.le.txd = .released
      ∧ exec .resetPinRelease t = .next { State.reset with pending := s.pending })
    ∧ ∀ s : State, exec .resetPinRelease s = .next { s with hp := { s.hp with pinAsserted := false } }

/-- A soft reset (R177, R190). The write, taken in any engine state but RESETTING, reaches RESET at once when no
transfer is on the bus; otherwise the engine is RESETTING, the waiting requests are dropped, the line engine is off and
the tick stopped, all else kept until RESET is reached (the model's choice, log entry 11). SOFT_RESET_COMPLETE takes a
RESETTING engine to RESET, and so does the end of the transfer on the bus, whichever it is, without being taken by its
requester: either of the two reaches it, even with a transfer still on the bus (the model's choice, log entry 11). A
further write while RESETTING is ignored. -/
def Obligations.SoftReset : Prop :=
  ((∀ (v : Word) (s : State), v.getLsbD 1 = true → s.hp.pinAsserted = false → s.hp.engine ≠ .resetting →
        s.hp.onBus = none → exec (.softReset v) s = .next (afterSoftReset s))
      ∧ (∀ (v : Word) (s : State), v.getLsbD 1 = true → s.hp.pinAsserted = false → s.hp.engine ≠ .resetting →
        s.hp.onBus ≠ none →
          exec (.softReset v) s = .next
            { s with
              hp := { s.hp with
                engine := .resetting, haltReason := .noReason,
                waiting := { fe := none, ae := none, aw := none, cw := none } },
              le := { s.le with phase := .off, txd := .released, frame := none },
              sch := { s.sch with tickRunning := false } })
      ∧ (∀ s : State, s.hp.engine = .resetting → exec .softResetComplete s = .next (afterSoftReset s))
      ∧ ∀ (v : Word) (s : State), s.hp.engine = .resetting → exec (.softReset v) s = .next s)
    ∧ (∀ (c : Instr) (o : BusOwner) (d : Direction) (s : State), endsTransfer c = some (o, d) → s.hp.engine = .resetting →
        onBusOf o d s = true → exec c s = .next (afterSoftReset s))

/-! ## The register window -/

/-- ENABLE (R177, R180): in RESET it starts LOADING and passes the boot block read to the bus in the same event; in every
other engine state it is ignored. -/
def Obligations.EnableStartsLoading : Prop :=
  ∀ (v : Word) (s : State), v.getLsbD 0 = true → v.getLsbD 1 = false → s.hp.pinAsserted = false →
    (s.hp.engine = .reset →
        exec (.enable v) s = .next
          { s with
            hp := { s.hp with
              engine := .loading, enabled := true,
              onBus := some (.boot,
                { direction := .read, address := s.hp.bootHi ++ s.hp.bootLo ++ 0#6, bytes := [] }) } })
      ∧ (s.hp.engine ≠ .reset → exec (.enable v) s = .next s)

/-- BOOT_LO and BOOT_HI (R178): a write replaces its half in RESET, without the six least significant bits of BOOT_LO,
and is ignored in every other state; a read returns the halves; the address is a multiple of 64 and is the one the boot
read uses; the halves are cleared by the reset pin and kept through a soft reset. -/
def Obligations.BootAddressRegisters : Prop :=
  (∀ (v : Word) (s : State), s.hp.pinAsserted = false → s.hp.engine = .reset →
      exec (.bootLoWrite v) s = .next { s with hp := { s.hp with bootLo := v.extractLsb' 6 26 } }
        ∧ exec (.bootHiWrite v) s = .next { s with hp := { s.hp with bootHi := v } })
    ∧ (∀ (v : Word) (s : State), s.hp.engine ≠ .reset →
      exec (.bootLoWrite v) s = .next s ∧ exec (.bootHiWrite v) s = .next s)
    ∧ (∀ s : State, s.readRegister .bootLo = s.hp.bootLo ++ 0#6 ∧ s.readRegister .bootHi = s.hp.bootHi
      ∧ s.bootAddress = s.readRegister .bootHi ++ s.readRegister .bootLo ∧ s.bootAddress.toNat % 64 = 0)
    ∧ (∀ (v : Word) (s t : State), s.hp.engine = .reset → exec (.enable v) s = .next t → t.hp.engine = .loading →
      t.hp.onBus = some (.boot, { direction := .read, address := s.bootAddress, bytes := [] }))
    ∧ (∀ s t : State, exec .resetPinAssert s = .next t → t.hp.bootLo = 0 ∧ t.hp.bootHi = 0)
    ∧ ∀ (c : Instr) (s t : State), exec c s = .next t → s.hp.engine ≠ .reset ∨ startsReset c = true →
      c ≠ .resetPinAssert →
      t.hp.bootLo = s.hp.bootLo ∧ t.hp.bootHi = s.hp.bootHi

/-- POST (R183). A write that passes the five checks replaces the ring's tail, and the fetch engine takes a decision for
a send ring; the event's end takes the admin engine's. Any other write changes no index and sets INDEX_ERROR.
The decisions at the event's end are taken in the model's order (`conclude`, log entry 5). -/
def Obligations.PostWrites : Prop :=
  (∀ (v : Word) (r : SendId) (s : State), s.hp.pinAsserted = false → s.hp.engine = .running →
      (v.extractLsb' 0 4).toNat = r.val + 1 → (s.send r).state = .opened →
      (v.extractLsb' 16 10).toNat < (s.send r).size →
      ringDistance (s.send r).tail (s.send r).head (s.send r).size
        ≤ ringDistance (v.extractLsb' 16 10).toNat (s.send r).head (s.send r).size →
        exec (.post v) s =
          .next (conclude (fetchDecision (s.updSend r (fun c => { c with tail := (v.extractLsb' 16 10).toNat })))))
    ∧ (∀ (v : Word) (s : State), s.hp.pinAsserted = false → s.hp.engine = .running →
      (v.extractLsb' 0 4).toNat = 0 → s.rct.admin.state = .opened →
      (v.extractLsb' 16 10).toNat < s.rct.admin.size →
      ringDistance s.rct.admin.tail s.rct.admin.head s.rct.admin.size
        ≤ ringDistance (v.extractLsb' 16 10).toNat s.rct.admin.head s.rct.admin.size →
        exec (.post v) s =
          .next (conclude (s.updAdmin (fun c => { c with tail := (v.extractLsb' 16 10).toNat }))))
    ∧ ∀ (v : Word) (s : State), s.hp.pinAsserted = false → s.hp.engine ≠ .resetting →
      (s.hp.engine ≠ .running ∨ 8 < (v.extractLsb' 0 4).toNat
        ∨ ((v.extractLsb' 0 4).toNat = 0
            ∧ (s.rct.admin.state ≠ .opened ∨ s.rct.admin.size ≤ (v.extractLsb' 16 10).toNat
              ∨ ringDistance (v.extractLsb' 16 10).toNat s.rct.admin.head s.rct.admin.size
                  < ringDistance s.rct.admin.tail s.rct.admin.head s.rct.admin.size))
        ∨ ∃ r : SendId, (v.extractLsb' 0 4).toNat = r.val + 1
            ∧ ((s.send r).state ≠ .opened ∨ (s.send r).size ≤ (v.extractLsb' 16 10).toNat
              ∨ ringDistance (v.extractLsb' 16 10).toNat (s.send r).head (s.send r).size
                  < ringDistance (s.send r).tail (s.send r).head (s.send r).size)) →
        exec (.post v) s = .next { s with hp := { s.hp with cause := s.hp.cause ||| 0x80#9 } }

/-- RELEASE (R184). A write that passes the five checks replaces the ring's head, and the arrival writer takes a decision
for an arrival ring, which may be OPEN, DRAINING or FAULTED; the event's end takes the completion writer's. Any other
write changes no index and sets INDEX_ERROR.
The decisions at the event's end are taken in the model's order (`conclude`, log entry 5). -/
def Obligations.ReleaseWrites : Prop :=
  (∀ (v : Word) (r : ArrivalId) (s : State), s.hp.pinAsserted = false → s.hp.engine = .running →
      (v.extractLsb' 0 4).toNat = r.val + 9 → (s.arrival r).state ≠ .closed →
      (v.extractLsb' 16 10).toNat < (s.arrival r).size →
      ringDistance (v.extractLsb' 16 10).toNat (s.arrival r).head (s.arrival r).size
        ≤ ringDistance (s.arrival r).tail (s.arrival r).head (s.arrival r).size →
        exec (.release v) s =
          .next (conclude (arrivalDecision
            (s.updArrival r (fun c => { c with head := (v.extractLsb' 16 10).toNat })))))
    ∧ (∀ (v : Word) (s : State), s.hp.pinAsserted = false → s.hp.engine = .running →
      (v.extractLsb' 0 4).toNat = 13 → s.rct.completion.state = .opened →
      (v.extractLsb' 16 10).toNat < s.rct.completion.size →
      ringDistance (v.extractLsb' 16 10).toNat s.rct.completion.head s.rct.completion.size
        ≤ ringDistance s.rct.completion.tail s.rct.completion.head s.rct.completion.size →
        exec (.release v) s =
          .next (conclude (s.updCompletion (fun c => { c with head := (v.extractLsb' 16 10).toNat }))))
    ∧ ∀ (v : Word) (s : State), s.hp.pinAsserted = false → s.hp.engine ≠ .resetting →
      (s.hp.engine ≠ .running ∨ (v.extractLsb' 0 4).toNat < 9 ∨ 13 < (v.extractLsb' 0 4).toNat
        ∨ ((v.extractLsb' 0 4).toNat = 13
            ∧ (s.rct.completion.state ≠ .opened ∨ s.rct.completion.size ≤ (v.extractLsb' 16 10).toNat
              ∨ ringDistance s.rct.completion.tail s.rct.completion.head s.rct.completion.size
                  < ringDistance (v.extractLsb' 16 10).toNat s.rct.completion.head s.rct.completion.size))
        ∨ ∃ r : ArrivalId, (v.extractLsb' 0 4).toNat = r.val + 9
            ∧ ((s.arrival r).state = .closed ∨ (s.arrival r).size ≤ (v.extractLsb' 16 10).toNat
              ∨ ringDistance (s.arrival r).tail (s.arrival r).head (s.arrival r).size
                  < ringDistance (v.extractLsb' 16 10).toNat (s.arrival r).head (s.arrival r).size)) →
        exec (.release v) s = .next { s with hp := { s.hp with cause := s.hp.cause ||| 0x80#9 } }

/-- The causes (R185). A write to CAUSE clears each cause whose bit is written as 1 and leaves the others, and nothing
else changes. A cause once set stays set until a write to CAUSE clears it or a reset does: the reset pin, a CONTROL
write with SOFT_RESET, or the time the engine is RESETTING (R190, R191). -/
def Obligations.Causes : Prop :=
  (∀ (v : Word) (s : State), s.hp.pinAsserted = false → s.hp.engine ≠ .resetting →
      ∃ cause : BitVec 9, exec (.causeWrite v) s = .next { s with hp := { s.hp with cause := cause } }
        ∧ ∀ i < 9, cause.getLsbD i = (s.hp.cause.getLsbD i && !v.getLsbD i))
    ∧ (∀ (c : Instr) (s t : State) (i : Nat), exec c s = .next t → writesCause c = false → startsReset c = false →
        s.hp.engine ≠ .resetting → s.hp.cause.getLsbD i = true → t.hp.cause.getLsbD i = true)

/-- MASK and the interrupt line (R186, R190, R191): a write replaces all nine bits and a read returns them; the line is
active exactly while some cause is set and unmasked (and the reset pin is not asserted, R191), whatever the engine
state, and changes in no event that changes neither CAUSE, MASK nor the pin; after either reset both are 0 and the line
inactive, and MASK stays 0 until it is written. -/
def Obligations.MaskAndInterruptLine : Prop :=
  (∀ (v : Word) (s : State), s.hp.pinAsserted = false → s.hp.engine ≠ .resetting →
      ∃ mask : BitVec 9, exec (.maskWrite v) s = .next { s with hp := { s.hp with mask := mask } }
        ∧ ∀ i < 9, mask.getLsbD i = v.getLsbD i)
    ∧ (∀ (s : State) (i : Nat), (s.readRegister .mask).getLsbD i = s.hp.mask.getLsbD i)
    ∧ (∀ s : State, s.irq = true ↔
      s.hp.pinAsserted = false ∧ ∃ i < 9, s.hp.cause.getLsbD i = true ∧ s.hp.mask.getLsbD i = true)
    ∧ (∀ s t : State, exec .resetPinAssert s = .next t ∨ s.hp.engine = .resetting ∧ exec .softResetComplete s = .next t →
      t.hp.cause = 0 ∧ t.hp.mask = 0 ∧ t.irq = false)
    ∧ (∀ s : State, s.hp.mask = 0 → s.irq = false)
    ∧ (∀ (c : Instr) (s t : State), exec c s = .next t → (∀ v, c ≠ .maskWrite v ∧ c ≠ .registerWrite .mask .word v) →
      t.hp.mask = s.hp.mask ∨ t.hp.mask = 0)
    ∧ ∀ (c : Instr) (s t : State), exec c s = .next t → t.hp.cause = s.hp.cause → t.hp.mask = s.hp.mask →
      t.hp.pinAsserted = s.hp.pinAsserted → t.irq = s.irq

/-- The window (R175, R191). That writes while the reset pin is asserted are ignored, where the spec has the window not
accessible, is the model's choice (log entry 11), and that a 32-bit REGISTER_WRITE is its register's own row is the
model's reading of the table (log entry 21). A write narrower than 32 bits, a write to STATUS, and any write while
RESETTING or while the reset pin is asserted, is ignored; a 32-bit write to another register is what that register's own
row gives, a write to MASK for example replacing the nine bits. -/
def Obligations.RegisterWindow : Prop :=
  (∀ (r : Register) (w : AccessWidth) (v : Word) (s : State),
      w ≠ .word ∨ r = .status ∨ s.hp.engine = .resetting ∨ s.hp.pinAsserted = true →
        exec (.registerWrite r w v) s = .next s)
    ∧ (∀ (v : Word) (s : State), s.hp.pinAsserted = false → s.hp.engine ≠ .resetting →
      exec (.registerWrite .mask .word v) s = .next { s with hp := { s.hp with mask := v.extractLsb' 0 9 } })
    ∧ ∀ (v : Word) (s : State),
      exec (.registerWrite .control .word v) s = exec (.softReset v) s
        ∧ exec (.registerWrite .control .word v) s = exec (.enable v) s
        ∧ exec (.registerWrite .bootLo .word v) s = exec (.bootLoWrite v) s
        ∧ exec (.registerWrite .bootHi .word v) s = exec (.bootHiWrite v) s
        ∧ exec (.registerWrite .post .word v) s = exec (.post v) s
        ∧ exec (.registerWrite .release .word v) s = exec (.release v) s
        ∧ exec (.registerWrite .cause .word v) s = exec (.causeWrite v) s
        ∧ exec (.registerWrite .mask .word v) s = exec (.maskWrite v) s

/-- What a read of every register returns (R175, R176, R177, R178, R185, R186, R195, 11.9), for a pool whose counts are
in their range: STATUS by field with its reserved bits 0, CONTROL with its thirty reserved bits 0, the two halves of the
boot address, 0 for POST and RELEASE, and in CAUSE and MASK one bit for each cause with the upper bits 0. A narrow read
returns the addressed bytes and nothing above them. Every value of the four coded fields of STATUS is spelled. That a
read while the reset pin is asserted answers so too is the model's choice (log entry 28), and so is what a read that is
not aligned to its width returns: a half-word read at offset 1 bytes 1 and 2, at offset 3 the top byte with a zero byte
above it, a word read the whole register (log entry 31). -/
def Obligations.RegisterReads : Prop :=
  ∀ s : State, s.cp.txInUse ≤ 28 → s.cp.rxInUse ≤ 28 →
    ((s.readRegister .status).extractLsb' 29 3 = 1#3
      ∧ ((s.readRegister .status).extractLsb' 24 5).toNat = s.cp.rxInUse
      ∧ ((s.readRegister .status).extractLsb' 16 5).toNat = s.cp.txInUse
      ∧ (s.readRegister .status).getLsbD 13 = s.le.fault
      ∧ (s.readRegister .status).getLsbD 12 = s.le.muted
      ∧ (s.readRegister .status).extractLsb' 8 4 = s.le.phase.code
      ∧ (s.readRegister .status).extractLsb' 6 2 = s.le.mode.code
      ∧ (s.readRegister .status).extractLsb' 4 2 = s.hp.haltReason.code
      ∧ (s.readRegister .status).extractLsb' 0 3 = s.hp.engine.code
      ∧ (s.readRegister .status) &&& 0x00E0C008#32 = 0)
    ∧ ([EngineState.reset, .loading, .running, .halted, .resetting].map EngineState.code = [0, 1, 2, 3, 4]
      ∧ [HaltReason.noReason, .bootRead, .bootInvalid, .crWrite].map HaltReason.code = [0, 1, 2, 3]
      ∧ [LineMode.offline, .listen, .online, .loopback].map LineMode.code = [0, 1, 2, 3]
      ∧ [Phase.off, .joining, .idle, .arbitrating, .sending, .windowOut, .receiving, .recovering, .fault].map Phase.code
        = [0, 1, 2, 3, 4, 5, 6, 7, 8])
    ∧ ((s.readRegister .control).getLsbD 0 = s.hp.enabled
      ∧ ((s.readRegister .control).getLsbD 1 = true ↔ s.hp.engine = .resetting)
      ∧ (s.readRegister .control).extractLsb' 2 30 = 0)
    ∧ ((s.readRegister .bootLo).extractLsb' 6 26 = s.hp.bootLo ∧ (s.readRegister .bootLo).extractLsb' 0 6 = 0
      ∧ s.readRegister .bootHi = s.hp.bootHi)
    ∧ (s.readRegister .post = 0 ∧ s.readRegister .release = 0)
    ∧ ((s.readRegister .cause).extractLsb' 0 9 = s.hp.cause ∧ (s.readRegister .cause).extractLsb' 9 23 = 0
      ∧ (s.readRegister .mask).extractLsb' 0 9 = s.hp.mask ∧ (s.readRegister .mask).extractLsb' 9 23 = 0
      ∧ ∀ c : Cause, (s.readRegister .cause).getLsbD c.bit = s.causeSet c)
    ∧ (∀ (r : Register) (byte : Fin 4),
        (s.readNarrow r byte .byte).extractLsb' 0 8 = (s.readRegister r).extractLsb' (8 * byte.val) 8
          ∧ (s.readNarrow r byte .byte).extractLsb' 8 24 = 0)
    ∧ (∀ (r : Register) (byte : Fin 4),
        (s.readNarrow r byte .half).extractLsb' 0 16 = (s.readRegister r).extractLsb' (8 * byte.val) 16
          ∧ (s.readNarrow r byte .half).extractLsb' 16 16 = 0)
    ∧ ∀ (r : Register) (byte : Fin 4), s.readNarrow r byte .word = s.readRegister r

/-! ## Boot and bus -/

/-- The end of the boot block read (R180, R181, R182, 11.7). A valid block opens AR and CR from its fields, starts the
tick at 0 and gives RUNNING; an invalid block and a host-bus error give HALTED with their halt reasons and the HALT
cause. The five checks are spelled out. -/
def Obligations.BootReadEnds : Prop :=
  (∀ r : Record, (bootBlockOf r).isSome = true ↔
      word r 0 = 0x534C3442#32 ∧ (∃ k, 3 ≤ k ∧ k ≤ 10 ∧ (half r 16).toNat = 2 ^ k)
        ∧ (∃ k, 3 ≤ k ∧ k ≤ 10 ∧ (half r 32).toNat = 2 ^ k) ∧ (addr r 8).toNat % 64 = 0
        ∧ (addr r 24).toNat % 32 = 0 ∧ 1 ≤ (byteAt r 34).toNat ∧ (byteAt r 34).toNat ≤ 64)
    ∧ (∀ (r : Record) (b : BootBlock), bootBlockOf r = some b →
      b = { arBase := addr r 8, arSize := (half r 16).toNat, crBase := addr r 24, crSize := (half r 32).toNat,
            crCount := (byteAt r 34).toNat, crDelay := byteAt r 35 })
    ∧ (∀ (r : Record) (b : BootBlock) (s : State), UnbootedSound s → s.hp.engine = .loading → bootBlockOf r = some b →
      exec (.bootReadEnd (.data r)) s = .next
        { s with
          hp := { s.hp with engine := .running, onBus := none },
          rct := { s.rct with
            admin := { s.rct.admin with state := .opened, base := b.arBase, size := b.arSize },
            completion := { s.rct.completion with
              state := .opened, base := b.crBase, size := b.crSize, count := b.crCount, delay := b.crDelay } },
          sch := { s.sch with tick := 0, tickRunning := true } })
    ∧ ∀ (result : ReadEnd) (s : State), UnbootedSound s → s.hp.engine = .loading →
      (∀ r, result = .data r → bootBlockOf r = none) →
        exec (.bootReadEnd result) s = .next
          { s with
            hp := { s.hp with
              engine := .halted, haltReason := if result = .busError then .bootRead else .bootInvalid, onBus := none,
              cause := s.hp.cause ||| 0x100#9 } }

/-- The arbiter (R187, R189). With a transfer on the bus it does nothing. With the bus free it passes the first request
from its pointer that the engine state lets pass (every request in RUNNING, reads alone in HALTED, none elsewhere) and
moves the pointer past it; with no such request it does nothing. In RUNNING a waiting request that is not the one
granted comes nearer to the pointer: it is passed after at most three others. The requesters' order, and whose transfer
stands on the bus, are spelled. -/
def Obligations.ArbiterRoundRobin : Prop :=
  ((Requester.next .fe = .ae ∧ Requester.next .ae = .aw ∧ Requester.next .aw = .cw ∧ Requester.next .cw = .fe)
      ∧ ∀ (o : BusOwner) (d : Direction) (s : State), onBusOf o d s = true ↔
        ∃ t, s.hp.onBus = some (o, t) ∧ t.direction = d)
    ∧ (∀ s : State, s.hp.onBus ≠ none → arbitrate s = s)
    ∧ (∀ s : State, s.hp.onBus = none →
      (∀ (q : Requester) (t : Transfer), s.hp.waiting.get q = some t →
        s.hp.engine ≠ .running ∧ (s.hp.engine = .halted → t.direction = .write)) → arbitrate s = s)
    ∧ (∀ (k : Nat) (t : Transfer) (s : State), s.hp.onBus = none → k < 4 →
      s.hp.waiting.get (Requester.next^[k] s.hp.pointer) = some t →
      (s.hp.engine = .running ∨ s.hp.engine = .halted ∧ t.direction = .read) →
      (∀ j < k, ∀ u, s.hp.waiting.get (Requester.next^[j] s.hp.pointer) = some u →
        s.hp.engine = .halted ∧ u.direction = .write) →
        arbitrate s =
          { s with
            hp := { s.hp with
              onBus := some (.requester (Requester.next^[k] s.hp.pointer), t),
              waiting := s.hp.waiting.put none (Requester.next^[k] s.hp.pointer),
              pointer := Requester.next^[k + 1] s.hp.pointer } })
    ∧ ∀ (k : Nat) (t : Transfer) (s : State), s.hp.onBus = none → s.hp.engine = .running → k < 4 →
      s.hp.waiting.get (Requester.next^[k] s.hp.pointer) = some t →
        (arbitrate s).hp.onBus = some (.requester (Requester.next^[k] s.hp.pointer), t)
          ∨ ((arbitrate s).hp.onBus ≠ none
            ∧ (arbitrate s).hp.waiting.get (Requester.next^[k] s.hp.pointer) = some t
            ∧ ∃ j < k, Requester.next^[j] (arbitrate s).hp.pointer = Requester.next^[k] s.hp.pointer)

/-! ## Send rings and fetch -/

/-- FETCH_END (R120, R122, R42, R58). The ring's head advances and its flag clears, a host-bus error on a ring that is
not DRAINING faults it; the cell takes its verdict (FLUSH on a DRAINING ring, else FETCH_FAILED or INVALID, none for a
valid record) and its fields, joins the tail of its class list, with the other lists and the passed-over counts as they
were, and leaves at once with a verdict when it is ring-oldest; the fetch engine takes its next decision. The decisions
at the event's end are taken in the model's order (`conclude`, log entry 5). -/
def Obligations.FetchEnds : Prop :=
  (∀ (result : ReadEnd) (f : Fetch) (s : State), onBusOf (.requester .fe) .read s = true → s.hp.engine ≠ .resetting →
      s.fe.inFlight = some f →
        exec (.fetchEnd result) s =
          .next (conclude (fetchDecision (verdictDepartures f.ring (joinTail (s.send f.ring).cls f.cell
            (State.updTx f.cell
              (fun c => filledCell c (fetchVerdict (s.send f.ring).state result) result s.ae.defaultBudget s.sch.tick)
              (State.updSend f.ring
                (fun r => { r with
                  head := nextIndex r.head r.size, fetchInFlight := false,
                  state := if result = .busError ∧ r.state ≠ .draining then .faulted else r.state })
                { s with hp := { s.hp with onBus := none }, fe := { s.fe with inFlight := none } }))))))
          )
    ∧ (∀ (cls : ClassId) (id : CellId) (s : State),
      joinTail cls id s =
        { s with sch := { s.sch with lists := s.sch.lists.set cls.val (s.classList cls ++ [id]) } })
    ∧ (∀ i n : Nat, nextIndex i n = (i + 1) % n)
    ∧ (∀ (st : RingState) (r : Record),
      fetchVerdict .draining (.data r) = some .flush ∧ fetchVerdict .draining .busError = some .flush
        ∧ (st ≠ .draining → fetchVerdict st .busError = some .fetchFailed
          ∧ (sendRecordValid r = true → fetchVerdict st (.data r) = none)
          ∧ (sendRecordValid r = false → fetchVerdict st (.data r) = some .invalid)))
    ∧ (∀ (c : TxCell) (r : Record) (b : BitVec 4) (tick : Word), sendRecordValid r = true →
      filledCell c none (.data r) b tick =
        { c with
          target := byteAt r 0, topic := (byteAt r 1).setWidth 6,
          mode := if byteAt r 2 = 0 then .noWindow else if byteAt r 2 = 1 then .single else .roll,
          expect := byteAt r 3, length := (byteAt r 5).toNat,
          payload := (r.toList.drop 32).take (byteAt r 5).toNat, tag := word r 8,
          budget := if byteAt r 4 = 0 then b else (byteAt r 4).setWidth 4,
          deadline := if half r 6 = 0 then none else some (tick + (half r 6).setWidth 32) })
    ∧ ∀ (c : TxCell) (v : Verdict) (r : Record) (b : BitVec 4) (tick : Word),
      filledCell c (some v) (.data r) b tick = { c with tag := word r 8, verdict := some v }
        ∧ filledCell c (some v) .busError b tick = { c with verdict := some v }

/-- The validation of a send record (R121, R193, 11.2): reserved bytes and bits 0, a legal mode, a length of at most 32, an
expect mask only with ROLL, and no SINGLE record to all nodes or to a group. -/
def Obligations.SendRecordValidation : Prop :=
  ∀ r : Record, sendRecordValid r = true ↔
    (∀ i, 12 ≤ i → i < 32 → byteAt r i = 0)
      ∧ (byteAt r 1).toNat < 64 ∧ (byteAt r 2).toNat < 3 ∧ (byteAt r 4).toNat < 16 ∧ (byteAt r 5).toNat ≤ 32
      ∧ (byteAt r 3 ≠ 0 → byteAt r 2 = 2)
      ∧ (byteAt r 2 = 1 → 1 ≤ (byteAt r 0).toNat ∧ (byteAt r 0).toNat ≤ 239)

/-- The fetch decision (R117, R118, R119, R24, R25, R31, R34). It visits the send rings from the pointer. A ring is
eligible when it is OPEN, has no fetch in flight, and its tail stands off its head. Eligible rings of classes 1 to 3
refused for the reserve are passed by; the first eligible ring whose claim is granted has its fetch begun; a claim
refused at the limit ends the visit. A refusal leaves the engine waiting and a notice owed. A room notice takes the
decision again. When a fetch begins, the free cell is a fresh transmit cell of the ring's head record and class, the
counts and the ring's cells held rise by one, the pointer moves past the ring, and one read at base + 64 × head, modulo
2^64 (the model's choice, log entry 12), waits; every other cell and ring context is as before. -/
def Obligations.FetchDecision : Prop :=
  ((∀ (r : SendId) (s : State), fetchEligible s r = true ↔
        (s.send r).state = .opened ∧ (s.send r).fetchInFlight = false
          ∧ ringDistance (s.send r).tail (s.send r).head (s.send r).size ≠ 0)
      ∧ (∀ a b n : Nat, ringDistance a b n = (a + n - b) % n))
    ∧ ((∀ s : State, s.hp.engine ≠ .running ∨ s.fe.inFlight ≠ none → fetchDecision s = s)
      ∧ (∀ (k : Nat) (id : CellId) (s : State), s.hp.engine = .running → s.fe.inFlight = none → k < 8 →
        (∀ j < k, fetchEligible s (s.fe.pointer + Fin.ofNat 8 j) = true →
          s.cp.txInUse < s.cp.txLimit ∧ (s.send (s.fe.pointer + Fin.ofNat 8 j)).cls ≠ 0
            ∧ s.cp.txLimit ≤ s.cp.lowInUse + 2) →
        fetchEligible s (s.fe.pointer + Fin.ofNat 8 k) = true → s.cp.txInUse < s.cp.txLimit →
        ((s.send (s.fe.pointer + Fin.ofNat 8 k)).cls = 0 ∨ s.cp.lowInUse + 2 < s.cp.txLimit) → lowestFree s = some id →
          ∃ owed : Bool, (owed = true ↔ s.cp.noticeOwed = true
              ∨ ∃ j < k, fetchEligible s (s.fe.pointer + Fin.ofNat 8 j) = true)
            ∧ fetchDecision s =
              beginFetch (s.fe.pointer + Fin.ofNat 8 k) id { s with cp := { s.cp with noticeOwed := owed } })
      ∧ (∀ (k : Nat) (s : State), s.hp.engine = .running → s.fe.inFlight = none → k < 8 →
        (∀ j < k, fetchEligible s (s.fe.pointer + Fin.ofNat 8 j) = false) →
        fetchEligible s (s.fe.pointer + Fin.ofNat 8 k) = true → s.cp.txLimit ≤ s.cp.txInUse →
          fetchDecision s = { s with cp := { s.cp with noticeOwed := true }, fe := { s.fe with waiting := true } })
      ∧ (∀ s : State, s.hp.engine = .running → s.fe.inFlight = none →
        (∀ r : SendId, fetchEligible s r = true →
          s.cp.txInUse < s.cp.txLimit ∧ (s.send r).cls ≠ 0 ∧ s.cp.txLimit ≤ s.cp.lowInUse + 2) →
          ∃ refused : Bool, (refused = true ↔ ∃ r : SendId, fetchEligible s r = true)
            ∧ fetchDecision s =
              { s with
                cp := { s.cp with noticeOwed := s.cp.noticeOwed || refused }, fe := { s.fe with waiting := refused } })
      ∧ ∀ s : State, roomNotice s =
        if s.cp.noticeOwed = true then fetchDecision { s with cp := { s.cp with noticeOwed := false } } else s)
    ∧ (∀ (r : SendId) (id : CellId) (s : State),
        beginFetch r id s =
          { s with
            hp := { s.hp with
              waiting := s.hp.waiting.put
                (some { direction := .read, address := (s.send r).base + BitVec.ofNat 64 (64 * (s.send r).head),
                        bytes := [] }) .fe },
            fe := { pointer := r + 1, inFlight := some { ring := r, index := (s.send r).head, cell := id },
                    waiting := false },
            cp := { s.cp with
              cells := s.cp.cells.set id.val (.tx
                { ring := r, index := (s.send r).head, cls := (s.send r).cls, target := 0, topic := 0, mode := .noWindow,
                  length := 0, payload := [], expect := 0, tag := 0, budget := 4, attemptsUsed := 0, lostCount := 0,
                  deadline := none, verdict := none, lastFailure := .noFailure, responses := [] }),
              txInUse := s.cp.txInUse + 1,
              lowInUse := if (s.send r).cls = 0 then s.cp.lowInUse else s.cp.lowInUse + 1 },
            rct := { s.rct with
              send := s.rct.send.set r.val
                { s.send r with held := (s.send r).held + 1, fetchInFlight := true } } })

/-! ## The administrative ring -/

/-- The admin record and the command agree (R159, R161, 11.3). The record that spells a command under a tag, with every
reserved byte 0, reads back as that command and that tag, and the end of its fetch does what the command's own row does;
and a record read as a command with its reserved bytes 0 is the one that spells it, so that no byte is dropped. The
record of each command is written out: its code, the tag at offset 4, its parameters at their offsets from 8 on,
multi-byte fields least significant byte first, and 0 in every other byte. That a command's row is this event is the
model's reading (log entry 2). -/
def Obligations.AdminRecordSpellsCommand : Prop :=
  (∀ (tag : Word) (c : AdminCommand),
      adminTag (adminRecord tag c) = tag ∧ readAdminRecord (adminRecord tag c) = .command c true)
    ∧ (∀ (r : Record) (c : AdminCommand), readAdminRecord r = .command c true → r = adminRecord (adminTag r) c)
    ∧ (∀ (tag : Word) (code : Byte) (parameters zeros : List Byte) (c : AdminCommand),
      ((∃ p : NodeSetForm, c = .nodeSet p ∧ code = 1
          ∧ parameters =
            [p.nodeId, p.rateCode, p.defaultBudget, p.yieldValue, p.txLimit, p.rxLimit, p.rxHold])
        ∨ (∃ mode : Byte, c = .lineMode mode ∧ code = 2 ∧ parameters = [mode])
        ∨ (∃ p : OpenSendForm, c = .openSend p ∧ code = 3
          ∧ parameters =
            [p.ring, p.cls, p.size.extractLsb' 0 8, p.size.extractLsb' 8 8, 0, 0, 0, 0,
              p.base.extractLsb' 0 8, p.base.extractLsb' 8 8, p.base.extractLsb' 16 8, p.base.extractLsb' 24 8,
              p.base.extractLsb' 32 8, p.base.extractLsb' 40 8, p.base.extractLsb' 48 8, p.base.extractLsb' 56 8])
        ∨ (∃ p : OpenArrivalForm, c = .openArrival p ∧ code = 4
          ∧ parameters =
            [p.ring, p.count, p.size.extractLsb' 0 8, p.size.extractLsb' 8 8, p.delay, 0, 0, 0,
              p.base.extractLsb' 0 8, p.base.extractLsb' 8 8, p.base.extractLsb' 16 8, p.base.extractLsb' 24 8,
              p.base.extractLsb' 32 8, p.base.extractLsb' 40 8, p.base.extractLsb' 48 8, p.base.extractLsb' 56 8])
        ∨ (∃ ring : Byte, c = .closeRing ring ∧ code = 5 ∧ parameters = [ring])
        ∨ (∃ (index : Byte) (f : EntryForm), c = .filterWrite index f ∧ code = 6
          ∧ parameters =
            [index, f.flags, f.action, f.ring, f.slot, f.reply, f.targetValue, f.targetMask, f.topicValue,
              f.topicMask, f.sourceValue, f.sourceMask])
        ∨ (∃ index : Byte, c = .filterRead index ∧ code = 7 ∧ parameters = [index])
        ∨ ∃ (clear : Byte) (a : Addr), c = .countsRead clear a ∧ code = 8
          ∧ parameters =
            [clear, 0, 0, 0, 0, 0, 0, 0,
              a.extractLsb' 0 8, a.extractLsb' 8 8, a.extractLsb' 16 8, a.extractLsb' 24 8,
              a.extractLsb' 32 8, a.extractLsb' 40 8, a.extractLsb' 48 8, a.extractLsb' 56 8]) →
      zeros = List.replicate (56 - parameters.length) 0 →
        (adminRecord tag c).toList =
          [code, 0, 0, 0, tag.extractLsb' 0 8, tag.extractLsb' 8 8, tag.extractLsb' 16 8, tag.extractLsb' 24 8]
            ++ parameters ++ zeros)
    ∧ ∀ (tag : Word) (c : AdminCommand) (quiet : Nat) (s : State),
      ∃ t, exec (.adminFetchEnd (.data (adminRecord tag c)) quiet) s = .next t
        ∧ exec (commandRow tag quiet c) s = .next t

/-- Admin records that execute no command (R160, R161, R173, R193). A host-bus error faults AR and gives a FETCH_FAILED
result with tag 0; a command code that is not 1 to 8 gives UNKNOWN_COMMAND; in HALTED a record read gives no command and
no result. A parameter out of range or a reserved byte not 0 gives INVALID_FIELD; then a state that does not hold gives
WRONG_STATE. The reserved bytes are bytes 1 to 3 and every byte from 8 on that is no parameter of the command. In each
case AR's head has moved past the record, the admin engine is IDLE, and nothing else is done. In HALTED the record's
read moves the head and gives nothing (log entry 16). That a command's row is the end of its record's fetch is the
model's reading (log entry 2). The decisions at the event's end are taken in the model's order (`conclude`, log entry
5). -/
def Obligations.AdminCommandRefused : Prop :=
  ((∀ (quiet : Nat) (s : State), onBusOf (.requester .ae) .read s = true → s.ae.phase = .fetching →
        s.hp.engine ≠ .resetting →
          exec (.adminFetchEnd .busError quiet) s =
            .next (conclude ((adminResulted 0 .fetchFailed [] s).updAdmin (fun r => { r with state := .faulted }))))
      ∧ (∀ (r : Record) (quiet : Nat) (s : State), AdminFetchDue s →
        (byteAt r 0 = 0 ∨ 8 < (byteAt r 0).toNat) →
          exec (.adminFetchEnd (.data r) quiet) s = .next (conclude (adminResulted (word r 4) .unknownCommand [] s)))
      ∧ ∀ (r : Record) (quiet : Nat) (s : State), onBusOf (.requester .ae) .read s = true → s.ae.phase = .fetching →
        s.hp.engine = .halted →
          exec (.adminFetchEnd (.data r) quiet) s =
            .next (conclude
              { adminRecordRead s with ae := { s.ae with phase := .idle, current := none, awaited := .nothing } }))
    ∧ ((∀ (tag : Word) (c : AdminCommand) (quiet : Nat) (s : State), AdminFetchDue s →
          (adminInRange c = false →
            exec (commandRow tag quiet c) s = .next (conclude (adminResulted tag .invalidField [] s)))
            ∧ (adminInRange c = true → adminStateHolds s c = false →
              exec (commandRow tag quiet c) s = .next (conclude (adminResulted tag .wrongState [] s))))
        ∧ (∀ (c : AdminCommand) (i : Nat), i ∈ adminReservedOffsets c ↔
          1 ≤ i ∧ i ≤ 3 ∨ i ≤ 63
            ∧ (match c with
               | .nodeSet _ => 15 ≤ i
               | .lineMode _ | .closeRing _ | .filterRead _ => 9 ≤ i
               | .openSend _ => 12 ≤ i ∧ i ≤ 15 ∨ 24 ≤ i
               | .openArrival _ => 13 ≤ i ∧ i ≤ 15 ∨ 24 ≤ i
               | .filterWrite _ _ => 20 ≤ i
               | .countsRead _ _ => 9 ≤ i ∧ i ≤ 15 ∨ 24 ≤ i))
        ∧ ∀ (r : Record) (c : AdminCommand) (i : Nat) (quiet : Nat) (s : State), AdminFetchDue s →
          adminCommandOf r = some c → i ∈ adminReservedOffsets c → byteAt r i ≠ 0 →
            exec (.adminFetchEnd (.data r) quiet) s = .next (conclude (adminResulted (word r 4) .invalidField [] s)))

/-- The ranges and the states the commands are judged by, spelled out (R164 to R172, 11.5). -/
def Obligations.AdminRangesAndStates : Prop :=
  (∀ p : NodeSetForm, adminInRange (.nodeSet p) = true ↔
      p.nodeId.toNat ≤ 239 ∧ p.rateCode.toNat ≤ 2 ∧ 1 ≤ p.defaultBudget.toNat ∧ p.defaultBudget.toNat ≤ 15
        ∧ p.yieldValue.toNat ≤ 15 ∧ 4 ≤ p.txLimit.toNat ∧ p.txLimit.toNat ≤ 28 ∧ 4 ≤ p.rxLimit.toNat
        ∧ p.rxLimit.toNat ≤ 28 ∧ p.txLimit.toNat + p.rxLimit.toNat ≤ 32 ∧ 1 ≤ p.rxHold.toNat
        ∧ p.rxHold.toNat ≤ p.rxLimit.toNat)
    ∧ (∀ code : Byte, adminInRange (.lineMode code) = true ↔ code.toNat ≤ 3)
    ∧ (∀ p : OpenSendForm, adminInRange (.openSend p) = true ↔
      1 ≤ p.ring.toNat ∧ p.ring.toNat ≤ 8 ∧ p.base.toNat % 64 = 0
        ∧ (∃ k, 3 ≤ k ∧ k ≤ 10 ∧ p.size.toNat = 2 ^ k) ∧ p.cls.toNat ≤ 3)
    ∧ (∀ p : OpenArrivalForm, adminInRange (.openArrival p) = true ↔
      9 ≤ p.ring.toNat ∧ p.ring.toNat ≤ 12 ∧ p.base.toNat % 64 = 0
        ∧ (∃ k, 3 ≤ k ∧ k ≤ 10 ∧ p.size.toNat = 2 ^ k) ∧ 1 ≤ p.count.toNat ∧ p.count.toNat ≤ 64)
    ∧ (∀ ring : Byte, adminInRange (.closeRing ring) = true ↔ 1 ≤ ring.toNat ∧ ring.toNat ≤ 12)
    ∧ (∀ (index : Byte) (f : EntryForm), adminInRange (.filterWrite index f) = true ↔
      index.toNat ≤ 31 ∧ f.flags.toNat < 4 ∧ f.action.toNat ≤ 2 ∧ f.ring.toNat ≤ 3 ∧ f.slot.toNat ≤ 7
        ∧ f.topicValue.toNat ≤ 63 ∧ f.topicMask.toNat ≤ 63)
    ∧ (∀ index : Byte, adminInRange (.filterRead index) = true ↔ index.toNat ≤ 31)
    ∧ (∀ (clear : Byte) (a : Addr), adminInRange (.countsRead clear a) = true ↔ clear.toNat ≤ 1 ∧ a.toNat % 32 = 0)
    ∧ (∀ (p : NodeSetForm) (s : State), adminStateHolds s (.nodeSet p) = true ↔ s.le.mode = .offline)
    ∧ (∀ (code : Byte) (s : State), adminStateHolds s (.lineMode code) = true ↔ ¬(code = 2 ∧ s.ae.nodeId = 0))
    ∧ (∀ (p : OpenSendForm) (r : SendId) (s : State), p.ring.toNat = r.val + 1 →
      (adminStateHolds s (.openSend p) = true ↔ (s.send r).state = .closed))
    ∧ (∀ (p : OpenArrivalForm) (r : ArrivalId) (s : State), p.ring.toNat = r.val + 9 →
      (adminStateHolds s (.openArrival p) = true ↔ (s.arrival r).state = .closed))
    ∧ (∀ (ring : Byte) (r : SendId) (s : State), ring.toNat = r.val + 1 →
      (adminStateHolds s (.closeRing ring) = true ↔ (s.send r).state ≠ .closed))
    ∧ ∀ (ring : Byte) (r : ArrivalId) (s : State), ring.toNat = r.val + 9 →
      (adminStateHolds s (.closeRing ring) = true ↔ (s.arrival r).state ≠ .closed)

/-- NODE_SET (R164, R36, R34). With a new limit below the use it bounds it gives LIMIT_BELOW_USE and changes nothing. Taken,
it replaces the three limits and the four values together and gives DONE; when it raises TX_LIMIT while a notice is owed,
the fetch engine takes a decision in the same event.
That a command's row is the end of its record's fetch is the model's reading (log entry 2).
The decisions at the event's end are taken in the model's order (`conclude`, log entry 5). -/
def Obligations.NodeSet : Prop :=
  ∀ (tag : Word) (p : NodeSetForm) (s : State), AdminFetchDue s → adminInRange (.nodeSet p) = true →
    s.le.mode = .offline →
      ((p.txLimit.toNat < s.cp.txInUse ∨ p.txLimit.toNat < s.cp.lowInUse + 2 ∨ p.rxLimit.toNat < s.cp.rxInUse) →
        exec (.nodeSet tag p) s = .next (conclude (adminResulted tag .limitBelowUse [] s)))
      ∧ (s.cp.txInUse ≤ p.txLimit.toNat → s.cp.lowInUse + 2 ≤ p.txLimit.toNat → s.cp.rxInUse ≤ p.rxLimit.toNat →
        (p.txLimit.toNat ≤ s.cp.txLimit ∨ s.cp.noticeOwed = false →
          exec (.nodeSet tag p) s = .next (conclude
            { adminResulted tag .done [] s with
              cp := { s.cp with
                txLimit := p.txLimit.toNat, rxLimit := p.rxLimit.toNat, rxHold := p.rxHold.toNat },
              ae := { s.ae with
                phase := .idle, current := none, awaited := .nothing, nodeId := p.nodeId,
                rate := if p.rateCode = 0 then .kbit20 else if p.rateCode = 1 then .kbit50 else .kbit100,
                defaultBudget := p.defaultBudget.setWidth 4, yieldValue := p.yieldValue.setWidth 4 } }))
        ∧ (s.cp.txLimit < p.txLimit.toNat → s.cp.noticeOwed = true →
          exec (.nodeSet tag p) s = .next (conclude (endCommand .done [] (fetchDecision
            { adminWaits tag (.nodeSet p) s.ae.awaited s with
              cp := { s.cp with
                txLimit := p.txLimit.toNat, rxLimit := p.rxLimit.toNat, rxHold := p.rxHold.toNat,
                noticeOwed := false },
              ae := { s.ae with
                phase := .executing,
                current := some { tag := tag, index := s.rct.admin.head, command := .nodeSet p },
                nodeId := p.nodeId,
                rate := if p.rateCode = 0 then .kbit20 else if p.rateCode = 1 then .kbit50 else .kbit100,
                defaultBudget := p.defaultBudget.setWidth 4, yieldValue := p.yieldValue.setWidth 4 } })))))

/-- LINE_MODE (R165, R85, R86, R66, R48). Inside a frame the mode is held as pending and the command waits. In a
boundary phase of a RUNNING engine the mode is in effect in the same event, with the run and the muted flag cleared and
DONE reported. The phase, the fault flag, the LINE cause and TXD follow R86: OFFLINE and LOOPBACK clear the fault flag,
OFFLINE with a LINE cause if it was set, LOOPBACK with the LINE cause of its join; a quiet run that stands at 8 bit
times ends JOINING at once, with LINE; OFFLINE releases TXD. The quiet run is 8 bit times in LOOPBACK (R83), starts from
0 when LISTEN or ONLINE is taken from OFFLINE or LOOPBACK (R66), is kept in phase OFF, where none is measured (log entry
3), and stands as measured otherwise. A pending mode is taken so at any boundary phase (`atBoundary`). An offered cell
whose SOF has not been reported leaves the offer slot on a change out of ONLINE or LOOPBACK and joins the head of its
class list, unchanged; from there marked cells of its ring that are ring-oldest (`FlushAndDiscard`), the cell itself
with FLUSH among them, pass to the completion pending list (R40), before the DONE by the model's choice of an order that
R146 leaves open (DESIGN CHOICE, log entry 27). AR's head moves past the command's record (R159). While HALTED a pending
mode is not taken: the engine goes to OFF in the mode in effect. That a command's row is the end of its record's fetch
is the model's reading (log entry 2). The decisions at the event's end are taken in the model's order (`conclude`, log
entry 5). -/
def Obligations.LineModeCommand : Prop :=
  (∀ (tag : Word) (m : LineMode) (quiet : Nat) (s : State), AdminFetchDue s → ¬(m = .online ∧ s.ae.nodeId = 0) →
      s.le.phase.isBoundary = false →
        exec (.lineMode tag (BitVec.ofNat 8 m.code.toNat) quiet) s = .next (conclude
          { adminWaits tag (.lineMode (BitVec.ofNat 8 m.code.toNat)) .modeReport s with
            le := { s.le with quietRun := quiet, pendingMode := some m } }))
    ∧ (∀ (tag : Word) (m : LineMode) (quiet : Nat) (s : State), AdminFetchDue s → ¬(m = .online ∧ s.ae.nodeId = 0) →
      s.le.phase.isBoundary = true → s.hp.engine = .running →
        ∃ u, exec (.lineMode tag (BitVec.ofNat 8 m.code.toNat) quiet) s = .next (conclude u)
          ∧ u = atBoundary
            { adminWaits tag (.lineMode (BitVec.ofNat 8 m.code.toNat)) .modeReport s with
              le := { s.le with
                quietRun := if s.le.phase = .off then s.le.quietRun else quiet, pendingMode := some m } }
          ∧ u.le.quietRun =
            (if m ≠ s.le.mode ∧ m = .loopback then 8 * s.ae.rate.bitCycles
             else if (m = .listen ∨ m = .online) ∧ m ≠ s.le.mode ∧ (s.le.mode = .offline ∨ s.le.mode = .loopback) then 0
             else if s.le.phase = .off then s.le.quietRun
             else quiet)
          ∧ u.le.mode = m ∧ u.le.muted = false ∧ u.le.errorRun = 0 ∧ u.le.pendingMode = none
          ∧ u.le.phase =
            (if m = s.le.mode then s.le.phase
             else if m = .offline then .off
             else if m = .loopback then .idle
             else if s.le.mode = .offline ∨ s.le.mode = .loopback then .joining
             else if s.le.phase = .fault then .fault
             else if 8 * s.ae.rate.bitCycles ≤ (if s.le.phase = .off then s.le.quietRun else quiet) then .idle
             else .joining)
          ∧ u.le.fault = (if m ≠ s.le.mode ∧ (m = .offline ∨ m = .loopback) then false else s.le.fault)
          ∧ u.hp =
            { s.hp with
              onBus := none,
              cause :=
                if m = s.le.mode then s.hp.cause
                else if m = .offline then (if s.le.fault = true then s.hp.cause ||| 0x20#9 else s.hp.cause)
                else if m = .loopback then s.hp.cause ||| 0x20#9
                else if s.le.mode = .offline ∨ s.le.mode = .loopback ∨ s.le.phase = .fault then s.hp.cause
                else if 8 * s.ae.rate.bitCycles ≤ (if s.le.phase = .off then s.le.quietRun else quiet) then
                  s.hp.cause ||| 0x20#9
                else s.hp.cause }
          ∧ u.le.txd = (if m ≠ s.le.mode ∧ m = .offline then .released else s.le.txd)
          ∧ u.le.counters = s.le.counters
          ∧ u.le.slot =
            (if (s.le.mode = .online ∨ s.le.mode = .loopback) ∧ m ≠ s.le.mode ∧ s.sch.sofReported = false
                ∧ (offeredCell s).isSome = true then none else s.le.slot)
          ∧ u.ae = { s.ae with phase := .idle, current := none, awaited := .nothing }
          ∧ u.rct =
            { s.rct with
              admin := { s.rct.admin with
                head := (s.rct.admin.head + 1) % s.rct.admin.size, fetchInFlight := false } }
          ∧ u.fe = s.fe ∧ u.au = s.au ∧ u.aw = s.aw ∧ u.cw.inFlight = s.cw.inFlight ∧ u.pending = s.pending
          ∧ (¬((s.le.mode = .online ∨ s.le.mode = .loopback) ∧ m ≠ s.le.mode ∧ s.sch.sofReported = false
                ∧ (offeredCell s).isSome = true) →
            u.sch = s.sch ∧ u.cp = s.cp
              ∧ u.cw.pending = s.cw.pending ++
                [.admin { status := .done, tag := tag, index := s.rct.admin.head, area := [] }])
          ∧ ∀ (id : CellId) (c : TxCell), s.le.mode = .online ∨ s.le.mode = .loopback → m ≠ s.le.mode →
            s.sch.sofReported = false → s.le.slot = some id → s.cell id = .tx c →
              ∃ w, w = verdictDepartures c.ring
                  { s with
                    le := { s.le with slot := none },
                    sch := { s.sch with lists := s.sch.lists.set c.cls.val (id :: s.classList c.cls) } }
                ∧ u.sch = w.sch ∧ u.cp = w.cp
                ∧ u.cw.pending = w.cw.pending ++
                  [.admin { status := .done, tag := tag, index := s.rct.admin.head, area := [] }]
                ∧ ((s.send c.ring).cls = c.cls →
                  (c.verdict = none →
                    w.classList c.cls = id :: s.classList c.cls ∧ w.sch.passed = s.sch.passed ∧ w.cp = s.cp
                      ∧ w.cw = s.cw)
                  ∧ (c.verdict = some .flush →
                    (id ∉ s.classList c.cls → id ∉ w.classList c.cls) ∧ w.cell id = .tx { c with deadline := none }
                      ∧ ∃ after, w.cw.pending = s.cw.pending ++ .cell id .flushed :: after)))
    ∧ ∀ (m : LineMode) (s : State), s.hp.engine = .halted → s.le.phase.isBoundary = true →
        (atBoundary { s with le := { s.le with pendingMode := some m } }).le.mode = s.le.mode
          ∧ (atBoundary { s with le := { s.le with pendingMode := some m } }).le.pendingMode = some m
          ∧ (atBoundary { s with le := { s.le with pendingMode := some m } }).le.phase = .off

/-- OPEN_SEND and OPEN_ARRIVAL (R114, R131, R166, R167): a CLOSED ring is OPEN with the parameters of the record and its
indices at 0, an arrival ring with lap tag 1 and nothing to notify; the result is DONE.
That a command's row is the end of its record's fetch is the model's reading (log entry 2).
The decisions at the event's end are taken in the model's order (`conclude`, log entry 5). -/
def Obligations.OpenRings : Prop :=
  (∀ (tag : Word) (p : OpenSendForm) (r : SendId) (s : State), AdminFetchDue s → adminInRange (.openSend p) = true →
      p.ring.toNat = r.val + 1 → (s.send r).state = .closed →
        exec (.openSend tag p) s = .next (conclude ((adminResulted tag .done [] s).updSend r (fun c =>
          { c with state := .opened, base := p.base, size := p.size.toNat, cls := Fin.ofNat 4 p.cls.toNat, head := 0,
                   tail := 0 }))))
    ∧ ∀ (tag : Word) (p : OpenArrivalForm) (r : ArrivalId) (s : State), AdminFetchDue s →
      adminInRange (.openArrival p) = true → p.ring.toNat = r.val + 9 → (s.arrival r).state = .closed →
        exec (.openArrival tag p) s = .next (conclude ((adminResulted tag .done [] s).updArrival r (fun c =>
          { c with state := .opened, base := p.base, size := p.size.toNat, count := p.count.toNat, delay := p.delay,
                   head := 0, tail := 0, lapTag := true, unnotified := 0, timer := none, discards := 0 })))

/-- CLOSE_RING (R124, R126, R140, R141, R168, R169). A send ring with cells held is DRAINING, its cells are flushed and the
command waits for the ring; with none held it is CLOSED at once and the result is DONE. An arrival ring is DRAINING and its
pending cells are discarded; when it then holds no cell it is CLOSED in the same event, its last records notified, and the
result is DONE with the discard count; else the command waits for the ring.
That a command's row is the end of its record's fetch is the model's reading (log entry 2).
The decisions at the event's end are taken in the model's order (`conclude`, log entry 5). -/
def Obligations.CloseRing : Prop :=
  (∀ (tag : Word) (ring : Byte) (r : SendId) (s : State), AdminFetchDue s → ring.toNat = r.val + 1 →
      (s.send r).state ≠ .closed →
        ((s.send r).held ≠ 0 →
          exec (.closeRing tag ring) s = .next (conclude (flushRing r
            ((adminWaits tag (.closeRing ring) .ringClosed s).updSend r (fun c => { c with state := .draining })))))
        ∧ (PoolSound s → (s.send r).held = 0 →
          exec (.closeRing tag ring) s =
            .next (conclude ((adminResulted tag .done [] s).updSend r (fun c => { c with state := .closed })))))
    ∧ (∀ (tag : Word) (ring : Byte) (r : ArrivalId) (s d : State), AdminFetchDue s → ring.toNat = r.val + 9 →
        (s.arrival r).state ≠ .closed →
        d = discardPending r
          ((adminWaits tag (.closeRing ring) .ringClosed s).updArrival r (fun c => { c with state := .draining })) →
          ((d.arrival r).held ≠ 0 → exec (.closeRing tag ring) s = .next (conclude d))
          ∧ ((d.arrival r).held = 0 →
            exec (.closeRing tag ring) s = .next (conclude
              { d.updArrival r (fun c => { c with state := .closed, unnotified := 0, timer := none }) with
                hp := { d.hp with
                  cause := if 0 < (s.arrival r).unnotified then s.hp.cause ||| BitVec.twoPow 9 (1 + r.val)
                           else s.hp.cause },
                cw := { s.cw with
                  pending := s.cw.pending ++
                    [.admin { status := .done, tag := tag, index := s.rct.admin.head,
                              area := [(d.arrival r).discards.extractLsb' 0 8, (d.arrival r).discards.extractLsb' 8 8] }] },
                ae := { s.ae with phase := .idle, current := none, awaited := .nothing } })))

/-- Departures, flushes and discards. The marked cells of a ring that are ring-oldest (R40): a cell of the ring in the
offer slot holds all of them back; otherwise the ring's cells in its class list leave it in list order, from the first
on, up to the first that carries no verdict, and join the completion pending list disarmed, each with the status of its
verdict; the cells of other rings keep their order. The flush of a send ring (R61, R41): with no cell of the ring in the
offer slot every cell of the ring in its class list leaves, FLUSHED unless it already carried EXPIRED or FETCH_FAILED;
with one there, the ring's queued cells and the offered cell take the mark FLUSH, over INVALID too, and all keep their
places. The discard of an arrival ring's pending cells (R132, R139, R140): each is freed, the ring's discard count rises
by one for each, saturating, its cells held and the receive count fall, the list is empty, and no other cell changes.
Whose a cell is, what verdict it holds, and whether the offer slot holds a cell of a ring, are spelled. -/
def Obligations.FlushAndDiscard : Prop :=
  ((∀ (r : SendId) (id : CellId) (s : State),
        (isOfRing s r id = true ↔ ∃ c, s.cell id = .tx c ∧ c.ring = r)
          ∧ (offeredOfRing s r = true ↔ ∃ k, s.le.slot = some k ∧ isOfRing s r k = true))
      ∧ (∀ (id : CellId) (c : TxCell) (s : State), s.cell id = .tx c → verdictOf s id = c.verdict)
      ∧ ∀ (id : CellId) (s : State), (∀ c, s.cell id ≠ .tx c) → verdictOf s id = none)
    ∧ ((∀ (r : SendId) (s : State), offeredOfRing s r = true → verdictDepartures r s = s)
      ∧ ∀ (r : SendId) (marked : List CellId) (s : State), offeredOfRing s r = false →
        (s.classList (s.send r).cls).Nodup →
        marked = ((s.classList (s.send r).cls).filter (isOfRing s r)).takeWhile (fun id => (verdictOf s id).isSome) →
          (verdictDepartures r s).classList (s.send r).cls =
              (s.classList (s.send r).cls).filter (fun id => !marked.contains id)
            ∧ (verdictDepartures r s).cw.pending =
              s.cw.pending ++ marked.map (fun id =>
                CompletionEntry.cell id
                  (match verdictOf s id with
                   | some .invalid => .invalid
                   | some .fetchFailed => .fetchFailed
                   | some .expired => .expired
                   | _ => .flushed))
            ∧ (∀ id c, s.cell id = .tx c →
              (verdictDepartures r s).cell id = .tx (if id ∈ marked then { c with deadline := none } else c))
            ∧ (∀ c : ClassId, c ≠ (s.send r).cls → (verdictDepartures r s).classList c = s.classList c)
            ∧ (verdictDepartures r s).le = s.le ∧ (verdictDepartures r s).rct = s.rct)
    ∧ ((∀ (r : SendId) (s : State), offeredOfRing s r = false →
        (flushRing r s).classList (s.send r).cls = (s.classList (s.send r).cls).filter (fun id => !isOfRing s r id)
          ∧ (flushRing r s).cw.pending =
            s.cw.pending ++ ((s.classList (s.send r).cls).filter (isOfRing s r)).map (fun id =>
              CompletionEntry.cell id
                (match verdictOf s id with
                 | some .expired => .expired
                 | some .fetchFailed => .fetchFailed
                 | _ => .flushed)))
      ∧ ∀ (r : SendId) (s : State), offeredOfRing s r = true →
          (flushRing r s).sch = s.sch ∧ (flushRing r s).cw = s.cw ∧ (flushRing r s).le = s.le
            ∧ (flushRing r s).rct = s.rct
            ∧ (∀ id c, s.cell id = .tx c →
              (flushRing r s).cell id = .tx
                (if c.ring = r ∧ (id ∈ s.classList (s.send r).cls ∨ s.le.slot = some id) then
                  { c with
                    verdict := if c.verdict = none ∨ c.verdict = some .invalid then some .flush else c.verdict }
                 else c))
            ∧ ∀ id, (∀ c, s.cell id ≠ .tx c) → (flushRing r s).cell id = s.cell id)
    ∧ (∀ (r : ArrivalId) (s : State), (s.arrivalPending r).Nodup →
        (∀ id ∈ s.arrivalPending r, ∃ c, s.cell id = .rx c ∧ c.ring = r) →
          (discardPending r s).arrivalPending r = []
            ∧ ((discardPending r s).arrival r).discards.toNat =
              min 65535 ((s.arrival r).discards.toNat + (s.arrivalPending r).length)
            ∧ ((discardPending r s).arrival r).held = (s.arrival r).held - (s.arrivalPending r).length
            ∧ (discardPending r s).cp.rxInUse = s.cp.rxInUse - (s.arrivalPending r).length
            ∧ (∀ id, (discardPending r s).cell id = if id ∈ s.arrivalPending r then .free else s.cell id)
            ∧ ((discardPending r s).arrival r).state = (s.arrival r).state
            ∧ ∀ q, q ≠ r → (discardPending r s).arrival q = s.arrival q
                ∧ (discardPending r s).arrivalPending q = s.arrivalPending q)

/-- FILTER_WRITE and FILTER_READ (R107, R108, R170, R171, 11.5): a write replaces one entry by the entry its form
spells, with hit count 0, and gives DONE; a read gives DONE with the entry's form and hit count, and changes no entry.
The eleven bytes of the form stand in the order of 11.5; flags bit 0 is valid, bit 1 respond and the others 0; the
actions ACCEPT, DISCARD and REFUSE are 0, 1 and 2. The form that a read returns spells the entry again, but for its hit
count, and a form that a write takes is the one its entry gives. The slot number is kept with respond off (log entry
13). That a command's row is the end of its record's fetch is the model's reading (log entry 2). The decisions at the
event's end are taken in the model's order (`conclude`, log entry 5). -/
def Obligations.AcceptanceTableCommands : Prop :=
  ((∀ (tag : Word) (index : Byte) (f : EntryForm) (e : Entry) (s : State), AdminFetchDue s → index.toNat ≤ 31 →
        entryOfForm f = some e →
          exec (.filterWrite tag index f) s =
            .next (conclude ((adminResulted tag .done [] s).setEntry (Fin.ofNat 32 index.toNat) e)) ∧ e.hits = 0)
      ∧ ∀ (tag : Word) (index : Byte) (s : State), AdminFetchDue s → index.toNat ≤ 31 →
          exec (.filterRead tag index) s = .next (conclude (adminResulted tag .done
            (entryFormBytes (s.entry (Fin.ofNat 32 index.toNat)).toForm ++ [0]
              ++ [(s.entry (Fin.ofNat 32 index.toNat)).hits.extractLsb' 0 8,
                  (s.entry (Fin.ofNat 32 index.toNat)).hits.extractLsb' 8 8] ++ [0, 0]) s)))
    ∧ ((∀ f : EntryForm, entryFormBytes f =
          [f.flags, f.action, f.ring, f.slot, f.reply, f.targetValue, f.targetMask, f.topicValue, f.topicMask,
            f.sourceValue, f.sourceMask])
        ∧ ∀ e : Entry,
          (e.toForm.flags.getLsbD 0 = e.valid ∧ e.toForm.flags.getLsbD 1 = e.respond
              ∧ e.toForm.flags.extractLsb' 2 6 = 0)
            ∧ e.toForm.action = (match e.action with | .accept => 0 | .discard => 1 | .refuse => 2)
            ∧ e.toForm.ring.toNat = e.ring.val ∧ e.toForm.slot.toNat = e.slot.val ∧ e.toForm.reply = e.reply
            ∧ e.toForm.targetValue = e.targetValue ∧ e.toForm.targetMask = e.targetMask
            ∧ e.toForm.topicValue.toNat = e.topicValue.toNat ∧ e.toForm.topicMask.toNat = e.topicMask.toNat
            ∧ e.toForm.sourceValue = e.sourceValue ∧ e.toForm.sourceMask = e.sourceMask)
    ∧ ((∀ e : Entry, entryOfForm e.toForm = some { e with hits := 0 })
        ∧ ∀ (f : EntryForm) (e : Entry), entryOfForm f = some e → e.toForm = f)

/-- COUNTS_READ (R88, R172). The command copies the eight counters and asks for a write of their 32 bytes. At the end of
the write without error the result is DONE, and with the clear flag each counter is lowered by its copied value, so that
what was counted meanwhile is kept; a host-bus error gives WRITE_FAILED and leaves the counters.
That a command's row is the end of its record's fetch is the model's reading (log entry 2).
The decisions at the event's end are taken in the model's order (`conclude`, log entry 5). -/
def Obligations.CountsRead : Prop :=
  (∀ (tag : Word) (clear : Byte) (a : Addr) (s : State), AdminFetchDue s → clear.toNat ≤ 1 → a.toNat % 32 = 0 →
      exec (.countsRead tag clear a) s = .next (conclude
        { adminWaits tag (.countsRead clear a) .countsWriteEnd s with
          hp := { s.hp with
            onBus := none,
            waiting := s.hp.waiting.put (some { direction := .write, address := a, bytes := s.le.counters.bytes }) .ae },
          le := { s.le with snapshot := some s.le.counters } }))
    ∧ ∀ (result : WriteEnd) (c : CurrentCommand) (clear : Byte) (a : Addr) (copy : Counters) (s : State),
      onBusOf (.requester .ae) .write s = true → s.hp.engine ≠ .resetting → s.ae.awaited = .countsWriteEnd →
      s.ae.current = some c → c.command = .countsRead clear a → clear.toNat ≤ 1 → s.le.snapshot = some copy →
        exec (.countsWriteEnd result) s = .next (conclude
          { s with
            hp := { s.hp with onBus := none },
            le := { s.le with
              snapshot := none,
              counters := if result = .written ∧ clear = 1 then
                  { txSent := s.le.counters.txSent - copy.txSent, txErrors := s.le.counters.txErrors - copy.txErrors,
                    lostArb := s.le.counters.lostArb - copy.lostArb,
                    rxAccepted := s.le.counters.rxAccepted - copy.rxAccepted,
                    rxDropped := s.le.counters.rxDropped - copy.rxDropped,
                    busyAnswered := s.le.counters.busyAnswered - copy.busyAnswered,
                    rxCheckErrors := s.le.counters.rxCheckErrors - copy.rxCheckErrors,
                    rxFormatErrors := s.le.counters.rxFormatErrors - copy.rxFormatErrors }
                else s.le.counters },
            cw := { s.cw with
              pending := s.cw.pending ++
                [.admin { status := if result = .written then .done else .writeFailed, tag := c.tag, index := c.index,
                          area := [] }] },
            ae := { s.ae with phase := .idle, current := none, awaited := .nothing } })

/-! ## Arrival and completion rings -/

/-- The end of an arrival write (R135, R137, R139, R140, R141, R35). Without error, on a ring that is not DRAINING or
that holds further cells, the tail advances, the lap tag flips when the tail becomes 0, the write in flight is cleared,
the cell is freed and the record is counted for its notification: the cause is set when the coalescing count is reached,
the timer started by the raise from 0 to 1 with a delay. A DRAINING ring that held only this cell advances its tail all
the same and becomes CLOSED with its last records notified; a CLOSE_RING that waits for a ring ends DONE with the
discard count and leaves the admin engine IDLE (R162), and with none waiting the engine is as it was. With a host-bus
error an OPEN ring is FAULTED, the cell of the write and every pending cell are lost, the records delivered before are
notified, and a RING_FAULT notice with the number of cells lost joins the completion pending list; on a DRAINING ring
the cell is discarded and the tail stays, and the ring becomes CLOSED when it held only this cell. A cell discarded is
freed and counted (`discardCell`, spelled). The arrival writer then takes its decision. The decisions at the event's end
are taken in the model's order (`conclude`, log entry 5). -/
def Obligations.ArrivalWriteEnds : Prop :=
  (∀ (w : ArrivalWrite) (c : RxCell) (s : State), onBusOf (.requester .aw) .write s = true → s.hp.engine ≠ .resetting →
      s.aw.inFlight = some w → s.cell w.cell = .rx c → c.ring = w.ring →
        ((s.arrival w.ring).state ≠ .draining ∨ 2 ≤ (s.arrival w.ring).held →
          exec (.arrivalWriteEnd .written) s = .next (conclude (arrivalDecision
            { (s.updArrival w.ring (fun r =>
                { r with
                  tail := (r.tail + 1) % r.size,
                  lapTag := if (r.tail + 1) % r.size = 0 then !r.lapTag else r.lapTag,
                  writeInFlight := false, held := r.held - 1,
                  unnotified := if r.count ≤ r.unnotified + 1 then 0 else r.unnotified + 1,
                  timer := if r.count ≤ r.unnotified + 1 then none
                           else if r.unnotified = 0 ∧ r.delay ≠ 0 then some (s.sch.tick + r.delay.setWidth 32)
                           else r.timer })) with
              hp := { s.hp with
                onBus := none,
                cause := if (s.arrival w.ring).count ≤ (s.arrival w.ring).unnotified + 1 then
                           s.hp.cause ||| BitVec.twoPow 9 (1 + w.ring.val) else s.hp.cause },
              aw := { s.aw with inFlight := none },
              cp := { s.cp with cells := s.cp.cells.set w.cell.val .free, rxInUse := s.cp.rxInUse - 1 } })))
        ∧ ((s.arrival w.ring).state = .draining → (s.arrival w.ring).held = 1 →
          ∃ u, exec (.arrivalWriteEnd .written) s = .next (conclude (arrivalDecision u))
            ∧ u.arrival w.ring =
              { s.arrival w.ring with
                state := .closed, held := 0, unnotified := 0, timer := none, writeInFlight := false,
                tail := ((s.arrival w.ring).tail + 1) % (s.arrival w.ring).size,
                lapTag := if ((s.arrival w.ring).tail + 1) % (s.arrival w.ring).size = 0 then !(s.arrival w.ring).lapTag
                          else (s.arrival w.ring).lapTag }
            ∧ u.hp = { s.hp with onBus := none, cause := s.hp.cause ||| BitVec.twoPow 9 (1 + w.ring.val) }
            ∧ u.cp = { s.cp with cells := s.cp.cells.set w.cell.val .free, rxInUse := s.cp.rxInUse - 1 }
            ∧ u.aw = { s.aw with inFlight := none } ∧ u.sch = s.sch ∧ u.le = s.le ∧ u.au = s.au ∧ u.fe = s.fe
            ∧ u.rct.send = s.rct.send ∧ u.rct.admin = s.rct.admin ∧ u.rct.completion = s.rct.completion
            ∧ (∀ q, q ≠ w.ring → u.arrival q = s.arrival q)
            ∧ (s.ae.awaited = .ringClosed → ∀ cmd, s.ae.current = some cmd →
                u.cw =
                  { s.cw with
                    pending := s.cw.pending ++
                      [.admin { status := .done, tag := cmd.tag, index := cmd.index,
                                area := [(s.arrival w.ring).discards.extractLsb' 0 8,
                                         (s.arrival w.ring).discards.extractLsb' 8 8] }] }
                  ∧ u.ae = { s.ae with phase := .idle, current := none, awaited := .nothing })
            ∧ (s.ae.awaited ≠ .ringClosed ∨ s.ae.current = none → u.cw = s.cw ∧ u.ae = s.ae)
            ∧ u.pending = s.pending))
    ∧ ((∀ (w : ArrivalWrite) (s d : State), onBusOf (.requester .aw) .write s = true → s.hp.engine ≠ .resetting →
          s.aw.inFlight = some w → (s.arrival w.ring).state = .opened →
          d = discardPending w.ring (discardCell w.ring w.cell
            ({ s with hp := { s.hp with onBus := none }, aw := { s.aw with inFlight := none } }.updArrival w.ring
              (fun r => { r with state := .faulted, writeInFlight := false }))) →
            exec (.arrivalWriteEnd .busError) s = .next (conclude (arrivalDecision
              { (d.updArrival w.ring (fun r => { r with unnotified := 0, timer := none })) with
                hp := { d.hp with
                  cause := if 0 < (s.arrival w.ring).unnotified then s.hp.cause ||| BitVec.twoPow 9 (1 + w.ring.val)
                           else s.hp.cause },
                cw := { s.cw with
                  pending := s.cw.pending ++
                    [.ringFault { ring := w.ring, index := w.index, lost := 1 + (s.arrivalPending w.ring).length }] } })))
        ∧ ∀ (w : ArrivalWrite) (c : RxCell) (s u : State), onBusOf (.requester .aw) .write s = true →
          s.hp.engine ≠ .resetting → s.aw.inFlight = some w → (s.arrival w.ring).state = .draining →
          s.cell w.cell = .rx c → c.ring = w.ring →
          u = { (s.updArrival w.ring (fun r =>
                { r with
                  writeInFlight := false, held := r.held - 1,
                  discards := if r.discards = 0xFFFF then 0xFFFF else r.discards + 1 })) with
              hp := { s.hp with onBus := none },
              aw := { s.aw with inFlight := none },
              cp := { s.cp with cells := s.cp.cells.set w.cell.val .free, rxInUse := s.cp.rxInUse - 1 } } →
            (2 ≤ (s.arrival w.ring).held →
              exec (.arrivalWriteEnd .busError) s = .next (conclude (arrivalDecision u)))
            ∧ ((s.arrival w.ring).held = 1 →
              exec (.arrivalWriteEnd .busError) s = .next (conclude (arrivalDecision (arrivalClosed w.ring u)))))
    ∧ ∀ (r : ArrivalId) (id : CellId) (c : RxCell) (s : State), s.cell id = .rx c → c.ring = r →
      discardCell r id s =
        { (s.updArrival r (fun a =>
            { a with
              held := a.held - 1, discards := if a.discards = 0xFFFF then 0xFFFF else a.discards + 1 })) with
          cp := { s.cp with cells := s.cp.cells.set id.val .free, rxInUse := s.cp.rxInUse - 1 } }

/-- The arrival writer's decision (R133, R134): with the engine RUNNING and no write in flight, the first ring from the
pointer that is OPEN, has a pending cell, and has room has the write of its head pending cell begun, with the pointer
moved past the ring and a request for 64 bytes at base + 64 × tail, modulo 2^64 (the model's choice, log entry 12);
otherwise nothing. -/
def Obligations.ArrivalDecision : Prop :=
  (∀ s : State, s.hp.engine ≠ .running ∨ s.aw.inFlight ≠ none ∨ (∀ r, arrivalReady s r = false) → arrivalDecision s = s)
    ∧ (∀ (s : State) (r : ArrivalId), arrivalReady s r = true ↔
      (s.arrival r).state = .opened ∧ s.arrivalPending r ≠ []
        ∧ (∀ q : ArrivalId, (s.arrival q).writeInFlight = false)
        ∧ ringDistance (s.arrival r).tail (s.arrival r).head (s.arrival r).size + 1 < (s.arrival r).size)
    ∧ ∀ (k : Nat) (r : ArrivalId) (id : CellId) (rest : List CellId) (c : RxCell) (s : State), s.hp.engine = .running →
      s.aw.inFlight = none → k < 4 → r = s.aw.pointer + Fin.ofNat 4 k → arrivalReady s r = true →
      (∀ j < k, arrivalReady s (s.aw.pointer + Fin.ofNat 4 j) = false) → s.arrivalPending r = id :: rest →
      s.cell id = .rx c →
        arrivalDecision s =
          { (s.updArrival r (fun a => { a with writeInFlight := true })) with
            hp := { s.hp with
              waiting := s.hp.waiting.put
                (some { direction := .write,
                        address := (s.arrival r).base + BitVec.ofNat 64 (64 * (s.arrival r).tail),
                        bytes := c.arrivalRecord (s.arrival r).lapTag }) .aw },
            aw := { pending := s.aw.pending.set r.val rest, pointer := r + 1,
                    inFlight := some { cell := id, ring := r, index := (s.arrival r).tail } } }

/-- The bytes the part writes (R134, R148, R149, R150, R192, R194, 11.4, 11.6, 11.7): their lengths, and the layout of the
completion record of each kind, of the arrival record with every one of its 64 bytes, and of the counters block with the
offset of each of its eight counters; multi-byte fields least significant byte first. Every code of 11.4
is spelled: the statuses of send and admin records, the last failures, the slot readings; and the response modes of 11.6. -/
def Obligations.RecordLayouts : Prop :=
  (∀ (c : TxCell) (status : SendStatus) (lap : Bool), c.responses.length ≤ 8 →
      c.completionRecord status lap =
        [if lap then 1 else 0, BitVec.ofNat 8 (c.ring.val + 1)] ++ leIndex c.index
          ++ [status.code, c.lastFailure.code, c.attemptsUsed.setWidth 8, c.lostCount] ++ leWord c.tag
          ++ [BitVec.ofNat 8 c.responses.length, 0, 0, 0]
          ++ c.responses.flatMap (fun e => [BitVec.ofNat 8 (8 * e.reading.code.toNat + e.slot.val), e.value])
          ++ List.replicate (16 - 2 * c.responses.length) 0)
    ∧ (∀ (c : TxCell) (status : SendStatus) (lap : Bool), (c.completionRecord status lap).length = 32)
    ∧ (∀ (a : AdminResult) (lap : Bool), (a.completionRecord lap).length = 32
      ∧ (a.completionRecord lap).take 12 =
        [if lap then 1 else 0, 0] ++ leIndex a.index ++ [a.status.code, 0, 0, 0] ++ leWord a.tag
      ∧ (a.area.length ≤ 16 → (a.completionRecord lap).drop 12 =
          [0, 0, 0, 0] ++ a.area ++ List.replicate (16 - a.area.length) 0))
    ∧ (∀ (n : FaultNotice) (lap : Bool), n.completionRecord lap =
      [if lap then 1 else 0, BitVec.ofNat 8 (n.ring.val + 9)] ++ leIndex n.index ++ [7, 0, 0, 0] ++ leWord 0
        ++ [0, 0, 0, 0] ++ leIndex n.lost ++ List.replicate 14 0)
    ∧ (∀ (c : RxCell) (lap : Bool), c.payload.length = c.length → c.length ≤ 32 →
      (c.arrivalRecord lap).length = 64
        ∧ (c.arrivalRecord lap).take 8 =
          [if lap then 1 else 0, BitVec.ofNat 8 c.ring.val, BitVec.ofNat 8 c.entry.val, BitVec.ofNat 8 c.cls.val,
            c.target, c.topic.setWidth 8, c.source, c.mode.code.setWidth 8]
        ∧ ((c.arrivalRecord lap).drop 8).take 3 =
          (match c.answer with
           | some slot => [1, BitVec.ofNat 8 slot.val, 0x96]
           | none => [0, 0, 0])
        ∧ (c.arrivalRecord lap)[11]? = some (BitVec.ofNat 8 c.length)
        ∧ ((c.arrivalRecord lap).drop 12).take 4 = leWord c.arrivalTick
        ∧ ((c.arrivalRecord lap).drop 16).take 16 = List.replicate 16 0
        ∧ (c.arrivalRecord lap).drop 32 = c.payload ++ List.replicate (32 - c.length) 0)
    ∧ (∀ c : Counters, c.bytes.length = 32
      ∧ c.bytes.take 4 = leWord c.txSent ∧ (c.bytes.drop 4).take 4 = leWord c.txErrors
      ∧ (c.bytes.drop 8).take 4 = leWord c.lostArb ∧ (c.bytes.drop 12).take 4 = leWord c.rxAccepted
      ∧ (c.bytes.drop 16).take 4 = leWord c.rxDropped ∧ (c.bytes.drop 20).take 4 = leWord c.busyAnswered
      ∧ (c.bytes.drop 24).take 4 = leWord c.rxCheckErrors ∧ (c.bytes.drop 28).take 4 = leWord c.rxFormatErrors)
    ∧ ([SendStatus.ok, .rejected, .exhausted, .expired, .flushed, .invalid, .fetchFailed].map SendStatus.code
        = [0, 1, 2, 3, 4, 5, 6]
      ∧ [AdminStatus.done, .invalidField, .wrongState, .unknownCommand, .limitBelowUse, .writeFailed,
          .fetchFailed].map AdminStatus.code = [16, 17, 18, 19, 20, 21, 22]
      ∧ [Failure.noFailure, .bitError, .formatError, .lineFault, .busy, .noResponse, .garbled, .missing].map Failure.code
        = [0, 1, 2, 3, 4, 5, 6, 7]
      ∧ [SlotReading.ack, .busy, .reject, .garbled].map SlotReading.code = [0, 1, 2, 3]
      ∧ [ResponseMode.noWindow, .single, .roll].map ResponseMode.code = [0, 1, 2])
    ∧ (∀ w : Word, leWord w = [w.extractLsb' 0 8, w.extractLsb' 8 8, w.extractLsb' 16 8, w.extractLsb' 24 8])
    ∧ ∀ n : Nat, leIndex n = [BitVec.ofNat 8 n, BitVec.ofNat 8 (n / 256)]

/-- The end of a completion write (R151, R153, R154, R182, R35, R126). Without error CR's tail advances, its lap tag
flips when the tail becomes 0, the write in flight is cleared and the record is counted for its notification; a transmit
cell returns to the pool, with a room notice when one is owed, and a DRAINING send ring that held only this cell becomes
CLOSED with its CLOSE_RING ended. With a host-bus error a RUNNING engine is HALTED with CR_WRITE and the HALT cause, the
tick stops, the entry stays in flight, and the line engine goes to OFF in that event from a boundary phase (R89), with a
LINE cause if its fault flag was set, and goes on with its frame from any other; a HALTED one keeps its halt reason. The
decisions at the event's end are taken in the model's order (`conclude`, log entry 5). -/
def Obligations.CompletionWriteEnds : Prop :=
  (∀ (w : CompletionWrite) (s u : State), onBusOf (.requester .cw) .write s = true → s.hp.engine ≠ .resetting →
      s.cw.inFlight = some w →
      u = ({ s with hp := { s.hp with onBus := none }, cw := { s.cw with inFlight := none } }.updCompletion (fun r =>
        { r with
          tail := (r.tail + 1) % r.size, lapTag := if (r.tail + 1) % r.size = 0 then !r.lapTag else r.lapTag,
          writeInFlight := false })) →
        (∀ id status c, w.entry = .cell id status → s.cell id = .tx c →
            exec (.completionWriteEnd .written) s =
              .next (conclude (coalesceCompletion (closeIfDrainedSend c.ring (roomNotice
                { (u.updSend c.ring (fun r => { r with held := r.held - 1 })) with
                  cp := { s.cp with
                    cells := s.cp.cells.set id.val .free, txInUse := s.cp.txInUse - 1,
                    lowInUse := if c.cls = 0 then s.cp.lowInUse else s.cp.lowInUse - 1 } })))))
          ∧ ((∀ id status c, w.entry = .cell id status → s.cell id ≠ .tx c) →
            exec (.completionWriteEnd .written) s = .next (conclude (coalesceCompletion u))))
    ∧ (∀ (w : CompletionWrite) (s : State), onBusOf (.requester .cw) .write s = true → s.cw.inFlight = some w →
      s.hp.engine = .running →
        exec (.completionWriteEnd .busError) s = .next (arbitrate
          { s with
            hp := { s.hp with
              engine := .halted, haltReason := .crWrite, onBus := none,
              cause :=
                if s.le.phase.isBoundary = true ∧ s.le.fault = true then s.hp.cause ||| 0x100#9 ||| 0x20#9
                else s.hp.cause ||| 0x100#9 },
            le := if s.le.phase.isBoundary = true then
                { s.le with phase := .off, txd := .released, frame := none, fault := false }
              else s.le,
            sch := { s.sch with tickRunning := false } }))
    ∧ (∀ s : State, onBusOf (.requester .cw) .write s = true → s.hp.engine = .halted →
        exec (.completionWriteEnd .busError) s = .next (arbitrate { s with hp := { s.hp with onBus := none } }))
    ∧ ∀ (r : SendId) (s : State),
      ((s.send r).state ≠ .draining ∨ (s.send r).held ≠ 0 → closeIfDrainedSend r s = s)
        ∧ ((s.send r).state = .draining → (s.send r).held = 0 →
          ((s.ae.awaited ≠ .ringClosed ∨ s.ae.current = none) →
            closeIfDrainedSend r s = s.updSend r (fun c => { c with state := .closed }))
          ∧ ∀ cmd, s.ae.awaited = .ringClosed → s.ae.current = some cmd →
            closeIfDrainedSend r s =
              { s.updSend r (fun c => { c with state := .closed }) with
                cw := { s.cw with
                  pending := s.cw.pending ++
                    [.admin { status := .done, tag := cmd.tag, index := cmd.index, area := [] }] },
                ae := { s.ae with phase := .idle, current := none, awaited := .nothing } })

/-- Coalescing (R137, R138, R153). On CR a counted record sets the cause when it brings the count to the coalescing
count, which returns the count to 0 and stops the timer; the raise from 0 to 1 starts the timer when a delay is set.
When the running tick stands at the expiry tick of a ring's timer, which is when an expiry row is taken (log entry 15),
the timer stops, the unnotified count returns to 0, and the ring's cause is set if the count was above 0. Nothing else
changes. -/
def Obligations.Coalescing : Prop :=
  (∀ s : State,
      (s.rct.completion.count ≤ s.rct.completion.unnotified + 1 →
          coalesceCompletion s =
            { s with
              hp := { s.hp with cause := s.hp.cause ||| 1#9 },
              rct := { s.rct with completion := { s.rct.completion with unnotified := 0, timer := none } } })
        ∧ (s.rct.completion.unnotified + 1 < s.rct.completion.count →
          coalesceCompletion s =
            { s with
              rct := { s.rct with
                completion := { s.rct.completion with
                  unnotified := s.rct.completion.unnotified + 1,
                  timer := if s.rct.completion.unnotified = 0 ∧ s.rct.completion.delay ≠ 0 then
                      some (s.sch.tick + s.rct.completion.delay.setWidth 32)
                    else s.rct.completion.timer } } }))
    ∧ ((∀ (r : ArrivalId) (s : State), s.sch.tickRunning = true → (s.arrival r).timer = some s.sch.tick →
          exec (.arrivalTimerExpiry r) s = .next
            { (s.updArrival r (fun a => { a with unnotified := 0, timer := none })) with
              hp := { s.hp with
                cause := if 0 < (s.arrival r).unnotified then s.hp.cause ||| BitVec.twoPow 9 (1 + r.val)
                         else s.hp.cause } })
        ∧ ∀ s : State, s.sch.tickRunning = true → s.rct.completion.timer = some s.sch.tick →
          exec .crTimerExpiry s = .next
            { s with
              hp := { s.hp with
                cause := if 0 < s.rct.completion.unnotified then s.hp.cause ||| 1#9 else s.hp.cause },
              rct := { s.rct with completion := { s.rct.completion with unnotified := 0, timer := none } } })

/-- The decisions at the end of an event, `conclude`: the offer decision, then the completion writer's, then the admin
engine's, then the arbiter's (the model's choice of an order, log entry 5). The end of an attempt that a flush or an
expiry of the same moment follows leaves the offer decision to that event (log entry 33). Addresses are taken modulo
2^64 (the model's choice, log entry 12). The record written of an entry is that of its kind (`RecordLayouts`), with CR's
lap tag. The completion writer (R147, R148) begins the write of the head entry when the engine is RUNNING, CR is OPEN
with room and none of its writes is in flight; the admin engine (R158) begins a fetch when it is IDLE in RUNNING, AR is
OPEN with a posted record and no fetch in flight, and fewer than 4 admin results wait. -/
def Obligations.CompletionAndAdminDecisions : Prop :=
  (∀ s : State, conclude s = arbitrate (adminDecision (completionDecision (offerDecision s)))
      ∧ concludeAttempt .plain s = conclude s
      ∧ concludeAttempt .beforeNext s = arbitrate (adminDecision (completionDecision s))
      ∧ adminResultsPending s =
        (s.cw.pending.filter (fun e => match e with | .admin _ => true | _ => false)).length)
    ∧ ((∀ (id : CellId) (status : SendStatus) (c : TxCell) (s : State), s.cell id = .tx c →
        entryRecord s (.cell id status) = c.completionRecord status s.rct.completion.lapTag)
      ∧ (∀ (r : AdminResult) (s : State), entryRecord s (.admin r) = r.completionRecord s.rct.completion.lapTag)
      ∧ ∀ (n : FaultNotice) (s : State), entryRecord s (.ringFault n) = n.completionRecord s.rct.completion.lapTag)
    ∧ (∀ (e : CompletionEntry) (rest : List CompletionEntry) (s : State), s.cw.pending = e :: rest →
      s.hp.engine = .running → s.rct.completion.state = .opened → s.rct.completion.writeInFlight = false →
      ringDistance s.rct.completion.tail s.rct.completion.head s.rct.completion.size + 1 < s.rct.completion.size →
        completionDecision s =
          { s with
            hp := { s.hp with
              waiting := s.hp.waiting.put
                (some { direction := .write,
                        address := s.rct.completion.base + BitVec.ofNat 64 (32 * s.rct.completion.tail),
                        bytes := entryRecord s e }) .cw },
            cw := { pending := rest, inFlight := some { entry := e, index := s.rct.completion.tail } },
            rct := { s.rct with completion := { s.rct.completion with writeInFlight := true } } })
    ∧ (∀ s : State,
      s.cw.pending = [] ∨ s.hp.engine ≠ .running ∨ s.rct.completion.state ≠ .opened
        ∨ s.rct.completion.writeInFlight = true
        ∨ s.rct.completion.size ≤
          ringDistance s.rct.completion.tail s.rct.completion.head s.rct.completion.size + 1 →
        completionDecision s = s)
    ∧ (∀ s : State, s.ae.phase = .idle → s.hp.engine = .running → s.rct.admin.state = .opened →
      s.rct.admin.fetchInFlight = false → ringDistance s.rct.admin.tail s.rct.admin.head s.rct.admin.size ≠ 0 →
      adminResultsPending s < 4 →
        adminDecision s =
          { s with
            hp := { s.hp with
              waiting := s.hp.waiting.put
                (some { direction := .read, address := s.rct.admin.base + BitVec.ofNat 64 (64 * s.rct.admin.head),
                        bytes := [] }) .ae },
            ae := { s.ae with phase := .fetching },
            rct := { s.rct with admin := { s.rct.admin with fetchInFlight := true } } })
    ∧ ∀ s : State,
      s.ae.phase ≠ .idle ∨ s.hp.engine ≠ .running ∨ s.rct.admin.state ≠ .opened ∨ s.rct.admin.fetchInFlight = true
        ∨ ringDistance s.rct.admin.tail s.rct.admin.head s.rct.admin.size = 0 ∨ 4 ≤ adminResultsPending s →
        adminDecision s = s

/-! ## The scheduler -/

/-- TICK and DEADLINE_EXPIRY (R57, R58, R59). A running tick advances by one and wraps; a stopped one stays. A deadline
that the running tick has reached, which is when an expiry row is taken (log entry 15), acts by the cell's place: in the
offer slot before its SOF the cell is withdrawn and completes, EXPIRED or by the verdict it holds; in the offer slot
after its SOF it takes the EXPIRED mark; in its class list without a verdict it takes the mark and leaves when it is
ring-oldest. The offer slot an expiry has emptied takes the next head in the same event; what an SOF edge of that moment
makes of it is `JoinsAndFrameStarts`'s (log entry 26). The decisions at the event's end are taken in the model's order
(`conclude`, log entry 5). -/
def Obligations.TickAndDeadlines : Prop :=
  (∀ s : State,
      (s.sch.tickRunning = true → exec .tick s = .next { s with sch := { s.sch with tick := s.sch.tick + 1 } })
        ∧ (s.sch.tickRunning = false → exec .tick s = .next s))
    ∧ ∀ (id : CellId) (c : TxCell) (s : State), s.cell id = .tx c → s.sch.tickRunning = true →
      c.deadline = some s.sch.tick →
        (s.le.slot = some id → s.sch.sofReported = false →
          exec (.deadlineExpiry id) s = .next (conclude (verdictDepartures c.ring
            { s with
              le := { s.le with slot := none },
              cp := { s.cp with cells := s.cp.cells.set id.val (.tx { c with deadline := none }) },
              cw := { s.cw with
                pending := s.cw.pending ++
                  [.cell id (match c.verdict with
                    | some .flush => .flushed
                    | some .invalid => .invalid
                    | some .fetchFailed => .fetchFailed
                    | _ => .expired)] } })))
        ∧ (s.le.slot = some id → s.sch.sofReported = true →
          exec (.deadlineExpiry id) s = .next (conclude
            { s with
              cp := { s.cp with
                cells := s.cp.cells.set id.val (.tx
                  { c with verdict := if c.verdict = none then some .expired else c.verdict }) } }))
        ∧ (s.le.slot ≠ some id → id ∈ s.classList c.cls → c.verdict = none →
          exec (.deadlineExpiry id) s = .next (conclude (verdictDepartures c.ring
            { s with
              cp := { s.cp with
                cells := s.cp.cells.set id.val (.tx { c with verdict := some .expired }) } })))
        ∧ (s.le.slot ≠ some id → (id ∉ s.classList c.cls ∨ c.verdict ≠ none) →
          exec (.deadlineExpiry id) s = .next (conclude s))

/-- The offer decision (R45, R46, R44). With the engine RUNNING, the slot empty, and the line engine ready (IDLE, in ONLINE
and not muted, or in LOOPBACK), the head of one class list moves to the slot: with YIELD above 0, of the most urgent
non-empty class from 1 to 3 whose passed-over count has reached YIELD; else of the most urgent non-empty class. A list
that becomes empty returns its count to 0. Otherwise nothing is offered. -/
def Obligations.OfferDecision : Prop :=
  (∀ s : State, s.hp.engine ≠ .running ∨ s.le.slot ≠ none ∨ s.le.phase ≠ .idle
      ∨ ¬(s.le.mode = .online ∧ s.le.muted = false ∨ s.le.mode = .loopback) ∨ (∀ c : ClassId, s.classList c = []) →
        offerDecision s = s)
    ∧ ∀ (c : ClassId) (id : CellId) (rest : List CellId) (s : State), s.hp.engine = .running → s.le.slot = none →
      s.le.phase = .idle → (s.le.mode = .online ∧ s.le.muted = false ∨ s.le.mode = .loopback) →
      s.classList c = id :: rest →
      ((0 < s.ae.yieldValue ∧ c ≠ 0 ∧ s.ae.yieldValue ≤ s.sch.passed.get c
          ∧ ∀ d : ClassId, d ≠ 0 → d < c → s.classList d ≠ [] → s.sch.passed.get d < s.ae.yieldValue)
        ∨ ((s.ae.yieldValue = 0 ∨ ∀ d : ClassId, d ≠ 0 → s.classList d ≠ [] → s.sch.passed.get d < s.ae.yieldValue)
          ∧ ∀ d : ClassId, d < c → s.classList d = [])) →
        offerDecision s =
          { s with
            le := { s.le with slot := some id },
            sch := { s.sch with
              lists := s.sch.lists.set c.val rest,
              passed := if rest = [] then s.sch.passed.put 0 c else s.sch.passed, sofReported := false } }

/-- The outcomes LOST, BIT_ERROR, FORMAT_ERROR and LINE_FAULT at the scheduler (R50, R51, R54). A LOST raises the lost
count, saturating at 255, and leaves the rest of the cell; an error raises attempts used by one (that a count of 15
stays there is the model's choice, log entry 29), sets last failure and is a failure with that reason, and leaves the
rest. For a cell without a verdict, a LOST, and an error that leaves the count below the budget, put the cell back at
the head of its class list, its deadline still armed, with nothing else changed. -/
def Obligations.LostAndErrorOutcomes : Prop :=
  (∀ c : TxCell, countOutcome c .lost = { c with lostCount := if c.lostCount = 255 then 255 else c.lostCount + 1 }
      ∧ attemptResult c .lost = .lost)
    ∧ (∀ (c : TxCell) (o : AttemptOutcome) (reason : Failure),
      (o = .bitError ∧ reason = .bitError ∨ o = .formatError ∧ reason = .formatError
        ∨ o = .lineFault ∧ reason = .lineFault) →
        countOutcome c o =
            { c with attemptsUsed := if c.attemptsUsed = 15 then 15 else c.attemptsUsed + 1, lastFailure := reason }
          ∧ attemptResult c o = .failure reason)
    ∧ (∀ (id : CellId) (c : TxCell) (s : State), s.cell id = .tx c → c.verdict = none →
      settleAttempt id .lost s =
        { s with
          cp := { s.cp with
            cells := s.cp.cells.set id.val
              (.tx { c with lostCount := if c.lostCount = 255 then 255 else c.lostCount + 1 }) },
          sch := { s.sch with lists := s.sch.lists.set c.cls.val (id :: s.classList c.cls) } })
    ∧ ∀ (id : CellId) (c : TxCell) (o : AttemptOutcome) (reason : Failure) (s : State), s.cell id = .tx c →
      c.verdict = none → c.attemptsUsed + 1 < c.budget → c.attemptsUsed < c.budget →
      (o = .bitError ∧ reason = .bitError ∨ o = .formatError ∧ reason = .formatError
        ∨ o = .lineFault ∧ reason = .lineFault) →
        settleAttempt id o s =
          { s with
            cp := { s.cp with
              cells := s.cp.cells.set id.val
                (.tx { c with attemptsUsed := c.attemptsUsed + 1, lastFailure := reason }) },
            sch := { s.sch with lists := s.sch.lists.set c.cls.val (id :: s.classList c.cls) } }

/-- SENT_CLEAN (R52, R53, R56). Attempts used rises by one (staying at 15: the model's choice, log entry
29). A NONE frame is OK; a SINGLE frame is judged by slot 0; a ROLL
frame against its expect mask, REJECT before the rest, ACK in every slot of the mask for OK, else MISSING. A failure sets
last failure, a final result leaves it. The response list becomes the readings of the window, one entry for each slot not
ABSENT, in slot order. -/
def Obligations.SentCleanOutcome : Prop :=
  (∀ (c : TxCell) (slots : List SlotClass), slots.length ≤ 8 →
      countOutcome c (.sentClean slots) =
        { c with
          attemptsUsed := if c.attemptsUsed = 15 then 15 else c.attemptsUsed + 1,
          lastFailure := (match attemptResult c (.sentClean slots) with
            | .failure reason => reason
            | _ => c.lastFailure),
          responses := (List.finRange 8).filterMap (fun k =>
            match slots[k.val]? with
            | some (SlotClass.read reading value) => some { slot := k, reading := reading, value := value }
            | _ => none) })
    ∧ (∀ (c : TxCell) (slots : List SlotClass), c.mode = .noWindow →
      attemptResult c (.sentClean slots) = .final .ok)
    ∧ (∀ (c : TxCell) (v : Byte), c.mode = .single →
      attemptResult c (.sentClean [.read .ack v]) = .final .ok
        ∧ attemptResult c (.sentClean [.read .reject v]) = .final .rejected
        ∧ attemptResult c (.sentClean [.read .busy v]) = .failure .busy
        ∧ attemptResult c (.sentClean [.absent]) = .failure .noResponse
        ∧ attemptResult c (.sentClean [.read .garbled v]) = .failure .garbled)
    ∧ ∀ (c : TxCell) (slots : List SlotClass), c.mode = .roll → slots.length = 8 →
      (c.expect = 0 → attemptResult c (.sentClean slots) = .final .ok)
        ∧ (c.expect ≠ 0 →
          ((∃ k < 8, c.expect.getLsbD k = true ∧ ∃ v, slots[k]? = some (.read .reject v)) →
            attemptResult c (.sentClean slots) = .final .rejected)
          ∧ ((∀ k < 8, c.expect.getLsbD k = true → ∃ v, slots[k]? = some (.read .ack v)) →
            attemptResult c (.sentClean slots) = .final .ok)
          ∧ ((∀ k < 8, c.expect.getLsbD k = true → ∀ v, slots[k]? ≠ some (.read .reject v)) →
            (∃ k < 8, c.expect.getLsbD k = true ∧ ∀ v, slots[k]? ≠ some (.read .ack v)) →
            attemptResult c (.sentClean slots) = .failure .missing))

/-- Where a settled cell goes (R49, R54, R55): a final result completes with its status whatever the verdict; a failure of
a cell without a verdict is retried below the budget and EXHAUSTED at it; EXPIRED and FLUSH decide the rest. A completing
cell joins the completion pending list disarmed, and the marked cells of its ring may follow. -/
def Obligations.AttemptSettlement : Prop :=
  (∀ (c : TxCell) (status : SendStatus), settlement c (.final status) = .complete status)
    ∧ (∀ (c : TxCell) (reason : Failure), c.verdict = none →
      (c.attemptsUsed < c.budget → settlement c (.failure reason) = .retry)
        ∧ (c.budget ≤ c.attemptsUsed → settlement c (.failure reason) = .complete .exhausted))
    ∧ (∀ (c : TxCell) (reason : Failure), c.verdict = some .expired →
      settlement c .lost = .complete .expired
        ∧ (c.attemptsUsed < c.budget → settlement c (.failure reason) = .complete .expired)
        ∧ (c.budget ≤ c.attemptsUsed → settlement c (.failure reason) = .complete .exhausted))
    ∧ (∀ (c : TxCell) (reason : Failure), c.verdict = some .flush →
      settlement c .lost = .complete .flushed ∧ settlement c (.failure reason) = .complete .flushed)
    ∧ ∀ (id : CellId) (c : TxCell) (o : AttemptOutcome) (status : SendStatus) (s : State), s.cell id = .tx c →
      settlement (countOutcome c o) (attemptResult c o) = .complete status →
        settleAttempt id o s = verdictDepartures c.ring
          { s with
            cp := { s.cp with
              cells := s.cp.cells.set id.val (.tx { countOutcome c o with deadline := none }) },
            cw := { s.cw with pending := s.cw.pending ++ [.cell id status] } }

/-! ## Attempts -/

/-- The win of arbitration (R70, R43): header cell 24 has ended with the engine still a participant; the phase is
SENDING, and each class behind the winner whose list is non-empty has its passed-over count raised, saturating at 15,
while the winner's returns to 0. The frame goes on as it stands: the cells of the header come with its next command (log
entry 6). Before the win, and after it, no such event arises (log entry 1). -/
def Obligations.ArbitrationWon : Prop :=
  (∀ (id : CellId) (c : TxCell) (f : Frame) (s : State), s.le.phase = .arbitrating →
      s.le.slot = some id → s.cell id = .tx c → s.le.frame = some f →
      ∃ p : PassedOver,
        exec .arbitrationWon s = .next { s with le := { s.le with phase := .sending }, sch := { s.sch with passed := p } }
        ∧ ∀ d : ClassId, d ≠ 0 →
          (p.get d).toNat =
            if d = c.cls then 0
            else if c.cls < d ∧ s.classList d ≠ [] then min 15 ((s.sch.passed.get d).toNat + 1)
            else (s.sch.passed.get d).toNat)
    ∧ ∀ s : State, s.le.phase ≠ .arbitrating → exec .arbitrationWon s = .next s

/-- Arbitration and the readings of an attempt (R5, R9, R14, R15, R19, R22, R71, R72). Of two headers driven together
the lower value wins: up to the first differing cell both read what they drive; there the higher one reads a 0 against
its own 1 and its attempt is LOST, and the lower one reads its own bit; a frame of a more urgent class has the lower
header. In the header a 0 against an own 1 is LOST and a 1 against an own 0 a BIT_ERROR; outside it every other data bit
than the own one is a BIT_ERROR; a quiet cell where the engine drives, and a pulse in an EOD or EOF cell, are format
errors, and so is a BREAK anywhere and an SOF past the SOF part (log entry 6); a stuck line is LINE_FAULT anywhere, its
own cell reading stuck (the model's choice, log entry 30). The first cell whose reading ends the attempt gives it its
outcome, and the last EOF cell ending quiet gives SENT_CLEAN with the slots of the window; a last EOF cell with a pulse
or a stuck line in it is judged as any other. In LOOPBACK no other reading ends an attempt (log entry 20). The cells of
each part and of each slot mark (R8, R16), the cells due at each point, when a cell lets the frame go on, and when the
cells read reach a cell, are spelled. -/
def Obligations.AttemptReadings : Prop :=
  ((∀ (f : Frame) (length : Nat) (mode : ResponseMode) (cell : Nat),
        frameShape f = (match f.head with | some h => (h.length, h.mode) | none => (0, .noWindow))
          ∧ f.partOf cell = partOfCell (frameShape f).1 (frameShape f).2 cell
          ∧ lastCell length mode = 56 + 8 * length + 17 * mode.slotCount
          ∧ (partOfCell length mode cell = some .sofPart ↔ cell = 0)
          ∧ (partOfCell length mode cell = some .header ↔ 1 ≤ cell ∧ cell ≤ 24)
          ∧ (partOfCell length mode cell = some .control ↔ 25 ≤ cell ∧ cell ≤ 32)
          ∧ (partOfCell length mode cell = some .payload ↔ 33 ≤ cell ∧ cell ≤ 32 + 8 * length)
          ∧ (partOfCell length mode cell = some .check ↔ 33 + 8 * length ≤ cell ∧ cell ≤ 48 + 8 * length)
          ∧ (partOfCell length mode cell = some .eod ↔ 49 + 8 * length ≤ cell ∧ cell ≤ 50 + 8 * length)
          ∧ (partOfCell length mode cell = some .slotMark ↔ ∃ k < mode.slotCount, cell = 51 + 8 * length + 17 * k)
          ∧ (partOfCell length mode cell = some .response ↔
            ∃ k < mode.slotCount, 52 + 8 * length + 17 * k ≤ cell ∧ cell ≤ 67 + 8 * length + 17 * k)
          ∧ (partOfCell length mode cell = some .eof ↔
            51 + 8 * length + 17 * mode.slotCount ≤ cell ∧ cell ≤ 56 + 8 * length + 17 * mode.slotCount)
          ∧ (partOfCell length mode cell = none ↔ 56 + 8 * length + 17 * mode.slotCount < cell))
      ∧ (ResponseMode.noWindow.slotCount = 0 ∧ ResponseMode.single.slotCount = 1 ∧ ResponseMode.roll.slotCount = 8)
      ∧ (∀ (phase : Phase) (f : Frame) (length : Nat) (mode : ResponseMode) (cell : Nat), frameShape f = (length, mode) →
        (cellIsDue phase f cell = true ↔
          match phase, f.point with
          | .arbitrating, .start => cell ≤ 24
          | .sending, .start => 25 ≤ cell ∧ cell ≤ 32
          | .receiving, .start => cell ≤ 32
          | .sending, .headerEnd | .receiving, .headerEnd => 33 ≤ cell ∧ cell ≤ 48 + 8 * length
          | .sending, .checkEnd => 49 + 8 * length ≤ cell ∧ (cell ≤ 50 + 8 * length ∨ mode = .noWindow)
          | .windowOut, .checkEnd => 51 + 8 * length ≤ cell ∧ cell ≤ 67 + 8 * length
          | .windowOut, .slot k =>
            if k.val + 1 < mode.slotCount then
              68 + 8 * length + 17 * k.val ≤ cell ∧ cell ≤ 84 + 8 * length + 17 * k.val
            else 51 + 8 * length + 17 * mode.slotCount ≤ cell
          | .receiving, .checkEnd => 49 + 8 * length ≤ cell
          | .receiving, .slot _ => 51 + 8 * length ≤ cell
          | _, _ => False))
      ∧ (∀ (f : Frame) (g : GridCell) (s : State), goesOn f s g = true ↔
        ∃ part, f.partOf g.number = some part
          ∧ (s.le.mode = .loopback
            ∨ attemptReading part (ownBit f (drivenImage f s) part g.number) (readCell s.ae.rate g.expected g.pulses)
                = none))
      ∧ ∀ (f : Frame) (last : Nat) (cells : CellsRead) (s : State), reaches f last cells s = true ↔
        f.cell + cells.length = last + 1 ∧ ∀ g ∈ gridOf s.ae.rate f.cell f.expected cells, goesOn f s g = true)
    ∧ ((∀ a b : BitVec 24, a.toNat < b.toNat → ∃ k < 24,
        (∀ j < k, a.getMsbD j = b.getMsbD j
          ∧ attemptReading .header (some (a.getMsbD j)) (.data (lineBit [a.getMsbD j, b.getMsbD j])) = none)
        ∧ attemptReading .header (some (a.getMsbD k)) (.data (lineBit [a.getMsbD k, b.getMsbD k])) = none
        ∧ attemptReading .header (some (b.getMsbD k)) (.data (lineBit [a.getMsbD k, b.getMsbD k])) = some .lost)
      ∧ ∀ h h' : FrameHead, h.cls < h'.cls →
        (h.bits.extractLsb' 8 24).toNat < (h'.bits.extractLsb' 8 24).toNat)
    ∧ ((∀ own bit : Bool, attemptReading .header (some own) (.data bit) =
          if bit = own then none else if own = true then some .lost else some .bitError)
        ∧ (∀ (p : Part) (own bit : Bool), p = .control ∨ p = .payload ∨ p = .check ∨ p = .slotMark →
          attemptReading p (some own) (.data bit) = if bit = own then none else some .bitError)
        ∧ (∀ (p : Part) (own : Bool), attemptReading p (some own) .quiet = some .formatError)
        ∧ (∀ (p : Part) (own : Option Bool), attemptReading p own .stuck = some .lineFault
          ∧ attemptReading p own .invalid = some .formatError)
        ∧ (∀ (p : Part) (own : Option Bool), attemptReading p own .breakPulse = some .formatError
          ∧ (p ≠ .sofPart → attemptReading p own .sof = some .formatError))
        ∧ (∀ (p : Part) (bit : Bool), p = .eod ∨ p = .eof →
          attemptReading p none (.data bit) = some .formatError ∧ attemptReading p none .quiet = none)
        ∧ (∀ bit : Bool, attemptReading .response none (.data bit) = none ∧ attemptReading .response none .quiet = none)
        ∧ ∀ (f : Frame) (before : CellsRead) (pulses : CellPulses) (part : Part) (number expected : Nat) (s : State),
          number = f.cell + before.length → expected = gridEnd s.ae.rate f.cell f.expected before →
          (∀ g ∈ gridOf s.ae.rate f.cell f.expected before, goesOn f s g = true) →
          cellIsDue s.le.phase f number = true → f.partOf number = some part →
            (number = lastCell (frameShape f).1 (frameShape f).2 →
              readCell s.ae.rate expected pulses = .quiet →
              attemptOutcomeAt f (before ++ [pulses]) s = some (.sentClean f.slots))
            ∧ (number ≠ lastCell (frameShape f).1 (frameShape f).2 ∨ readCell s.ae.rate expected pulses ≠ .quiet →
              attemptOutcomeAt f (before ++ [pulses]) s =
                if s.le.mode = .loopback then none
                else attemptReading part (ownBit f (drivenImage f s) part number)
                  (readCell s.ae.rate expected pulses)))

/-- The end of an attempt (R73, R79, R81, R82, R87, R105). A cell whose reading gives the attempt an outcome other than
a stuck line empties the offer slot, counts and runs by the outcome, enters the phase it calls for (RECOVERING after a
bit or format error even with 6 quiet bit times read: the model's choice, log entry 34), releases TXD, mutes with the
LINE cause when the run reaches 16, hands the cell to the scheduler, and leaves the reception of the own frame (log
entry 14) unless the attempt is LOST and the frame is followed on, on its grid, with the header bits read so far (log
entry 8). A stuck line read in a cell (the cell its pulse begins in: the model's choice, log entry 30) is the entry into
FAULT, the same event as STUCK_LINE (`StuckLineAndRecovery`). A flush or an expiry taken next at the same moment (R61,
R60: the attempt end first) finds a cell that has rejoined its list QUEUED: the end's event then takes no offer decision
(log entry 33). Outside an attempt no such event arises, and cells whose last reading does not end it change nothing but
for the decisions at the event's end (log entry 1). The settled cell joins the completion pending list before the result
of a mode taken then (log entry 27). The decisions at the event's end are taken in the model's order (`conclude`, log
entry 5). -/
def Obligations.AttemptEnds : Prop :=
  (∀ (id : CellId) (c : TxCell) (f : Frame) (before line : CellsRead) (last : CellPulses) (ending : AttemptEnding)
      (o : AttemptOutcome) (s u : State), s.le.phase.isAttempt = true → s.le.slot = some id → s.cell id = .tx c →
      s.le.frame = some f → line = decodedLine f (lastCell (frameShape f).1 (frameShape f).2) (before ++ [last]) s →
      attemptOutcomeAt f line s = some o → o ≠ .lineFault →
      u = { s with
        hp := { s.hp with
          cause := if o.isLineError = true ∧ 15 ≤ s.le.errorRun then s.hp.cause ||| 0x20#9 else s.hp.cause },
        le := { s.le with
          quietRun := ending.quiet, slot := none, txd := .released,
          errorRun := if o.isLineError = true then min (s.le.errorRun + 1) 16
                      else if o = .lost then s.le.errorRun else 0,
          muted := s.le.muted || (o.isLineError && decide (15 ≤ s.le.errorRun)),
          phase := if o.isLineError = true then .recovering else if o = .lost then .receiving else .idle,
          frame := if o = .lost then
              some { role := .receiver, kept := f.kept ++ dataBits s.ae.rate (gridOf s.ae.rate f.cell f.expected line),
                     head := none, checkRegister := 0xFFFF#16, point := .start, answer := none, answerAllowed := false,
                     slots := [], slotDrive := .pending, cell := f.cell + line.length,
                     expected := gridEnd s.ae.rate f.cell f.expected line,
                     driven := f.driven ++ pulsesDriven f line s }
            else none,
          counters :=
            if o.isLineError = true then { s.le.counters with txErrors := satInc s.le.counters.txErrors }
            else if o = .lost then { s.le.counters with lostArb := satInc s.le.counters.lostArb }
            else { s.le.counters with txSent := satInc s.le.counters.txSent } } } →
        exec (.attemptEnd before last ending) s =
          .next (concludeAttempt ending.moment
            (atBoundary (settleAttempt id o (if o = .lost then u else abandonReception u)))))
    ∧ (∀ (f : Frame) (before : CellsRead) (last : CellPulses) (ending : AttemptEnding) (dominant : Nat) (s : State),
      s.le.phase.isAttempt = true → s.le.frame = some f →
      attemptOutcomeAt f (decodedLine f (lastCell (frameShape f).1 (frameShape f).2) (before ++ [last]) s) s
        = some .lineFault →
      64 * s.ae.rate.bitCycles ≤ dominant →
        (ending.moment = .plain → exec (.attemptEnd before last ending) s = exec (.stuckLine dominant) s)
          ∧ ∀ (id : CellId) (u v : State), s.le.slot = some id →
            v = { s with
              hp := { s.hp with cause := if 15 ≤ s.le.errorRun then s.hp.cause ||| 0x20#9 else s.hp.cause },
              le := { s.le with
                slot := none, txd := .released, phase := .fault, frame := none,
                errorRun := min (s.le.errorRun + 1) 16, muted := s.le.muted || decide (15 ≤ s.le.errorRun),
                counters := { s.le.counters with txErrors := satInc s.le.counters.txErrors } } } →
            u = settleAttempt id .lineFault (abandonReception v) →
              exec (.attemptEnd before last ending) s = .next (concludeAttempt ending.moment (atBoundary
                { u with
                  hp := { u.hp with cause := u.hp.cause ||| 0x20#9 },
                  le := { u.le with phase := .fault, fault := true, frame := none, txd := .released, quietRun := 0 } })))
    ∧ (∀ (f : Frame) (before : CellsRead) (last : CellPulses) (ending : AttemptEnding) (s : State),
      s.le.phase.isAttempt = true → s.le.frame = some f →
      attemptOutcomeAt f (decodedLine f (lastCell (frameShape f).1 (frameShape f).2) (before ++ [last]) s) s = none →
        exec (.attemptEnd before last ending) s = .next (concludeAttempt ending.moment s))
    ∧ (∀ (before : CellsRead) (last : CellPulses) (ending : AttemptEnding) (s : State),
      (s.le.phase.isAttempt = false → exec (.attemptEnd before last ending) s = .next s)
        ∧ (s.le.phase.isAttempt = true → s.le.frame = none →
          exec (.attemptEnd before last ending) s = .next (concludeAttempt ending.moment s)))
    ∧ (∀ p : Phase, p.isAttempt = true ↔ p = .arbitrating ∨ p = .sending ∨ p = .windowOut)
    ∧ ∀ o : AttemptOutcome, o.isLineError = true ↔ o = .bitError ∨ o = .formatError ∨ o = .lineFault

/-! ## The line -/

/-- Joins and SOFs (R66, R67, R69, R13, R60). JOINING ends with the LINE cause when the quiet run stands at 8 bit times.
In IDLE an attempt begins at an SOF driven with 8 bit times of quiet, or at another node's SOF edge with 7 3/4, when the
slot holds a cell and the engine may transmit; another SOF is followed as a receiver; any other pulse restarts the quiet
run, a glitch is disregarded, and a stuck period is STUCK_LINE's (log entry 1). At the moment of an expiry taken first
the slot counts as empty, whatever the expiry's own offer decision has put there: no SOF is driven, and an edge read is
followed as a receiver (log entry 26). In JOINING, RECOVERING and FAULT no pulse is a frame start: an SOF edge and the
end of each pulse but a glitch start the quiet run again (R6, R20, R66, R80; that a glitch does not in FAULT, log entry
32). In OFF and in the frame phases, and for RXD in LOOPBACK (R83), no such event arises, nor is an SOF driven by an
engine that may not begin an attempt or with a shorter quiet run (log entry 1). The grid of the frame counts from its
SOF edge (R4). Readings are in cycles of the 10 MHz REFCLK (log entry 6). An SOF edge read under the row ATTEMPT_START
when no attempt may begin is the frame start of FRAME_START (log entry 19), and JOIN_COMPLETE with a run below 8 bit
times only measures it (log entry 1). The decisions at the event's end are taken in the model's order (`conclude`, log
entry 5). -/
def Obligations.JoinsAndFrameStarts : Prop :=
  (∀ (quiet : Nat) (s : State), s.le.phase = .joining →
      (8 * s.ae.rate.bitCycles ≤ quiet →
        exec (.joinComplete quiet) s = .next (conclude
          { s with
            hp := { s.hp with cause := s.hp.cause ||| 0x20#9 },
            le := { s.le with phase := .idle, quietRun := quiet } }))
      ∧ (quiet < 8 * s.ae.rate.bitCycles →
        exec (.joinComplete quiet) s = .next (conclude { s with le := { s.le with quietRun := quiet } })))
    ∧ (∀ (id : CellId) (c : TxCell) (quiet : Nat) (s t : State), s.le.phase = .idle → s.hp.engine = .running →
      s.le.slot = some id → s.cell id = .tx c → (s.le.mode = .online ∧ s.le.muted = false ∨ s.le.mode = .loopback) →
      t = { s with
        le := { s.le with
          phase := .arbitrating, quietRun := 0, txd := if s.le.mode = .online then .driving else .released,
          frame := some { role := .originator, kept := [], head := none, checkRegister := 0xFFFF#16, point := .start,
                          answer := none, answerAllowed := false, slots := [], slotDrive := .pending, cell := 0, expected := 0,
                          driven := [] } },
        sch := { s.sch with sofReported := true } } →
        (8 * s.ae.rate.bitCycles ≤ quiet → exec (.attemptStart (.driven .plain) quiet) s = .next t)
          ∧ (s.le.mode = .online → 31 * s.ae.rate.bitCycles ≤ 4 * quiet →
            exec (.attemptStart (.edgeRead .plain) quiet) s = .next t
              ∧ ∀ length, classifyPulse s.ae.rate length = .sof →
                exec (.frameStart quiet { length := length, moment := .plain }) s = .next t))
    ∧ (∀ (quiet length : Nat) (moment : SofMoment) (s : State), s.le.phase = .idle → s.le.mode ≠ .loopback →
      (s.le.slot = none ∨ s.le.mode ≠ .online ∨ s.le.muted = true ∨ s.hp.engine ≠ .running
        ∨ 4 * quiet < 31 * s.ae.rate.bitCycles ∨ moment = .afterExpiry) → classifyPulse s.ae.rate length = .sof →
        ∃ t, t = { s with
            le := { s.le with
              phase := .receiving, quietRun := 0,
              frame := some { role := .receiver, kept := [], head := none, checkRegister := 0xFFFF#16, point := .start,
                              answer := none, answerAllowed := false, slots := [], slotDrive := .pending, cell := 0,
                              expected := 0, driven := [] } } }
          ∧ exec (.frameStart quiet { length := length, moment := moment }) s = .next t
          ∧ exec (.attemptStart (.edgeRead moment) quiet) s = .next t)
    ∧ (∀ (quiet : Nat) (moment : SofMoment) (s : State),
      moment = .afterExpiry ∨ quiet < 8 * s.ae.rate.bitCycles ∨ s.le.phase ≠ .idle ∨ s.hp.engine ≠ .running
        ∨ s.le.slot = none ∨ s.le.mode = .offline ∨ s.le.mode = .listen ∨ s.le.mode = .online ∧ s.le.muted = true →
        exec (.attemptStart (.driven moment) quiet) s = .next s)
    ∧ (∀ (quiet : Nat) (moment : SofMoment) (pulse : PulseRead) (s : State),
      s.le.phase = .off ∨ s.le.phase = .arbitrating ∨ s.le.phase = .sending ∨ s.le.phase = .windowOut
        ∨ s.le.phase = .receiving ∨ s.le.mode = .loopback →
        exec (.attemptStart (.edgeRead moment) quiet) s = .next s ∧ exec (.frameStart quiet pulse) s = .next s)
    ∧ (∀ (quiet : Nat) (moment : SofMoment) (pulse : PulseRead) (s t : State), s.le.mode ≠ .loopback →
      s.le.phase = .joining ∨ s.le.phase = .recovering ∨ s.le.phase = .fault →
      t = { s with le := { s.le with quietRun := 0 } } →
        exec (.attemptStart (.edgeRead moment) quiet) s = .next t
          ∧ exec (.frameStart quiet pulse) s = .next
            (if classifyPulse s.ae.rate pulse.length = .glitch
                ∨ classifyPulse s.ae.rate pulse.length = .stuck ∧ s.le.phase ≠ .fault then s else t))
    ∧ ∀ (quiet : Nat) (pulse : PulseRead) (s : State), s.le.phase = .idle → s.le.mode ≠ .loopback →
      (classifyPulse s.ae.rate pulse.length = .data1 ∨ classifyPulse s.ae.rate pulse.length = .data0
          ∨ classifyPulse s.ae.rate pulse.length = .invalid ∨ classifyPulse s.ae.rate pulse.length = .breakPulse →
        exec (.frameStart quiet pulse) s = .next { s with le := { s.le with quietRun := 0 } })
      ∧ (classifyPulse s.ae.rate pulse.length = .glitch ∨ classifyPulse s.ae.rate pulse.length = .stuck →
        exec (.frameStart quiet pulse) s = .next s)

/-- The classes of a pulse (R2, R3), with the bit time of each rate in cycles of the 10 MHz REFCLK (10.7, log entry 6):
50, 20 and 10 µs a bit; the nominal pulses the part drives, each of which reads as what it is; and the cell grid (R4).
The next cell is expected 3 bit times after the SOF edge, then 1 bit time after each cell's start, which is the first
dominant edge in its start window or else its expected start; an edge outside the window, and a second pulse, are
invalid symbols, and glitches count for nothing; a pulse of 64 bit times makes its own cell a stuck line (the model's
choice, log entry 30). A driver starts its pulse at its expected start or at an earlier edge in its window, so that the
pulses of two drivers whose windows hold each other's starts begin on one edge (R5). The cells read lie on the grid in
order, each with its number and expected start, and their data bits are those of the data cells, not of the SOF part
(R8). -/
def Obligations.PulseClasses : Prop :=
  (RateCode.kbit20.bitCycles = 500 ∧ RateCode.kbit50.bitCycles = 200 ∧ RateCode.kbit100.bitCycles = 100)
    ∧ (∀ (rate : RateCode) (n : Nat),
      (8 * n < rate.bitCycles → classifyPulse rate n = .glitch)
        ∧ (rate.bitCycles ≤ 8 * n → 2 * n < rate.bitCycles → classifyPulse rate n = .data1)
        ∧ (rate.bitCycles ≤ 2 * n → n < rate.bitCycles → classifyPulse rate n = .data0)
        ∧ (rate.bitCycles ≤ n → 2 * n < 3 * rate.bitCycles → classifyPulse rate n = .invalid)
        ∧ (3 * rate.bitCycles ≤ 2 * n → 2 * n < 5 * rate.bitCycles → classifyPulse rate n = .sof)
        ∧ (5 * rate.bitCycles ≤ 2 * n → n < 8 * rate.bitCycles → classifyPulse rate n = .invalid)
        ∧ (8 * rate.bitCycles ≤ n → n < 64 * rate.bitCycles → classifyPulse rate n = .breakPulse)
        ∧ (64 * rate.bitCycles ≤ n → classifyPulse rate n = .stuck))
    ∧ (∀ rate : RateCode,
      4 * DrivenPulse.data1.cycles rate = rate.bitCycles ∧ 4 * DrivenPulse.data0.cycles rate = 3 * rate.bitCycles
        ∧ DrivenPulse.sof.cycles rate = 2 * rate.bitCycles ∧ DrivenPulse.slotMark.cycles rate = DrivenPulse.data0.cycles rate
        ∧ classifyPulse rate (DrivenPulse.data1.cycles rate) = .data1
        ∧ classifyPulse rate (DrivenPulse.data0.cycles rate) = .data0
        ∧ classifyPulse rate (DrivenPulse.sof.cycles rate) = .sof)
    ∧ (∀ (rate : RateCode) (expected : Nat) (pulses : CellPulses),
      pulses.filter (fun p => rate.bitCycles ≤ 8 * p.length) = [] →
        readCell rate expected pulses = .quiet ∧ driveStart rate expected pulses = expected
          ∧ ∀ n, n ≠ 0 → gridEnd rate n expected [pulses] = expected + rate.bitCycles)
    ∧ (∀ (rate : RateCode) (expected : Nat) (pulses rest : CellPulses) (p : LinePulse),
      pulses.filter (fun p => rate.bitCycles ≤ 8 * p.length) = p :: rest →
        (4 * p.edge + rate.bitCycles < 4 * expected ∨ 4 * expected + rate.bitCycles < 4 * p.edge →
          readCell rate expected pulses = .invalid)
        ∧ (4 * expected ≤ 4 * p.edge + rate.bitCycles → 4 * p.edge ≤ 4 * expected + rate.bitCycles →
          (∀ n, n ≠ 0 → gridEnd rate n expected [pulses] = p.edge + rate.bitCycles)
            ∧ driveStart rate expected pulses = min expected p.edge
            ∧ (64 * rate.bitCycles ≤ p.length → readCell rate expected pulses = .stuck)
            ∧ (p.length < 64 * rate.bitCycles → rest = [] →
              readCell rate expected pulses = Reading.ofSymbol (classifyPulse rate p.length))
            ∧ (p.length < 64 * rate.bitCycles → rest ≠ [] → readCell rate expected pulses = .invalid)))
    ∧ (∀ (rate : RateCode) (pulses : CellPulses), gridEnd rate 0 0 [pulses] = 3 * rate.bitCycles)
    ∧ (∀ (rate : RateCode) (n expected : Nat) (before after : CellsRead),
      gridEnd rate n expected (before ++ after) =
        gridEnd rate (n + before.length) (gridEnd rate n expected before) after)
    ∧ (∀ (rate : RateCode) (n expected : Nat) (pulses : CellPulses) (rest : CellsRead) (g : GridCell) (grid : List GridCell),
      gridOf rate n expected [] = []
        ∧ gridOf rate n expected (pulses :: rest) =
          { number := n, expected := expected, pulses := pulses }
            :: gridOf rate (n + 1) (gridEnd rate n expected [pulses]) rest
        ∧ g.reading rate = readCell rate g.expected g.pulses ∧ dataBits rate [] = []
        ∧ (∀ bit, g.number ≠ 0 → g.reading rate = .data bit → dataBits rate (g :: grid) = bit :: dataBits rate grid)
        ∧ (g.number = 0 ∨ (∀ bit, g.reading rate ≠ .data bit) → dataBits rate (g :: grid) = dataBits rate grid))
    ∧ ∀ (rate : RateCode) (a b : Nat) (p q : DrivenPulse), a ≤ b → 4 * b ≤ 4 * a + rate.bitCycles →
      (drivePulse rate b [drivePulse rate a [] p] q).edge = a ∧ (drivePulse rate a [] p).edge = a
        ∧ (drivePulse rate b [drivePulse rate a [] p] q).length = q.cycles rate

/-- The check (R11, R12). Over "123456789" the register ends at 0x29B1. Run on over sixteen check bits it ends at 0
exactly when they are the register's own, and a frame whose data reads back as driven has a good check. A field is sent
most significant bit first and read back so; a frame's bits are those of head, payload and check (R8). -/
def Obligations.CheckResidue : Prop :=
  runCheck 0xFFFF#16 (payloadBits [0x31, 0x32, 0x33, 0x34, 0x35, 0x36, 0x37, 0x38, 0x39]) = 0x29B1#16
    ∧ (∀ register check : BitVec 16, runCheck register (lineBits check) = 0 ↔ check = register)
    ∧ (∀ (head : BitVec 32) (payload : List Byte), runCheck 0xFFFF#16 (imageBits head payload) = 0)
    ∧ (∀ (w : Nat) (x : BitVec w),
      lineBits x = (List.range w).map x.getMsbD ∧ BitVec.ofNat w (bitsToNat (lineBits x)) = x)
    ∧ (∀ (payload : List Byte) (rest : List Bool),
      payloadBits payload = payload.flatMap lineBits ∧ bytesOfBits payload.length (payloadBits payload ++ rest) = payload)
    ∧ ∀ (head : BitVec 32) (payload : List Byte),
      frameCheck head payload = runCheck 0xFFFF#16 (lineBits head ++ payloadBits payload)
        ∧ imageBits head payload = lineBits head ++ payloadBits payload ++ lineBits (frameCheck head payload)

/-- The header and control byte as 32 bits, and the fields read from them, agree (R9, R10, R74): every head of a frame
reads back from its bits, legal bits are those of the head they read as, and mode 3 or a length above 32 reads as none.
The cells of each field are its own: class 1 and 2, target 3 to 10, topic 11 to 16, source 17 to 24, response mode 25
and 26, length 27 to 32. -/
def Obligations.HeaderFieldsRoundTrip : Prop :=
  (∀ h : FrameHead, h.length ≤ 32 → FrameHead.ofBits h.bits = some h)
    ∧ (∀ (b : BitVec 32) (h : FrameHead), FrameHead.ofBits b = some h → h.bits = b ∧ h.length ≤ 32)
    ∧ (∀ h : FrameHead, h.length ≤ 32 →
      (h.bits.extractLsb' 30 2).toNat = h.cls.val ∧ h.bits.extractLsb' 22 8 = h.target
        ∧ h.bits.extractLsb' 16 6 = h.topic ∧ h.bits.extractLsb' 8 8 = h.source
        ∧ (h.bits.extractLsb' 6 2).toNat = (match h.mode with | .noWindow => 0 | .single => 1 | .roll => 2)
        ∧ (h.bits.extractLsb' 0 6).toNat = h.length)
    ∧ ∀ b : BitVec 32, FrameHead.ofBits b = none ↔ b.extractLsb' 6 2 = 3#2 ∨ 32 < (b.extractLsb' 0 6).toNat

/-- HEADER_END (R74, R23, R71). The cells read since the last point, each letting the frame go on, reach the end of data
cell 32. In RECEIVING, with the fields of the 32 bits read, those before a lost cell included, and in SENDING, with
those the engine drives, which it has read (log entry 7), the check register has run over the 32 bits, the
answer-allowed flag is taken as the mode and the muted flag give it, and the acceptance unit decides the frame. What an
originator drives (R69, R15, R16, R71, R72): the head is the cell's class, target, topic, response mode and length with
the node id as source; the image is the bits of head, payload and check; a data cell carries its bit of the image, the
SOF part the SOF and a mark a data 0; EOD, EOF and, without an answer of its own, the response cells carry nothing.
Outside LOOPBACK the line decoded is RXD; in LOOPBACK it carries the node's own pulses alone, each at its cell's
expected start (R83). -/
def Obligations.HeaderEnds : Prop :=
  (∀ (cells : CellsRead) (bits : BitVec 32) (h : FrameHead) (f : Frame) (s : State), s.le.phase = .receiving →
      s.le.mode ≠ .loopback → s.le.frame = some f → f.role = .receiver → f.point = .start →
      reaches f 32 cells s = true →
      f.kept ++ dataBits s.ae.rate (gridOf s.ae.rate f.cell f.expected cells) = lineBits bits →
      FrameHead.ofBits bits = some h →
        ∃ allowed : Bool,
          (allowed = true ↔ s.le.mode = .online ∧ s.le.muted = false)
          ∧ exec (.headerEnd cells) s = .next (headerCall h false allowed
            { s with
              le := { s.le with
                frame := some
                  { followCells f cells s with
                    kept := lineBits bits, head := some h, point := .headerEnd, answerAllowed := allowed,
                    checkRegister := runCheck f.checkRegister (lineBits bits) } } }))
    ∧ (∀ (cells line : CellsRead) (id : CellId) (c : TxCell) (f : Frame) (s : State), s.le.phase = .sending →
      s.le.frame = some f → f.role = .originator → f.point = .start → f.cell = 0 → s.le.slot = some id →
      s.cell id = .tx c → c.length ≤ 32 → f.kept = [] →
      line = decodedLine f 32 cells s → reaches f 32 line s = true →
        ∃ allowed : Bool,
          (allowed = true ↔ s.le.mode = .online ∧ s.le.muted = false ∨ s.le.mode = .loopback)
          ∧ exec (.headerEnd cells) s = .next (headerCall (drivenHead c s.ae.nodeId) true allowed
            { s with
              le := { s.le with
                frame := some
                  { followCells f line s with
                    kept := lineBits (drivenHead c s.ae.nodeId).bits, head := some (drivenHead c s.ae.nodeId),
                    point := .headerEnd, answerAllowed := allowed,
                    checkRegister := runCheck f.checkRegister (lineBits (drivenHead c s.ae.nodeId).bits) } } }))
    ∧ (∀ (id : CellId) (c : TxCell) (f : Frame) (h : FrameHead) (image : List Bool) (drive : SlotDrive) (cell : Nat)
        (part : Part) (s : State), f.role = .originator → s.le.slot = some id → s.cell id = .tx c →
      h = { cls := c.cls, target := c.target, topic := c.topic, source := s.ae.nodeId, mode := c.mode,
            length := c.length } →
      image = lineBits h.bits ++ c.payload.flatMap lineBits ++ lineBits (frameCheck h.bits c.payload) →
      f.partOf cell = some part →
        drivenHead c s.ae.nodeId = h ∧ drivenImage f s = image
          ∧ ownBit f image part cell =
            (if part = .header ∨ part = .control ∨ part = .payload ∨ part = .check then image[cell - 1]?
             else if part = .slotMark then some false
             else none)
          ∧ (part ≠ .response ∨ f.answer = none ∨ f.answerAllowed = false →
            pulseIn f image drive cell =
              (if part = .header ∨ part = .control ∨ part = .payload ∨ part = .check then
                 (image[cell - 1]?).map (fun bit => if bit = true then .data1 else .data0)
               else if part = .sofPart then some .sof
               else if part = .slotMark then some .slotMark
               else none)))
    ∧ (∀ (f : Frame) (line : CellsRead) (s : State),
      followCells f line s =
          { f with
            cell := f.cell + line.length, expected := gridEnd s.ae.rate f.cell f.expected line,
            slotDrive := (followCells f line s).slotDrive, driven := f.driven ++ pulsesDriven f line s }
        ∧ pulsesDriven f line s =
          (gridOf s.ae.rate f.cell f.expected line).filterMap (fun g =>
            (pulseIn f (drivenImage f s) (followCells f line s).slotDrive g.number).map
              (drivePulse s.ae.rate g.expected g.pulses)))
    ∧ ∀ (f : Frame) (last : Nat) (cells : CellsRead) (s : State),
      (s.le.mode ≠ .loopback → decodedLine f last cells s = cells)
        ∧ (s.le.mode = .loopback → (decodedLine f last cells s).length = last + 1 - f.cell
          ∧ ∀ g ∈ gridOf s.ae.rate f.cell f.expected (decodedLine f last cells s),
            g.pulses =
              (match pulseIn f (drivenImage f s) f.slotDrive g.number with
               | some p => [{ edge := g.expected, length := p.cycles s.ae.rate }]
               | none => []))

/-- Matching (R92): an entry matches a frame when it is valid and every bit of target, topic and source whose mask bit
is set is equal in the frame, as its fields are read and handed over at the header end (R74), and the entry; mask 0
matches every value, the full mask one value, and value bits outside the mask play no part; a source of 0 or above 239
matches as any other. Target 240 with mask 240 matches exactly the group targets; target 0 with mask 255 target 0; topic
32 with mask 48 exactly 32 to 47. -/
def Obligations.AcceptanceMatching : Prop :=
  (∀ (e : Entry) (h : FrameHead), e.matchesHead h = true ↔
      e.valid = true
        ∧ (∀ i < 8, e.targetMask.getLsbD i = true → h.target.getLsbD i = e.targetValue.getLsbD i)
        ∧ (∀ i < 6, e.topicMask.getLsbD i = true → h.topic.getLsbD i = e.topicValue.getLsbD i)
        ∧ ∀ i < 8, e.sourceMask.getLsbD i = true → h.source.getLsbD i = e.sourceValue.getLsbD i)
    ∧ (∀ (i : Fin 32) (h : FrameHead) (own allowed : Bool) (s : State),
      ¬(own = true ∧ (s.le.mode = .listen ∨ s.le.mode = .online)) →
        ((s.entry i).matchesHead h = true → (∀ j < i, (s.entry j).matchesHead h = false) →
          headerCall h own allowed s = decideFrame i h allowed s))
    ∧ (∀ (cells : CellsRead) (bits : BitVec 32) (h : FrameHead) (f : Frame) (s : State), s.le.phase = .receiving →
      s.le.mode ≠ .loopback → s.le.frame = some f → f.point = .start → reaches f 32 cells s = true →
      f.kept ++ dataBits s.ae.rate (gridOf s.ae.rate f.cell f.expected cells) = lineBits bits →
      FrameHead.ofBits bits = some h →
        ∃ own allowed u, u.au = s.au ∧ exec (.headerEnd cells) s = .next (headerCall h own allowed u))
    ∧ (∀ (e : Entry) (h : FrameHead), e.valid = true → e.targetMask = 0 → e.topicMask = 0 → e.sourceMask = 0 →
      e.matchesHead h = true)
    ∧ (∀ (e : Entry) (h : FrameHead), e.valid = true → e.targetMask = 255 → e.topicMask = 63 → e.sourceMask = 255 →
      (e.matchesHead h = true ↔ h.target = e.targetValue ∧ h.topic = e.topicValue ∧ h.source = e.sourceValue))
    ∧ (∀ field value : Byte, maskedEq field value 0#8 = true)
    ∧ (∀ field value : BitVec 6, maskedEq field value 0#6 = true)
    ∧ (∀ (e : Entry) (h : FrameHead) (v : Byte), v &&& e.targetMask = e.targetValue &&& e.targetMask →
      { e with targetValue := v }.matchesHead h = e.matchesHead h)
    ∧ (∀ (e : Entry) (h : FrameHead) (v : BitVec 6), v &&& e.topicMask = e.topicValue &&& e.topicMask →
      { e with topicValue := v }.matchesHead h = e.matchesHead h)
    ∧ (∀ (e : Entry) (h : FrameHead) (v : Byte), v &&& e.sourceMask = e.sourceValue &&& e.sourceMask →
      { e with sourceValue := v }.matchesHead h = e.matchesHead h)
    ∧ (∀ t : Byte, maskedEq t 240#8 240#8 = true ↔ 240 ≤ t.toNat)
    ∧ (∀ t : Byte, maskedEq t 0#8 255#8 = true ↔ t = 0)
    ∧ (∀ v t : Byte, v = 0 ∨ 239 < v.toNat → (maskedEq t v 255#8 = true ↔ t = v))
    ∧ ∀ t : BitVec 6, maskedEq t 32#6 48#6 = true ↔ 32 ≤ t.toNat ∧ t.toNat ≤ 47

/-- The acceptance unit's decision at a header end (R93 to R101, R32, R109). An own frame in LISTEN or ONLINE, and a frame
no entry matches, is followed silently. Otherwise the first entry that matches decides and its hit count rises: a frame it
accepts into an OPEN ring takes the lowest free cell, answered ACK when solicited; at RX_HOLD a solicited one is answered
BUSY; at RX_LIMIT an unsolicited one is dropped with RX_DROPPED and OVERRUN; a frame it refuses is answered REJECT when
solicited; a frame it discards, or accepts into a ring that is not OPEN, is followed silently. In
HALTED (R110) a claim is refused and no answer is planned. -/
def Obligations.AcceptanceDecision : Prop :=
  (∀ (r : Reception) (s : State),
      beginReception r s =
        { s with
          au := { s.au with reception := some r },
          le := { s.le with frame := s.le.frame.map (fun f => { f with answer := r.answer }) } })
    ∧ (∀ (h : FrameHead) (own allowed : Bool) (s : State),
      (own = true ∧ (s.le.mode = .listen ∨ s.le.mode = .online)) ∨ (∀ i, (s.entry i).matchesHead h = false) →
        headerCall h own allowed s = beginReception
          { entry := none, action := none, solicited := false, cell := none, answer := none, check := none } s)
    ∧ ∀ (i : Fin 32) (e : Entry) (h : FrameHead) (own allowed solicited : Bool) (s u : State),
      ¬(own = true ∧ (s.le.mode = .listen ∨ s.le.mode = .online)) → e = s.entry i → e.matchesHead h = true →
      (∀ j < i, (s.entry j).matchesHead h = false) →
      (solicited = true ↔ h.mode ≠ .noWindow ∧ e.respond = true ∧ allowed = true) →
      u = s.setEntry i { e with hits := if e.hits = 0xFFFF then 0xFFFF else e.hits + 1 } →
        (∀ id, e.action = .accept → (s.arrival e.ring).state = .opened → s.hp.engine = .running →
          s.cp.rxInUse < (if solicited = true then s.cp.rxHold else s.cp.rxLimit) → lowestFree s = some id →
          headerCall h own allowed s = beginReception
            { entry := some i, action := some .accept, solicited := solicited, cell := some id,
              answer := if solicited = true then
                  some { slot := if h.mode = .single then 0 else e.slot, code := .ack, value := e.reply }
                else none,
              check := none }
            { (u.updArrival e.ring (fun r => { r with held := r.held + 1 })) with
              cp := { s.cp with
                cells := s.cp.cells.set id.val (.rx
                  { ring := e.ring, entry := i, cls := h.cls, target := h.target, topic := h.topic, source := h.source,
                    mode := h.mode, length := h.length, payload := [], answer := none, arrivalTick := 0 }),
                rxInUse := s.cp.rxInUse + 1 } })
        ∧ (e.action = .accept → (s.arrival e.ring).state = .opened → s.hp.engine = .running → solicited = true →
          s.cp.rxHold ≤ s.cp.rxInUse →
          headerCall h own allowed s = beginReception
            { entry := some i, action := some .accept, solicited := true, cell := none,
              answer := some { slot := if h.mode = .single then 0 else e.slot, code := .busy, value := e.reply },
              check := none } u)
        ∧ (e.action = .accept → (s.arrival e.ring).state = .opened → s.hp.engine = .running → solicited = false →
          s.cp.rxLimit ≤ s.cp.rxInUse →
          headerCall h own allowed s = beginReception
            { entry := some i, action := some .accept, solicited := false, cell := none, answer := none, check := none }
            { u with
              hp := { s.hp with cause := s.hp.cause ||| 0x40#9 },
              le := { s.le with
                counters := { s.le.counters with rxDropped := satInc s.le.counters.rxDropped } } })
        ∧ (e.action = .refuse → s.hp.engine = .running →
          headerCall h own allowed s = beginReception
            { entry := some i, action := some .refuse, solicited := solicited, cell := none,
              answer := if solicited = true then
                  some { slot := if h.mode = .single then 0 else e.slot, code := .reject, value := e.reply }
                else none,
              check := none } u)
        ∧ (e.action = .accept → (s.arrival e.ring).state = .opened → s.hp.engine = .halted →
          headerCall h own allowed s = beginReception
            { entry := some i, action := some .accept, solicited := solicited, cell := none, answer := none,
              check := none } u)
        ∧ (e.action = .refuse → s.hp.engine = .halted →
          headerCall h own allowed s = beginReception
            { entry := some i, action := some .refuse, solicited := solicited, cell := none, answer := none,
              check := none } u)
        ∧ (e.action = .discard ∨ (e.action = .accept ∧ (s.arrival e.ring).state ≠ .opened) →
          headerCall h own allowed s = beginReception
            { entry := some i, action := some .discard, solicited := solicited, cell := none, answer := none,
              check := none } u)

/-- CHECK_END (R75, R102, R103, R104, R132, R141, R12). The cells read since the header end, each letting the frame go
on, reach the last check cell. The register runs over the payload, of the length of the control byte: the bits read,
which for an originator are those it drives (log entry 7). The check is good when the register equals the check read. A
good check commits a stored frame: the cell takes the payload, stored in this step (log entry 8), the tick and the ACK
it answers with, RX_ACCEPTED rises, and the cell is handed to its ring; without a cell a planned answer is confirmed, a
BUSY counted. A bad check cancels the answer and frees a held cell, counted in RX_CHECK_ERRORS. A responder whose answer
stands in the slot that comes next is shown as driving TXD from here on, in ONLINE and unmuted: R76 has it drive from
the slot's first response cell, and that the drive counts from the point before the slot is the model's reading
(DEDUCED, log entries 17 and 22). On an OPEN ring the cell handed over joins the tail of the pending list and the
arrival writer takes a decision; on a ring that is not, it is discarded in the same event and counted there. A DRAINING
ring whose last cell is freed by a bad check or discarded so becomes CLOSED (`arrivalClosed`). The decisions at the
event's end are taken in the model's order (`conclude`, log entry 5). -/
def Obligations.CheckEnds : Prop :=
  (∀ (payloadCells checkCells line : CellsRead) (payload : List Byte) (check register : BitVec 16) (f : Frame) (h : FrameHead)
      (r : Reception) (s u : State), s.le.frame = some f → f.point = .headerEnd → f.head = some h →
    line = decodedLine f (48 + 8 * h.length) (payloadCells ++ checkCells) s → reaches f (48 + 8 * h.length) line s = true →
    (s.le.phase = .receiving
        ∧ payload = bytesOfBits h.length (dataBits s.ae.rate (gridOf s.ae.rate f.cell f.expected line))
        ∧ check = BitVec.ofNat 16
            (bitsToNat ((dataBits s.ae.rate (gridOf s.ae.rate f.cell f.expected line)).drop (8 * h.length)))
      ∨ s.le.phase = .sending ∧ f.role = .originator ∧ f.cell = 33 ∧ ∃ id c, s.le.slot = some id ∧ s.cell id = .tx c
        ∧ h = drivenHead c s.ae.nodeId ∧ c.payload.length = c.length
        ∧ payload = c.payload ∧ check = frameCheck h.bits c.payload) →
    s.au.reception = some r →
    register = runCheck f.checkRegister (payloadBits payload) →
    u = { s with
      le := { s.le with
        txd :=
          if s.le.phase = .receiving ∧ s.le.mode = .online ∧ s.le.muted = false ∧ f.answerAllowed = true
              ∧ register = check ∧ h.mode ≠ .noWindow ∧ r.answer.map (fun a => a.slot) = some 0 then .driving
          else .released,
        frame := some
          { followCells f line s with
            point := .checkEnd, checkRegister := register,
            answer := if register = check then r.answer else none } },
      au := { s.au with
        reception := some
          { r with
            check := some (decide (register = check)), cell := none,
            answer := if register = check then r.answer else none } } } →
      (∀ id c, register = check → r.cell = some id → s.cell id = .rx c →
        exec (.checkEnd payloadCells checkCells) s = .next (conclude (commitToRing c.ring id
          { u with
            le := { u.le with counters := { s.le.counters with rxAccepted := satInc s.le.counters.rxAccepted } },
            cp := { s.cp with
              cells := s.cp.cells.set id.val (.rx
                { c with
                  payload := payload, arrivalTick := s.sch.tick,
                  answer := (match r.answer with
                    | some { slot := slot, code := .ack, value := _ } => some slot
                    | _ => none) }) } })))
      ∧ (register = check → r.cell = none →
        exec (.checkEnd payloadCells checkCells) s = .next (conclude
          { u with
            le := { u.le with
              counters := (match r.answer with
                | some { slot := _, code := .busy, value := _ } =>
                  { s.le.counters with busyAnswered := satInc s.le.counters.busyAnswered }
                | _ => s.le.counters) } }))
      ∧ (register ≠ check → r.cell = none → exec (.checkEnd payloadCells checkCells) s = .next (conclude u))
      ∧ (∀ id c, register ≠ check → r.cell = some id → s.cell id = .rx c →
        ∃ v, v = { (u.updArrival c.ring (fun a => { a with held := a.held - 1 })) with
            le := { u.le with
              counters := { s.le.counters with rxCheckErrors := satInc s.le.counters.rxCheckErrors } },
            cp := { s.cp with cells := s.cp.cells.set id.val .free, rxInUse := s.cp.rxInUse - 1 } }
          ∧ exec (.checkEnd payloadCells checkCells) s = .next (conclude
            (if (s.arrival c.ring).state = .draining ∧ (s.arrival c.ring).held ≤ 1 then arrivalClosed c.ring v else v))))
    ∧ (∀ (r : ArrivalId) (id : CellId) (s : State), (s.arrival r).state = .opened →
      commitToRing r id s = arrivalDecision
        { s with aw := { s.aw with pending := s.aw.pending.set r.val (s.arrivalPending r ++ [id]) } })
    ∧ ∀ (r : ArrivalId) (id : CellId) (c : RxCell) (s v : State), (s.arrival r).state ≠ .opened → s.cell id = .rx c →
      c.ring = r →
      v = { (s.updArrival r (fun a =>
            { a with held := a.held - 1, discards := if a.discards = 0xFFFF then 0xFFFF else a.discards + 1 })) with
          cp := { s.cp with cells := s.cp.cells.set id.val .free, rxInUse := s.cp.rxInUse - 1 } } →
        commitToRing r id s =
          if (s.arrival r).state = .draining ∧ (s.arrival r).held ≤ 1 then arrivalClosed r v else v

/-- Slot readings (R18, R17, R25). A slot of sixteen quiet cells is ABSENT; sixteen data bits give the code they spell
with its value byte, or GARBLED for another code; quiet cells among data bits give GARBLED with the value byte of the
last eight cells as read at mid-cell, where a quiet cell reads as 1; any other symbol is a format error. An answer is
its code byte and its value byte (R17). A responder's answer survives its slot exactly when every cell reads as its own
bit. REJECT beats BUSY at the second cell, and REJECT and BUSY beat ACK at the first, whatever the values: the loser
withdraws there. -/
def Obligations.SlotReadings : Prop :=
  classifySlot (List.replicate 16 .quiet) = some .absent
    ∧ (∀ (code value : Byte),
      classifySlot ((lineBits code ++ lineBits value).map Reading.data) =
        some (.read (if code = 0x96 then .ack else if code = 0x5A then .busy else if code = 0x3C then .reject
          else .garbled) value))
    ∧ (∀ cells : List Reading, (∃ r ∈ cells, r ≠ .quiet ∧ ∀ b, r ≠ .data b) → classifySlot cells = none)
    ∧ (∀ cells : List Reading, cells.length = 16 → (∀ r ∈ cells, r = .quiet ∨ ∃ b, r = .data b) →
      .quiet ∈ cells → (∃ b, .data b ∈ cells) →
        classifySlot cells = some (.read .garbled (BitVec.ofNat 8 (bitsToNat ((cells.drop 8).map Reading.midCell)))))
    ∧ (Reading.midCell .quiet = true ∧ ∀ b, Reading.midCell (.data b) = b)
    ∧ (∀ value : Byte, BitVec.ofNat 8 (bitsToNat (lineBits value)) = value)
    ∧ (∀ a : Answer, a.bits =
      lineBits (match a.code with | .ack => 0x96#8 | .busy => 0x5A#8 | .reject => 0x3C#8) ++ lineBits a.value)
    ∧ (∀ (a : Answer) (bits : List Bool), bits.length = 16 →
      (driveSlot 0 a.bits (bits.map Reading.data) = .complete ↔ bits = a.bits))
    ∧ ∀ (slot : Slot) (v w : Byte) (read : ResponseCode → ResponseCode → List Reading),
      (∀ x y, read x y =
        (List.zipWith (fun b d => lineBit [b, d]) (Answer.bits { slot := slot, code := x, value := w })
          (Answer.bits { slot := slot, code := y, value := v })).map Reading.data) →
        driveSlot 0 (Answer.bits { slot := slot, code := .busy, value := v }) (read .reject .busy) = .withdrawn 1
          ∧ driveSlot 0 (Answer.bits { slot := slot, code := .ack, value := v }) (read .busy .ack) = .withdrawn 0
          ∧ driveSlot 0 (Answer.bits { slot := slot, code := .ack, value := v }) (read .reject .ack) = .withdrawn 0

/-- EOD_END and SLOT_END (R71, R72, R76, R16, R84). After two quiet EOD cells of an own frame with a window the phase is
WINDOW_OUT and the first mark is driven. The originator classifies each slot by its last sixteen cells, keeps the
classifications in order, and drives the next mark if there is one. In LOOPBACK, where the internal line alone is
decoded (log entry 20), it reads its own planned answer in the answer's slot, driven to the end, and ABSENT in every
other. A receiver drives its answer in the answer's slot, in ONLINE and unmuted: R76 has it drive from the slot's first
response cell, and that TXD is shown as driving from the end of the slot before it is the model's reading (DEDUCED, log
entries 17 and 22). It drives by R17, keeping how far it went (a quiet cell read against an own bit is counted as a
withdrawal, log entry 9); in the other slots it only goes on. Its SLOT_END may name any later slot of the window (log
entry 22). -/
def Obligations.WindowEvents : Prop :=
  (∀ (line : CellsRead) (f : Frame) (h : FrameHead) (s : State), s.le.phase = .sending → s.le.frame = some f →
      f.point = .checkEnd → f.head = some h → h.mode ≠ .noWindow →
      line = decodedLine f (50 + 8 * h.length) [[], []] s → f.cell = 49 + 8 * h.length →
        exec .eodEnd s = .next
          { s with
            le := { s.le with
              phase := .windowOut, txd := if s.le.mode = .online then .driving else .released,
              frame := some (followCells f line s) } })
    ∧ (∀ (f : Frame) (h : FrameHead) (slot : Slot) (cells : CellsRead) (c : SlotClass) (s : State),
      s.le.phase = .windowOut → s.le.frame = some f → f.head = some h → slot.val < h.mode.slotCount →
      (slot = 0 ∧ f.point = .checkEnd ∨ ∃ k : Slot, f.point = .slot k ∧ slot.val = k.val + 1) →
      s.le.mode = .online → f.answer = none → reaches f (67 + 8 * h.length + 17 * slot.val) cells s = true →
      classifySlot
        (((gridOf s.ae.rate f.cell f.expected cells).drop (cells.length - 16)).map (GridCell.reading s.ae.rate)) = some c →
        exec (.slotEnd slot cells) s = .next
          { s with
            le := { s.le with
              frame := some { followCells f cells s with point := .slot slot, slots := f.slots ++ [c] },
              txd := if slot.val + 1 < h.mode.slotCount then .driving else .released } })
    ∧ (∀ (f : Frame) (h : FrameHead) (slot : Slot) (cells line : CellsRead) (c : SlotClass) (s : State),
      s.le.phase = .windowOut → s.le.frame = some f → f.head = some h → slot.val < h.mode.slotCount →
      (slot = 0 ∧ f.point = .checkEnd ∨ ∃ k : Slot, f.point = .slot k ∧ slot.val = k.val + 1) →
      s.le.mode = .loopback → f.role = .originator → f.cell = 51 + 8 * h.length + 17 * slot.val →
      (∀ k, f.slotDrive ≠ .withdrawn k) → f.answerAllowed = true →
      line = decodedLine f (67 + 8 * h.length + 17 * slot.val) cells s →
      c = (match f.answer with
        | some a =>
          if a.slot = slot then
            .read (match a.code with | .ack => .ack | .busy => .busy | .reject => .reject) a.value
          else .absent
        | none => .absent) →
        exec (.slotEnd slot cells) s = .next
          { s with
            le := { s.le with
              frame := some
                { followCells f line s with
                  point := .slot slot, slots := f.slots ++ [c],
                  slotDrive := if f.answer.map (fun a => a.slot) = some slot then .complete else f.slotDrive },
              txd := .released } })
    ∧ ∀ (f : Frame) (h : FrameHead) (slot : Slot) (cells : CellsRead) (s : State),
      s.le.phase = .receiving → s.le.mode ≠ .loopback → s.le.frame = some f → f.head = some h →
      (f.point = .checkEnd ∨ ∃ k : Slot, f.point = .slot k ∧ k < slot) → slot.val < h.mode.slotCount →
      reaches f (67 + 8 * h.length + 17 * slot.val) cells s = true →
        exec (.slotEnd slot cells) s = .next
            { s with
              le := { s.le with
                frame := some { followCells f cells s with point := .slot slot },
                txd :=
                  if s.le.mode = .online ∧ s.le.muted = false ∧ f.answerAllowed = true
                      ∧ slot.val + 1 < h.mode.slotCount ∧ f.answer.map (fun a => a.slot.val) = some (slot.val + 1) then
                    .driving
                  else .released } }
          ∧ (∀ a, f.answer = some a → a.slot = slot → f.answerAllowed = true →
            f.cell ≤ 52 + 8 * h.length + 17 * slot.val →
              (followCells f cells s).slotDrive = driveSlot 0 a.bits
                (((gridOf s.ae.rate f.cell f.expected cells).drop (cells.length - 16)).map
                  (GridCell.reading s.ae.rate)))
          ∧ (f.answer = none ∨ f.answerAllowed = false
              ∨ f.cell = 51 + 8 * h.length + 17 * slot.val ∧ f.answer.map (fun a => a.slot) ≠ some slot →
            (followCells f cells s).slotDrive = f.slotDrive)

/-- FRAME_END and FRAME_ABANDONED (R77, R105, R19, R10, R89, R141). After the check end the quiet end of the last EOF
cell, reached by cells that let the frame go on, ends the frame: IDLE, the reception record cleared; it may come with
slot ends left out (log entry 22). A format error, or an illegal control byte at cell 32, abandons it: RECOVERING,
though the quiet run may stand at 6 bit times already (that it stays there until RECOVERY_END is the model's choice, log
entry 34), the record cleared, and a cell still held is freed and counted in RX_FORMAT_ERRORS; a DRAINING ring whose
last cell it was becomes CLOSED (`arrivalClosed`). What waits at a boundary phase is then taken (`atBoundary`): in
HALTED the engine goes to OFF, in RUNNING without a pending mode nothing happens. The format errors of a node that
drives nothing are those of R19, and a BREAK in the SOF part, where R19 names one only from the end of that part on, is
one by the model's reading (DEDUCED, log entry 6). The decisions at the event's end are taken in the model's order
(`conclude`, log entry 5). -/
def Obligations.FrameEnds : Prop :=
  (∀ (cells : CellsRead) (quiet : Nat) (f : Frame) (h : FrameHead) (s : State), s.le.phase = .receiving →
      s.le.frame = some f → f.head = some h → f.point ≠ .start → f.point ≠ .headerEnd →
      reaches f (56 + 8 * h.length + 17 * h.mode.slotCount) cells s = true →
        exec (.frameEnd { cells := cells, quiet := quiet }) s = .next (conclude (atBoundary
          { s with
            au := { s.au with reception := none },
            le := { s.le with phase := .idle, frame := none, txd := .released, quietRun := quiet } })))
    ∧ (∀ (cells : CellsRead) (quiet : Nat) (f : Frame) (s u : State), s.le.phase = .receiving → s.le.frame = some f →
      abandons f cells s = true → u = abandonReception s →
        exec (.frameAbandoned cells quiet) s = .next (conclude (atBoundary
          { u with le := { u.le with phase := .recovering, frame := none, txd := .released, quietRun := quiet } })))
    ∧ ((∀ s : State, s.au.reception = none → abandonReception s = s)
      ∧ (∀ (r : Reception) (s : State), s.au.reception = some r → r.cell = none →
        abandonReception s = { s with au := { s.au with reception := none } })
      ∧ ∀ (r : Reception) (id : CellId) (c : RxCell) (s v : State), s.au.reception = some r → r.cell = some id →
        s.cell id = .rx c →
        v = { (s.updArrival c.ring (fun a => { a with held := a.held - 1 })) with
            au := { s.au with reception := none },
            cp := { s.cp with cells := s.cp.cells.set id.val .free, rxInUse := s.cp.rxInUse - 1 },
            le := { s.le with
              counters := { s.le.counters with rxFormatErrors := satInc s.le.counters.rxFormatErrors } } } →
          abandonReception s =
            if (s.arrival c.ring).state = .draining ∧ (s.arrival c.ring).held ≤ 1 then arrivalClosed c.ring v else v)
    ∧ ((∀ (f : Frame) (before : CellsRead) (pulses : CellPulses) (part : Part) (number expected : Nat) (s : State),
        number = f.cell + before.length → expected = gridEnd s.ae.rate f.cell f.expected before →
        (∀ g ∈ gridOf s.ae.rate f.cell f.expected before, goesOn f s g = true) →
        s.le.phase = .receiving → s.le.mode ≠ .loopback → f.role = .receiver → cellIsDue .receiving f number = true →
        f.partOf number = some part →
          (number ≠ 32 → (abandons f (before ++ [pulses]) s = true ↔
            isFormatError part (readCell s.ae.rate expected pulses) = true))
          ∧ (number = 32 → isFormatError part (readCell s.ae.rate expected pulses) = true →
            abandons f (before ++ [pulses]) s = true))
      ∧ (∀ (f : Frame) (cells : CellsRead) (bits : BitVec 32) (s : State), s.le.phase = .receiving → f.point = .start →
        f.cell ≤ 32 → reaches f 32 cells s = true →
        f.kept ++ dataBits s.ae.rate (gridOf s.ae.rate f.cell f.expected cells) = lineBits bits →
          (abandons f cells s = true ↔ bits.extractLsb' 6 2 = 3#2 ∨ 32 < (bits.extractLsb' 0 6).toNat))
      ∧ ∀ (p : Part) (r : Reading), isFormatError p r = true ↔
        r = .invalid ∨ r = .breakPulse ∨ (r = .sof ∧ p ≠ .sofPart)
          ∨ (r = .quiet ∧ (p = .header ∨ p = .control ∨ p = .payload ∨ p = .check ∨ p = .slotMark))
          ∨ ((∃ bit, r = .data bit) ∧ (p = .eod ∨ p = .eof)) ∨ (r = .data true ∧ p = .slotMark))
    ∧ (∀ p : Phase, p.isBoundary = true ↔
      p = .off ∨ p = .joining ∨ p = .idle ∨ p = .recovering ∨ p = .fault)
    ∧ (∀ s : State, s.le.phase.isBoundary = true → s.hp.engine = .halted →
        atBoundary s =
          { s with
            hp := { s.hp with cause := if s.le.fault = true then s.hp.cause ||| 0x20#9 else s.hp.cause },
            le := { s.le with phase := .off, txd := .released, frame := none, fault := false } })
    ∧ (∀ s : State, s.le.phase.isBoundary = false
        ∨ (s.hp.engine = .running ∧ s.le.pendingMode = none) → atBoundary s = s)
    ∧ ∀ (cells : CellsRead) (quiet : Nat) (f : Frame) (h : FrameHead) (s : State), s.le.phase = .receiving →
      s.le.frame = some f → f.head = some h → f.point ≠ .start → f.point ≠ .headerEnd → s.hp.engine = .halted →
      reaches f (56 + 8 * h.length + 17 * h.mode.slotCount) cells s = true →
        ∃ t, exec (.frameEnd { cells := cells, quiet := quiet }) s = .next t ∧ t.le.phase = .off ∧ t.le.txd = .released
          ∧ t.le.frame = none

/-- STUCK_LINE, FAULT_EXIT and RECOVERY_END (R79, R73, R80, R78, R81, R82, R20, R21). A dominant period of 64 bit times,
in any phase but OFF and outside LOOPBACK (where RXD is not decoded, log entry 20), gives FAULT with the fault flag and
the LINE cause. The frame followed has been abandoned before. An attempt in progress has ended LINE_FAULT before, no
cell under the period having ended it (the model's choice, log entry 30): the slot is emptied, TX_ERRORS and the
consecutive-error run rise, the part mutes with the LINE cause when the run reaches 16, the reception of the own frame
is left, and the cell is settled, joining the completion pending list before the result of a mode taken then (log entry
27). A period that goes on in FAULT, or comes in OFF or in LOOPBACK, gives nothing new. Eight recessive bit times end
FAULT in IDLE, clear the flag and set LINE; six end RECOVERING in IDLE, at this command even where they stood when it
was entered (the model's choice, log entry 34), and a shorter run leaves the state (log entry 1). The decisions at the
event's end are taken in the model's order (`conclude`, log entry 5). -/
def Obligations.StuckLineAndRecovery : Prop :=
  (∀ (dominant : Nat) (s : State), 64 * s.ae.rate.bitCycles ≤ dominant → s.le.phase = .off ∨ s.le.mode = .loopback →
      exec (.stuckLine dominant) s = .next (conclude s))
    ∧ (∀ (dominant : Nat) (s : State), 64 * s.ae.rate.bitCycles ≤ dominant → s.le.mode ≠ .loopback →
      (s.le.phase = .joining ∨ s.le.phase = .idle ∨ s.le.phase = .recovering →
        exec (.stuckLine dominant) s = .next (conclude (atBoundary
          { s with
            hp := { s.hp with cause := s.hp.cause ||| 0x20#9 },
            le := { s.le with phase := .fault, fault := true, frame := none, txd := .released, quietRun := 0 } })))
      ∧ (s.le.phase = .receiving →
        ∃ u, u = abandonReception s ∧ exec (.stuckLine dominant) s = .next (conclude (atBoundary
          { u with
            hp := { u.hp with cause := u.hp.cause ||| 0x20#9 },
            le := { u.le with phase := .fault, fault := true, frame := none, txd := .released, quietRun := 0 } })))
      ∧ (∀ (id : CellId) (u v : State), s.le.phase.isAttempt = true → s.le.slot = some id →
        v = { s with
          hp := { s.hp with cause := if 15 ≤ s.le.errorRun then s.hp.cause ||| 0x20#9 else s.hp.cause },
          le := { s.le with
            slot := none, txd := .released, phase := .fault, frame := none,
            errorRun := min (s.le.errorRun + 1) 16, muted := s.le.muted || decide (15 ≤ s.le.errorRun),
            counters := { s.le.counters with txErrors := satInc s.le.counters.txErrors } } } →
        u = settleAttempt id .lineFault (abandonReception v) →
          exec (.stuckLine dominant) s = .next (conclude (atBoundary
            { u with
              hp := { u.hp with cause := u.hp.cause ||| 0x20#9 },
              le := { u.le with phase := .fault, fault := true, frame := none, txd := .released, quietRun := 0 } })))
      ∧ (s.le.phase = .fault →
        exec (.stuckLine dominant) s = .next (conclude { s with le := { s.le with quietRun := 0 } })))
    ∧ (∀ (quiet : Nat) (s : State), s.le.phase = .fault → 8 * s.ae.rate.bitCycles ≤ quiet →
      exec (.faultExit quiet) s = .next (conclude
        { s with
          hp := { s.hp with cause := s.hp.cause ||| 0x20#9 },
          le := { s.le with phase := .idle, fault := false, quietRun := 8 * s.ae.rate.bitCycles } }))
    ∧ ∀ (quiet : Nat) (s : State), s.le.phase = .recovering →
      (6 * s.ae.rate.bitCycles ≤ quiet →
        exec (.recoveryEnd quiet) s = .next (conclude
          { s with le := { s.le with phase := .idle, quietRun := quiet } }))
      ∧ (quiet < 6 * s.ae.rate.bitCycles → exec (.recoveryEnd quiet) s = .next s)

/-! ## The whole machine -/

/-- The engine state (R179, R189, R142, R155). It changes as the table of R179 gives, with the halt reasons it gives;
the halt reason changes at no other event. Once HALTED, only a reset ends it, no write that was not on the bus passes to
it, the fetch engine and the admin engine begin no fetch, the writers begin no write, and the tick stands. -/
def Obligations.EngineStates : Prop :=
  (∀ (c : Instr) (s t : State), exec c s = .next t →
      (t.hp.engine = s.hp.engine ∧ t.hp.haltReason = s.hp.haltReason)
        ∨ (s.hp.engine = .reset ∧ t.hp.engine = .loading ∧ t.hp.haltReason = s.hp.haltReason)
        ∨ (s.hp.engine = .loading ∧ t.hp.engine = .running ∧ t.hp.haltReason = s.hp.haltReason)
        ∨ (s.hp.engine = .loading ∧ t.hp.engine = .halted
            ∧ (t.hp.haltReason = .bootRead ∨ t.hp.haltReason = .bootInvalid))
        ∨ (s.hp.engine = .running ∧ t.hp.engine = .halted ∧ t.hp.haltReason = .crWrite)
        ∨ (startsReset c = true ∧ (t.hp.engine = .resetting ∨ t.hp.engine = .reset) ∧ t.hp.haltReason = .noReason)
        ∨ (s.hp.engine = .resetting ∧ t.hp.engine = .reset ∧ t.hp.haltReason = .noReason))
    ∧ (∀ (c : Instr) (s t : State), exec c s = .next t → s.hp.engine = .halted → startsReset c = false →
        t.hp.engine = .halted ∧ t.hp.haltReason = s.hp.haltReason
          ∧ (∀ o tr, t.hp.onBus = some (o, tr) → tr.direction = .write → s.hp.onBus = some (o, tr))
          ∧ (t.fe.inFlight = none ∨ t.fe.inFlight = s.fe.inFlight)
          ∧ (t.ae.phase = .fetching → s.ae.phase = .fetching)
          ∧ (t.aw.inFlight = none ∨ t.aw.inFlight = s.aw.inFlight)
          ∧ (t.cw.inFlight = none ∨ t.cw.inFlight = s.cw.inFlight)
          ∧ (s.sch.tickRunning = false → t.sch.tick = s.sch.tick))

/-- The completion pending list is first in, first out (R146, R147): in one event at most its head leaves, for the write
in flight, and what joins joins at its tail. -/
def Obligations.CompletionListIsFifo : Prop :=
  ∀ (c : Instr) (s t : State), exec c s = .next t → t.hp.engine ≠ .reset →
    ∃ dropped added, s.cw.pending ++ added = dropped ++ t.cw.pending
      ∧ (dropped = [] ∨ ∃ e, dropped = [e] ∧ t.cw.inFlight = some { entry := e, index := t.rct.completion.tail })

/-- The pool is sound in every state that a command reaches from a state where it is (R30): the counts count, each ring's
cells held counts its cells, and no use exceeds its limit. -/
def Obligations.PoolStaysSound : Prop :=
  ∀ (s t : State), PoolSound s → step s = .next t → PoolSound t

/-- What soundness of the pool means for claims (R24, R30, R31, R32): there are at least as many FREE cells as the limits
still allow, so a claim that meets its limit finds one, and the one it takes has the lowest number. -/
def Obligations.PoolLeavesFreeCells : Prop :=
  (∀ (id : CellId) (s : State), lowestFree s = some id ↔ s.cell id = .free ∧ ∀ j < id, s.cell j ≠ .free)
    ∧ ∀ s : State, PoolSound s →
    (s.cp.txLimit - s.cp.txInUse) + (s.cp.rxLimit - s.cp.rxInUse) ≤ s.cp.cells.countP Cell.isFree
      ∧ (∀ cls, judgeTransmitClaim cls s = .granted →
          ∃ id, lowestFree s = some id ∧ s.cell id = .free ∧ ∀ j < id, s.cell j ≠ .free)
      ∧ ∀ solicited, judgeReceiveClaim solicited s = .granted →
          ∃ id, lowestFree s = some id ∧ s.cell id = .free ∧ ∀ j < id, s.cell j ≠ .free

/-- The line engine is sound in every state that a command reaches from a state where it is (R64, R81, R82, R79, R83). -/
def Obligations.LineStaysSound : Prop :=
  ∀ (s t : State), LineSound s → step s = .next t → LineSound t

/-- In every state that a command reaches from one where it is so: a class whose list is empty has passed-over count 0
(R43); every OPEN ring keeps a size the spec admits, its indices below it, and its coalescing in range (R112, R129,
R135, R137, R151, R183, R184); at most 4 admin results wait, a fetch or a command always has room for its result, and a
command is current in EXECUTING alone (R157, R158, R146). -/
def Obligations.RingsAndAdminStaySound : Prop :=
  (∀ (s t : State), PassedOverSound s → step s = .next t → PassedOverSound t)
    ∧ (∀ (s t : State), OpenRingsSound s → step s = .next t → OpenRingsSound t)
    ∧ (∀ (s t : State), AdminSound s → step s = .next t → AdminSound t)

/-- Nothing runs before the boot (10.2, R179, R180): in RESET and LOADING every block but the host port stands at its reset
values, in every state that a command reaches from one where it is so. -/
def Obligations.NothingRunsBeforeBoot : Prop :=
  ∀ (s t : State), UnbootedSound s → step s = .next t → UnbootedSound t

end
end

