-- ==== Sys2Proof/Laws/State.lean ====
section
/-! SUPPORT. What each named update of the state leaves alone and what it sets: one lemma for each update, whose parts are
the fields of the state, each true by `rfl`. -/

namespace Sys2Proof.Machine

/-! ## One block -/

@[simp] theorem State.updHp_fields (f : HostPort → HostPort) (s : State) :
    (s.updHp f).hp = f s.hp ∧ (s.updHp f).rct = s.rct ∧ (s.updHp f).fe = s.fe ∧ (s.updHp f).cp = s.cp
      ∧ (s.updHp f).sch = s.sch ∧ (s.updHp f).le = s.le ∧ (s.updHp f).au = s.au ∧ (s.updHp f).aw = s.aw
      ∧ (s.updHp f).cw = s.cw ∧ (s.updHp f).ae = s.ae ∧ (s.updHp f).pending = s.pending :=
  ⟨rfl, rfl, rfl, rfl, rfl, rfl, rfl, rfl, rfl, rfl, rfl⟩

@[simp] theorem State.updRct_fields (f : RingTable → RingTable) (s : State) :
    (s.updRct f).hp = s.hp ∧ (s.updRct f).rct = f s.rct ∧ (s.updRct f).fe = s.fe ∧ (s.updRct f).cp = s.cp
      ∧ (s.updRct f).sch = s.sch ∧ (s.updRct f).le = s.le ∧ (s.updRct f).au = s.au ∧ (s.updRct f).aw = s.aw
      ∧ (s.updRct f).cw = s.cw ∧ (s.updRct f).ae = s.ae ∧ (s.updRct f).pending = s.pending :=
  ⟨rfl, rfl, rfl, rfl, rfl, rfl, rfl, rfl, rfl, rfl, rfl⟩

@[simp] theorem State.updFe_fields (f : FetchEngine → FetchEngine) (s : State) :
    (s.updFe f).hp = s.hp ∧ (s.updFe f).rct = s.rct ∧ (s.updFe f).fe = f s.fe ∧ (s.updFe f).cp = s.cp
      ∧ (s.updFe f).sch = s.sch ∧ (s.updFe f).le = s.le ∧ (s.updFe f).au = s.au ∧ (s.updFe f).aw = s.aw
      ∧ (s.updFe f).cw = s.cw ∧ (s.updFe f).ae = s.ae ∧ (s.updFe f).pending = s.pending :=
  ⟨rfl, rfl, rfl, rfl, rfl, rfl, rfl, rfl, rfl, rfl, rfl⟩

@[simp] theorem State.updCp_fields (f : CellPool → CellPool) (s : State) :
    (s.updCp f).hp = s.hp ∧ (s.updCp f).rct = s.rct ∧ (s.updCp f).fe = s.fe ∧ (s.updCp f).cp = f s.cp
      ∧ (s.updCp f).sch = s.sch ∧ (s.updCp f).le = s.le ∧ (s.updCp f).au = s.au ∧ (s.updCp f).aw = s.aw
      ∧ (s.updCp f).cw = s.cw ∧ (s.updCp f).ae = s.ae ∧ (s.updCp f).pending = s.pending :=
  ⟨rfl, rfl, rfl, rfl, rfl, rfl, rfl, rfl, rfl, rfl, rfl⟩

@[simp] theorem State.updSch_fields (f : Scheduler → Scheduler) (s : State) :
    (s.updSch f).hp = s.hp ∧ (s.updSch f).rct = s.rct ∧ (s.updSch f).fe = s.fe ∧ (s.updSch f).cp = s.cp
      ∧ (s.updSch f).sch = f s.sch ∧ (s.updSch f).le = s.le ∧ (s.updSch f).au = s.au ∧ (s.updSch f).aw = s.aw
      ∧ (s.updSch f).cw = s.cw ∧ (s.updSch f).ae = s.ae ∧ (s.updSch f).pending = s.pending :=
  ⟨rfl, rfl, rfl, rfl, rfl, rfl, rfl, rfl, rfl, rfl, rfl⟩

@[simp] theorem State.updLe_fields (f : LineEngine → LineEngine) (s : State) :
    (s.updLe f).hp = s.hp ∧ (s.updLe f).rct = s.rct ∧ (s.updLe f).fe = s.fe ∧ (s.updLe f).cp = s.cp
      ∧ (s.updLe f).sch = s.sch ∧ (s.updLe f).le = f s.le ∧ (s.updLe f).au = s.au ∧ (s.updLe f).aw = s.aw
      ∧ (s.updLe f).cw = s.cw ∧ (s.updLe f).ae = s.ae ∧ (s.updLe f).pending = s.pending :=
  ⟨rfl, rfl, rfl, rfl, rfl, rfl, rfl, rfl, rfl, rfl, rfl⟩

@[simp] theorem State.updAu_fields (f : AcceptanceUnit → AcceptanceUnit) (s : State) :
    (s.updAu f).hp = s.hp ∧ (s.updAu f).rct = s.rct ∧ (s.updAu f).fe = s.fe ∧ (s.updAu f).cp = s.cp
      ∧ (s.updAu f).sch = s.sch ∧ (s.updAu f).le = s.le ∧ (s.updAu f).au = f s.au ∧ (s.updAu f).aw = s.aw
      ∧ (s.updAu f).cw = s.cw ∧ (s.updAu f).ae = s.ae ∧ (s.updAu f).pending = s.pending :=
  ⟨rfl, rfl, rfl, rfl, rfl, rfl, rfl, rfl, rfl, rfl, rfl⟩

@[simp] theorem State.updAw_fields (f : ArrivalWriter → ArrivalWriter) (s : State) :
    (s.updAw f).hp = s.hp ∧ (s.updAw f).rct = s.rct ∧ (s.updAw f).fe = s.fe ∧ (s.updAw f).cp = s.cp
      ∧ (s.updAw f).sch = s.sch ∧ (s.updAw f).le = s.le ∧ (s.updAw f).au = s.au ∧ (s.updAw f).aw = f s.aw
      ∧ (s.updAw f).cw = s.cw ∧ (s.updAw f).ae = s.ae ∧ (s.updAw f).pending = s.pending :=
  ⟨rfl, rfl, rfl, rfl, rfl, rfl, rfl, rfl, rfl, rfl, rfl⟩

@[simp] theorem State.updCw_fields (f : CompletionWriter → CompletionWriter) (s : State) :
    (s.updCw f).hp = s.hp ∧ (s.updCw f).rct = s.rct ∧ (s.updCw f).fe = s.fe ∧ (s.updCw f).cp = s.cp
      ∧ (s.updCw f).sch = s.sch ∧ (s.updCw f).le = s.le ∧ (s.updCw f).au = s.au ∧ (s.updCw f).aw = s.aw
      ∧ (s.updCw f).cw = f s.cw ∧ (s.updCw f).ae = s.ae ∧ (s.updCw f).pending = s.pending :=
  ⟨rfl, rfl, rfl, rfl, rfl, rfl, rfl, rfl, rfl, rfl, rfl⟩

@[simp] theorem State.updAe_fields (f : AdminEngine → AdminEngine) (s : State) :
    (s.updAe f).hp = s.hp ∧ (s.updAe f).rct = s.rct ∧ (s.updAe f).fe = s.fe ∧ (s.updAe f).cp = s.cp
      ∧ (s.updAe f).sch = s.sch ∧ (s.updAe f).le = s.le ∧ (s.updAe f).au = s.au ∧ (s.updAe f).aw = s.aw
      ∧ (s.updAe f).cw = s.cw ∧ (s.updAe f).ae = f s.ae ∧ (s.updAe f).pending = s.pending :=
  ⟨rfl, rfl, rfl, rfl, rfl, rfl, rfl, rfl, rfl, rfl, rfl⟩

/-! ## One ring, one cell, one list, one entry -/

@[simp] theorem State.updSend_fields (r : SendId) (f : SendRing → SendRing) (s : State) :
    (s.updSend r f).hp = s.hp ∧ (s.updSend r f).rct.admin = s.rct.admin ∧ (s.updSend r f).rct.arrival = s.rct.arrival
      ∧ (s.updSend r f).rct.completion = s.rct.completion
      ∧ (s.updSend r f).rct.send = s.rct.send.set r.val (f s.rct.send[r.val])
      ∧ (s.updSend r f).fe = s.fe ∧ (s.updSend r f).cp = s.cp ∧ (s.updSend r f).sch = s.sch
      ∧ (s.updSend r f).le = s.le ∧ (s.updSend r f).au = s.au ∧ (s.updSend r f).aw = s.aw
      ∧ (s.updSend r f).cw = s.cw ∧ (s.updSend r f).ae = s.ae ∧ (s.updSend r f).pending = s.pending :=
  ⟨rfl, rfl, rfl, rfl, rfl, rfl, rfl, rfl, rfl, rfl, rfl, rfl, rfl, rfl⟩

@[simp] theorem State.updArrival_fields (r : ArrivalId) (f : ArrivalRing → ArrivalRing) (s : State) :
    (s.updArrival r f).hp = s.hp ∧ (s.updArrival r f).rct.admin = s.rct.admin
      ∧ (s.updArrival r f).rct.send = s.rct.send ∧ (s.updArrival r f).rct.completion = s.rct.completion
      ∧ (s.updArrival r f).rct.arrival = s.rct.arrival.set r.val (f s.rct.arrival[r.val])
      ∧ (s.updArrival r f).fe = s.fe ∧ (s.updArrival r f).cp = s.cp ∧ (s.updArrival r f).sch = s.sch
      ∧ (s.updArrival r f).le = s.le ∧ (s.updArrival r f).au = s.au ∧ (s.updArrival r f).aw = s.aw
      ∧ (s.updArrival r f).cw = s.cw ∧ (s.updArrival r f).ae = s.ae ∧ (s.updArrival r f).pending = s.pending :=
  ⟨rfl, rfl, rfl, rfl, rfl, rfl, rfl, rfl, rfl, rfl, rfl, rfl, rfl, rfl⟩

@[simp] theorem State.updCompletion_fields (f : CompletionRing → CompletionRing) (s : State) :
    (s.updCompletion f).hp = s.hp ∧ (s.updCompletion f).rct.admin = s.rct.admin
      ∧ (s.updCompletion f).rct.send = s.rct.send ∧ (s.updCompletion f).rct.arrival = s.rct.arrival
      ∧ (s.updCompletion f).rct.completion = f s.rct.completion
      ∧ (s.updCompletion f).fe = s.fe ∧ (s.updCompletion f).cp = s.cp ∧ (s.updCompletion f).sch = s.sch
      ∧ (s.updCompletion f).le = s.le ∧ (s.updCompletion f).au = s.au ∧ (s.updCompletion f).aw = s.aw
      ∧ (s.updCompletion f).cw = s.cw ∧ (s.updCompletion f).ae = s.ae ∧ (s.updCompletion f).pending = s.pending :=
  ⟨rfl, rfl, rfl, rfl, rfl, rfl, rfl, rfl, rfl, rfl, rfl, rfl, rfl, rfl⟩

@[simp] theorem State.updAdmin_fields (f : AdminRing → AdminRing) (s : State) :
    (s.updAdmin f).hp = s.hp ∧ (s.updAdmin f).rct.completion = s.rct.completion
      ∧ (s.updAdmin f).rct.send = s.rct.send ∧ (s.updAdmin f).rct.arrival = s.rct.arrival
      ∧ (s.updAdmin f).rct.admin = f s.rct.admin
      ∧ (s.updAdmin f).fe = s.fe ∧ (s.updAdmin f).cp = s.cp ∧ (s.updAdmin f).sch = s.sch
      ∧ (s.updAdmin f).le = s.le ∧ (s.updAdmin f).au = s.au ∧ (s.updAdmin f).aw = s.aw
      ∧ (s.updAdmin f).cw = s.cw ∧ (s.updAdmin f).ae = s.ae ∧ (s.updAdmin f).pending = s.pending :=
  ⟨rfl, rfl, rfl, rfl, rfl, rfl, rfl, rfl, rfl, rfl, rfl, rfl, rfl, rfl⟩

@[simp] theorem State.setCell_fields (id : CellId) (c : Cell) (s : State) :
    (s.setCell id c).hp = s.hp ∧ (s.setCell id c).rct = s.rct ∧ (s.setCell id c).fe = s.fe
      ∧ (s.setCell id c).cp = { s.cp with cells := s.cp.cells.set id.val c }
      ∧ (s.setCell id c).sch = s.sch ∧ (s.setCell id c).le = s.le ∧ (s.setCell id c).au = s.au
      ∧ (s.setCell id c).aw = s.aw ∧ (s.setCell id c).cw = s.cw ∧ (s.setCell id c).ae = s.ae
      ∧ (s.setCell id c).pending = s.pending :=
  ⟨rfl, rfl, rfl, rfl, rfl, rfl, rfl, rfl, rfl, rfl, rfl⟩

@[simp] theorem State.setArrivalPending_fields (r : ArrivalId) (l : List CellId) (s : State) :
    (s.setArrivalPending r l).hp = s.hp ∧ (s.setArrivalPending r l).rct = s.rct ∧ (s.setArrivalPending r l).fe = s.fe
      ∧ (s.setArrivalPending r l).cp = s.cp ∧ (s.setArrivalPending r l).sch = s.sch
      ∧ (s.setArrivalPending r l).le = s.le ∧ (s.setArrivalPending r l).au = s.au
      ∧ (s.setArrivalPending r l).aw = { s.aw with pending := s.aw.pending.set r.val l }
      ∧ (s.setArrivalPending r l).cw = s.cw ∧ (s.setArrivalPending r l).ae = s.ae
      ∧ (s.setArrivalPending r l).pending = s.pending :=
  ⟨rfl, rfl, rfl, rfl, rfl, rfl, rfl, rfl, rfl, rfl, rfl⟩

@[simp] theorem State.setEntry_fields (i : Fin 32) (e : Entry) (s : State) :
    (s.setEntry i e).hp = s.hp ∧ (s.setEntry i e).rct = s.rct ∧ (s.setEntry i e).fe = s.fe
      ∧ (s.setEntry i e).cp = s.cp ∧ (s.setEntry i e).sch = s.sch ∧ (s.setEntry i e).le = s.le
      ∧ (s.setEntry i e).au = { s.au with table := s.au.table.set i.val e } ∧ (s.setEntry i e).aw = s.aw
      ∧ (s.setEntry i e).cw = s.cw ∧ (s.setEntry i e).ae = s.ae ∧ (s.setEntry i e).pending = s.pending :=
  ⟨rfl, rfl, rfl, rfl, rfl, rfl, rfl, rfl, rfl, rfl, rfl⟩

/-- A transmit-cell update changes the pool's cells alone. -/
@[simp] theorem State.updTx_frame (id : CellId) (f : TxCell → TxCell) (s : State) :
    (s.updTx id f).hp = s.hp ∧ (s.updTx id f).rct = s.rct ∧ (s.updTx id f).fe = s.fe
      ∧ (s.updTx id f).cp.txInUse = s.cp.txInUse ∧ (s.updTx id f).cp.lowInUse = s.cp.lowInUse
      ∧ (s.updTx id f).cp.rxInUse = s.cp.rxInUse ∧ (s.updTx id f).cp.txLimit = s.cp.txLimit
      ∧ (s.updTx id f).cp.rxLimit = s.cp.rxLimit ∧ (s.updTx id f).cp.rxHold = s.cp.rxHold
      ∧ (s.updTx id f).cp.noticeOwed = s.cp.noticeOwed
      ∧ (s.updTx id f).sch = s.sch ∧ (s.updTx id f).le = s.le ∧ (s.updTx id f).au = s.au
      ∧ (s.updTx id f).aw = s.aw ∧ (s.updTx id f).cw = s.cw ∧ (s.updTx id f).ae = s.ae
      ∧ (s.updTx id f).pending = s.pending := by
  unfold State.updTx; split <;> simp

/-! ## Reading what was written -/

/-- A cell written reads back; the others are as before. -/
theorem State.cell_setCell (s : State) (id j : CellId) (c : Cell) :
    (s.setCell id c).cell j = if id = j then c else s.cell j := by
  simp only [State.cell, State.setCell_fields, Vector.getElem_set, Fin.ext_iff]

/-- A send ring written reads back; the others are as before. -/
theorem State.send_updSend (s : State) (r j : SendId) (f : SendRing → SendRing) :
    (s.updSend r f).send j = if r = j then f (s.send r) else s.send j := by
  simp only [State.send, State.updSend_fields, Vector.getElem_set, Fin.ext_iff]

/-- An arrival ring written reads back; the others are as before. -/
theorem State.arrival_updArrival (s : State) (r j : ArrivalId) (f : ArrivalRing → ArrivalRing) :
    (s.updArrival r f).arrival j = if r = j then f (s.arrival r) else s.arrival j := by
  simp only [State.arrival, State.updArrival_fields, Vector.getElem_set, Fin.ext_iff]

/-- An acceptance entry written reads back; the others are as before. -/
theorem State.entry_setEntry (s : State) (i j : Fin 32) (e : Entry) :
    (s.setEntry i e).entry j = if i = j then e else s.entry j := by
  simp only [State.entry, State.setEntry_fields, Vector.getElem_set, Fin.ext_iff]

/-! ## The host port's own updates -/

/-- Setting a cause changes CAUSE alone. -/
@[simp] theorem setCause_frame (c : Cause) (s : State) :
    (setCause c s).hp = { s.hp with cause := s.hp.cause ||| BitVec.twoPow 9 c.bit } ∧ (setCause c s).rct = s.rct
      ∧ (setCause c s).fe = s.fe ∧ (setCause c s).cp = s.cp ∧ (setCause c s).sch = s.sch ∧ (setCause c s).le = s.le
      ∧ (setCause c s).au = s.au ∧ (setCause c s).aw = s.aw ∧ (setCause c s).cw = s.cw ∧ (setCause c s).ae = s.ae
      ∧ (setCause c s).pending = s.pending :=
  ⟨rfl, rfl, rfl, rfl, rfl, rfl, rfl, rfl, rfl, rfl, rfl⟩

/-- A request changes the waiting requests alone. -/
@[simp] theorem request_frame (q : Requester) (t : Transfer) (s : State) :
    (request q t s).hp = { s.hp with waiting := s.hp.waiting.put (some t) q } ∧ (request q t s).rct = s.rct
      ∧ (request q t s).fe = s.fe ∧ (request q t s).cp = s.cp ∧ (request q t s).sch = s.sch
      ∧ (request q t s).le = s.le ∧ (request q t s).au = s.au ∧ (request q t s).aw = s.aw
      ∧ (request q t s).cw = s.cw ∧ (request q t s).ae = s.ae ∧ (request q t s).pending = s.pending :=
  ⟨rfl, rfl, rfl, rfl, rfl, rfl, rfl, rfl, rfl, rfl, rfl⟩

/-- The bus cleared: nothing else of the host port changes. -/
@[simp] theorem clearBus_frame (s : State) :
    (clearBus s).hp = { s.hp with onBus := none } ∧ (clearBus s).rct = s.rct ∧ (clearBus s).fe = s.fe
      ∧ (clearBus s).cp = s.cp ∧ (clearBus s).sch = s.sch ∧ (clearBus s).le = s.le ∧ (clearBus s).au = s.au
      ∧ (clearBus s).aw = s.aw ∧ (clearBus s).cw = s.cw ∧ (clearBus s).ae = s.ae
      ∧ (clearBus s).pending = s.pending :=
  ⟨rfl, rfl, rfl, rfl, rfl, rfl, rfl, rfl, rfl, rfl, rfl⟩

/-- The arbiter changes the host port alone. -/
@[simp] theorem arbitrate_frame (s : State) :
    (arbitrate s).rct = s.rct ∧ (arbitrate s).fe = s.fe ∧ (arbitrate s).cp = s.cp ∧ (arbitrate s).sch = s.sch
      ∧ (arbitrate s).le = s.le ∧ (arbitrate s).au = s.au ∧ (arbitrate s).aw = s.aw ∧ (arbitrate s).cw = s.cw
      ∧ (arbitrate s).ae = s.ae ∧ (arbitrate s).pending = s.pending
      ∧ (arbitrate s).hp.engine = s.hp.engine ∧ (arbitrate s).hp.haltReason = s.hp.haltReason
      ∧ (arbitrate s).hp.enabled = s.hp.enabled ∧ (arbitrate s).hp.bootLo = s.hp.bootLo
      ∧ (arbitrate s).hp.bootHi = s.hp.bootHi ∧ (arbitrate s).hp.cause = s.hp.cause
      ∧ (arbitrate s).hp.mask = s.hp.mask ∧ (arbitrate s).hp.pinAsserted = s.hp.pinAsserted := by
  unfold arbitrate; split
  · simp
  · split <;> simp

end Sys2Proof.Machine
end

