-- ==== Sys2Proof/Laws/Frames.lean ====
section
/-! SUPPORT. What each shared operation leaves alone: one frame lemma for each, in the order of the operations' files. A
part not named in an operation's lemma is one the operation may change. -/

namespace Sys2Proof.Machine

/-! ## The bus -/

/-- A read requested. -/
@[simp] theorem requestRead_frame (q : Requester) (address : Addr) (s : State) :
    (requestRead q address s).hp.engine = s.hp.engine ∧ (requestRead q address s).hp.haltReason = s.hp.haltReason
      ∧ (requestRead q address s).hp.enabled = s.hp.enabled ∧ (requestRead q address s).hp.bootLo = s.hp.bootLo
      ∧ (requestRead q address s).hp.bootHi = s.hp.bootHi ∧ (requestRead q address s).hp.cause = s.hp.cause
      ∧ (requestRead q address s).hp.mask = s.hp.mask ∧ (requestRead q address s).hp.onBus = s.hp.onBus
      ∧ (requestRead q address s).hp.pointer = s.hp.pointer
      ∧ (requestRead q address s).hp.pinAsserted = s.hp.pinAsserted ∧ (requestRead q address s).rct = s.rct
      ∧ (requestRead q address s).fe = s.fe ∧ (requestRead q address s).cp = s.cp
      ∧ (requestRead q address s).sch = s.sch ∧ (requestRead q address s).le = s.le
      ∧ (requestRead q address s).au = s.au ∧ (requestRead q address s).aw = s.aw
      ∧ (requestRead q address s).cw = s.cw ∧ (requestRead q address s).ae = s.ae
      ∧ (requestRead q address s).pending = s.pending := by
  simp [requestRead]

/-- A write requested. -/
@[simp] theorem requestWrite_frame (q : Requester) (address : Addr) (bytes : List Byte) (s : State) :
    (requestWrite q address bytes s).hp.engine = s.hp.engine
      ∧ (requestWrite q address bytes s).hp.haltReason = s.hp.haltReason
      ∧ (requestWrite q address bytes s).hp.enabled = s.hp.enabled
      ∧ (requestWrite q address bytes s).hp.bootLo = s.hp.bootLo
      ∧ (requestWrite q address bytes s).hp.bootHi = s.hp.bootHi
      ∧ (requestWrite q address bytes s).hp.cause = s.hp.cause
      ∧ (requestWrite q address bytes s).hp.mask = s.hp.mask
      ∧ (requestWrite q address bytes s).hp.onBus = s.hp.onBus
      ∧ (requestWrite q address bytes s).hp.pointer = s.hp.pointer
      ∧ (requestWrite q address bytes s).hp.pinAsserted = s.hp.pinAsserted
      ∧ (requestWrite q address bytes s).rct = s.rct ∧ (requestWrite q address bytes s).fe = s.fe
      ∧ (requestWrite q address bytes s).cp = s.cp ∧ (requestWrite q address bytes s).sch = s.sch
      ∧ (requestWrite q address bytes s).le = s.le ∧ (requestWrite q address bytes s).au = s.au
      ∧ (requestWrite q address bytes s).aw = s.aw ∧ (requestWrite q address bytes s).cw = s.cw
      ∧ (requestWrite q address bytes s).ae = s.ae ∧ (requestWrite q address bytes s).pending = s.pending := by
  simp [requestWrite]

/-! ## The pool -/

/-- A transmit grant. -/
@[simp] theorem grantTx_frame (id : CellId) (c : TxCell) (s : State) :
    (grantTx id c s).hp = s.hp ∧ (grantTx id c s).rct.admin = s.rct.admin
      ∧ (grantTx id c s).rct.arrival = s.rct.arrival ∧ (grantTx id c s).rct.completion = s.rct.completion
      ∧ (grantTx id c s).fe = s.fe ∧ (grantTx id c s).cp.txLimit = s.cp.txLimit
      ∧ (grantTx id c s).cp.rxLimit = s.cp.rxLimit ∧ (grantTx id c s).cp.rxHold = s.cp.rxHold
      ∧ (grantTx id c s).sch = s.sch ∧ (grantTx id c s).le = s.le ∧ (grantTx id c s).au = s.au
      ∧ (grantTx id c s).aw = s.aw ∧ (grantTx id c s).cw = s.cw ∧ (grantTx id c s).ae = s.ae
      ∧ (grantTx id c s).pending = s.pending := by
  simp [grantTx]

/-- A receive grant. -/
@[simp] theorem grantRx_frame (id : CellId) (c : RxCell) (s : State) :
    (grantRx id c s).hp = s.hp ∧ (grantRx id c s).rct.admin = s.rct.admin ∧ (grantRx id c s).rct.send = s.rct.send
      ∧ (grantRx id c s).rct.completion = s.rct.completion ∧ (grantRx id c s).fe = s.fe
      ∧ (grantRx id c s).cp.txLimit = s.cp.txLimit ∧ (grantRx id c s).cp.rxLimit = s.cp.rxLimit
      ∧ (grantRx id c s).cp.rxHold = s.cp.rxHold ∧ (grantRx id c s).sch = s.sch ∧ (grantRx id c s).le = s.le
      ∧ (grantRx id c s).au = s.au ∧ (grantRx id c s).aw = s.aw ∧ (grantRx id c s).cw = s.cw
      ∧ (grantRx id c s).ae = s.ae ∧ (grantRx id c s).pending = s.pending := by
  simp [grantRx]

/-- A free. -/
@[simp] theorem freeCell_frame (id : CellId) (s : State) :
    (freeCell id s).hp = s.hp ∧ (freeCell id s).rct.admin = s.rct.admin
      ∧ (freeCell id s).rct.completion = s.rct.completion ∧ (freeCell id s).fe = s.fe
      ∧ (freeCell id s).cp.txLimit = s.cp.txLimit ∧ (freeCell id s).cp.rxLimit = s.cp.rxLimit
      ∧ (freeCell id s).cp.rxHold = s.cp.rxHold ∧ (freeCell id s).sch = s.sch ∧ (freeCell id s).le = s.le
      ∧ (freeCell id s).au = s.au ∧ (freeCell id s).aw = s.aw ∧ (freeCell id s).cw = s.cw
      ∧ (freeCell id s).ae = s.ae ∧ (freeCell id s).pending = s.pending := by
  unfold freeCell; (repeat' split) <;> simp

/-- A limit change. -/
@[simp] theorem setLimits_frame (tx rx hold : Nat) (s : State) :
    (setLimits tx rx hold s).hp = s.hp ∧ (setLimits tx rx hold s).rct = s.rct ∧ (setLimits tx rx hold s).fe = s.fe
      ∧ (setLimits tx rx hold s).cp.cells = s.cp.cells ∧ (setLimits tx rx hold s).cp.txInUse = s.cp.txInUse
      ∧ (setLimits tx rx hold s).cp.lowInUse = s.cp.lowInUse ∧ (setLimits tx rx hold s).cp.rxInUse = s.cp.rxInUse
      ∧ (setLimits tx rx hold s).cp.noticeOwed = s.cp.noticeOwed ∧ (setLimits tx rx hold s).sch = s.sch
      ∧ (setLimits tx rx hold s).le = s.le ∧ (setLimits tx rx hold s).au = s.au ∧ (setLimits tx rx hold s).aw = s.aw
      ∧ (setLimits tx rx hold s).cw = s.cw ∧ (setLimits tx rx hold s).ae = s.ae
      ∧ (setLimits tx rx hold s).pending = s.pending := by
  simp [setLimits]

/-- A notice owed. -/
@[simp] theorem oweNotice_frame (s : State) :
    (oweNotice s).hp = s.hp ∧ (oweNotice s).rct = s.rct ∧ (oweNotice s).fe = s.fe
      ∧ (oweNotice s).cp.cells = s.cp.cells ∧ (oweNotice s).cp.txInUse = s.cp.txInUse
      ∧ (oweNotice s).cp.lowInUse = s.cp.lowInUse ∧ (oweNotice s).cp.rxInUse = s.cp.rxInUse
      ∧ (oweNotice s).cp.txLimit = s.cp.txLimit ∧ (oweNotice s).cp.rxLimit = s.cp.rxLimit
      ∧ (oweNotice s).cp.rxHold = s.cp.rxHold ∧ (oweNotice s).sch = s.sch ∧ (oweNotice s).le = s.le
      ∧ (oweNotice s).au = s.au ∧ (oweNotice s).aw = s.aw ∧ (oweNotice s).cw = s.cw ∧ (oweNotice s).ae = s.ae
      ∧ (oweNotice s).pending = s.pending := by
  simp [oweNotice]

/-! ## Completion -/

/-- A cause asked for on a condition. -/
@[simp] theorem setCauseIf_frame (b : Bool) (c : Cause) (s : State) :
    (setCauseIf b c s).hp.engine = s.hp.engine ∧ (setCauseIf b c s).hp.haltReason = s.hp.haltReason
      ∧ (setCauseIf b c s).hp.enabled = s.hp.enabled ∧ (setCauseIf b c s).hp.bootLo = s.hp.bootLo
      ∧ (setCauseIf b c s).hp.bootHi = s.hp.bootHi ∧ (setCauseIf b c s).hp.mask = s.hp.mask
      ∧ (setCauseIf b c s).hp.onBus = s.hp.onBus ∧ (setCauseIf b c s).hp.waiting = s.hp.waiting
      ∧ (setCauseIf b c s).hp.pointer = s.hp.pointer ∧ (setCauseIf b c s).hp.pinAsserted = s.hp.pinAsserted
      ∧ (setCauseIf b c s).rct = s.rct ∧ (setCauseIf b c s).fe = s.fe ∧ (setCauseIf b c s).cp = s.cp
      ∧ (setCauseIf b c s).sch = s.sch ∧ (setCauseIf b c s).le = s.le ∧ (setCauseIf b c s).au = s.au
      ∧ (setCauseIf b c s).aw = s.aw ∧ (setCauseIf b c s).cw = s.cw ∧ (setCauseIf b c s).ae = s.ae
      ∧ (setCauseIf b c s).pending = s.pending := by
  unfold setCauseIf; (repeat' split) <;> simp

/-- An entry joining the completion pending list. -/
@[simp] theorem joinPending_frame (e : CompletionEntry) (s : State) :
    (joinPending e s).hp = s.hp ∧ (joinPending e s).rct = s.rct ∧ (joinPending e s).fe = s.fe
      ∧ (joinPending e s).cp = s.cp ∧ (joinPending e s).sch = s.sch ∧ (joinPending e s).le = s.le
      ∧ (joinPending e s).au = s.au ∧ (joinPending e s).aw = s.aw ∧ (joinPending e s).ae = s.ae
      ∧ (joinPending e s).pending = s.pending := by
  simp [joinPending]

/-- A settled cell. -/
@[simp] theorem completeCell_frame (id : CellId) (status : SendStatus) (s : State) :
    (completeCell id status s).hp = s.hp ∧ (completeCell id status s).rct = s.rct
      ∧ (completeCell id status s).fe = s.fe ∧ (completeCell id status s).cp.txInUse = s.cp.txInUse
      ∧ (completeCell id status s).cp.lowInUse = s.cp.lowInUse
      ∧ (completeCell id status s).cp.rxInUse = s.cp.rxInUse ∧ (completeCell id status s).cp.txLimit = s.cp.txLimit
      ∧ (completeCell id status s).cp.rxLimit = s.cp.rxLimit ∧ (completeCell id status s).cp.rxHold = s.cp.rxHold
      ∧ (completeCell id status s).cp.noticeOwed = s.cp.noticeOwed ∧ (completeCell id status s).sch = s.sch
      ∧ (completeCell id status s).le = s.le ∧ (completeCell id status s).au = s.au
      ∧ (completeCell id status s).aw = s.aw ∧ (completeCell id status s).ae = s.ae
      ∧ (completeCell id status s).pending = s.pending := by
  simp [completeCell]

/-- The beginning of a completion write. -/
@[simp] theorem beginCompletionWrite_frame (e : CompletionEntry) (rest : List CompletionEntry) (s : State) :
    (beginCompletionWrite e rest s).hp.engine = s.hp.engine
      ∧ (beginCompletionWrite e rest s).hp.haltReason = s.hp.haltReason
      ∧ (beginCompletionWrite e rest s).hp.enabled = s.hp.enabled
      ∧ (beginCompletionWrite e rest s).hp.bootLo = s.hp.bootLo
      ∧ (beginCompletionWrite e rest s).hp.bootHi = s.hp.bootHi
      ∧ (beginCompletionWrite e rest s).hp.cause = s.hp.cause ∧ (beginCompletionWrite e rest s).hp.mask = s.hp.mask
      ∧ (beginCompletionWrite e rest s).hp.onBus = s.hp.onBus
      ∧ (beginCompletionWrite e rest s).hp.pointer = s.hp.pointer
      ∧ (beginCompletionWrite e rest s).hp.pinAsserted = s.hp.pinAsserted
      ∧ (beginCompletionWrite e rest s).rct.admin = s.rct.admin
      ∧ (beginCompletionWrite e rest s).rct.send = s.rct.send
      ∧ (beginCompletionWrite e rest s).rct.arrival = s.rct.arrival ∧ (beginCompletionWrite e rest s).fe = s.fe
      ∧ (beginCompletionWrite e rest s).cp = s.cp ∧ (beginCompletionWrite e rest s).sch = s.sch
      ∧ (beginCompletionWrite e rest s).le = s.le ∧ (beginCompletionWrite e rest s).au = s.au
      ∧ (beginCompletionWrite e rest s).aw = s.aw ∧ (beginCompletionWrite e rest s).ae = s.ae
      ∧ (beginCompletionWrite e rest s).pending = s.pending := by
  simp [beginCompletionWrite]

/-- The completion writer's decision. -/
@[simp] theorem completionDecision_frame (s : State) :
    (completionDecision s).hp.engine = s.hp.engine ∧ (completionDecision s).hp.haltReason = s.hp.haltReason
      ∧ (completionDecision s).hp.enabled = s.hp.enabled ∧ (completionDecision s).hp.bootLo = s.hp.bootLo
      ∧ (completionDecision s).hp.bootHi = s.hp.bootHi ∧ (completionDecision s).hp.cause = s.hp.cause
      ∧ (completionDecision s).hp.mask = s.hp.mask ∧ (completionDecision s).hp.onBus = s.hp.onBus
      ∧ (completionDecision s).hp.pointer = s.hp.pointer ∧ (completionDecision s).hp.pinAsserted = s.hp.pinAsserted
      ∧ (completionDecision s).rct.admin = s.rct.admin ∧ (completionDecision s).rct.send = s.rct.send
      ∧ (completionDecision s).rct.arrival = s.rct.arrival ∧ (completionDecision s).fe = s.fe
      ∧ (completionDecision s).cp = s.cp ∧ (completionDecision s).sch = s.sch ∧ (completionDecision s).le = s.le
      ∧ (completionDecision s).au = s.au ∧ (completionDecision s).aw = s.aw ∧ (completionDecision s).ae = s.ae
      ∧ (completionDecision s).pending = s.pending := by
  unfold completionDecision; (repeat' split) <;> simp

/-- CR's coalescing. -/
@[simp] theorem coalesceCompletion_frame (s : State) :
    (coalesceCompletion s).hp.engine = s.hp.engine ∧ (coalesceCompletion s).hp.haltReason = s.hp.haltReason
      ∧ (coalesceCompletion s).hp.enabled = s.hp.enabled ∧ (coalesceCompletion s).hp.bootLo = s.hp.bootLo
      ∧ (coalesceCompletion s).hp.bootHi = s.hp.bootHi ∧ (coalesceCompletion s).hp.mask = s.hp.mask
      ∧ (coalesceCompletion s).hp.onBus = s.hp.onBus ∧ (coalesceCompletion s).hp.waiting = s.hp.waiting
      ∧ (coalesceCompletion s).hp.pointer = s.hp.pointer ∧ (coalesceCompletion s).hp.pinAsserted = s.hp.pinAsserted
      ∧ (coalesceCompletion s).rct.admin = s.rct.admin ∧ (coalesceCompletion s).rct.send = s.rct.send
      ∧ (coalesceCompletion s).rct.arrival = s.rct.arrival ∧ (coalesceCompletion s).fe = s.fe
      ∧ (coalesceCompletion s).cp = s.cp ∧ (coalesceCompletion s).sch = s.sch ∧ (coalesceCompletion s).le = s.le
      ∧ (coalesceCompletion s).au = s.au ∧ (coalesceCompletion s).aw = s.aw ∧ (coalesceCompletion s).cw = s.cw
      ∧ (coalesceCompletion s).ae = s.ae ∧ (coalesceCompletion s).pending = s.pending := by
  simp [coalesceCompletion]

/-- CR's timer. -/
@[simp] theorem expireCompletionTimer_frame (s : State) :
    (expireCompletionTimer s).hp.engine = s.hp.engine ∧ (expireCompletionTimer s).hp.haltReason = s.hp.haltReason
      ∧ (expireCompletionTimer s).hp.enabled = s.hp.enabled ∧ (expireCompletionTimer s).hp.bootLo = s.hp.bootLo
      ∧ (expireCompletionTimer s).hp.bootHi = s.hp.bootHi ∧ (expireCompletionTimer s).hp.mask = s.hp.mask
      ∧ (expireCompletionTimer s).hp.onBus = s.hp.onBus ∧ (expireCompletionTimer s).hp.waiting = s.hp.waiting
      ∧ (expireCompletionTimer s).hp.pointer = s.hp.pointer
      ∧ (expireCompletionTimer s).hp.pinAsserted = s.hp.pinAsserted
      ∧ (expireCompletionTimer s).rct.admin = s.rct.admin ∧ (expireCompletionTimer s).rct.send = s.rct.send
      ∧ (expireCompletionTimer s).rct.arrival = s.rct.arrival ∧ (expireCompletionTimer s).fe = s.fe
      ∧ (expireCompletionTimer s).cp = s.cp ∧ (expireCompletionTimer s).sch = s.sch
      ∧ (expireCompletionTimer s).le = s.le ∧ (expireCompletionTimer s).au = s.au
      ∧ (expireCompletionTimer s).aw = s.aw ∧ (expireCompletionTimer s).cw = s.cw
      ∧ (expireCompletionTimer s).ae = s.ae ∧ (expireCompletionTimer s).pending = s.pending := by
  simp [expireCompletionTimer]

/-- CR's tail. -/
@[simp] theorem advanceCompletionTail_frame (s : State) :
    (advanceCompletionTail s).hp = s.hp ∧ (advanceCompletionTail s).rct.admin = s.rct.admin
      ∧ (advanceCompletionTail s).rct.send = s.rct.send ∧ (advanceCompletionTail s).rct.arrival = s.rct.arrival
      ∧ (advanceCompletionTail s).fe = s.fe ∧ (advanceCompletionTail s).cp = s.cp
      ∧ (advanceCompletionTail s).sch = s.sch ∧ (advanceCompletionTail s).le = s.le
      ∧ (advanceCompletionTail s).au = s.au ∧ (advanceCompletionTail s).aw = s.aw
      ∧ (advanceCompletionTail s).cw = s.cw ∧ (advanceCompletionTail s).ae = s.ae
      ∧ (advanceCompletionTail s).pending = s.pending := by
  simp [advanceCompletionTail]

/-! ## The admin engine -/

/-- The admin engine's fetch decision. -/
@[simp] theorem adminDecision_frame (s : State) :
    (adminDecision s).hp.engine = s.hp.engine ∧ (adminDecision s).hp.haltReason = s.hp.haltReason
      ∧ (adminDecision s).hp.enabled = s.hp.enabled ∧ (adminDecision s).hp.bootLo = s.hp.bootLo
      ∧ (adminDecision s).hp.bootHi = s.hp.bootHi ∧ (adminDecision s).hp.cause = s.hp.cause
      ∧ (adminDecision s).hp.mask = s.hp.mask ∧ (adminDecision s).hp.onBus = s.hp.onBus
      ∧ (adminDecision s).hp.pointer = s.hp.pointer ∧ (adminDecision s).hp.pinAsserted = s.hp.pinAsserted
      ∧ (adminDecision s).rct.send = s.rct.send ∧ (adminDecision s).rct.arrival = s.rct.arrival
      ∧ (adminDecision s).rct.completion = s.rct.completion ∧ (adminDecision s).fe = s.fe
      ∧ (adminDecision s).cp = s.cp ∧ (adminDecision s).sch = s.sch ∧ (adminDecision s).le = s.le
      ∧ (adminDecision s).au = s.au ∧ (adminDecision s).aw = s.aw ∧ (adminDecision s).cw = s.cw
      ∧ (adminDecision s).pending = s.pending := by
  unfold adminDecision; (repeat' split) <;> simp

/-- The end of all admin work. -/
@[simp] theorem idleAdmin_frame (s : State) :
    (idleAdmin s).hp = s.hp ∧ (idleAdmin s).rct = s.rct ∧ (idleAdmin s).fe = s.fe ∧ (idleAdmin s).cp = s.cp
      ∧ (idleAdmin s).sch = s.sch ∧ (idleAdmin s).le = s.le ∧ (idleAdmin s).au = s.au ∧ (idleAdmin s).aw = s.aw
      ∧ (idleAdmin s).cw = s.cw ∧ (idleAdmin s).pending = s.pending := by
  simp [idleAdmin]

/-- The end of a command. -/
@[simp] theorem endCommand_frame (status : AdminStatus) (area : List Byte) (s : State) :
    (endCommand status area s).hp = s.hp ∧ (endCommand status area s).rct = s.rct
      ∧ (endCommand status area s).fe = s.fe ∧ (endCommand status area s).cp = s.cp
      ∧ (endCommand status area s).sch = s.sch ∧ (endCommand status area s).le = s.le
      ∧ (endCommand status area s).au = s.au ∧ (endCommand status area s).aw = s.aw
      ∧ (endCommand status area s).pending = s.pending := by
  unfold endCommand; (repeat' split) <;> simp

/-- The wait of a command. -/
@[simp] theorem awaitEvent_frame (a : Awaited) (s : State) :
    (awaitEvent a s).hp = s.hp ∧ (awaitEvent a s).rct = s.rct ∧ (awaitEvent a s).fe = s.fe
      ∧ (awaitEvent a s).cp = s.cp ∧ (awaitEvent a s).sch = s.sch ∧ (awaitEvent a s).le = s.le
      ∧ (awaitEvent a s).au = s.au ∧ (awaitEvent a s).aw = s.aw ∧ (awaitEvent a s).cw = s.cw
      ∧ (awaitEvent a s).pending = s.pending := by
  simp [awaitEvent]

/-- The end of CLOSE_RING. -/
@[simp] theorem endCloseRing_frame (area : List Byte) (s : State) :
    (endCloseRing area s).hp = s.hp ∧ (endCloseRing area s).rct = s.rct ∧ (endCloseRing area s).fe = s.fe
      ∧ (endCloseRing area s).cp = s.cp ∧ (endCloseRing area s).sch = s.sch ∧ (endCloseRing area s).le = s.le
      ∧ (endCloseRing area s).au = s.au ∧ (endCloseRing area s).aw = s.aw
      ∧ (endCloseRing area s).pending = s.pending := by
  unfold endCloseRing; (repeat' split) <;> simp

/-- The mode report. -/
@[simp] theorem reportMode_frame (s : State) :
    (reportMode s).hp = s.hp ∧ (reportMode s).rct = s.rct ∧ (reportMode s).fe = s.fe ∧ (reportMode s).cp = s.cp
      ∧ (reportMode s).sch = s.sch ∧ (reportMode s).le = s.le ∧ (reportMode s).au = s.au ∧ (reportMode s).aw = s.aw
      ∧ (reportMode s).pending = s.pending := by
  unfold reportMode; (repeat' split) <;> simp

/-! ## The scheduler -/

/-- A class list replaced. -/
@[simp] theorem setClassList_frame (c : ClassId) (l : List CellId) (s : State) :
    (setClassList c l s).hp = s.hp ∧ (setClassList c l s).rct = s.rct ∧ (setClassList c l s).fe = s.fe
      ∧ (setClassList c l s).cp = s.cp ∧ (setClassList c l s).sch.tick = s.sch.tick
      ∧ (setClassList c l s).sch.tickRunning = s.sch.tickRunning
      ∧ (setClassList c l s).sch.sofReported = s.sch.sofReported ∧ (setClassList c l s).le = s.le
      ∧ (setClassList c l s).au = s.au ∧ (setClassList c l s).aw = s.aw ∧ (setClassList c l s).cw = s.cw
      ∧ (setClassList c l s).ae = s.ae ∧ (setClassList c l s).pending = s.pending := by
  simp [setClassList]

/-- The win report. -/
@[simp] theorem winReport_frame (won : ClassId) (s : State) :
    (winReport won s).hp = s.hp ∧ (winReport won s).rct = s.rct ∧ (winReport won s).fe = s.fe
      ∧ (winReport won s).cp = s.cp ∧ (winReport won s).sch.lists = s.sch.lists
      ∧ (winReport won s).sch.tick = s.sch.tick ∧ (winReport won s).sch.tickRunning = s.sch.tickRunning
      ∧ (winReport won s).sch.sofReported = s.sch.sofReported ∧ (winReport won s).le = s.le
      ∧ (winReport won s).au = s.au ∧ (winReport won s).aw = s.aw ∧ (winReport won s).cw = s.cw
      ∧ (winReport won s).ae = s.ae ∧ (winReport won s).pending = s.pending := by
  simp [winReport]

/-- A tail join. -/
@[simp] theorem joinTail_frame (c : ClassId) (id : CellId) (s : State) :
    (joinTail c id s).hp = s.hp ∧ (joinTail c id s).rct = s.rct ∧ (joinTail c id s).fe = s.fe
      ∧ (joinTail c id s).cp = s.cp ∧ (joinTail c id s).sch.tick = s.sch.tick
      ∧ (joinTail c id s).sch.tickRunning = s.sch.tickRunning
      ∧ (joinTail c id s).sch.sofReported = s.sch.sofReported ∧ (joinTail c id s).le = s.le
      ∧ (joinTail c id s).au = s.au ∧ (joinTail c id s).aw = s.aw ∧ (joinTail c id s).cw = s.cw
      ∧ (joinTail c id s).ae = s.ae ∧ (joinTail c id s).pending = s.pending := by
  simp [joinTail]

/-- A head join. -/
@[simp] theorem joinHead_frame (c : ClassId) (id : CellId) (s : State) :
    (joinHead c id s).hp = s.hp ∧ (joinHead c id s).rct = s.rct ∧ (joinHead c id s).fe = s.fe
      ∧ (joinHead c id s).cp = s.cp ∧ (joinHead c id s).sch.tick = s.sch.tick
      ∧ (joinHead c id s).sch.tickRunning = s.sch.tickRunning
      ∧ (joinHead c id s).sch.sofReported = s.sch.sofReported ∧ (joinHead c id s).le = s.le
      ∧ (joinHead c id s).au = s.au ∧ (joinHead c id s).aw = s.aw ∧ (joinHead c id s).cw = s.cw
      ∧ (joinHead c id s).ae = s.ae ∧ (joinHead c id s).pending = s.pending := by
  simp [joinHead]

/-- A verdict set. -/
@[simp] theorem setVerdict_frame (v : Verdict) (id : CellId) (s : State) :
    (setVerdict v id s).hp = s.hp ∧ (setVerdict v id s).rct = s.rct ∧ (setVerdict v id s).fe = s.fe
      ∧ (setVerdict v id s).cp.txInUse = s.cp.txInUse ∧ (setVerdict v id s).cp.lowInUse = s.cp.lowInUse
      ∧ (setVerdict v id s).cp.rxInUse = s.cp.rxInUse ∧ (setVerdict v id s).cp.txLimit = s.cp.txLimit
      ∧ (setVerdict v id s).cp.rxLimit = s.cp.rxLimit ∧ (setVerdict v id s).cp.rxHold = s.cp.rxHold
      ∧ (setVerdict v id s).cp.noticeOwed = s.cp.noticeOwed ∧ (setVerdict v id s).sch = s.sch
      ∧ (setVerdict v id s).le = s.le ∧ (setVerdict v id s).au = s.au ∧ (setVerdict v id s).aw = s.aw
      ∧ (setVerdict v id s).cw = s.cw ∧ (setVerdict v id s).ae = s.ae ∧ (setVerdict v id s).pending = s.pending := by
  simp [setVerdict]

/-- A property that each step of a fold keeps is kept by the fold. -/
theorem foldl_keeps {α β γ : Type} (π : β → γ) (f : β → α → β) (h : ∀ b a, π (f b a) = π b) (l : List α) (b : β) :
    π (l.foldl f b) = π b := by
  induction l generalizing b with
  | nil => rfl
  | cons a l ih => simp [ih, h]

/-- Departures by verdict. -/
@[simp] theorem verdictDepartures_frame (ring : SendId) (s : State) :
    (verdictDepartures ring s).hp = s.hp ∧ (verdictDepartures ring s).rct = s.rct
      ∧ (verdictDepartures ring s).fe = s.fe ∧ (verdictDepartures ring s).cp.txInUse = s.cp.txInUse
      ∧ (verdictDepartures ring s).cp.lowInUse = s.cp.lowInUse
      ∧ (verdictDepartures ring s).cp.rxInUse = s.cp.rxInUse ∧ (verdictDepartures ring s).cp.txLimit = s.cp.txLimit
      ∧ (verdictDepartures ring s).cp.rxLimit = s.cp.rxLimit ∧ (verdictDepartures ring s).cp.rxHold = s.cp.rxHold
      ∧ (verdictDepartures ring s).cp.noticeOwed = s.cp.noticeOwed
      ∧ (verdictDepartures ring s).sch.tick = s.sch.tick
      ∧ (verdictDepartures ring s).sch.tickRunning = s.sch.tickRunning
      ∧ (verdictDepartures ring s).sch.sofReported = s.sch.sofReported ∧ (verdictDepartures ring s).le = s.le
      ∧ (verdictDepartures ring s).au = s.au ∧ (verdictDepartures ring s).aw = s.aw
      ∧ (verdictDepartures ring s).ae = s.ae ∧ (verdictDepartures ring s).pending = s.pending := by
  have key := fun l b => foldl_keeps (fun s : State =>
      (s.hp, s.rct, s.fe, s.cp.txInUse, s.cp.lowInUse, s.cp.rxInUse, s.cp.txLimit, s.cp.rxLimit, s.cp.rxHold,
      s.cp.noticeOwed, s.sch.tick, s.sch.tickRunning, s.sch.sofReported, s.le, s.au, s.aw, s.ae, s.pending))
    (fun s (p : CellId × Verdict) => completeCell p.1 p.2.status s) (by intro b a; simp) l b
  simp only [Prod.mk.injEq] at key
  unfold verdictDepartures; split <;> simp [key]

/-- An offer. -/
@[simp] theorem offerHead_frame (c : ClassId) (s : State) :
    (offerHead c s).hp = s.hp ∧ (offerHead c s).rct = s.rct ∧ (offerHead c s).fe = s.fe ∧ (offerHead c s).cp = s.cp
      ∧ (offerHead c s).sch.tick = s.sch.tick ∧ (offerHead c s).sch.tickRunning = s.sch.tickRunning
      ∧ (offerHead c s).le.mode = s.le.mode ∧ (offerHead c s).le.phase = s.le.phase
      ∧ (offerHead c s).le.muted = s.le.muted ∧ (offerHead c s).le.fault = s.le.fault
      ∧ (offerHead c s).le.errorRun = s.le.errorRun ∧ (offerHead c s).le.pendingMode = s.le.pendingMode
      ∧ (offerHead c s).le.quietRun = s.le.quietRun ∧ (offerHead c s).le.frame = s.le.frame
      ∧ (offerHead c s).le.counters = s.le.counters ∧ (offerHead c s).le.snapshot = s.le.snapshot
      ∧ (offerHead c s).le.txd = s.le.txd ∧ (offerHead c s).au = s.au ∧ (offerHead c s).aw = s.aw
      ∧ (offerHead c s).cw = s.cw ∧ (offerHead c s).ae = s.ae ∧ (offerHead c s).pending = s.pending := by
  unfold offerHead; (repeat' split) <;> simp

/-- The offer decision. -/
@[simp] theorem offerDecision_frame (s : State) :
    (offerDecision s).hp = s.hp ∧ (offerDecision s).rct = s.rct ∧ (offerDecision s).fe = s.fe
      ∧ (offerDecision s).cp = s.cp ∧ (offerDecision s).sch.tick = s.sch.tick
      ∧ (offerDecision s).sch.tickRunning = s.sch.tickRunning ∧ (offerDecision s).le.mode = s.le.mode
      ∧ (offerDecision s).le.phase = s.le.phase ∧ (offerDecision s).le.muted = s.le.muted
      ∧ (offerDecision s).le.fault = s.le.fault ∧ (offerDecision s).le.errorRun = s.le.errorRun
      ∧ (offerDecision s).le.pendingMode = s.le.pendingMode ∧ (offerDecision s).le.quietRun = s.le.quietRun
      ∧ (offerDecision s).le.frame = s.le.frame ∧ (offerDecision s).le.counters = s.le.counters
      ∧ (offerDecision s).le.snapshot = s.le.snapshot ∧ (offerDecision s).le.txd = s.le.txd
      ∧ (offerDecision s).au = s.au ∧ (offerDecision s).aw = s.aw ∧ (offerDecision s).cw = s.cw
      ∧ (offerDecision s).ae = s.ae ∧ (offerDecision s).pending = s.pending := by
  unfold offerDecision; (repeat' split) <;> simp

/-- The slot emptied. -/
@[simp] theorem emptySlot_frame (s : State) :
    (emptySlot s).hp = s.hp ∧ (emptySlot s).rct = s.rct ∧ (emptySlot s).fe = s.fe ∧ (emptySlot s).cp = s.cp
      ∧ (emptySlot s).sch = s.sch ∧ (emptySlot s).le.mode = s.le.mode ∧ (emptySlot s).le.phase = s.le.phase
      ∧ (emptySlot s).le.muted = s.le.muted ∧ (emptySlot s).le.fault = s.le.fault
      ∧ (emptySlot s).le.errorRun = s.le.errorRun ∧ (emptySlot s).le.pendingMode = s.le.pendingMode
      ∧ (emptySlot s).le.quietRun = s.le.quietRun ∧ (emptySlot s).le.frame = s.le.frame
      ∧ (emptySlot s).le.counters = s.le.counters ∧ (emptySlot s).le.snapshot = s.le.snapshot
      ∧ (emptySlot s).le.txd = s.le.txd ∧ (emptySlot s).au = s.au ∧ (emptySlot s).aw = s.aw
      ∧ (emptySlot s).cw = s.cw ∧ (emptySlot s).ae = s.ae ∧ (emptySlot s).pending = s.pending := by
  simp [emptySlot]

/-- A withdrawal. -/
@[simp] theorem withdrawOffer_frame (s : State) :
    (withdrawOffer s).hp = s.hp ∧ (withdrawOffer s).rct = s.rct ∧ (withdrawOffer s).fe = s.fe
      ∧ (withdrawOffer s).cp.txInUse = s.cp.txInUse ∧ (withdrawOffer s).cp.lowInUse = s.cp.lowInUse
      ∧ (withdrawOffer s).cp.rxInUse = s.cp.rxInUse ∧ (withdrawOffer s).cp.txLimit = s.cp.txLimit
      ∧ (withdrawOffer s).cp.rxLimit = s.cp.rxLimit ∧ (withdrawOffer s).cp.rxHold = s.cp.rxHold
      ∧ (withdrawOffer s).cp.noticeOwed = s.cp.noticeOwed ∧ (withdrawOffer s).sch.tick = s.sch.tick
      ∧ (withdrawOffer s).sch.tickRunning = s.sch.tickRunning
      ∧ (withdrawOffer s).sch.sofReported = s.sch.sofReported ∧ (withdrawOffer s).le.mode = s.le.mode
      ∧ (withdrawOffer s).le.phase = s.le.phase ∧ (withdrawOffer s).le.muted = s.le.muted
      ∧ (withdrawOffer s).le.fault = s.le.fault ∧ (withdrawOffer s).le.errorRun = s.le.errorRun
      ∧ (withdrawOffer s).le.pendingMode = s.le.pendingMode ∧ (withdrawOffer s).le.quietRun = s.le.quietRun
      ∧ (withdrawOffer s).le.frame = s.le.frame ∧ (withdrawOffer s).le.counters = s.le.counters
      ∧ (withdrawOffer s).le.snapshot = s.le.snapshot ∧ (withdrawOffer s).le.txd = s.le.txd
      ∧ (withdrawOffer s).au = s.au ∧ (withdrawOffer s).aw = s.aw ∧ (withdrawOffer s).ae = s.ae
      ∧ (withdrawOffer s).pending = s.pending := by
  unfold withdrawOffer; (repeat' split) <;> simp

/-- A settlement. -/
@[simp] theorem settleAttempt_frame (id : CellId) (o : AttemptOutcome) (s : State) :
    (settleAttempt id o s).hp = s.hp ∧ (settleAttempt id o s).rct = s.rct ∧ (settleAttempt id o s).fe = s.fe
      ∧ (settleAttempt id o s).cp.txInUse = s.cp.txInUse ∧ (settleAttempt id o s).cp.lowInUse = s.cp.lowInUse
      ∧ (settleAttempt id o s).cp.rxInUse = s.cp.rxInUse ∧ (settleAttempt id o s).cp.txLimit = s.cp.txLimit
      ∧ (settleAttempt id o s).cp.rxLimit = s.cp.rxLimit ∧ (settleAttempt id o s).cp.rxHold = s.cp.rxHold
      ∧ (settleAttempt id o s).cp.noticeOwed = s.cp.noticeOwed ∧ (settleAttempt id o s).sch.tick = s.sch.tick
      ∧ (settleAttempt id o s).sch.tickRunning = s.sch.tickRunning
      ∧ (settleAttempt id o s).sch.sofReported = s.sch.sofReported ∧ (settleAttempt id o s).le = s.le
      ∧ (settleAttempt id o s).au = s.au ∧ (settleAttempt id o s).aw = s.aw ∧ (settleAttempt id o s).ae = s.ae
      ∧ (settleAttempt id o s).pending = s.pending := by
  unfold settleAttempt; split
  · dsimp only; split <;> simp
  · simp

/-- An expiry. -/
@[simp] theorem expireCell_frame (id : CellId) (c : TxCell) (s : State) :
    (expireCell id c s).hp = s.hp ∧ (expireCell id c s).rct = s.rct ∧ (expireCell id c s).fe = s.fe
      ∧ (expireCell id c s).cp.txInUse = s.cp.txInUse ∧ (expireCell id c s).cp.lowInUse = s.cp.lowInUse
      ∧ (expireCell id c s).cp.rxInUse = s.cp.rxInUse ∧ (expireCell id c s).cp.txLimit = s.cp.txLimit
      ∧ (expireCell id c s).cp.rxLimit = s.cp.rxLimit ∧ (expireCell id c s).cp.rxHold = s.cp.rxHold
      ∧ (expireCell id c s).cp.noticeOwed = s.cp.noticeOwed ∧ (expireCell id c s).sch.tick = s.sch.tick
      ∧ (expireCell id c s).sch.tickRunning = s.sch.tickRunning
      ∧ (expireCell id c s).sch.sofReported = s.sch.sofReported ∧ (expireCell id c s).le.mode = s.le.mode
      ∧ (expireCell id c s).le.phase = s.le.phase ∧ (expireCell id c s).le.muted = s.le.muted
      ∧ (expireCell id c s).le.fault = s.le.fault ∧ (expireCell id c s).le.errorRun = s.le.errorRun
      ∧ (expireCell id c s).le.pendingMode = s.le.pendingMode ∧ (expireCell id c s).le.quietRun = s.le.quietRun
      ∧ (expireCell id c s).le.frame = s.le.frame ∧ (expireCell id c s).le.counters = s.le.counters
      ∧ (expireCell id c s).le.snapshot = s.le.snapshot ∧ (expireCell id c s).le.txd = s.le.txd
      ∧ (expireCell id c s).au = s.au ∧ (expireCell id c s).aw = s.aw ∧ (expireCell id c s).ae = s.ae
      ∧ (expireCell id c s).pending = s.pending := by
  unfold expireCell; (repeat' split) <;> simp

/-- A flush. -/
@[simp] theorem flushRing_frame (ring : SendId) (s : State) :
    (flushRing ring s).hp = s.hp ∧ (flushRing ring s).rct = s.rct ∧ (flushRing ring s).fe = s.fe
      ∧ (flushRing ring s).cp.txInUse = s.cp.txInUse ∧ (flushRing ring s).cp.lowInUse = s.cp.lowInUse
      ∧ (flushRing ring s).cp.rxInUse = s.cp.rxInUse ∧ (flushRing ring s).cp.txLimit = s.cp.txLimit
      ∧ (flushRing ring s).cp.rxLimit = s.cp.rxLimit ∧ (flushRing ring s).cp.rxHold = s.cp.rxHold
      ∧ (flushRing ring s).cp.noticeOwed = s.cp.noticeOwed ∧ (flushRing ring s).sch.tick = s.sch.tick
      ∧ (flushRing ring s).sch.tickRunning = s.sch.tickRunning
      ∧ (flushRing ring s).sch.sofReported = s.sch.sofReported ∧ (flushRing ring s).le = s.le
      ∧ (flushRing ring s).au = s.au ∧ (flushRing ring s).aw = s.aw ∧ (flushRing ring s).ae = s.ae
      ∧ (flushRing ring s).pending = s.pending := by
  have key := fun l b => foldl_keeps (fun s : State =>
      (s.hp, s.rct, s.fe, s.cp.txInUse, s.cp.lowInUse, s.cp.rxInUse, s.cp.txLimit, s.cp.rxLimit, s.cp.rxHold,
      s.cp.noticeOwed, s.sch.tick, s.sch.tickRunning, s.sch.sofReported, s.le, s.au, s.aw, s.ae, s.pending))
    (fun s id => setVerdict .flush id s) (by intro b a; simp) l b
  simp only [Prod.mk.injEq] at key
  simp [flushRing, key]

/-- A send ring that may become CLOSED. -/
@[simp] theorem closeIfDrainedSend_frame (ring : SendId) (s : State) :
    (closeIfDrainedSend ring s).hp = s.hp ∧ (closeIfDrainedSend ring s).rct.admin = s.rct.admin
      ∧ (closeIfDrainedSend ring s).rct.arrival = s.rct.arrival
      ∧ (closeIfDrainedSend ring s).rct.completion = s.rct.completion ∧ (closeIfDrainedSend ring s).fe = s.fe
      ∧ (closeIfDrainedSend ring s).cp = s.cp ∧ (closeIfDrainedSend ring s).sch = s.sch
      ∧ (closeIfDrainedSend ring s).le = s.le ∧ (closeIfDrainedSend ring s).au = s.au
      ∧ (closeIfDrainedSend ring s).aw = s.aw ∧ (closeIfDrainedSend ring s).pending = s.pending := by
  unfold closeIfDrainedSend; (repeat' split) <;> simp

/-! ## Fetching -/

/-- The waiting flag. -/
@[simp] theorem setFetchWaiting_frame (b : Bool) (s : State) :
    (setFetchWaiting b s).hp = s.hp ∧ (setFetchWaiting b s).rct = s.rct ∧ (setFetchWaiting b s).cp = s.cp
      ∧ (setFetchWaiting b s).sch = s.sch ∧ (setFetchWaiting b s).le = s.le ∧ (setFetchWaiting b s).au = s.au
      ∧ (setFetchWaiting b s).aw = s.aw ∧ (setFetchWaiting b s).cw = s.cw ∧ (setFetchWaiting b s).ae = s.ae
      ∧ (setFetchWaiting b s).pending = s.pending := by
  simp [setFetchWaiting]

/-- The beginning of a fetch. -/
@[simp] theorem beginFetch_frame (r : SendId) (id : CellId) (s : State) :
    (beginFetch r id s).hp.engine = s.hp.engine ∧ (beginFetch r id s).hp.haltReason = s.hp.haltReason
      ∧ (beginFetch r id s).hp.enabled = s.hp.enabled ∧ (beginFetch r id s).hp.bootLo = s.hp.bootLo
      ∧ (beginFetch r id s).hp.bootHi = s.hp.bootHi ∧ (beginFetch r id s).hp.cause = s.hp.cause
      ∧ (beginFetch r id s).hp.mask = s.hp.mask ∧ (beginFetch r id s).hp.onBus = s.hp.onBus
      ∧ (beginFetch r id s).hp.pointer = s.hp.pointer ∧ (beginFetch r id s).hp.pinAsserted = s.hp.pinAsserted
      ∧ (beginFetch r id s).rct.admin = s.rct.admin ∧ (beginFetch r id s).rct.arrival = s.rct.arrival
      ∧ (beginFetch r id s).rct.completion = s.rct.completion ∧ (beginFetch r id s).cp.txLimit = s.cp.txLimit
      ∧ (beginFetch r id s).cp.rxLimit = s.cp.rxLimit ∧ (beginFetch r id s).cp.rxHold = s.cp.rxHold
      ∧ (beginFetch r id s).sch = s.sch ∧ (beginFetch r id s).le = s.le ∧ (beginFetch r id s).au = s.au
      ∧ (beginFetch r id s).aw = s.aw ∧ (beginFetch r id s).cw = s.cw ∧ (beginFetch r id s).ae = s.ae
      ∧ (beginFetch r id s).pending = s.pending := by
  simp [beginFetch]

/-- A fetch decision over rings. -/
@[simp] theorem fetchVisit_frame (l : List SendId) (b : Bool) (s : State) :
    (fetchVisit l b s).hp.engine = s.hp.engine ∧ (fetchVisit l b s).hp.haltReason = s.hp.haltReason
      ∧ (fetchVisit l b s).hp.enabled = s.hp.enabled ∧ (fetchVisit l b s).hp.bootLo = s.hp.bootLo
      ∧ (fetchVisit l b s).hp.bootHi = s.hp.bootHi ∧ (fetchVisit l b s).hp.cause = s.hp.cause
      ∧ (fetchVisit l b s).hp.mask = s.hp.mask ∧ (fetchVisit l b s).hp.onBus = s.hp.onBus
      ∧ (fetchVisit l b s).hp.pointer = s.hp.pointer ∧ (fetchVisit l b s).hp.pinAsserted = s.hp.pinAsserted
      ∧ (fetchVisit l b s).rct.admin = s.rct.admin ∧ (fetchVisit l b s).rct.arrival = s.rct.arrival
      ∧ (fetchVisit l b s).rct.completion = s.rct.completion ∧ (fetchVisit l b s).cp.txLimit = s.cp.txLimit
      ∧ (fetchVisit l b s).cp.rxLimit = s.cp.rxLimit ∧ (fetchVisit l b s).cp.rxHold = s.cp.rxHold
      ∧ (fetchVisit l b s).sch = s.sch ∧ (fetchVisit l b s).le = s.le ∧ (fetchVisit l b s).au = s.au
      ∧ (fetchVisit l b s).aw = s.aw ∧ (fetchVisit l b s).cw = s.cw ∧ (fetchVisit l b s).ae = s.ae
      ∧ (fetchVisit l b s).pending = s.pending := by
  induction l generalizing b s with
  | nil => simp [fetchVisit]
  | cons r l ih => simp only [fetchVisit]; (repeat' split) <;> simp [ih]

/-- The fetch decision. -/
@[simp] theorem fetchDecision_frame (s : State) :
    (fetchDecision s).hp.engine = s.hp.engine ∧ (fetchDecision s).hp.haltReason = s.hp.haltReason
      ∧ (fetchDecision s).hp.enabled = s.hp.enabled ∧ (fetchDecision s).hp.bootLo = s.hp.bootLo
      ∧ (fetchDecision s).hp.bootHi = s.hp.bootHi ∧ (fetchDecision s).hp.cause = s.hp.cause
      ∧ (fetchDecision s).hp.mask = s.hp.mask ∧ (fetchDecision s).hp.onBus = s.hp.onBus
      ∧ (fetchDecision s).hp.pointer = s.hp.pointer ∧ (fetchDecision s).hp.pinAsserted = s.hp.pinAsserted
      ∧ (fetchDecision s).rct.admin = s.rct.admin ∧ (fetchDecision s).rct.arrival = s.rct.arrival
      ∧ (fetchDecision s).rct.completion = s.rct.completion ∧ (fetchDecision s).cp.txLimit = s.cp.txLimit
      ∧ (fetchDecision s).cp.rxLimit = s.cp.rxLimit ∧ (fetchDecision s).cp.rxHold = s.cp.rxHold
      ∧ (fetchDecision s).sch = s.sch ∧ (fetchDecision s).le = s.le ∧ (fetchDecision s).au = s.au
      ∧ (fetchDecision s).aw = s.aw ∧ (fetchDecision s).cw = s.cw ∧ (fetchDecision s).ae = s.ae
      ∧ (fetchDecision s).pending = s.pending := by
  unfold fetchDecision; (repeat' split) <;> simp

/-- A room notice. -/
@[simp] theorem roomNotice_frame (s : State) :
    (roomNotice s).hp.engine = s.hp.engine ∧ (roomNotice s).hp.haltReason = s.hp.haltReason
      ∧ (roomNotice s).hp.enabled = s.hp.enabled ∧ (roomNotice s).hp.bootLo = s.hp.bootLo
      ∧ (roomNotice s).hp.bootHi = s.hp.bootHi ∧ (roomNotice s).hp.cause = s.hp.cause
      ∧ (roomNotice s).hp.mask = s.hp.mask ∧ (roomNotice s).hp.onBus = s.hp.onBus
      ∧ (roomNotice s).hp.pointer = s.hp.pointer ∧ (roomNotice s).hp.pinAsserted = s.hp.pinAsserted
      ∧ (roomNotice s).rct.admin = s.rct.admin ∧ (roomNotice s).rct.arrival = s.rct.arrival
      ∧ (roomNotice s).rct.completion = s.rct.completion ∧ (roomNotice s).cp.txLimit = s.cp.txLimit
      ∧ (roomNotice s).cp.rxLimit = s.cp.rxLimit ∧ (roomNotice s).cp.rxHold = s.cp.rxHold
      ∧ (roomNotice s).sch = s.sch ∧ (roomNotice s).le = s.le ∧ (roomNotice s).au = s.au ∧ (roomNotice s).aw = s.aw
      ∧ (roomNotice s).cw = s.cw ∧ (roomNotice s).ae = s.ae ∧ (roomNotice s).pending = s.pending := by
  unfold roomNotice; (repeat' split) <;> simp

/-- A fetch end. -/
@[simp] theorem takeFetchEnd_frame (result : ReadEnd) (s : State) :
    (takeFetchEnd result s).hp.engine = s.hp.engine ∧ (takeFetchEnd result s).hp.haltReason = s.hp.haltReason
      ∧ (takeFetchEnd result s).hp.enabled = s.hp.enabled ∧ (takeFetchEnd result s).hp.bootLo = s.hp.bootLo
      ∧ (takeFetchEnd result s).hp.bootHi = s.hp.bootHi ∧ (takeFetchEnd result s).hp.cause = s.hp.cause
      ∧ (takeFetchEnd result s).hp.mask = s.hp.mask ∧ (takeFetchEnd result s).hp.onBus = s.hp.onBus
      ∧ (takeFetchEnd result s).hp.pointer = s.hp.pointer
      ∧ (takeFetchEnd result s).hp.pinAsserted = s.hp.pinAsserted ∧ (takeFetchEnd result s).rct.admin = s.rct.admin
      ∧ (takeFetchEnd result s).rct.arrival = s.rct.arrival
      ∧ (takeFetchEnd result s).rct.completion = s.rct.completion
      ∧ (takeFetchEnd result s).cp.txLimit = s.cp.txLimit ∧ (takeFetchEnd result s).cp.rxLimit = s.cp.rxLimit
      ∧ (takeFetchEnd result s).cp.rxHold = s.cp.rxHold ∧ (takeFetchEnd result s).sch.tick = s.sch.tick
      ∧ (takeFetchEnd result s).sch.tickRunning = s.sch.tickRunning
      ∧ (takeFetchEnd result s).sch.sofReported = s.sch.sofReported ∧ (takeFetchEnd result s).le = s.le
      ∧ (takeFetchEnd result s).au = s.au ∧ (takeFetchEnd result s).aw = s.aw ∧ (takeFetchEnd result s).ae = s.ae
      ∧ (takeFetchEnd result s).pending = s.pending := by
  unfold takeFetchEnd; (repeat' split) <;> simp

/-! ## The arrival writer -/

/-- A notification. -/
@[simp] theorem notifyArrival_frame (r : ArrivalId) (s : State) :
    (notifyArrival r s).hp.engine = s.hp.engine ∧ (notifyArrival r s).hp.haltReason = s.hp.haltReason
      ∧ (notifyArrival r s).hp.enabled = s.hp.enabled ∧ (notifyArrival r s).hp.bootLo = s.hp.bootLo
      ∧ (notifyArrival r s).hp.bootHi = s.hp.bootHi ∧ (notifyArrival r s).hp.mask = s.hp.mask
      ∧ (notifyArrival r s).hp.onBus = s.hp.onBus ∧ (notifyArrival r s).hp.waiting = s.hp.waiting
      ∧ (notifyArrival r s).hp.pointer = s.hp.pointer ∧ (notifyArrival r s).hp.pinAsserted = s.hp.pinAsserted
      ∧ (notifyArrival r s).rct.admin = s.rct.admin ∧ (notifyArrival r s).rct.send = s.rct.send
      ∧ (notifyArrival r s).rct.completion = s.rct.completion ∧ (notifyArrival r s).fe = s.fe
      ∧ (notifyArrival r s).cp = s.cp ∧ (notifyArrival r s).sch = s.sch ∧ (notifyArrival r s).le = s.le
      ∧ (notifyArrival r s).au = s.au ∧ (notifyArrival r s).aw = s.aw ∧ (notifyArrival r s).cw = s.cw
      ∧ (notifyArrival r s).ae = s.ae ∧ (notifyArrival r s).pending = s.pending := by
  simp [notifyArrival]

/-- An arrival ring that may become CLOSED. -/
@[simp] theorem closeIfDrainedArrival_frame (r : ArrivalId) (s : State) :
    (closeIfDrainedArrival r s).hp.engine = s.hp.engine
      ∧ (closeIfDrainedArrival r s).hp.haltReason = s.hp.haltReason
      ∧ (closeIfDrainedArrival r s).hp.enabled = s.hp.enabled ∧ (closeIfDrainedArrival r s).hp.bootLo = s.hp.bootLo
      ∧ (closeIfDrainedArrival r s).hp.bootHi = s.hp.bootHi ∧ (closeIfDrainedArrival r s).hp.mask = s.hp.mask
      ∧ (closeIfDrainedArrival r s).hp.onBus = s.hp.onBus ∧ (closeIfDrainedArrival r s).hp.waiting = s.hp.waiting
      ∧ (closeIfDrainedArrival r s).hp.pointer = s.hp.pointer
      ∧ (closeIfDrainedArrival r s).hp.pinAsserted = s.hp.pinAsserted
      ∧ (closeIfDrainedArrival r s).rct.admin = s.rct.admin ∧ (closeIfDrainedArrival r s).rct.send = s.rct.send
      ∧ (closeIfDrainedArrival r s).rct.completion = s.rct.completion ∧ (closeIfDrainedArrival r s).fe = s.fe
      ∧ (closeIfDrainedArrival r s).cp = s.cp ∧ (closeIfDrainedArrival r s).sch = s.sch
      ∧ (closeIfDrainedArrival r s).le = s.le ∧ (closeIfDrainedArrival r s).au = s.au
      ∧ (closeIfDrainedArrival r s).aw = s.aw ∧ (closeIfDrainedArrival r s).pending = s.pending := by
  unfold closeIfDrainedArrival; (repeat' split) <;> simp

/-- A discard. -/
@[simp] theorem discardCell_frame (r : ArrivalId) (id : CellId) (s : State) :
    (discardCell r id s).hp = s.hp ∧ (discardCell r id s).rct.admin = s.rct.admin
      ∧ (discardCell r id s).rct.completion = s.rct.completion ∧ (discardCell r id s).fe = s.fe
      ∧ (discardCell r id s).cp.txLimit = s.cp.txLimit ∧ (discardCell r id s).cp.rxLimit = s.cp.rxLimit
      ∧ (discardCell r id s).cp.rxHold = s.cp.rxHold ∧ (discardCell r id s).sch = s.sch
      ∧ (discardCell r id s).le = s.le ∧ (discardCell r id s).au = s.au ∧ (discardCell r id s).aw = s.aw
      ∧ (discardCell r id s).cw = s.cw ∧ (discardCell r id s).ae = s.ae ∧ (discardCell r id s).pending = s.pending := by
  simp [discardCell]

/-- The discard of a pending list. -/
@[simp] theorem discardPending_frame (r : ArrivalId) (s : State) :
    (discardPending r s).hp = s.hp ∧ (discardPending r s).rct.admin = s.rct.admin
      ∧ (discardPending r s).rct.completion = s.rct.completion ∧ (discardPending r s).fe = s.fe
      ∧ (discardPending r s).cp.txLimit = s.cp.txLimit ∧ (discardPending r s).cp.rxLimit = s.cp.rxLimit
      ∧ (discardPending r s).cp.rxHold = s.cp.rxHold ∧ (discardPending r s).sch = s.sch
      ∧ (discardPending r s).le = s.le ∧ (discardPending r s).au = s.au ∧ (discardPending r s).cw = s.cw
      ∧ (discardPending r s).ae = s.ae ∧ (discardPending r s).pending = s.pending := by
  have key := fun l b => foldl_keeps (fun s : State =>
      (s.hp, s.rct.admin, s.rct.completion, s.fe, s.cp.txLimit, s.cp.rxLimit, s.cp.rxHold, s.sch, s.le, s.au,
      s.cw, s.ae, s.pending))
    (fun s id => discardCell r id s) (by intro b a; simp) l b
  simp only [Prod.mk.injEq] at key
  simp [discardPending, key]

/-- The beginning of an arrival write. -/
@[simp] theorem beginArrivalWrite_frame (r : ArrivalId) (s : State) :
    (beginArrivalWrite r s).hp.engine = s.hp.engine ∧ (beginArrivalWrite r s).hp.haltReason = s.hp.haltReason
      ∧ (beginArrivalWrite r s).hp.enabled = s.hp.enabled ∧ (beginArrivalWrite r s).hp.bootLo = s.hp.bootLo
      ∧ (beginArrivalWrite r s).hp.bootHi = s.hp.bootHi ∧ (beginArrivalWrite r s).hp.cause = s.hp.cause
      ∧ (beginArrivalWrite r s).hp.mask = s.hp.mask ∧ (beginArrivalWrite r s).hp.onBus = s.hp.onBus
      ∧ (beginArrivalWrite r s).hp.pointer = s.hp.pointer
      ∧ (beginArrivalWrite r s).hp.pinAsserted = s.hp.pinAsserted ∧ (beginArrivalWrite r s).rct.admin = s.rct.admin
      ∧ (beginArrivalWrite r s).rct.send = s.rct.send ∧ (beginArrivalWrite r s).rct.completion = s.rct.completion
      ∧ (beginArrivalWrite r s).fe = s.fe ∧ (beginArrivalWrite r s).cp = s.cp ∧ (beginArrivalWrite r s).sch = s.sch
      ∧ (beginArrivalWrite r s).le = s.le ∧ (beginArrivalWrite r s).au = s.au ∧ (beginArrivalWrite r s).cw = s.cw
      ∧ (beginArrivalWrite r s).ae = s.ae ∧ (beginArrivalWrite r s).pending = s.pending := by
  unfold beginArrivalWrite; (repeat' split) <;> simp

/-- The arrival writer's decision. -/
@[simp] theorem arrivalDecision_frame (s : State) :
    (arrivalDecision s).hp.engine = s.hp.engine ∧ (arrivalDecision s).hp.haltReason = s.hp.haltReason
      ∧ (arrivalDecision s).hp.enabled = s.hp.enabled ∧ (arrivalDecision s).hp.bootLo = s.hp.bootLo
      ∧ (arrivalDecision s).hp.bootHi = s.hp.bootHi ∧ (arrivalDecision s).hp.cause = s.hp.cause
      ∧ (arrivalDecision s).hp.mask = s.hp.mask ∧ (arrivalDecision s).hp.onBus = s.hp.onBus
      ∧ (arrivalDecision s).hp.pointer = s.hp.pointer ∧ (arrivalDecision s).hp.pinAsserted = s.hp.pinAsserted
      ∧ (arrivalDecision s).rct.admin = s.rct.admin ∧ (arrivalDecision s).rct.send = s.rct.send
      ∧ (arrivalDecision s).rct.completion = s.rct.completion ∧ (arrivalDecision s).fe = s.fe
      ∧ (arrivalDecision s).cp = s.cp ∧ (arrivalDecision s).sch = s.sch ∧ (arrivalDecision s).le = s.le
      ∧ (arrivalDecision s).au = s.au ∧ (arrivalDecision s).cw = s.cw ∧ (arrivalDecision s).ae = s.ae
      ∧ (arrivalDecision s).pending = s.pending := by
  unfold arrivalDecision; (repeat' split) <;> simp

/-- An arrival ring's coalescing. -/
@[simp] theorem coalesceArrival_frame (r : ArrivalId) (s : State) :
    (coalesceArrival r s).hp.engine = s.hp.engine ∧ (coalesceArrival r s).hp.haltReason = s.hp.haltReason
      ∧ (coalesceArrival r s).hp.enabled = s.hp.enabled ∧ (coalesceArrival r s).hp.bootLo = s.hp.bootLo
      ∧ (coalesceArrival r s).hp.bootHi = s.hp.bootHi ∧ (coalesceArrival r s).hp.mask = s.hp.mask
      ∧ (coalesceArrival r s).hp.onBus = s.hp.onBus ∧ (coalesceArrival r s).hp.waiting = s.hp.waiting
      ∧ (coalesceArrival r s).hp.pointer = s.hp.pointer ∧ (coalesceArrival r s).hp.pinAsserted = s.hp.pinAsserted
      ∧ (coalesceArrival r s).rct.admin = s.rct.admin ∧ (coalesceArrival r s).rct.send = s.rct.send
      ∧ (coalesceArrival r s).rct.completion = s.rct.completion ∧ (coalesceArrival r s).fe = s.fe
      ∧ (coalesceArrival r s).cp = s.cp ∧ (coalesceArrival r s).sch = s.sch ∧ (coalesceArrival r s).le = s.le
      ∧ (coalesceArrival r s).au = s.au ∧ (coalesceArrival r s).aw = s.aw ∧ (coalesceArrival r s).cw = s.cw
      ∧ (coalesceArrival r s).ae = s.ae ∧ (coalesceArrival r s).pending = s.pending := by
  simp [coalesceArrival]

/-- An arrival ring's tail. -/
@[simp] theorem advanceArrivalTail_frame (r : ArrivalId) (s : State) :
    (advanceArrivalTail r s).hp = s.hp ∧ (advanceArrivalTail r s).rct.admin = s.rct.admin
      ∧ (advanceArrivalTail r s).rct.send = s.rct.send ∧ (advanceArrivalTail r s).rct.completion = s.rct.completion
      ∧ (advanceArrivalTail r s).fe = s.fe ∧ (advanceArrivalTail r s).cp = s.cp
      ∧ (advanceArrivalTail r s).sch = s.sch ∧ (advanceArrivalTail r s).le = s.le
      ∧ (advanceArrivalTail r s).au = s.au ∧ (advanceArrivalTail r s).aw = s.aw ∧ (advanceArrivalTail r s).cw = s.cw
      ∧ (advanceArrivalTail r s).ae = s.ae ∧ (advanceArrivalTail r s).pending = s.pending := by
  simp [advanceArrivalTail]

/-- The write in flight cleared. -/
@[simp] theorem clearArrivalWrite_frame (r : ArrivalId) (s : State) :
    (clearArrivalWrite r s).hp = s.hp ∧ (clearArrivalWrite r s).rct.admin = s.rct.admin
      ∧ (clearArrivalWrite r s).rct.send = s.rct.send ∧ (clearArrivalWrite r s).rct.completion = s.rct.completion
      ∧ (clearArrivalWrite r s).fe = s.fe ∧ (clearArrivalWrite r s).cp = s.cp ∧ (clearArrivalWrite r s).sch = s.sch
      ∧ (clearArrivalWrite r s).le = s.le ∧ (clearArrivalWrite r s).au = s.au ∧ (clearArrivalWrite r s).cw = s.cw
      ∧ (clearArrivalWrite r s).ae = s.ae ∧ (clearArrivalWrite r s).pending = s.pending := by
  simp [clearArrivalWrite]

/-- A delivered record. -/
@[simp] theorem arrivalDelivered_frame (w : ArrivalWrite) (s : State) :
    (arrivalDelivered w s).hp.engine = s.hp.engine ∧ (arrivalDelivered w s).hp.haltReason = s.hp.haltReason
      ∧ (arrivalDelivered w s).hp.enabled = s.hp.enabled ∧ (arrivalDelivered w s).hp.bootLo = s.hp.bootLo
      ∧ (arrivalDelivered w s).hp.bootHi = s.hp.bootHi ∧ (arrivalDelivered w s).hp.mask = s.hp.mask
      ∧ (arrivalDelivered w s).hp.onBus = s.hp.onBus ∧ (arrivalDelivered w s).hp.waiting = s.hp.waiting
      ∧ (arrivalDelivered w s).hp.pointer = s.hp.pointer ∧ (arrivalDelivered w s).hp.pinAsserted = s.hp.pinAsserted
      ∧ (arrivalDelivered w s).rct.admin = s.rct.admin ∧ (arrivalDelivered w s).rct.completion = s.rct.completion
      ∧ (arrivalDelivered w s).fe = s.fe ∧ (arrivalDelivered w s).cp.txLimit = s.cp.txLimit
      ∧ (arrivalDelivered w s).cp.rxLimit = s.cp.rxLimit ∧ (arrivalDelivered w s).cp.rxHold = s.cp.rxHold
      ∧ (arrivalDelivered w s).sch = s.sch ∧ (arrivalDelivered w s).le = s.le ∧ (arrivalDelivered w s).au = s.au
      ∧ (arrivalDelivered w s).pending = s.pending := by
  simp [arrivalDelivered]

/-- A fault of a ring. -/
@[simp] theorem arrivalFaulted_frame (w : ArrivalWrite) (s : State) :
    (arrivalFaulted w s).hp.engine = s.hp.engine ∧ (arrivalFaulted w s).hp.haltReason = s.hp.haltReason
      ∧ (arrivalFaulted w s).hp.enabled = s.hp.enabled ∧ (arrivalFaulted w s).hp.bootLo = s.hp.bootLo
      ∧ (arrivalFaulted w s).hp.bootHi = s.hp.bootHi ∧ (arrivalFaulted w s).hp.mask = s.hp.mask
      ∧ (arrivalFaulted w s).hp.onBus = s.hp.onBus ∧ (arrivalFaulted w s).hp.waiting = s.hp.waiting
      ∧ (arrivalFaulted w s).hp.pointer = s.hp.pointer ∧ (arrivalFaulted w s).hp.pinAsserted = s.hp.pinAsserted
      ∧ (arrivalFaulted w s).rct.admin = s.rct.admin ∧ (arrivalFaulted w s).rct.completion = s.rct.completion
      ∧ (arrivalFaulted w s).fe = s.fe ∧ (arrivalFaulted w s).cp.txLimit = s.cp.txLimit
      ∧ (arrivalFaulted w s).cp.rxLimit = s.cp.rxLimit ∧ (arrivalFaulted w s).cp.rxHold = s.cp.rxHold
      ∧ (arrivalFaulted w s).sch = s.sch ∧ (arrivalFaulted w s).le = s.le ∧ (arrivalFaulted w s).au = s.au
      ∧ (arrivalFaulted w s).pending = s.pending := by
  simp [arrivalFaulted]

/-- A failed write on a DRAINING ring. -/
@[simp] theorem arrivalLostDraining_frame (w : ArrivalWrite) (s : State) :
    (arrivalLostDraining w s).hp.engine = s.hp.engine ∧ (arrivalLostDraining w s).hp.haltReason = s.hp.haltReason
      ∧ (arrivalLostDraining w s).hp.enabled = s.hp.enabled ∧ (arrivalLostDraining w s).hp.bootLo = s.hp.bootLo
      ∧ (arrivalLostDraining w s).hp.bootHi = s.hp.bootHi ∧ (arrivalLostDraining w s).hp.mask = s.hp.mask
      ∧ (arrivalLostDraining w s).hp.onBus = s.hp.onBus ∧ (arrivalLostDraining w s).hp.waiting = s.hp.waiting
      ∧ (arrivalLostDraining w s).hp.pointer = s.hp.pointer
      ∧ (arrivalLostDraining w s).hp.pinAsserted = s.hp.pinAsserted
      ∧ (arrivalLostDraining w s).rct.admin = s.rct.admin
      ∧ (arrivalLostDraining w s).rct.completion = s.rct.completion ∧ (arrivalLostDraining w s).fe = s.fe
      ∧ (arrivalLostDraining w s).cp.txLimit = s.cp.txLimit ∧ (arrivalLostDraining w s).cp.rxLimit = s.cp.rxLimit
      ∧ (arrivalLostDraining w s).cp.rxHold = s.cp.rxHold ∧ (arrivalLostDraining w s).sch = s.sch
      ∧ (arrivalLostDraining w s).le = s.le ∧ (arrivalLostDraining w s).au = s.au
      ∧ (arrivalLostDraining w s).pending = s.pending := by
  simp [arrivalLostDraining]

/-- An arrival write end. -/
@[simp] theorem takeArrivalEnd_frame (result : WriteEnd) (s : State) :
    (takeArrivalEnd result s).hp.engine = s.hp.engine ∧ (takeArrivalEnd result s).hp.haltReason = s.hp.haltReason
      ∧ (takeArrivalEnd result s).hp.enabled = s.hp.enabled ∧ (takeArrivalEnd result s).hp.bootLo = s.hp.bootLo
      ∧ (takeArrivalEnd result s).hp.bootHi = s.hp.bootHi ∧ (takeArrivalEnd result s).hp.mask = s.hp.mask
      ∧ (takeArrivalEnd result s).hp.onBus = s.hp.onBus ∧ (takeArrivalEnd result s).hp.pointer = s.hp.pointer
      ∧ (takeArrivalEnd result s).hp.pinAsserted = s.hp.pinAsserted
      ∧ (takeArrivalEnd result s).rct.admin = s.rct.admin
      ∧ (takeArrivalEnd result s).rct.completion = s.rct.completion ∧ (takeArrivalEnd result s).fe = s.fe
      ∧ (takeArrivalEnd result s).cp.txLimit = s.cp.txLimit ∧ (takeArrivalEnd result s).cp.rxLimit = s.cp.rxLimit
      ∧ (takeArrivalEnd result s).cp.rxHold = s.cp.rxHold ∧ (takeArrivalEnd result s).sch = s.sch
      ∧ (takeArrivalEnd result s).le = s.le ∧ (takeArrivalEnd result s).au = s.au
      ∧ (takeArrivalEnd result s).pending = s.pending := by
  unfold takeArrivalEnd; (repeat' split) <;> simp

/-- A commit. -/
@[simp] theorem commitToRing_frame (r : ArrivalId) (id : CellId) (s : State) :
    (commitToRing r id s).hp.engine = s.hp.engine ∧ (commitToRing r id s).hp.haltReason = s.hp.haltReason
      ∧ (commitToRing r id s).hp.enabled = s.hp.enabled ∧ (commitToRing r id s).hp.bootLo = s.hp.bootLo
      ∧ (commitToRing r id s).hp.bootHi = s.hp.bootHi ∧ (commitToRing r id s).hp.mask = s.hp.mask
      ∧ (commitToRing r id s).hp.onBus = s.hp.onBus ∧ (commitToRing r id s).hp.pointer = s.hp.pointer
      ∧ (commitToRing r id s).hp.pinAsserted = s.hp.pinAsserted ∧ (commitToRing r id s).rct.admin = s.rct.admin
      ∧ (commitToRing r id s).rct.completion = s.rct.completion ∧ (commitToRing r id s).fe = s.fe
      ∧ (commitToRing r id s).cp.txLimit = s.cp.txLimit ∧ (commitToRing r id s).cp.rxLimit = s.cp.rxLimit
      ∧ (commitToRing r id s).cp.rxHold = s.cp.rxHold ∧ (commitToRing r id s).sch = s.sch
      ∧ (commitToRing r id s).le = s.le ∧ (commitToRing r id s).au = s.au
      ∧ (commitToRing r id s).pending = s.pending := by
  unfold commitToRing; (repeat' split) <;> simp

/-! ## Reception -/

/-- One counter. -/
@[simp] theorem countRxAccepted_frame (s : State) :
    (countRxAccepted s).hp = s.hp ∧ (countRxAccepted s).rct = s.rct ∧ (countRxAccepted s).fe = s.fe
      ∧ (countRxAccepted s).cp = s.cp ∧ (countRxAccepted s).sch = s.sch ∧ (countRxAccepted s).le.mode = s.le.mode
      ∧ (countRxAccepted s).le.phase = s.le.phase ∧ (countRxAccepted s).le.muted = s.le.muted
      ∧ (countRxAccepted s).le.fault = s.le.fault ∧ (countRxAccepted s).le.errorRun = s.le.errorRun
      ∧ (countRxAccepted s).le.slot = s.le.slot ∧ (countRxAccepted s).le.pendingMode = s.le.pendingMode
      ∧ (countRxAccepted s).le.quietRun = s.le.quietRun ∧ (countRxAccepted s).le.frame = s.le.frame
      ∧ (countRxAccepted s).le.snapshot = s.le.snapshot ∧ (countRxAccepted s).le.txd = s.le.txd
      ∧ (countRxAccepted s).au = s.au ∧ (countRxAccepted s).aw = s.aw ∧ (countRxAccepted s).cw = s.cw
      ∧ (countRxAccepted s).ae = s.ae ∧ (countRxAccepted s).pending = s.pending := by
  simp [countRxAccepted, updCounters]

/-- One counter. -/
@[simp] theorem countRxDropped_frame (s : State) :
    (countRxDropped s).hp = s.hp ∧ (countRxDropped s).rct = s.rct ∧ (countRxDropped s).fe = s.fe
      ∧ (countRxDropped s).cp = s.cp ∧ (countRxDropped s).sch = s.sch ∧ (countRxDropped s).le.mode = s.le.mode
      ∧ (countRxDropped s).le.phase = s.le.phase ∧ (countRxDropped s).le.muted = s.le.muted
      ∧ (countRxDropped s).le.fault = s.le.fault ∧ (countRxDropped s).le.errorRun = s.le.errorRun
      ∧ (countRxDropped s).le.slot = s.le.slot ∧ (countRxDropped s).le.pendingMode = s.le.pendingMode
      ∧ (countRxDropped s).le.quietRun = s.le.quietRun ∧ (countRxDropped s).le.frame = s.le.frame
      ∧ (countRxDropped s).le.snapshot = s.le.snapshot ∧ (countRxDropped s).le.txd = s.le.txd
      ∧ (countRxDropped s).au = s.au ∧ (countRxDropped s).aw = s.aw ∧ (countRxDropped s).cw = s.cw
      ∧ (countRxDropped s).ae = s.ae ∧ (countRxDropped s).pending = s.pending := by
  simp [countRxDropped, updCounters]

/-- One counter. -/
@[simp] theorem countBusyAnswered_frame (s : State) :
    (countBusyAnswered s).hp = s.hp ∧ (countBusyAnswered s).rct = s.rct ∧ (countBusyAnswered s).fe = s.fe
      ∧ (countBusyAnswered s).cp = s.cp ∧ (countBusyAnswered s).sch = s.sch
      ∧ (countBusyAnswered s).le.mode = s.le.mode ∧ (countBusyAnswered s).le.phase = s.le.phase
      ∧ (countBusyAnswered s).le.muted = s.le.muted ∧ (countBusyAnswered s).le.fault = s.le.fault
      ∧ (countBusyAnswered s).le.errorRun = s.le.errorRun ∧ (countBusyAnswered s).le.slot = s.le.slot
      ∧ (countBusyAnswered s).le.pendingMode = s.le.pendingMode ∧ (countBusyAnswered s).le.quietRun = s.le.quietRun
      ∧ (countBusyAnswered s).le.frame = s.le.frame ∧ (countBusyAnswered s).le.snapshot = s.le.snapshot
      ∧ (countBusyAnswered s).le.txd = s.le.txd ∧ (countBusyAnswered s).au = s.au ∧ (countBusyAnswered s).aw = s.aw
      ∧ (countBusyAnswered s).cw = s.cw ∧ (countBusyAnswered s).ae = s.ae
      ∧ (countBusyAnswered s).pending = s.pending := by
  simp [countBusyAnswered, updCounters]

/-- One counter. -/
@[simp] theorem countCheckError_frame (s : State) :
    (countCheckError s).hp = s.hp ∧ (countCheckError s).rct = s.rct ∧ (countCheckError s).fe = s.fe
      ∧ (countCheckError s).cp = s.cp ∧ (countCheckError s).sch = s.sch ∧ (countCheckError s).le.mode = s.le.mode
      ∧ (countCheckError s).le.phase = s.le.phase ∧ (countCheckError s).le.muted = s.le.muted
      ∧ (countCheckError s).le.fault = s.le.fault ∧ (countCheckError s).le.errorRun = s.le.errorRun
      ∧ (countCheckError s).le.slot = s.le.slot ∧ (countCheckError s).le.pendingMode = s.le.pendingMode
      ∧ (countCheckError s).le.quietRun = s.le.quietRun ∧ (countCheckError s).le.frame = s.le.frame
      ∧ (countCheckError s).le.snapshot = s.le.snapshot ∧ (countCheckError s).le.txd = s.le.txd
      ∧ (countCheckError s).au = s.au ∧ (countCheckError s).aw = s.aw ∧ (countCheckError s).cw = s.cw
      ∧ (countCheckError s).ae = s.ae ∧ (countCheckError s).pending = s.pending := by
  simp [countCheckError, updCounters]

/-- One counter. -/
@[simp] theorem countFormatError_frame (s : State) :
    (countFormatError s).hp = s.hp ∧ (countFormatError s).rct = s.rct ∧ (countFormatError s).fe = s.fe
      ∧ (countFormatError s).cp = s.cp ∧ (countFormatError s).sch = s.sch ∧ (countFormatError s).le.mode = s.le.mode
      ∧ (countFormatError s).le.phase = s.le.phase ∧ (countFormatError s).le.muted = s.le.muted
      ∧ (countFormatError s).le.fault = s.le.fault ∧ (countFormatError s).le.errorRun = s.le.errorRun
      ∧ (countFormatError s).le.slot = s.le.slot ∧ (countFormatError s).le.pendingMode = s.le.pendingMode
      ∧ (countFormatError s).le.quietRun = s.le.quietRun ∧ (countFormatError s).le.frame = s.le.frame
      ∧ (countFormatError s).le.snapshot = s.le.snapshot ∧ (countFormatError s).le.txd = s.le.txd
      ∧ (countFormatError s).au = s.au ∧ (countFormatError s).aw = s.aw ∧ (countFormatError s).cw = s.cw
      ∧ (countFormatError s).ae = s.ae ∧ (countFormatError s).pending = s.pending := by
  simp [countFormatError, updCounters]

/-- The reception record. -/
@[simp] theorem beginReception_frame (r : Reception) (s : State) :
    (beginReception r s).hp = s.hp ∧ (beginReception r s).rct = s.rct ∧ (beginReception r s).fe = s.fe
      ∧ (beginReception r s).cp = s.cp ∧ (beginReception r s).sch = s.sch ∧ (beginReception r s).le.mode = s.le.mode
      ∧ (beginReception r s).le.phase = s.le.phase ∧ (beginReception r s).le.muted = s.le.muted
      ∧ (beginReception r s).le.fault = s.le.fault ∧ (beginReception r s).le.errorRun = s.le.errorRun
      ∧ (beginReception r s).le.slot = s.le.slot ∧ (beginReception r s).le.pendingMode = s.le.pendingMode
      ∧ (beginReception r s).le.quietRun = s.le.quietRun ∧ (beginReception r s).le.counters = s.le.counters
      ∧ (beginReception r s).le.snapshot = s.le.snapshot ∧ (beginReception r s).le.txd = s.le.txd
      ∧ (beginReception r s).aw = s.aw ∧ (beginReception r s).cw = s.cw ∧ (beginReception r s).ae = s.ae
      ∧ (beginReception r s).pending = s.pending := by
  simp [beginReception]

/-- A hit. -/
@[simp] theorem countHit_frame (i : Fin 32) (s : State) :
    (countHit i s).hp = s.hp ∧ (countHit i s).rct = s.rct ∧ (countHit i s).fe = s.fe ∧ (countHit i s).cp = s.cp
      ∧ (countHit i s).sch = s.sch ∧ (countHit i s).le = s.le ∧ (countHit i s).aw = s.aw ∧ (countHit i s).cw = s.cw
      ∧ (countHit i s).ae = s.ae ∧ (countHit i s).pending = s.pending := by
  simp [countHit]

/-- An effective ACCEPT. -/
@[simp] theorem acceptFrame_frame (i : Fin 32) (e : Entry) (h : FrameHead) (solicited : Bool) (s : State) :
    (acceptFrame i e h solicited s).hp.engine = s.hp.engine
      ∧ (acceptFrame i e h solicited s).hp.haltReason = s.hp.haltReason
      ∧ (acceptFrame i e h solicited s).hp.enabled = s.hp.enabled
      ∧ (acceptFrame i e h solicited s).hp.bootLo = s.hp.bootLo
      ∧ (acceptFrame i e h solicited s).hp.bootHi = s.hp.bootHi
      ∧ (acceptFrame i e h solicited s).hp.mask = s.hp.mask ∧ (acceptFrame i e h solicited s).hp.onBus = s.hp.onBus
      ∧ (acceptFrame i e h solicited s).hp.waiting = s.hp.waiting
      ∧ (acceptFrame i e h solicited s).hp.pointer = s.hp.pointer
      ∧ (acceptFrame i e h solicited s).hp.pinAsserted = s.hp.pinAsserted
      ∧ (acceptFrame i e h solicited s).rct.admin = s.rct.admin
      ∧ (acceptFrame i e h solicited s).rct.send = s.rct.send
      ∧ (acceptFrame i e h solicited s).rct.completion = s.rct.completion
      ∧ (acceptFrame i e h solicited s).fe = s.fe ∧ (acceptFrame i e h solicited s).cp.txLimit = s.cp.txLimit
      ∧ (acceptFrame i e h solicited s).cp.rxLimit = s.cp.rxLimit
      ∧ (acceptFrame i e h solicited s).cp.rxHold = s.cp.rxHold ∧ (acceptFrame i e h solicited s).sch = s.sch
      ∧ (acceptFrame i e h solicited s).le.mode = s.le.mode ∧ (acceptFrame i e h solicited s).le.phase = s.le.phase
      ∧ (acceptFrame i e h solicited s).le.muted = s.le.muted
      ∧ (acceptFrame i e h solicited s).le.fault = s.le.fault
      ∧ (acceptFrame i e h solicited s).le.errorRun = s.le.errorRun
      ∧ (acceptFrame i e h solicited s).le.slot = s.le.slot
      ∧ (acceptFrame i e h solicited s).le.pendingMode = s.le.pendingMode
      ∧ (acceptFrame i e h solicited s).le.quietRun = s.le.quietRun
      ∧ (acceptFrame i e h solicited s).le.snapshot = s.le.snapshot
      ∧ (acceptFrame i e h solicited s).le.txd = s.le.txd ∧ (acceptFrame i e h solicited s).aw = s.aw
      ∧ (acceptFrame i e h solicited s).cw = s.cw ∧ (acceptFrame i e h solicited s).ae = s.ae
      ∧ (acceptFrame i e h solicited s).pending = s.pending := by
  simp only [acceptFrame]; (repeat' split) <;> simp

/-- An effective REFUSE. -/
@[simp] theorem refuseFrame_frame (i : Fin 32) (e : Entry) (h : FrameHead) (solicited : Bool) (s : State) :
    (refuseFrame i e h solicited s).hp = s.hp ∧ (refuseFrame i e h solicited s).rct = s.rct
      ∧ (refuseFrame i e h solicited s).fe = s.fe ∧ (refuseFrame i e h solicited s).cp = s.cp
      ∧ (refuseFrame i e h solicited s).sch = s.sch ∧ (refuseFrame i e h solicited s).le.mode = s.le.mode
      ∧ (refuseFrame i e h solicited s).le.phase = s.le.phase
      ∧ (refuseFrame i e h solicited s).le.muted = s.le.muted
      ∧ (refuseFrame i e h solicited s).le.fault = s.le.fault
      ∧ (refuseFrame i e h solicited s).le.errorRun = s.le.errorRun
      ∧ (refuseFrame i e h solicited s).le.slot = s.le.slot
      ∧ (refuseFrame i e h solicited s).le.pendingMode = s.le.pendingMode
      ∧ (refuseFrame i e h solicited s).le.quietRun = s.le.quietRun
      ∧ (refuseFrame i e h solicited s).le.counters = s.le.counters
      ∧ (refuseFrame i e h solicited s).le.snapshot = s.le.snapshot
      ∧ (refuseFrame i e h solicited s).le.txd = s.le.txd ∧ (refuseFrame i e h solicited s).aw = s.aw
      ∧ (refuseFrame i e h solicited s).cw = s.cw ∧ (refuseFrame i e h solicited s).ae = s.ae
      ∧ (refuseFrame i e h solicited s).pending = s.pending := by
  simp [refuseFrame]

/-- A decision. -/
@[simp] theorem decideFrame_frame (i : Fin 32) (h : FrameHead) (allowed : Bool) (s : State) :
    (decideFrame i h allowed s).hp.engine = s.hp.engine
      ∧ (decideFrame i h allowed s).hp.haltReason = s.hp.haltReason
      ∧ (decideFrame i h allowed s).hp.enabled = s.hp.enabled ∧ (decideFrame i h allowed s).hp.bootLo = s.hp.bootLo
      ∧ (decideFrame i h allowed s).hp.bootHi = s.hp.bootHi ∧ (decideFrame i h allowed s).hp.mask = s.hp.mask
      ∧ (decideFrame i h allowed s).hp.onBus = s.hp.onBus ∧ (decideFrame i h allowed s).hp.waiting = s.hp.waiting
      ∧ (decideFrame i h allowed s).hp.pointer = s.hp.pointer
      ∧ (decideFrame i h allowed s).hp.pinAsserted = s.hp.pinAsserted
      ∧ (decideFrame i h allowed s).rct.admin = s.rct.admin ∧ (decideFrame i h allowed s).rct.send = s.rct.send
      ∧ (decideFrame i h allowed s).rct.completion = s.rct.completion ∧ (decideFrame i h allowed s).fe = s.fe
      ∧ (decideFrame i h allowed s).cp.txLimit = s.cp.txLimit
      ∧ (decideFrame i h allowed s).cp.rxLimit = s.cp.rxLimit ∧ (decideFrame i h allowed s).cp.rxHold = s.cp.rxHold
      ∧ (decideFrame i h allowed s).sch = s.sch ∧ (decideFrame i h allowed s).le.mode = s.le.mode
      ∧ (decideFrame i h allowed s).le.phase = s.le.phase ∧ (decideFrame i h allowed s).le.muted = s.le.muted
      ∧ (decideFrame i h allowed s).le.fault = s.le.fault ∧ (decideFrame i h allowed s).le.errorRun = s.le.errorRun
      ∧ (decideFrame i h allowed s).le.slot = s.le.slot
      ∧ (decideFrame i h allowed s).le.pendingMode = s.le.pendingMode
      ∧ (decideFrame i h allowed s).le.quietRun = s.le.quietRun
      ∧ (decideFrame i h allowed s).le.snapshot = s.le.snapshot ∧ (decideFrame i h allowed s).le.txd = s.le.txd
      ∧ (decideFrame i h allowed s).aw = s.aw ∧ (decideFrame i h allowed s).cw = s.cw
      ∧ (decideFrame i h allowed s).ae = s.ae ∧ (decideFrame i h allowed s).pending = s.pending := by
  simp only [decideFrame]; (repeat' split) <;> simp

/-- The header-end call. -/
@[simp] theorem headerCall_frame (h : FrameHead) (own allowed : Bool) (s : State) :
    (headerCall h own allowed s).hp.engine = s.hp.engine
      ∧ (headerCall h own allowed s).hp.haltReason = s.hp.haltReason
      ∧ (headerCall h own allowed s).hp.enabled = s.hp.enabled
      ∧ (headerCall h own allowed s).hp.bootLo = s.hp.bootLo ∧ (headerCall h own allowed s).hp.bootHi = s.hp.bootHi
      ∧ (headerCall h own allowed s).hp.mask = s.hp.mask ∧ (headerCall h own allowed s).hp.onBus = s.hp.onBus
      ∧ (headerCall h own allowed s).hp.waiting = s.hp.waiting
      ∧ (headerCall h own allowed s).hp.pointer = s.hp.pointer
      ∧ (headerCall h own allowed s).hp.pinAsserted = s.hp.pinAsserted
      ∧ (headerCall h own allowed s).rct.admin = s.rct.admin ∧ (headerCall h own allowed s).rct.send = s.rct.send
      ∧ (headerCall h own allowed s).rct.completion = s.rct.completion ∧ (headerCall h own allowed s).fe = s.fe
      ∧ (headerCall h own allowed s).cp.txLimit = s.cp.txLimit
      ∧ (headerCall h own allowed s).cp.rxLimit = s.cp.rxLimit
      ∧ (headerCall h own allowed s).cp.rxHold = s.cp.rxHold ∧ (headerCall h own allowed s).sch = s.sch
      ∧ (headerCall h own allowed s).le.mode = s.le.mode ∧ (headerCall h own allowed s).le.phase = s.le.phase
      ∧ (headerCall h own allowed s).le.muted = s.le.muted ∧ (headerCall h own allowed s).le.fault = s.le.fault
      ∧ (headerCall h own allowed s).le.errorRun = s.le.errorRun ∧ (headerCall h own allowed s).le.slot = s.le.slot
      ∧ (headerCall h own allowed s).le.pendingMode = s.le.pendingMode
      ∧ (headerCall h own allowed s).le.quietRun = s.le.quietRun
      ∧ (headerCall h own allowed s).le.snapshot = s.le.snapshot ∧ (headerCall h own allowed s).le.txd = s.le.txd
      ∧ (headerCall h own allowed s).aw = s.aw ∧ (headerCall h own allowed s).cw = s.cw
      ∧ (headerCall h own allowed s).ae = s.ae ∧ (headerCall h own allowed s).pending = s.pending := by
  unfold headerCall; (repeat' split) <;> simp

/-- A reception after its check. -/
@[simp] theorem settleReception_frame (check : Bool) (answer : Option Answer) (r : Reception) (s : State) :
    (settleReception check answer r s).hp = s.hp ∧ (settleReception check answer r s).rct = s.rct
      ∧ (settleReception check answer r s).fe = s.fe ∧ (settleReception check answer r s).cp = s.cp
      ∧ (settleReception check answer r s).sch = s.sch ∧ (settleReception check answer r s).le.mode = s.le.mode
      ∧ (settleReception check answer r s).le.phase = s.le.phase
      ∧ (settleReception check answer r s).le.muted = s.le.muted
      ∧ (settleReception check answer r s).le.fault = s.le.fault
      ∧ (settleReception check answer r s).le.errorRun = s.le.errorRun
      ∧ (settleReception check answer r s).le.slot = s.le.slot
      ∧ (settleReception check answer r s).le.pendingMode = s.le.pendingMode
      ∧ (settleReception check answer r s).le.quietRun = s.le.quietRun
      ∧ (settleReception check answer r s).le.counters = s.le.counters
      ∧ (settleReception check answer r s).le.snapshot = s.le.snapshot
      ∧ (settleReception check answer r s).le.txd = s.le.txd ∧ (settleReception check answer r s).aw = s.aw
      ∧ (settleReception check answer r s).cw = s.cw ∧ (settleReception check answer r s).ae = s.ae
      ∧ (settleReception check answer r s).pending = s.pending := by
  simp [settleReception]

/-- A commit. -/
@[simp] theorem commitReception_frame (r : Reception) (id : CellId) (payload : List Byte) (s : State) :
    (commitReception r id payload s).hp.engine = s.hp.engine
      ∧ (commitReception r id payload s).hp.haltReason = s.hp.haltReason
      ∧ (commitReception r id payload s).hp.enabled = s.hp.enabled
      ∧ (commitReception r id payload s).hp.bootLo = s.hp.bootLo
      ∧ (commitReception r id payload s).hp.bootHi = s.hp.bootHi
      ∧ (commitReception r id payload s).hp.mask = s.hp.mask
      ∧ (commitReception r id payload s).hp.onBus = s.hp.onBus
      ∧ (commitReception r id payload s).hp.pointer = s.hp.pointer
      ∧ (commitReception r id payload s).hp.pinAsserted = s.hp.pinAsserted
      ∧ (commitReception r id payload s).rct.admin = s.rct.admin
      ∧ (commitReception r id payload s).rct.completion = s.rct.completion
      ∧ (commitReception r id payload s).fe = s.fe ∧ (commitReception r id payload s).cp.txLimit = s.cp.txLimit
      ∧ (commitReception r id payload s).cp.rxLimit = s.cp.rxLimit
      ∧ (commitReception r id payload s).cp.rxHold = s.cp.rxHold ∧ (commitReception r id payload s).sch = s.sch
      ∧ (commitReception r id payload s).le.mode = s.le.mode
      ∧ (commitReception r id payload s).le.phase = s.le.phase
      ∧ (commitReception r id payload s).le.muted = s.le.muted
      ∧ (commitReception r id payload s).le.fault = s.le.fault
      ∧ (commitReception r id payload s).le.errorRun = s.le.errorRun
      ∧ (commitReception r id payload s).le.slot = s.le.slot
      ∧ (commitReception r id payload s).le.pendingMode = s.le.pendingMode
      ∧ (commitReception r id payload s).le.quietRun = s.le.quietRun
      ∧ (commitReception r id payload s).le.snapshot = s.le.snapshot
      ∧ (commitReception r id payload s).le.txd = s.le.txd ∧ (commitReception r id payload s).pending = s.pending := by
  unfold commitReception; (repeat' split) <;> simp

/-- A confirmed answer. -/
@[simp] theorem confirmAnswer_frame (r : Reception) (s : State) :
    (confirmAnswer r s).hp = s.hp ∧ (confirmAnswer r s).rct = s.rct ∧ (confirmAnswer r s).fe = s.fe
      ∧ (confirmAnswer r s).cp = s.cp ∧ (confirmAnswer r s).sch = s.sch ∧ (confirmAnswer r s).le.mode = s.le.mode
      ∧ (confirmAnswer r s).le.phase = s.le.phase ∧ (confirmAnswer r s).le.muted = s.le.muted
      ∧ (confirmAnswer r s).le.fault = s.le.fault ∧ (confirmAnswer r s).le.errorRun = s.le.errorRun
      ∧ (confirmAnswer r s).le.slot = s.le.slot ∧ (confirmAnswer r s).le.pendingMode = s.le.pendingMode
      ∧ (confirmAnswer r s).le.quietRun = s.le.quietRun ∧ (confirmAnswer r s).le.snapshot = s.le.snapshot
      ∧ (confirmAnswer r s).le.txd = s.le.txd ∧ (confirmAnswer r s).aw = s.aw ∧ (confirmAnswer r s).cw = s.cw
      ∧ (confirmAnswer r s).ae = s.ae ∧ (confirmAnswer r s).pending = s.pending := by
  simp only [confirmAnswer]; (repeat' split) <;> simp

/-- A reception's cell freed. -/
@[simp] theorem dropReceptionCell_frame (id : CellId) (s : State) :
    (dropReceptionCell id s).hp.engine = s.hp.engine ∧ (dropReceptionCell id s).hp.haltReason = s.hp.haltReason
      ∧ (dropReceptionCell id s).hp.enabled = s.hp.enabled ∧ (dropReceptionCell id s).hp.bootLo = s.hp.bootLo
      ∧ (dropReceptionCell id s).hp.bootHi = s.hp.bootHi ∧ (dropReceptionCell id s).hp.mask = s.hp.mask
      ∧ (dropReceptionCell id s).hp.onBus = s.hp.onBus ∧ (dropReceptionCell id s).hp.waiting = s.hp.waiting
      ∧ (dropReceptionCell id s).hp.pointer = s.hp.pointer
      ∧ (dropReceptionCell id s).hp.pinAsserted = s.hp.pinAsserted
      ∧ (dropReceptionCell id s).rct.admin = s.rct.admin
      ∧ (dropReceptionCell id s).rct.completion = s.rct.completion ∧ (dropReceptionCell id s).fe = s.fe
      ∧ (dropReceptionCell id s).cp.txLimit = s.cp.txLimit ∧ (dropReceptionCell id s).cp.rxLimit = s.cp.rxLimit
      ∧ (dropReceptionCell id s).cp.rxHold = s.cp.rxHold ∧ (dropReceptionCell id s).sch = s.sch
      ∧ (dropReceptionCell id s).le = s.le ∧ (dropReceptionCell id s).au = s.au ∧ (dropReceptionCell id s).aw = s.aw
      ∧ (dropReceptionCell id s).pending = s.pending := by
  unfold dropReceptionCell; (repeat' split) <;> simp

/-- A bad check. -/
@[simp] theorem cancelReception_frame (r : Reception) (s : State) :
    (cancelReception r s).hp.engine = s.hp.engine ∧ (cancelReception r s).hp.haltReason = s.hp.haltReason
      ∧ (cancelReception r s).hp.enabled = s.hp.enabled ∧ (cancelReception r s).hp.bootLo = s.hp.bootLo
      ∧ (cancelReception r s).hp.bootHi = s.hp.bootHi ∧ (cancelReception r s).hp.mask = s.hp.mask
      ∧ (cancelReception r s).hp.onBus = s.hp.onBus ∧ (cancelReception r s).hp.waiting = s.hp.waiting
      ∧ (cancelReception r s).hp.pointer = s.hp.pointer ∧ (cancelReception r s).hp.pinAsserted = s.hp.pinAsserted
      ∧ (cancelReception r s).rct.admin = s.rct.admin ∧ (cancelReception r s).rct.completion = s.rct.completion
      ∧ (cancelReception r s).fe = s.fe ∧ (cancelReception r s).cp.txLimit = s.cp.txLimit
      ∧ (cancelReception r s).cp.rxLimit = s.cp.rxLimit ∧ (cancelReception r s).cp.rxHold = s.cp.rxHold
      ∧ (cancelReception r s).sch = s.sch ∧ (cancelReception r s).le.mode = s.le.mode
      ∧ (cancelReception r s).le.phase = s.le.phase ∧ (cancelReception r s).le.muted = s.le.muted
      ∧ (cancelReception r s).le.fault = s.le.fault ∧ (cancelReception r s).le.errorRun = s.le.errorRun
      ∧ (cancelReception r s).le.slot = s.le.slot ∧ (cancelReception r s).le.pendingMode = s.le.pendingMode
      ∧ (cancelReception r s).le.quietRun = s.le.quietRun ∧ (cancelReception r s).le.snapshot = s.le.snapshot
      ∧ (cancelReception r s).le.txd = s.le.txd ∧ (cancelReception r s).aw = s.aw
      ∧ (cancelReception r s).pending = s.pending := by
  unfold cancelReception; (repeat' split) <;> simp

/-- The check-end report. -/
@[simp] theorem checkCall_frame (good : Bool) (payload : List Byte) (s : State) :
    (checkCall good payload s).hp.engine = s.hp.engine ∧ (checkCall good payload s).hp.haltReason = s.hp.haltReason
      ∧ (checkCall good payload s).hp.enabled = s.hp.enabled ∧ (checkCall good payload s).hp.bootLo = s.hp.bootLo
      ∧ (checkCall good payload s).hp.bootHi = s.hp.bootHi ∧ (checkCall good payload s).hp.mask = s.hp.mask
      ∧ (checkCall good payload s).hp.onBus = s.hp.onBus ∧ (checkCall good payload s).hp.pointer = s.hp.pointer
      ∧ (checkCall good payload s).hp.pinAsserted = s.hp.pinAsserted
      ∧ (checkCall good payload s).rct.admin = s.rct.admin
      ∧ (checkCall good payload s).rct.completion = s.rct.completion ∧ (checkCall good payload s).fe = s.fe
      ∧ (checkCall good payload s).cp.txLimit = s.cp.txLimit ∧ (checkCall good payload s).cp.rxLimit = s.cp.rxLimit
      ∧ (checkCall good payload s).cp.rxHold = s.cp.rxHold ∧ (checkCall good payload s).sch = s.sch
      ∧ (checkCall good payload s).le.mode = s.le.mode ∧ (checkCall good payload s).le.phase = s.le.phase
      ∧ (checkCall good payload s).le.muted = s.le.muted ∧ (checkCall good payload s).le.fault = s.le.fault
      ∧ (checkCall good payload s).le.errorRun = s.le.errorRun ∧ (checkCall good payload s).le.slot = s.le.slot
      ∧ (checkCall good payload s).le.pendingMode = s.le.pendingMode
      ∧ (checkCall good payload s).le.quietRun = s.le.quietRun
      ∧ (checkCall good payload s).le.snapshot = s.le.snapshot ∧ (checkCall good payload s).le.txd = s.le.txd
      ∧ (checkCall good payload s).pending = s.pending := by
  unfold checkCall; (repeat' split) <;> simp

/-- The reception cleared. -/
@[simp] theorem clearReception_frame (s : State) :
    (clearReception s).hp = s.hp ∧ (clearReception s).rct = s.rct ∧ (clearReception s).fe = s.fe
      ∧ (clearReception s).cp = s.cp ∧ (clearReception s).sch = s.sch ∧ (clearReception s).le = s.le
      ∧ (clearReception s).aw = s.aw ∧ (clearReception s).cw = s.cw ∧ (clearReception s).ae = s.ae
      ∧ (clearReception s).pending = s.pending := by
  simp [clearReception]

/-- The abandonment report. -/
@[simp] theorem abandonReception_frame (s : State) :
    (abandonReception s).hp.engine = s.hp.engine ∧ (abandonReception s).hp.haltReason = s.hp.haltReason
      ∧ (abandonReception s).hp.enabled = s.hp.enabled ∧ (abandonReception s).hp.bootLo = s.hp.bootLo
      ∧ (abandonReception s).hp.bootHi = s.hp.bootHi ∧ (abandonReception s).hp.mask = s.hp.mask
      ∧ (abandonReception s).hp.onBus = s.hp.onBus ∧ (abandonReception s).hp.waiting = s.hp.waiting
      ∧ (abandonReception s).hp.pointer = s.hp.pointer ∧ (abandonReception s).hp.pinAsserted = s.hp.pinAsserted
      ∧ (abandonReception s).rct.admin = s.rct.admin ∧ (abandonReception s).rct.completion = s.rct.completion
      ∧ (abandonReception s).fe = s.fe ∧ (abandonReception s).cp.txLimit = s.cp.txLimit
      ∧ (abandonReception s).cp.rxLimit = s.cp.rxLimit ∧ (abandonReception s).cp.rxHold = s.cp.rxHold
      ∧ (abandonReception s).sch = s.sch ∧ (abandonReception s).le.mode = s.le.mode
      ∧ (abandonReception s).le.phase = s.le.phase ∧ (abandonReception s).le.muted = s.le.muted
      ∧ (abandonReception s).le.fault = s.le.fault ∧ (abandonReception s).le.errorRun = s.le.errorRun
      ∧ (abandonReception s).le.slot = s.le.slot ∧ (abandonReception s).le.pendingMode = s.le.pendingMode
      ∧ (abandonReception s).le.quietRun = s.le.quietRun ∧ (abandonReception s).le.frame = s.le.frame
      ∧ (abandonReception s).le.snapshot = s.le.snapshot ∧ (abandonReception s).le.txd = s.le.txd
      ∧ (abandonReception s).aw = s.aw ∧ (abandonReception s).pending = s.pending := by
  unfold abandonReception; (repeat' split) <;> simp

/-! ## The line engine -/

/-- A phase. -/
@[simp] theorem setPhase_frame (p : Phase) (s : State) :
    (setPhase p s).hp = s.hp ∧ (setPhase p s).rct = s.rct ∧ (setPhase p s).fe = s.fe ∧ (setPhase p s).cp = s.cp
      ∧ (setPhase p s).sch = s.sch ∧ (setPhase p s).le.mode = s.le.mode ∧ (setPhase p s).le.muted = s.le.muted
      ∧ (setPhase p s).le.fault = s.le.fault ∧ (setPhase p s).le.errorRun = s.le.errorRun
      ∧ (setPhase p s).le.slot = s.le.slot ∧ (setPhase p s).le.pendingMode = s.le.pendingMode
      ∧ (setPhase p s).le.quietRun = s.le.quietRun ∧ (setPhase p s).le.frame = s.le.frame
      ∧ (setPhase p s).le.counters = s.le.counters ∧ (setPhase p s).le.snapshot = s.le.snapshot
      ∧ (setPhase p s).le.txd = s.le.txd ∧ (setPhase p s).au = s.au ∧ (setPhase p s).aw = s.aw
      ∧ (setPhase p s).cw = s.cw ∧ (setPhase p s).ae = s.ae ∧ (setPhase p s).pending = s.pending := by
  simp [setPhase]

/-- A quiet run. -/
@[simp] theorem measureQuiet_frame (cycles : Nat) (s : State) :
    (measureQuiet cycles s).hp = s.hp ∧ (measureQuiet cycles s).rct = s.rct ∧ (measureQuiet cycles s).fe = s.fe
      ∧ (measureQuiet cycles s).cp = s.cp ∧ (measureQuiet cycles s).sch = s.sch
      ∧ (measureQuiet cycles s).le.mode = s.le.mode ∧ (measureQuiet cycles s).le.phase = s.le.phase
      ∧ (measureQuiet cycles s).le.muted = s.le.muted ∧ (measureQuiet cycles s).le.fault = s.le.fault
      ∧ (measureQuiet cycles s).le.errorRun = s.le.errorRun ∧ (measureQuiet cycles s).le.slot = s.le.slot
      ∧ (measureQuiet cycles s).le.pendingMode = s.le.pendingMode ∧ (measureQuiet cycles s).le.frame = s.le.frame
      ∧ (measureQuiet cycles s).le.counters = s.le.counters ∧ (measureQuiet cycles s).le.snapshot = s.le.snapshot
      ∧ (measureQuiet cycles s).le.txd = s.le.txd ∧ (measureQuiet cycles s).au = s.au
      ∧ (measureQuiet cycles s).aw = s.aw ∧ (measureQuiet cycles s).cw = s.cw ∧ (measureQuiet cycles s).ae = s.ae
      ∧ (measureQuiet cycles s).pending = s.pending := by
  simp [measureQuiet]

/-- The fault flag cleared. -/
@[simp] theorem clearFault_frame (s : State) :
    (clearFault s).hp.engine = s.hp.engine ∧ (clearFault s).hp.haltReason = s.hp.haltReason
      ∧ (clearFault s).hp.enabled = s.hp.enabled ∧ (clearFault s).hp.bootLo = s.hp.bootLo
      ∧ (clearFault s).hp.bootHi = s.hp.bootHi ∧ (clearFault s).hp.mask = s.hp.mask
      ∧ (clearFault s).hp.onBus = s.hp.onBus ∧ (clearFault s).hp.waiting = s.hp.waiting
      ∧ (clearFault s).hp.pointer = s.hp.pointer ∧ (clearFault s).hp.pinAsserted = s.hp.pinAsserted
      ∧ (clearFault s).rct = s.rct ∧ (clearFault s).fe = s.fe ∧ (clearFault s).cp = s.cp
      ∧ (clearFault s).sch = s.sch ∧ (clearFault s).le.mode = s.le.mode ∧ (clearFault s).le.phase = s.le.phase
      ∧ (clearFault s).le.muted = s.le.muted ∧ (clearFault s).le.errorRun = s.le.errorRun
      ∧ (clearFault s).le.slot = s.le.slot ∧ (clearFault s).le.pendingMode = s.le.pendingMode
      ∧ (clearFault s).le.quietRun = s.le.quietRun ∧ (clearFault s).le.frame = s.le.frame
      ∧ (clearFault s).le.counters = s.le.counters ∧ (clearFault s).le.snapshot = s.le.snapshot
      ∧ (clearFault s).le.txd = s.le.txd ∧ (clearFault s).au = s.au ∧ (clearFault s).aw = s.aw
      ∧ (clearFault s).cw = s.cw ∧ (clearFault s).ae = s.ae ∧ (clearFault s).pending = s.pending := by
  unfold clearFault; (repeat' split) <;> simp

/-- OFF. -/
@[simp] theorem goOff_frame (s : State) :
    (goOff s).hp.engine = s.hp.engine ∧ (goOff s).hp.haltReason = s.hp.haltReason
      ∧ (goOff s).hp.enabled = s.hp.enabled ∧ (goOff s).hp.bootLo = s.hp.bootLo ∧ (goOff s).hp.bootHi = s.hp.bootHi
      ∧ (goOff s).hp.mask = s.hp.mask ∧ (goOff s).hp.onBus = s.hp.onBus ∧ (goOff s).hp.waiting = s.hp.waiting
      ∧ (goOff s).hp.pointer = s.hp.pointer ∧ (goOff s).hp.pinAsserted = s.hp.pinAsserted ∧ (goOff s).rct = s.rct
      ∧ (goOff s).fe = s.fe ∧ (goOff s).cp = s.cp ∧ (goOff s).sch = s.sch ∧ (goOff s).le.mode = s.le.mode
      ∧ (goOff s).le.muted = s.le.muted ∧ (goOff s).le.errorRun = s.le.errorRun ∧ (goOff s).le.slot = s.le.slot
      ∧ (goOff s).le.pendingMode = s.le.pendingMode ∧ (goOff s).le.quietRun = s.le.quietRun
      ∧ (goOff s).le.counters = s.le.counters ∧ (goOff s).le.snapshot = s.le.snapshot ∧ (goOff s).au = s.au
      ∧ (goOff s).aw = s.aw ∧ (goOff s).cw = s.cw ∧ (goOff s).ae = s.ae ∧ (goOff s).pending = s.pending := by
  simp [goOff]

/-- A join. -/
@[simp] theorem joinIfQuiet_frame (s : State) :
    (joinIfQuiet s).hp.engine = s.hp.engine ∧ (joinIfQuiet s).hp.haltReason = s.hp.haltReason
      ∧ (joinIfQuiet s).hp.enabled = s.hp.enabled ∧ (joinIfQuiet s).hp.bootLo = s.hp.bootLo
      ∧ (joinIfQuiet s).hp.bootHi = s.hp.bootHi ∧ (joinIfQuiet s).hp.mask = s.hp.mask
      ∧ (joinIfQuiet s).hp.onBus = s.hp.onBus ∧ (joinIfQuiet s).hp.waiting = s.hp.waiting
      ∧ (joinIfQuiet s).hp.pointer = s.hp.pointer ∧ (joinIfQuiet s).hp.pinAsserted = s.hp.pinAsserted
      ∧ (joinIfQuiet s).rct = s.rct ∧ (joinIfQuiet s).fe = s.fe ∧ (joinIfQuiet s).cp = s.cp
      ∧ (joinIfQuiet s).sch = s.sch ∧ (joinIfQuiet s).le.mode = s.le.mode ∧ (joinIfQuiet s).le.muted = s.le.muted
      ∧ (joinIfQuiet s).le.fault = s.le.fault ∧ (joinIfQuiet s).le.errorRun = s.le.errorRun
      ∧ (joinIfQuiet s).le.slot = s.le.slot ∧ (joinIfQuiet s).le.pendingMode = s.le.pendingMode
      ∧ (joinIfQuiet s).le.quietRun = s.le.quietRun ∧ (joinIfQuiet s).le.frame = s.le.frame
      ∧ (joinIfQuiet s).le.counters = s.le.counters ∧ (joinIfQuiet s).le.snapshot = s.le.snapshot
      ∧ (joinIfQuiet s).le.txd = s.le.txd ∧ (joinIfQuiet s).au = s.au ∧ (joinIfQuiet s).aw = s.aw
      ∧ (joinIfQuiet s).cw = s.cw ∧ (joinIfQuiet s).ae = s.ae ∧ (joinIfQuiet s).pending = s.pending := by
  unfold joinIfQuiet; (repeat' split) <;> simp

/-- The effect of a mode. -/
@[simp] theorem applyMode_frame (old new : LineMode) (s : State) :
    (applyMode old new s).hp.engine = s.hp.engine ∧ (applyMode old new s).hp.haltReason = s.hp.haltReason
      ∧ (applyMode old new s).hp.enabled = s.hp.enabled ∧ (applyMode old new s).hp.bootLo = s.hp.bootLo
      ∧ (applyMode old new s).hp.bootHi = s.hp.bootHi ∧ (applyMode old new s).hp.mask = s.hp.mask
      ∧ (applyMode old new s).hp.onBus = s.hp.onBus ∧ (applyMode old new s).hp.waiting = s.hp.waiting
      ∧ (applyMode old new s).hp.pointer = s.hp.pointer ∧ (applyMode old new s).hp.pinAsserted = s.hp.pinAsserted
      ∧ (applyMode old new s).rct = s.rct ∧ (applyMode old new s).fe = s.fe ∧ (applyMode old new s).cp = s.cp
      ∧ (applyMode old new s).sch = s.sch ∧ (applyMode old new s).le.mode = s.le.mode
      ∧ (applyMode old new s).le.muted = s.le.muted ∧ (applyMode old new s).le.errorRun = s.le.errorRun
      ∧ (applyMode old new s).le.slot = s.le.slot ∧ (applyMode old new s).le.pendingMode = s.le.pendingMode
      ∧ (applyMode old new s).le.counters = s.le.counters ∧ (applyMode old new s).le.snapshot = s.le.snapshot
      ∧ (applyMode old new s).au = s.au ∧ (applyMode old new s).aw = s.aw ∧ (applyMode old new s).cw = s.cw
      ∧ (applyMode old new s).ae = s.ae ∧ (applyMode old new s).pending = s.pending := by
  unfold applyMode; (repeat' split) <;> simp

/-- A mode taken. -/
@[simp] theorem takeMode_frame (m : LineMode) (s : State) :
    (takeMode m s).hp.engine = s.hp.engine ∧ (takeMode m s).hp.haltReason = s.hp.haltReason
      ∧ (takeMode m s).hp.enabled = s.hp.enabled ∧ (takeMode m s).hp.bootLo = s.hp.bootLo
      ∧ (takeMode m s).hp.bootHi = s.hp.bootHi ∧ (takeMode m s).hp.mask = s.hp.mask
      ∧ (takeMode m s).hp.onBus = s.hp.onBus ∧ (takeMode m s).hp.waiting = s.hp.waiting
      ∧ (takeMode m s).hp.pointer = s.hp.pointer ∧ (takeMode m s).hp.pinAsserted = s.hp.pinAsserted
      ∧ (takeMode m s).rct = s.rct ∧ (takeMode m s).fe = s.fe ∧ (takeMode m s).cp.txInUse = s.cp.txInUse
      ∧ (takeMode m s).cp.lowInUse = s.cp.lowInUse ∧ (takeMode m s).cp.rxInUse = s.cp.rxInUse
      ∧ (takeMode m s).cp.txLimit = s.cp.txLimit ∧ (takeMode m s).cp.rxLimit = s.cp.rxLimit
      ∧ (takeMode m s).cp.rxHold = s.cp.rxHold ∧ (takeMode m s).cp.noticeOwed = s.cp.noticeOwed
      ∧ (takeMode m s).sch.tick = s.sch.tick ∧ (takeMode m s).sch.tickRunning = s.sch.tickRunning
      ∧ (takeMode m s).sch.sofReported = s.sch.sofReported ∧ (takeMode m s).le.counters = s.le.counters
      ∧ (takeMode m s).le.snapshot = s.le.snapshot ∧ (takeMode m s).au = s.au ∧ (takeMode m s).aw = s.aw
      ∧ (takeMode m s).pending = s.pending := by
  simp only [takeMode, reportMode_frame]; split <;> simp

/-- A boundary phase. -/
@[simp] theorem atBoundary_frame (s : State) :
    (atBoundary s).hp.engine = s.hp.engine ∧ (atBoundary s).hp.haltReason = s.hp.haltReason
      ∧ (atBoundary s).hp.enabled = s.hp.enabled ∧ (atBoundary s).hp.bootLo = s.hp.bootLo
      ∧ (atBoundary s).hp.bootHi = s.hp.bootHi ∧ (atBoundary s).hp.mask = s.hp.mask
      ∧ (atBoundary s).hp.onBus = s.hp.onBus ∧ (atBoundary s).hp.waiting = s.hp.waiting
      ∧ (atBoundary s).hp.pointer = s.hp.pointer ∧ (atBoundary s).hp.pinAsserted = s.hp.pinAsserted
      ∧ (atBoundary s).rct = s.rct ∧ (atBoundary s).fe = s.fe ∧ (atBoundary s).cp.txInUse = s.cp.txInUse
      ∧ (atBoundary s).cp.lowInUse = s.cp.lowInUse ∧ (atBoundary s).cp.rxInUse = s.cp.rxInUse
      ∧ (atBoundary s).cp.txLimit = s.cp.txLimit ∧ (atBoundary s).cp.rxLimit = s.cp.rxLimit
      ∧ (atBoundary s).cp.rxHold = s.cp.rxHold ∧ (atBoundary s).cp.noticeOwed = s.cp.noticeOwed
      ∧ (atBoundary s).sch.tick = s.sch.tick ∧ (atBoundary s).sch.tickRunning = s.sch.tickRunning
      ∧ (atBoundary s).sch.sofReported = s.sch.sofReported ∧ (atBoundary s).le.counters = s.le.counters
      ∧ (atBoundary s).le.snapshot = s.le.snapshot ∧ (atBoundary s).au = s.au ∧ (atBoundary s).aw = s.aw
      ∧ (atBoundary s).pending = s.pending := by
  unfold atBoundary; (repeat' split) <;> simp

/-- A mode handed over. -/
@[simp] theorem requestMode_frame (m : LineMode) (s : State) :
    (requestMode m s).hp.engine = s.hp.engine ∧ (requestMode m s).hp.haltReason = s.hp.haltReason
      ∧ (requestMode m s).hp.enabled = s.hp.enabled ∧ (requestMode m s).hp.bootLo = s.hp.bootLo
      ∧ (requestMode m s).hp.bootHi = s.hp.bootHi ∧ (requestMode m s).hp.mask = s.hp.mask
      ∧ (requestMode m s).hp.onBus = s.hp.onBus ∧ (requestMode m s).hp.waiting = s.hp.waiting
      ∧ (requestMode m s).hp.pointer = s.hp.pointer ∧ (requestMode m s).hp.pinAsserted = s.hp.pinAsserted
      ∧ (requestMode m s).rct = s.rct ∧ (requestMode m s).fe = s.fe ∧ (requestMode m s).cp.txInUse = s.cp.txInUse
      ∧ (requestMode m s).cp.lowInUse = s.cp.lowInUse ∧ (requestMode m s).cp.rxInUse = s.cp.rxInUse
      ∧ (requestMode m s).cp.txLimit = s.cp.txLimit ∧ (requestMode m s).cp.rxLimit = s.cp.rxLimit
      ∧ (requestMode m s).cp.rxHold = s.cp.rxHold ∧ (requestMode m s).cp.noticeOwed = s.cp.noticeOwed
      ∧ (requestMode m s).sch.tick = s.sch.tick ∧ (requestMode m s).sch.tickRunning = s.sch.tickRunning
      ∧ (requestMode m s).sch.sofReported = s.sch.sofReported ∧ (requestMode m s).le.counters = s.le.counters
      ∧ (requestMode m s).le.snapshot = s.le.snapshot ∧ (requestMode m s).au = s.au ∧ (requestMode m s).aw = s.aw
      ∧ (requestMode m s).pending = s.pending := by
  simp [requestMode]

/-- An attempt begun. -/
@[simp] theorem startAttempt_frame (s : State) :
    (startAttempt s).hp = s.hp ∧ (startAttempt s).rct = s.rct ∧ (startAttempt s).fe = s.fe
      ∧ (startAttempt s).cp = s.cp ∧ (startAttempt s).sch.lists = s.sch.lists
      ∧ (startAttempt s).sch.passed = s.sch.passed ∧ (startAttempt s).sch.tick = s.sch.tick
      ∧ (startAttempt s).sch.tickRunning = s.sch.tickRunning ∧ (startAttempt s).le.mode = s.le.mode
      ∧ (startAttempt s).le.muted = s.le.muted ∧ (startAttempt s).le.fault = s.le.fault
      ∧ (startAttempt s).le.errorRun = s.le.errorRun ∧ (startAttempt s).le.slot = s.le.slot
      ∧ (startAttempt s).le.pendingMode = s.le.pendingMode ∧ (startAttempt s).le.counters = s.le.counters
      ∧ (startAttempt s).le.snapshot = s.le.snapshot ∧ (startAttempt s).au = s.au ∧ (startAttempt s).aw = s.aw
      ∧ (startAttempt s).cw = s.cw ∧ (startAttempt s).ae = s.ae ∧ (startAttempt s).pending = s.pending := by
  simp [startAttempt]

/-- A frame followed as a receiver. -/
@[simp] theorem startReceiving_frame (s : State) :
    (startReceiving s).hp = s.hp ∧ (startReceiving s).rct = s.rct ∧ (startReceiving s).fe = s.fe
      ∧ (startReceiving s).cp = s.cp ∧ (startReceiving s).sch = s.sch ∧ (startReceiving s).le.mode = s.le.mode
      ∧ (startReceiving s).le.muted = s.le.muted ∧ (startReceiving s).le.fault = s.le.fault
      ∧ (startReceiving s).le.errorRun = s.le.errorRun ∧ (startReceiving s).le.slot = s.le.slot
      ∧ (startReceiving s).le.pendingMode = s.le.pendingMode ∧ (startReceiving s).le.counters = s.le.counters
      ∧ (startReceiving s).le.snapshot = s.le.snapshot ∧ (startReceiving s).le.txd = s.le.txd
      ∧ (startReceiving s).au = s.au ∧ (startReceiving s).aw = s.aw ∧ (startReceiving s).cw = s.cw
      ∧ (startReceiving s).ae = s.ae ∧ (startReceiving s).pending = s.pending := by
  simp [startReceiving]

/-- A pulse outside a frame changes at most the quiet run. -/
theorem restartQuiet_eq (s : State) :
    restartQuiet s =
      { s with
        le := { s.le with
          quietRun := if s.le.phase.isBetweenFrames = true ∧ s.le.mode ≠ .loopback then 0 else s.le.quietRun } } := by
  unfold restartQuiet; split <;> rfl

/-- A pulse outside a frame. -/
@[simp] theorem restartQuiet_frame (s : State) :
    (restartQuiet s).hp = s.hp ∧ (restartQuiet s).rct = s.rct ∧ (restartQuiet s).fe = s.fe
      ∧ (restartQuiet s).cp = s.cp ∧ (restartQuiet s).sch = s.sch ∧ (restartQuiet s).le.mode = s.le.mode
      ∧ (restartQuiet s).le.phase = s.le.phase ∧ (restartQuiet s).le.muted = s.le.muted
      ∧ (restartQuiet s).le.fault = s.le.fault ∧ (restartQuiet s).le.errorRun = s.le.errorRun
      ∧ (restartQuiet s).le.slot = s.le.slot ∧ (restartQuiet s).le.pendingMode = s.le.pendingMode
      ∧ (restartQuiet s).le.frame = s.le.frame ∧ (restartQuiet s).le.counters = s.le.counters
      ∧ (restartQuiet s).le.snapshot = s.le.snapshot ∧ (restartQuiet s).le.txd = s.le.txd
      ∧ (restartQuiet s).au = s.au ∧ (restartQuiet s).aw = s.aw ∧ (restartQuiet s).cw = s.cw
      ∧ (restartQuiet s).ae = s.ae ∧ (restartQuiet s).pending = s.pending := by
  simp [restartQuiet_eq]

/-- An SOF edge. -/
@[simp] theorem sofEdge_frame (m : SofMoment) (quiet : Nat) (s : State) :
    (sofEdge m quiet s).hp = s.hp ∧ (sofEdge m quiet s).rct = s.rct ∧ (sofEdge m quiet s).fe = s.fe
      ∧ (sofEdge m quiet s).cp = s.cp ∧ (sofEdge m quiet s).sch.lists = s.sch.lists
      ∧ (sofEdge m quiet s).sch.passed = s.sch.passed ∧ (sofEdge m quiet s).sch.tick = s.sch.tick
      ∧ (sofEdge m quiet s).sch.tickRunning = s.sch.tickRunning ∧ (sofEdge m quiet s).le.mode = s.le.mode
      ∧ (sofEdge m quiet s).le.muted = s.le.muted ∧ (sofEdge m quiet s).le.fault = s.le.fault
      ∧ (sofEdge m quiet s).le.errorRun = s.le.errorRun ∧ (sofEdge m quiet s).le.slot = s.le.slot
      ∧ (sofEdge m quiet s).le.pendingMode = s.le.pendingMode ∧ (sofEdge m quiet s).le.counters = s.le.counters
      ∧ (sofEdge m quiet s).le.snapshot = s.le.snapshot ∧ (sofEdge m quiet s).au = s.au ∧ (sofEdge m quiet s).aw = s.aw
      ∧ (sofEdge m quiet s).cw = s.cw ∧ (sofEdge m quiet s).ae = s.ae ∧ (sofEdge m quiet s).pending = s.pending := by
  unfold sofEdge; (repeat' split) <;> simp

/-- Muting. -/
@[simp] theorem muteIfDue_frame (o : AttemptOutcome) (s : State) :
    (muteIfDue o s).hp.engine = s.hp.engine ∧ (muteIfDue o s).hp.haltReason = s.hp.haltReason
      ∧ (muteIfDue o s).hp.enabled = s.hp.enabled ∧ (muteIfDue o s).hp.bootLo = s.hp.bootLo
      ∧ (muteIfDue o s).hp.bootHi = s.hp.bootHi ∧ (muteIfDue o s).hp.mask = s.hp.mask
      ∧ (muteIfDue o s).hp.onBus = s.hp.onBus ∧ (muteIfDue o s).hp.waiting = s.hp.waiting
      ∧ (muteIfDue o s).hp.pointer = s.hp.pointer ∧ (muteIfDue o s).hp.pinAsserted = s.hp.pinAsserted
      ∧ (muteIfDue o s).rct = s.rct ∧ (muteIfDue o s).fe = s.fe ∧ (muteIfDue o s).cp = s.cp
      ∧ (muteIfDue o s).sch = s.sch ∧ (muteIfDue o s).le.mode = s.le.mode ∧ (muteIfDue o s).le.phase = s.le.phase
      ∧ (muteIfDue o s).le.fault = s.le.fault ∧ (muteIfDue o s).le.errorRun = s.le.errorRun
      ∧ (muteIfDue o s).le.slot = s.le.slot ∧ (muteIfDue o s).le.pendingMode = s.le.pendingMode
      ∧ (muteIfDue o s).le.quietRun = s.le.quietRun ∧ (muteIfDue o s).le.frame = s.le.frame
      ∧ (muteIfDue o s).le.counters = s.le.counters ∧ (muteIfDue o s).le.snapshot = s.le.snapshot
      ∧ (muteIfDue o s).le.txd = s.le.txd ∧ (muteIfDue o s).au = s.au ∧ (muteIfDue o s).aw = s.aw
      ∧ (muteIfDue o s).cw = s.cw ∧ (muteIfDue o s).ae = s.ae ∧ (muteIfDue o s).pending = s.pending := by
  unfold muteIfDue; (repeat' split) <;> simp

/-- The line engine's part of an attempt end. -/
@[simp] theorem leaveAttempt_frame (o : AttemptOutcome) (rest : Option Frame) (s : State) :
    (leaveAttempt o rest s).hp.engine = s.hp.engine ∧ (leaveAttempt o rest s).hp.haltReason = s.hp.haltReason
      ∧ (leaveAttempt o rest s).hp.enabled = s.hp.enabled ∧ (leaveAttempt o rest s).hp.bootLo = s.hp.bootLo
      ∧ (leaveAttempt o rest s).hp.bootHi = s.hp.bootHi ∧ (leaveAttempt o rest s).hp.mask = s.hp.mask
      ∧ (leaveAttempt o rest s).hp.onBus = s.hp.onBus ∧ (leaveAttempt o rest s).hp.waiting = s.hp.waiting
      ∧ (leaveAttempt o rest s).hp.pointer = s.hp.pointer
      ∧ (leaveAttempt o rest s).hp.pinAsserted = s.hp.pinAsserted ∧ (leaveAttempt o rest s).rct = s.rct
      ∧ (leaveAttempt o rest s).fe = s.fe ∧ (leaveAttempt o rest s).cp = s.cp ∧ (leaveAttempt o rest s).sch = s.sch
      ∧ (leaveAttempt o rest s).le.mode = s.le.mode ∧ (leaveAttempt o rest s).le.fault = s.le.fault
      ∧ (leaveAttempt o rest s).le.pendingMode = s.le.pendingMode
      ∧ (leaveAttempt o rest s).le.quietRun = s.le.quietRun ∧ (leaveAttempt o rest s).le.snapshot = s.le.snapshot
      ∧ (leaveAttempt o rest s).au = s.au ∧ (leaveAttempt o rest s).aw = s.aw ∧ (leaveAttempt o rest s).cw = s.cw
      ∧ (leaveAttempt o rest s).ae = s.ae ∧ (leaveAttempt o rest s).pending = s.pending := by
  simp [leaveAttempt]

/-- An attempt end. -/
@[simp] theorem endAttempt_frame (o : AttemptOutcome) (rest : Option Frame) (s : State) :
    (endAttempt o rest s).hp.engine = s.hp.engine ∧ (endAttempt o rest s).hp.haltReason = s.hp.haltReason
      ∧ (endAttempt o rest s).hp.enabled = s.hp.enabled ∧ (endAttempt o rest s).hp.bootLo = s.hp.bootLo
      ∧ (endAttempt o rest s).hp.bootHi = s.hp.bootHi ∧ (endAttempt o rest s).hp.mask = s.hp.mask
      ∧ (endAttempt o rest s).hp.onBus = s.hp.onBus ∧ (endAttempt o rest s).hp.waiting = s.hp.waiting
      ∧ (endAttempt o rest s).hp.pointer = s.hp.pointer ∧ (endAttempt o rest s).hp.pinAsserted = s.hp.pinAsserted
      ∧ (endAttempt o rest s).rct.admin = s.rct.admin ∧ (endAttempt o rest s).rct.completion = s.rct.completion
      ∧ (endAttempt o rest s).fe = s.fe ∧ (endAttempt o rest s).cp.txLimit = s.cp.txLimit
      ∧ (endAttempt o rest s).cp.rxLimit = s.cp.rxLimit ∧ (endAttempt o rest s).cp.rxHold = s.cp.rxHold
      ∧ (endAttempt o rest s).sch.tick = s.sch.tick ∧ (endAttempt o rest s).sch.tickRunning = s.sch.tickRunning
      ∧ (endAttempt o rest s).sch.sofReported = s.sch.sofReported ∧ (endAttempt o rest s).le.mode = s.le.mode
      ∧ (endAttempt o rest s).le.fault = s.le.fault ∧ (endAttempt o rest s).le.pendingMode = s.le.pendingMode
      ∧ (endAttempt o rest s).le.quietRun = s.le.quietRun ∧ (endAttempt o rest s).le.snapshot = s.le.snapshot
      ∧ (endAttempt o rest s).aw = s.aw ∧ (endAttempt o rest s).pending = s.pending := by
  unfold endAttempt; split
  · simp
  · dsimp only; split <;> simp

/-- FAULT entered. -/
@[simp] theorem enterFault_frame (s : State) :
    (enterFault s).hp.engine = s.hp.engine ∧ (enterFault s).hp.haltReason = s.hp.haltReason
      ∧ (enterFault s).hp.enabled = s.hp.enabled ∧ (enterFault s).hp.bootLo = s.hp.bootLo
      ∧ (enterFault s).hp.bootHi = s.hp.bootHi ∧ (enterFault s).hp.mask = s.hp.mask
      ∧ (enterFault s).hp.onBus = s.hp.onBus ∧ (enterFault s).hp.waiting = s.hp.waiting
      ∧ (enterFault s).hp.pointer = s.hp.pointer ∧ (enterFault s).hp.pinAsserted = s.hp.pinAsserted
      ∧ (enterFault s).rct.admin = s.rct.admin ∧ (enterFault s).rct.completion = s.rct.completion
      ∧ (enterFault s).fe = s.fe ∧ (enterFault s).cp.txLimit = s.cp.txLimit
      ∧ (enterFault s).cp.rxLimit = s.cp.rxLimit ∧ (enterFault s).cp.rxHold = s.cp.rxHold
      ∧ (enterFault s).sch.tick = s.sch.tick ∧ (enterFault s).sch.tickRunning = s.sch.tickRunning
      ∧ (enterFault s).sch.sofReported = s.sch.sofReported ∧ (enterFault s).le.snapshot = s.le.snapshot
      ∧ (enterFault s).aw = s.aw ∧ (enterFault s).pending = s.pending := by
  unfold enterFault; split
  · simp
  · split
    · simp
    · dsimp only; (repeat' split) <;> simp

/-- The reading of a cell of an attempt. -/
@[simp] theorem attemptEndAt_frame (cells : CellsRead) (quiet : Nat) (s : State) :
    (attemptEndAt cells quiet s).hp.engine = s.hp.engine
      ∧ (attemptEndAt cells quiet s).hp.haltReason = s.hp.haltReason
      ∧ (attemptEndAt cells quiet s).hp.enabled = s.hp.enabled
      ∧ (attemptEndAt cells quiet s).hp.bootLo = s.hp.bootLo
      ∧ (attemptEndAt cells quiet s).hp.bootHi = s.hp.bootHi
      ∧ (attemptEndAt cells quiet s).hp.mask = s.hp.mask
      ∧ (attemptEndAt cells quiet s).hp.onBus = s.hp.onBus
      ∧ (attemptEndAt cells quiet s).hp.waiting = s.hp.waiting
      ∧ (attemptEndAt cells quiet s).hp.pointer = s.hp.pointer
      ∧ (attemptEndAt cells quiet s).hp.pinAsserted = s.hp.pinAsserted
      ∧ (attemptEndAt cells quiet s).rct.admin = s.rct.admin
      ∧ (attemptEndAt cells quiet s).rct.completion = s.rct.completion
      ∧ (attemptEndAt cells quiet s).fe = s.fe ∧ (attemptEndAt cells quiet s).cp.txLimit = s.cp.txLimit
      ∧ (attemptEndAt cells quiet s).cp.rxLimit = s.cp.rxLimit
      ∧ (attemptEndAt cells quiet s).cp.rxHold = s.cp.rxHold
      ∧ (attemptEndAt cells quiet s).sch.tick = s.sch.tick
      ∧ (attemptEndAt cells quiet s).sch.tickRunning = s.sch.tickRunning
      ∧ (attemptEndAt cells quiet s).sch.sofReported = s.sch.sofReported
      ∧ (attemptEndAt cells quiet s).le.snapshot = s.le.snapshot
      ∧ (attemptEndAt cells quiet s).aw = s.aw ∧ (attemptEndAt cells quiet s).pending = s.pending := by
  unfold attemptEndAt; split
  · simp
  · dsimp only; (repeat' split) <;> simp

/-- A frame abandoned. -/
@[simp] theorem abandonFrame_frame (quiet : Nat) (s : State) :
    (abandonFrame quiet s).hp.engine = s.hp.engine ∧ (abandonFrame quiet s).hp.haltReason = s.hp.haltReason
      ∧ (abandonFrame quiet s).hp.enabled = s.hp.enabled ∧ (abandonFrame quiet s).hp.bootLo = s.hp.bootLo
      ∧ (abandonFrame quiet s).hp.bootHi = s.hp.bootHi ∧ (abandonFrame quiet s).hp.mask = s.hp.mask
      ∧ (abandonFrame quiet s).hp.onBus = s.hp.onBus ∧ (abandonFrame quiet s).hp.waiting = s.hp.waiting
      ∧ (abandonFrame quiet s).hp.pointer = s.hp.pointer ∧ (abandonFrame quiet s).hp.pinAsserted = s.hp.pinAsserted
      ∧ (abandonFrame quiet s).rct.admin = s.rct.admin ∧ (abandonFrame quiet s).rct.completion = s.rct.completion
      ∧ (abandonFrame quiet s).fe = s.fe ∧ (abandonFrame quiet s).cp.txLimit = s.cp.txLimit
      ∧ (abandonFrame quiet s).cp.rxLimit = s.cp.rxLimit ∧ (abandonFrame quiet s).cp.rxHold = s.cp.rxHold
      ∧ (abandonFrame quiet s).sch.tick = s.sch.tick ∧ (abandonFrame quiet s).sch.tickRunning = s.sch.tickRunning
      ∧ (abandonFrame quiet s).sch.sofReported = s.sch.sofReported
      ∧ (abandonFrame quiet s).le.snapshot = s.le.snapshot ∧ (abandonFrame quiet s).aw = s.aw
      ∧ (abandonFrame quiet s).pending = s.pending := by
  simp [abandonFrame]

/-- A frame ended. -/
@[simp] theorem endFrame_frame (quiet : Nat) (s : State) :
    (endFrame quiet s).hp.engine = s.hp.engine ∧ (endFrame quiet s).hp.haltReason = s.hp.haltReason
      ∧ (endFrame quiet s).hp.enabled = s.hp.enabled ∧ (endFrame quiet s).hp.bootLo = s.hp.bootLo
      ∧ (endFrame quiet s).hp.bootHi = s.hp.bootHi ∧ (endFrame quiet s).hp.mask = s.hp.mask
      ∧ (endFrame quiet s).hp.onBus = s.hp.onBus ∧ (endFrame quiet s).hp.waiting = s.hp.waiting
      ∧ (endFrame quiet s).hp.pointer = s.hp.pointer ∧ (endFrame quiet s).hp.pinAsserted = s.hp.pinAsserted
      ∧ (endFrame quiet s).rct = s.rct ∧ (endFrame quiet s).fe = s.fe ∧ (endFrame quiet s).cp.txInUse = s.cp.txInUse
      ∧ (endFrame quiet s).cp.lowInUse = s.cp.lowInUse ∧ (endFrame quiet s).cp.rxInUse = s.cp.rxInUse
      ∧ (endFrame quiet s).cp.txLimit = s.cp.txLimit ∧ (endFrame quiet s).cp.rxLimit = s.cp.rxLimit
      ∧ (endFrame quiet s).cp.rxHold = s.cp.rxHold ∧ (endFrame quiet s).cp.noticeOwed = s.cp.noticeOwed
      ∧ (endFrame quiet s).sch.tick = s.sch.tick ∧ (endFrame quiet s).sch.tickRunning = s.sch.tickRunning
      ∧ (endFrame quiet s).sch.sofReported = s.sch.sofReported ∧ (endFrame quiet s).le.counters = s.le.counters
      ∧ (endFrame quiet s).le.snapshot = s.le.snapshot ∧ (endFrame quiet s).aw = s.aw
      ∧ (endFrame quiet s).pending = s.pending := by
  simp [endFrame]

/-- TXD taken up by a responder. -/
@[simp] theorem takeUpAnswer_frame (s : State) :
    (takeUpAnswer s).hp = s.hp ∧ (takeUpAnswer s).rct = s.rct ∧ (takeUpAnswer s).fe = s.fe
      ∧ (takeUpAnswer s).cp = s.cp ∧ (takeUpAnswer s).sch = s.sch ∧ (takeUpAnswer s).le.mode = s.le.mode
      ∧ (takeUpAnswer s).le.phase = s.le.phase ∧ (takeUpAnswer s).le.muted = s.le.muted
      ∧ (takeUpAnswer s).le.fault = s.le.fault ∧ (takeUpAnswer s).le.errorRun = s.le.errorRun
      ∧ (takeUpAnswer s).le.slot = s.le.slot ∧ (takeUpAnswer s).le.pendingMode = s.le.pendingMode
      ∧ (takeUpAnswer s).le.quietRun = s.le.quietRun ∧ (takeUpAnswer s).le.frame = s.le.frame
      ∧ (takeUpAnswer s).le.counters = s.le.counters ∧ (takeUpAnswer s).le.snapshot = s.le.snapshot
      ∧ (takeUpAnswer s).au = s.au ∧ (takeUpAnswer s).aw = s.aw ∧ (takeUpAnswer s).cw = s.cw
      ∧ (takeUpAnswer s).ae = s.ae ∧ (takeUpAnswer s).pending = s.pending := by
  simp [takeUpAnswer]

/-- The header end. -/
@[simp] theorem reachHeaderEnd_frame (f : Frame) (bits : BitVec 32) (h : FrameHead) (s : State) :
    (reachHeaderEnd f bits h s).hp.engine = s.hp.engine
      ∧ (reachHeaderEnd f bits h s).hp.haltReason = s.hp.haltReason
      ∧ (reachHeaderEnd f bits h s).hp.enabled = s.hp.enabled ∧ (reachHeaderEnd f bits h s).hp.bootLo = s.hp.bootLo
      ∧ (reachHeaderEnd f bits h s).hp.bootHi = s.hp.bootHi ∧ (reachHeaderEnd f bits h s).hp.mask = s.hp.mask
      ∧ (reachHeaderEnd f bits h s).hp.onBus = s.hp.onBus ∧ (reachHeaderEnd f bits h s).hp.waiting = s.hp.waiting
      ∧ (reachHeaderEnd f bits h s).hp.pointer = s.hp.pointer
      ∧ (reachHeaderEnd f bits h s).hp.pinAsserted = s.hp.pinAsserted
      ∧ (reachHeaderEnd f bits h s).rct.admin = s.rct.admin ∧ (reachHeaderEnd f bits h s).rct.send = s.rct.send
      ∧ (reachHeaderEnd f bits h s).rct.completion = s.rct.completion ∧ (reachHeaderEnd f bits h s).fe = s.fe
      ∧ (reachHeaderEnd f bits h s).cp.txLimit = s.cp.txLimit
      ∧ (reachHeaderEnd f bits h s).cp.rxLimit = s.cp.rxLimit ∧ (reachHeaderEnd f bits h s).cp.rxHold = s.cp.rxHold
      ∧ (reachHeaderEnd f bits h s).sch = s.sch ∧ (reachHeaderEnd f bits h s).le.mode = s.le.mode
      ∧ (reachHeaderEnd f bits h s).le.phase = s.le.phase ∧ (reachHeaderEnd f bits h s).le.muted = s.le.muted
      ∧ (reachHeaderEnd f bits h s).le.fault = s.le.fault ∧ (reachHeaderEnd f bits h s).le.errorRun = s.le.errorRun
      ∧ (reachHeaderEnd f bits h s).le.slot = s.le.slot
      ∧ (reachHeaderEnd f bits h s).le.pendingMode = s.le.pendingMode
      ∧ (reachHeaderEnd f bits h s).le.quietRun = s.le.quietRun
      ∧ (reachHeaderEnd f bits h s).le.snapshot = s.le.snapshot ∧ (reachHeaderEnd f bits h s).le.txd = s.le.txd
      ∧ (reachHeaderEnd f bits h s).aw = s.aw ∧ (reachHeaderEnd f bits h s).cw = s.cw
      ∧ (reachHeaderEnd f bits h s).ae = s.ae ∧ (reachHeaderEnd f bits h s).pending = s.pending := by
  simp [reachHeaderEnd]

/-- The check end. -/
@[simp] theorem reachCheckEnd_frame (f : Frame) (payload : List Byte) (check : BitVec 16) (s : State) :
    (reachCheckEnd f payload check s).hp.engine = s.hp.engine
      ∧ (reachCheckEnd f payload check s).hp.haltReason = s.hp.haltReason
      ∧ (reachCheckEnd f payload check s).hp.enabled = s.hp.enabled
      ∧ (reachCheckEnd f payload check s).hp.bootLo = s.hp.bootLo
      ∧ (reachCheckEnd f payload check s).hp.bootHi = s.hp.bootHi
      ∧ (reachCheckEnd f payload check s).hp.mask = s.hp.mask
      ∧ (reachCheckEnd f payload check s).hp.onBus = s.hp.onBus
      ∧ (reachCheckEnd f payload check s).hp.pointer = s.hp.pointer
      ∧ (reachCheckEnd f payload check s).hp.pinAsserted = s.hp.pinAsserted
      ∧ (reachCheckEnd f payload check s).rct.admin = s.rct.admin
      ∧ (reachCheckEnd f payload check s).rct.completion = s.rct.completion
      ∧ (reachCheckEnd f payload check s).fe = s.fe ∧ (reachCheckEnd f payload check s).cp.txLimit = s.cp.txLimit
      ∧ (reachCheckEnd f payload check s).cp.rxLimit = s.cp.rxLimit
      ∧ (reachCheckEnd f payload check s).cp.rxHold = s.cp.rxHold ∧ (reachCheckEnd f payload check s).sch = s.sch
      ∧ (reachCheckEnd f payload check s).le.mode = s.le.mode
      ∧ (reachCheckEnd f payload check s).le.phase = s.le.phase
      ∧ (reachCheckEnd f payload check s).le.muted = s.le.muted
      ∧ (reachCheckEnd f payload check s).le.fault = s.le.fault
      ∧ (reachCheckEnd f payload check s).le.errorRun = s.le.errorRun
      ∧ (reachCheckEnd f payload check s).le.slot = s.le.slot
      ∧ (reachCheckEnd f payload check s).le.pendingMode = s.le.pendingMode
      ∧ (reachCheckEnd f payload check s).le.quietRun = s.le.quietRun
      ∧ (reachCheckEnd f payload check s).le.snapshot = s.le.snapshot
      ∧ (reachCheckEnd f payload check s).pending = s.pending := by
  simp [reachCheckEnd]

/-- The originator's slot. -/
@[simp] theorem originatorSlotEnd_frame (f : Frame) (slot : Slot) (mode : ResponseMode) (readings : List Reading) (s : State) :
    (originatorSlotEnd f slot mode readings s).hp = s.hp ∧ (originatorSlotEnd f slot mode readings s).rct = s.rct
      ∧ (originatorSlotEnd f slot mode readings s).fe = s.fe ∧ (originatorSlotEnd f slot mode readings s).cp = s.cp
      ∧ (originatorSlotEnd f slot mode readings s).sch = s.sch
      ∧ (originatorSlotEnd f slot mode readings s).le.mode = s.le.mode
      ∧ (originatorSlotEnd f slot mode readings s).le.phase = s.le.phase
      ∧ (originatorSlotEnd f slot mode readings s).le.muted = s.le.muted
      ∧ (originatorSlotEnd f slot mode readings s).le.fault = s.le.fault
      ∧ (originatorSlotEnd f slot mode readings s).le.errorRun = s.le.errorRun
      ∧ (originatorSlotEnd f slot mode readings s).le.slot = s.le.slot
      ∧ (originatorSlotEnd f slot mode readings s).le.pendingMode = s.le.pendingMode
      ∧ (originatorSlotEnd f slot mode readings s).le.quietRun = s.le.quietRun
      ∧ (originatorSlotEnd f slot mode readings s).le.counters = s.le.counters
      ∧ (originatorSlotEnd f slot mode readings s).le.snapshot = s.le.snapshot
      ∧ (originatorSlotEnd f slot mode readings s).au = s.au ∧ (originatorSlotEnd f slot mode readings s).aw = s.aw
      ∧ (originatorSlotEnd f slot mode readings s).cw = s.cw ∧ (originatorSlotEnd f slot mode readings s).ae = s.ae
      ∧ (originatorSlotEnd f slot mode readings s).pending = s.pending := by
  unfold originatorSlotEnd; (repeat' split) <;> simp

/-- A receiver's slot. -/
@[simp] theorem receiverSlotEnd_frame (f : Frame) (slot : Slot) (s : State) :
    (receiverSlotEnd f slot s).hp = s.hp ∧ (receiverSlotEnd f slot s).rct = s.rct
      ∧ (receiverSlotEnd f slot s).fe = s.fe ∧ (receiverSlotEnd f slot s).cp = s.cp
      ∧ (receiverSlotEnd f slot s).sch = s.sch ∧ (receiverSlotEnd f slot s).le.mode = s.le.mode
      ∧ (receiverSlotEnd f slot s).le.phase = s.le.phase
      ∧ (receiverSlotEnd f slot s).le.muted = s.le.muted
      ∧ (receiverSlotEnd f slot s).le.fault = s.le.fault
      ∧ (receiverSlotEnd f slot s).le.errorRun = s.le.errorRun
      ∧ (receiverSlotEnd f slot s).le.slot = s.le.slot
      ∧ (receiverSlotEnd f slot s).le.pendingMode = s.le.pendingMode
      ∧ (receiverSlotEnd f slot s).le.quietRun = s.le.quietRun
      ∧ (receiverSlotEnd f slot s).le.counters = s.le.counters
      ∧ (receiverSlotEnd f slot s).le.snapshot = s.le.snapshot
      ∧ (receiverSlotEnd f slot s).au = s.au
      ∧ (receiverSlotEnd f slot s).aw = s.aw ∧ (receiverSlotEnd f slot s).cw = s.cw
      ∧ (receiverSlotEnd f slot s).ae = s.ae ∧ (receiverSlotEnd f slot s).pending = s.pending := by
  simp [receiverSlotEnd]

/-! ## The whole part -/

/-- The end of an event but for its offer decision. -/
@[simp] theorem concludeWithoutOffer_frame (s : State) :
    (concludeWithoutOffer s).hp.engine = s.hp.engine ∧ (concludeWithoutOffer s).hp.haltReason = s.hp.haltReason
      ∧ (concludeWithoutOffer s).hp.enabled = s.hp.enabled ∧ (concludeWithoutOffer s).hp.bootLo = s.hp.bootLo
      ∧ (concludeWithoutOffer s).hp.bootHi = s.hp.bootHi ∧ (concludeWithoutOffer s).hp.cause = s.hp.cause
      ∧ (concludeWithoutOffer s).hp.mask = s.hp.mask ∧ (concludeWithoutOffer s).hp.pinAsserted = s.hp.pinAsserted
      ∧ (concludeWithoutOffer s).rct.send = s.rct.send ∧ (concludeWithoutOffer s).rct.arrival = s.rct.arrival
      ∧ (concludeWithoutOffer s).fe = s.fe ∧ (concludeWithoutOffer s).cp = s.cp
      ∧ (concludeWithoutOffer s).sch = s.sch ∧ (concludeWithoutOffer s).le = s.le ∧ (concludeWithoutOffer s).au = s.au
      ∧ (concludeWithoutOffer s).aw = s.aw ∧ (concludeWithoutOffer s).pending = s.pending := by
  simp [concludeWithoutOffer]

/-- The decisions at the end of an event. -/
@[simp] theorem conclude_frame (s : State) :
    (conclude s).hp.engine = s.hp.engine ∧ (conclude s).hp.haltReason = s.hp.haltReason
      ∧ (conclude s).hp.enabled = s.hp.enabled ∧ (conclude s).hp.bootLo = s.hp.bootLo
      ∧ (conclude s).hp.bootHi = s.hp.bootHi ∧ (conclude s).hp.cause = s.hp.cause ∧ (conclude s).hp.mask = s.hp.mask
      ∧ (conclude s).hp.pinAsserted = s.hp.pinAsserted ∧ (conclude s).rct.send = s.rct.send
      ∧ (conclude s).rct.arrival = s.rct.arrival ∧ (conclude s).fe = s.fe ∧ (conclude s).cp = s.cp
      ∧ (conclude s).sch.tick = s.sch.tick ∧ (conclude s).sch.tickRunning = s.sch.tickRunning
      ∧ (conclude s).le.mode = s.le.mode ∧ (conclude s).le.phase = s.le.phase ∧ (conclude s).le.muted = s.le.muted
      ∧ (conclude s).le.fault = s.le.fault ∧ (conclude s).le.errorRun = s.le.errorRun
      ∧ (conclude s).le.pendingMode = s.le.pendingMode ∧ (conclude s).le.quietRun = s.le.quietRun
      ∧ (conclude s).le.frame = s.le.frame ∧ (conclude s).le.counters = s.le.counters
      ∧ (conclude s).le.snapshot = s.le.snapshot ∧ (conclude s).le.txd = s.le.txd ∧ (conclude s).au = s.au
      ∧ (conclude s).aw = s.aw ∧ (conclude s).pending = s.pending := by
  simp [conclude]

/-- The end of an attempt's event. -/
@[simp] theorem concludeAttempt_frame (m : EndMoment) (s : State) :
    (concludeAttempt m s).hp.engine = s.hp.engine ∧ (concludeAttempt m s).hp.haltReason = s.hp.haltReason
      ∧ (concludeAttempt m s).hp.enabled = s.hp.enabled ∧ (concludeAttempt m s).hp.bootLo = s.hp.bootLo
      ∧ (concludeAttempt m s).hp.bootHi = s.hp.bootHi ∧ (concludeAttempt m s).hp.cause = s.hp.cause
      ∧ (concludeAttempt m s).hp.mask = s.hp.mask ∧ (concludeAttempt m s).hp.pinAsserted = s.hp.pinAsserted
      ∧ (concludeAttempt m s).rct.send = s.rct.send ∧ (concludeAttempt m s).rct.arrival = s.rct.arrival
      ∧ (concludeAttempt m s).fe = s.fe ∧ (concludeAttempt m s).cp = s.cp
      ∧ (concludeAttempt m s).sch.tick = s.sch.tick ∧ (concludeAttempt m s).sch.tickRunning = s.sch.tickRunning
      ∧ (concludeAttempt m s).le.mode = s.le.mode ∧ (concludeAttempt m s).le.phase = s.le.phase
      ∧ (concludeAttempt m s).le.muted = s.le.muted ∧ (concludeAttempt m s).le.fault = s.le.fault
      ∧ (concludeAttempt m s).le.errorRun = s.le.errorRun ∧ (concludeAttempt m s).le.pendingMode = s.le.pendingMode
      ∧ (concludeAttempt m s).le.quietRun = s.le.quietRun ∧ (concludeAttempt m s).le.frame = s.le.frame
      ∧ (concludeAttempt m s).le.counters = s.le.counters ∧ (concludeAttempt m s).le.snapshot = s.le.snapshot
      ∧ (concludeAttempt m s).le.txd = s.le.txd ∧ (concludeAttempt m s).au = s.au ∧ (concludeAttempt m s).aw = s.aw
      ∧ (concludeAttempt m s).pending = s.pending := by
  cases m <;> simp [concludeAttempt]

/-- HALTED entered. -/
@[simp] theorem enterHalted_frame (reason : HaltReason) (s : State) :
    (enterHalted reason s).hp.enabled = s.hp.enabled ∧ (enterHalted reason s).hp.bootLo = s.hp.bootLo
      ∧ (enterHalted reason s).hp.bootHi = s.hp.bootHi ∧ (enterHalted reason s).hp.mask = s.hp.mask
      ∧ (enterHalted reason s).hp.onBus = s.hp.onBus ∧ (enterHalted reason s).hp.waiting = s.hp.waiting
      ∧ (enterHalted reason s).hp.pointer = s.hp.pointer ∧ (enterHalted reason s).hp.pinAsserted = s.hp.pinAsserted
      ∧ (enterHalted reason s).rct = s.rct ∧ (enterHalted reason s).fe = s.fe
      ∧ (enterHalted reason s).cp.txInUse = s.cp.txInUse ∧ (enterHalted reason s).cp.lowInUse = s.cp.lowInUse
      ∧ (enterHalted reason s).cp.rxInUse = s.cp.rxInUse ∧ (enterHalted reason s).cp.txLimit = s.cp.txLimit
      ∧ (enterHalted reason s).cp.rxLimit = s.cp.rxLimit ∧ (enterHalted reason s).cp.rxHold = s.cp.rxHold
      ∧ (enterHalted reason s).cp.noticeOwed = s.cp.noticeOwed ∧ (enterHalted reason s).sch.tick = s.sch.tick
      ∧ (enterHalted reason s).sch.sofReported = s.sch.sofReported
      ∧ (enterHalted reason s).le.counters = s.le.counters ∧ (enterHalted reason s).le.snapshot = s.le.snapshot
      ∧ (enterHalted reason s).au = s.au ∧ (enterHalted reason s).aw = s.aw
      ∧ (enterHalted reason s).pending = s.pending := by
  simp [enterHalted]

/-- The release of a written record's entry. -/
@[simp] theorem releaseEntry_frame (e : CompletionEntry) (s : State) :
    (releaseEntry e s).hp.engine = s.hp.engine ∧ (releaseEntry e s).hp.haltReason = s.hp.haltReason
      ∧ (releaseEntry e s).hp.enabled = s.hp.enabled ∧ (releaseEntry e s).hp.bootLo = s.hp.bootLo
      ∧ (releaseEntry e s).hp.bootHi = s.hp.bootHi ∧ (releaseEntry e s).hp.cause = s.hp.cause
      ∧ (releaseEntry e s).hp.mask = s.hp.mask ∧ (releaseEntry e s).hp.onBus = s.hp.onBus
      ∧ (releaseEntry e s).hp.pointer = s.hp.pointer ∧ (releaseEntry e s).hp.pinAsserted = s.hp.pinAsserted
      ∧ (releaseEntry e s).rct.admin = s.rct.admin ∧ (releaseEntry e s).rct.completion = s.rct.completion
      ∧ (releaseEntry e s).cp.txLimit = s.cp.txLimit ∧ (releaseEntry e s).cp.rxLimit = s.cp.rxLimit
      ∧ (releaseEntry e s).cp.rxHold = s.cp.rxHold ∧ (releaseEntry e s).sch = s.sch ∧ (releaseEntry e s).le = s.le
      ∧ (releaseEntry e s).au = s.au ∧ (releaseEntry e s).aw = s.aw ∧ (releaseEntry e s).pending = s.pending := by
  unfold releaseEntry; (repeat' split) <;> simp

/-- A completion written. -/
@[simp] theorem completionWritten_frame (w : CompletionWrite) (s : State) :
    (completionWritten w s).hp.engine = s.hp.engine ∧ (completionWritten w s).hp.haltReason = s.hp.haltReason
      ∧ (completionWritten w s).hp.enabled = s.hp.enabled ∧ (completionWritten w s).hp.bootLo = s.hp.bootLo
      ∧ (completionWritten w s).hp.bootHi = s.hp.bootHi ∧ (completionWritten w s).hp.mask = s.hp.mask
      ∧ (completionWritten w s).hp.onBus = s.hp.onBus ∧ (completionWritten w s).hp.pointer = s.hp.pointer
      ∧ (completionWritten w s).hp.pinAsserted = s.hp.pinAsserted ∧ (completionWritten w s).rct.admin = s.rct.admin
      ∧ (completionWritten w s).cp.txLimit = s.cp.txLimit ∧ (completionWritten w s).cp.rxLimit = s.cp.rxLimit
      ∧ (completionWritten w s).cp.rxHold = s.cp.rxHold ∧ (completionWritten w s).sch = s.sch
      ∧ (completionWritten w s).le = s.le ∧ (completionWritten w s).au = s.au ∧ (completionWritten w s).aw = s.aw
      ∧ (completionWritten w s).pending = s.pending := by
  simp [completionWritten]

end Sys2Proof.Machine
end

