-- ==== Sys2Proof/Laws/Grid.lean ====
section
/-! SUPPORT. What the cell grid gives (R4): lengths and numbers of the cells read, what an originator reads of its own
frame, and what the internal line of LOOPBACK carries. -/

namespace Sys2Proof.Machine

/-- A pulse that starts at the expected start lies in the start window. -/
@[simp] theorem inStartWindow_self (rate : RateCode) (e : Nat) : inStartWindow rate e e = true := by
  simp [inStartWindow]

/-- With nothing else on the line a node starts its pulse at the cell's expected start (R4). -/
@[simp] theorem driveStart_nil (rate : RateCode) (e : Nat) : driveStart rate e [] = e := by
  simp [driveStart, windowEdge, dominantPulses]

/-- The class of each pulse the SL4 drives (R2, R3). -/
theorem classify_driven (rate : RateCode) (p : DrivenPulse) :
    classifyPulse rate (p.cycles rate) =
      (match p with
       | .data1 => .data1
       | .data0 => .data0
       | .sof => .sof
       | .slotMark => .data0) := by
  cases rate <;> cases p <;> decide

/-- A cell that holds one driven pulse alone reads as what was driven (R2, R3). -/
theorem readCell_driven (rate : RateCode) (e : Nat) (p : DrivenPulse) :
    readCell rate e [drivePulse rate e [] p] = Reading.ofSymbol (classifyPulse rate (p.cycles rate)) := by
  have h1 : (drivePulse rate e [] p).edge = e := by simp [drivePulse]
  have h2 : (drivePulse rate e [] p).length = p.cycles rate := rfl
  have h3 : dominantPulses rate [drivePulse rate e [] p] = [drivePulse rate e [] p] := by
    unfold dominantPulses
    rw [List.filter_cons, h2, classify_driven]
    cases p <;> rfl
  unfold readCell
  rw [h3]
  simp only [h1, h2, inStartWindow_self, classify_driven]
  cases p <;> rfl

/-- A cell without a pulse is quiet. -/
@[simp] theorem readCell_nil (rate : RateCode) (e : Nat) : readCell rate e [] = .quiet := by
  simp [readCell, dominantPulses]

/-- As many cells stand on the grid as were read. -/
@[simp] theorem gridOf_length (rate : RateCode) (line : CellsRead) (n e : Nat) :
    (gridOf rate n e line).length = line.length := by
  induction line generalizing n e with
  | nil => rfl
  | cons p rest ih => simp [gridOf, ih]

/-- The grid of cells read in two stretches. -/
theorem gridOf_append (rate : RateCode) (a b : CellsRead) (n e : Nat) :
    gridOf rate n e (a ++ b) = gridOf rate n e a ++ gridOf rate (n + a.length) (gridEnd rate n e a) b := by
  induction a generalizing n e with
  | nil => rfl
  | cons p rest ih =>
    simp only [List.cons_append, gridOf, gridEnd, ih, List.length_cons]
    rw [show n + 1 + rest.length = n + (rest.length + 1) by omega]

/-- The expected start after cells read in two stretches. -/
theorem gridEnd_append (rate : RateCode) (a b : CellsRead) (n e : Nat) :
    gridEnd rate n e (a ++ b) = gridEnd rate (n + a.length) (gridEnd rate n e a) b := by
  induction a generalizing n e with
  | nil => rfl
  | cons p rest ih =>
    simp only [List.cons_append, gridEnd, ih, List.length_cons]
    rw [show n + 1 + rest.length = n + (rest.length + 1) by omega]

/-- As many cells as are asked for stand on the internal line. -/
@[simp] theorem lineOfOwnPulses_length (rate : RateCode) (due : Nat → Option DrivenPulse) (n number e : Nat) :
    (lineOfOwnPulses rate due n number e).length = n := by
  induction n generalizing number e with
  | zero => rfl
  | succ n ih => simp [lineOfOwnPulses, ih]

/-- A cell of the internal line reads as the pulse due in it (R83). -/
theorem reading_own (rate : RateCode) (e : Nat) (p : Option DrivenPulse) :
    readCell rate e (match p with | some p => [drivePulse rate e [] p] | none => []) =
      (match p with
       | some p => Reading.ofSymbol (classifyPulse rate (p.cycles rate))
       | none => .quiet) := by
  cases p with
  | none => simp
  | some p => exact readCell_driven rate e p

/-- The readings of the internal line, cell by cell, are those of the pulses due (R83). -/
theorem readings_lineOfOwnPulses (rate : RateCode) (due : Nat → Option DrivenPulse) (n number e : Nat) :
    (gridOf rate number e (lineOfOwnPulses rate due n number e)).map (GridCell.reading rate) =
      (List.range' number n).map (fun k =>
        match due k with
        | some p => Reading.ofSymbol (classifyPulse rate (p.cycles rate))
        | none => .quiet) := by
  induction n generalizing number e with
  | zero => rfl
  | succ n ih =>
    simp only [lineOfOwnPulses, gridOf, List.map_cons, List.range'_succ, ih]
    congr 1
    exact reading_own rate e (due number)

/-- The part of a data cell (R8). -/
theorem partOf_data (f : Frame) (n : Nat) (h1 : 1 ≤ n) (h2 : n ≤ 48 + 8 * (frameShape f).1) :
    f.partOf n = some .header ∨ f.partOf n = some .control ∨ f.partOf n = some .payload ∨ f.partOf n = some .check := by
  unfold Frame.partOf partOfCell
  rw [if_neg (by omega)]
  split
  · simp
  · split
    · simp
    · split
      · simp
      · simp

/-- A data cell that lets the frame go on reads as the bit this node drives in it (R14, R15, R71). -/
theorem reading_of_goesOn {f : Frame} {s : State} {g : GridCell} {o : Bool} (hm : s.le.mode ≠ .loopback)
    (hg : goesOn f s g = true) (h1 : 1 ≤ g.number) (h2 : g.number ≤ 48 + 8 * (frameShape f).1)
    (ho : (drivenImage f s)[g.number - 1]? = some o) : g.reading s.ae.rate = .data o := by
  unfold goesOn cellOutcome at hg
  rw [if_neg hm] at hg
  rcases partOf_data f g.number h1 h2 with hp | hp | hp | hp <;>
    (rw [hp] at hg
     simp only [ownBit, ho, Option.isSome_some, Bool.true_and, beq_iff_eq] at hg
     revert hg
     cases g.reading s.ae.rate <;> simp [attemptReading, isFormatError]
     try (rename_i b; cases b <;> cases o <;> simp))

/-- The data bits read in data cells that let the frame go on are those this node drives there (R14, R15). -/
theorem dataBits_of_goesOn {f : Frame} {s : State} (hm : s.le.mode ≠ .loopback) (line : CellsRead) (n e : Nat)
    (hn : 1 ≤ n) (hg : (gridOf s.ae.rate n e line).all (goesOn f s) = true)
    (h2 : n + line.length ≤ 49 + 8 * (frameShape f).1) (hi : n - 1 + line.length ≤ (drivenImage f s).length) :
    dataBits s.ae.rate (gridOf s.ae.rate n e line) = ((drivenImage f s).drop (n - 1)).take line.length := by
  induction line generalizing n e with
  | nil => simp [gridOf, dataBits]
  | cons p rest ih =>
    simp only [gridOf, List.all_cons, Bool.and_eq_true, List.length_cons] at hg h2 hi ⊢
    have hlt : n - 1 < (drivenImage f s).length := by omega
    have hr := reading_of_goesOn hm hg.1 hn (by dsimp only; omega) (List.getElem?_eq_getElem hlt)
    have hd : dataBits s.ae.rate
        ({ number := n, expected := e, pulses := p }
          :: gridOf s.ae.rate (n + 1) (nextExpected s.ae.rate n e p) rest)
        = (drivenImage f s)[n - 1] :: dataBits s.ae.rate (gridOf s.ae.rate (n + 1) (nextExpected s.ae.rate n e p) rest) := by
      unfold dataBits
      rw [List.filterMap_cons]
      unfold GridCell.dataBit
      rw [hr]
      simp [show n ≠ 0 by omega]
    rw [hd, ih (n + 1) _ (by omega) hg.2 (by omega) (by omega), List.drop_eq_getElem_cons hlt, List.take_succ_cons]
    congr 3
    omega

/-- The data bits the internal line carries in data cells are those this node drives there (R83, R84). -/
theorem dataBits_own {f : Frame} {s : State} (k n e : Nat) (hn : 1 ≤ n) (h2 : n + k ≤ 49 + 8 * (frameShape f).1)
    (hi : n - 1 + k ≤ (drivenImage f s).length) (d : SlotDrive) :
    dataBits s.ae.rate
        (gridOf s.ae.rate n e (lineOfOwnPulses s.ae.rate (pulseIn f (drivenImage f s) d) k n e)) =
      ((drivenImage f s).drop (n - 1)).take k := by
  induction k generalizing n e with
  | zero => simp [lineOfOwnPulses, gridOf, dataBits]
  | succ k ih =>
    have hlt : n - 1 < (drivenImage f s).length := by omega
    have hdue : pulseIn f (drivenImage f s) d n = some (DrivenPulse.ofBit (drivenImage f s)[n - 1]) := by
      unfold pulseIn
      rcases partOf_data f n hn (by omega) with hp | hp | hp | hp <;> simp [hp, List.getElem?_eq_getElem hlt]
    simp only [lineOfOwnPulses, gridOf]
    rw [hdue]
    unfold dataBits at ih ⊢
    rw [List.filterMap_cons]
    have hr : GridCell.dataBit s.ae.rate
        { number := n, expected := e,
          pulses := [drivePulse s.ae.rate e [] (DrivenPulse.ofBit (drivenImage f s)[n - 1])] }
        = some (drivenImage f s)[n - 1] := by
      unfold GridCell.dataBit GridCell.reading
      simp only [readCell_driven, classify_driven]
      cases (drivenImage f s)[n - 1] <;> simp [DrivenPulse.ofBit, Reading.ofSymbol, show n ≠ 0 by omega]
    rw [hr]
    dsimp only
    rw [ih (n + 1) _ (by omega) (by omega) (by omega), List.drop_eq_getElem_cons hlt, List.take_succ_cons]
    congr 3
    omega

/-- The SOF part holds no data bit (R8). -/
theorem dataBits_from_start (rate : RateCode) (e : Nat) (p : CellPulses) (rest : CellsRead) :
    dataBits rate (gridOf rate 0 e (p :: rest)) = dataBits rate (gridOf rate 1 (nextExpected rate 0 e p) rest) := by
  have h0 : GridCell.dataBit rate { number := 0, expected := e, pulses := p } = none := by
    unfold GridCell.dataBit
    split <;> simp
  unfold dataBits
  rw [gridOf, List.filterMap_cons, h0]

/-- At a point among its data cells an originator has read what it drives there, on RXD or on the internal line (R71,
R75, R83): bits `f.cell` to `last` of its own image. -/
theorem bits_of_reaches {f : Frame} {s : State} {cells : CellsRead} {last : Nat}
    (hr : reaches f last (decodedLine f last cells s) s = true) (hl : last ≤ 48 + 8 * (frameShape f).1)
    (hi : last ≤ (drivenImage f s).length) :
    dataBits s.ae.rate (f.grid (decodedLine f last cells s) s)
      = ((drivenImage f s).drop (f.cell - 1)).take (last - (f.cell - 1)) := by
  unfold reaches at hr
  rw [Bool.and_eq_true, beq_iff_eq] at hr
  obtain ⟨hlen, hg⟩ := hr
  unfold Frame.grid at hg ⊢
  by_cases hm : s.le.mode = .loopback
  · unfold decodedLine at hlen ⊢
    rw [if_pos hm] at hlen ⊢
    rw [lineOfOwnPulses_length] at hlen
    by_cases h0 : f.cell = 0
    · rw [h0] at hlen ⊢
      rw [show last + 1 - 0 = last + 1 by omega]
      unfold lineOfOwnPulses
      rw [dataBits_from_start, dataBits_own _ _ _ (by omega) (by omega) (by omega)]
      simp
    · rw [dataBits_own _ _ _ (by omega) (by omega) (by omega)]
      congr 1
      omega
  · have hd : decodedLine f last cells s = cells := by unfold decodedLine; rw [if_neg hm]
    rw [hd] at hlen hg ⊢
    by_cases h0 : f.cell = 0
    · rw [h0] at hlen hg ⊢
      cases cells with
      | nil => simp at hlen
      | cons p rest =>
        simp only [gridOf, List.all_cons, Bool.and_eq_true, List.length_cons] at hg hlen
        rw [dataBits_from_start, dataBits_of_goesOn hm rest 1 _ (by omega) hg.2 (by omega) (by omega)]
        simp; congr 1; omega
    · rw [dataBits_of_goesOn hm cells _ _ (by omega) hg (by omega) (by omega)]
      congr 1
      omega

/-! ## Bits, bytes and fields (R8) -/

/-- The first bits of a field in line order are the number without its low bits. -/
theorem bitsToNat_lineBits_take {w : Nat} (x : BitVec w) (k : Nat) (hk : k ≤ w) :
    bitsToNat ((List.range k).map x.getMsbD) = x.toNat / 2 ^ (w - k) := by
  induction k with
  | zero => simp [bitsToNat, Nat.div_eq_of_lt x.isLt]
  | succ k ih =>
    have ih := ih (by omega)
    unfold bitsToNat at ih ⊢
    rw [List.range_succ, List.map_append, List.foldl_append, ih]
    simp only [List.map_cons, List.map_nil, List.foldl_cons, List.foldl_nil]
    rw [BitVec.getMsbD_eq_getLsbD, BitVec.getLsbD]
    simp only [show k < w by omega, decide_true, Bool.true_and]
    rw [Nat.testBit_eq_decide_div_mod_eq, show w - k = (w - (k + 1)) + 1 by omega, Nat.pow_succ, ← Nat.div_div_eq_div_mul,
      show w - 1 - k = w - (k + 1) by omega]
    generalize x.toNat / 2 ^ (w - (k + 1)) = q
    by_cases h : q % 2 = 1
    · rw [decide_eq_true h, Bool.toNat_true]; omega
    · rw [decide_eq_false h, Bool.toNat_false]; omega

/-- The bits of a field spell it (R8). -/
theorem bitsToNat_lineBits {w : Nat} (x : BitVec w) : bitsToNat (lineBits x) = x.toNat := by
  have h := bitsToNat_lineBits_take x w (Nat.le_refl w)
  simpa [lineBits] using h

@[simp] theorem lineBits_length {w : Nat} (x : BitVec w) : (lineBits x).length = w := by simp [lineBits]

@[simp] theorem payloadBits_length (p : List Byte) : (payloadBits p).length = 8 * p.length := by
  induction p with
  | nil => rfl
  | cons b rest ih =>
    have : payloadBits (b :: rest) = lineBits b ++ payloadBits rest := rfl
    rw [this, List.length_append, ih, lineBits_length, List.length_cons]
    omega

/-- The bits of a payload, with what follows it on the line, spell the payload (R8, R75). -/
theorem bytesOfBits_payloadBits (p : List Byte) (rest : List Bool) :
    bytesOfBits p.length (payloadBits p ++ rest) = p := by
  induction p with
  | nil => rfl
  | cons b p ih =>
    have hp : payloadBits (b :: p) ++ rest = lineBits b ++ (payloadBits p ++ rest) := by
      simp [payloadBits, List.append_assoc]
    rw [hp, List.length_cons]
    unfold bytesOfBits at ih ⊢
    rw [List.range_succ_eq_map, List.map_cons, List.map_map]
    refine List.cons_eq_cons.mpr ⟨?_, Eq.trans ?_ ih⟩
    · rw [Nat.mul_zero, List.drop_zero, List.take_left' (lineBits_length b), bitsToNat_lineBits]
      simp
    · apply List.map_congr_left
      intro i _
      simp only [Function.comp, Nat.succ_eq_add_one]
      rw [show 8 * (i + 1) = 8 * i + 8 by omega, ← List.drop_drop]
      have hd : List.drop 8 (lineBits b ++ (payloadBits p ++ rest)) = payloadBits p ++ rest :=
        List.drop_left' (lineBits_length b)
      first
        | rw [hd]
        | rw [List.drop_drop, Nat.add_comm, ← List.drop_drop, hd]

end Sys2Proof.Machine
end

