-- ==== Sys2Proof/Laws/Line.lean ====
section
/-! SUPPORT. Every shared operation keeps the line engine sound (R64, R81 to R83): run, muted and fault flags, mode,
phase and TXD agree. -/

namespace Sys2Proof.Machine

/-- The line engine is as sound as before when what soundness speaks of is as before. -/
theorem LineSound.congr {s t : State} (h : LineSound s)
    (e : t.le.mode = s.le.mode ∧ t.le.phase = s.le.phase ∧ t.le.muted = s.le.muted ∧ t.le.fault = s.le.fault
      ∧ t.le.errorRun = s.le.errorRun ∧ t.le.txd = s.le.txd ∧ t.hp.engine = s.hp.engine) : LineSound t := by
  obtain ⟨h1, h2, h3, h4, h5, h6, h7⟩ := e
  unfold LineSound at *
  rw [h1, h2, h3, h4, h5, h6, h7]
  exact h

/-- No boundary phase is a phase of an attempt (R65). -/
theorem boundary_not_attempt {p : Phase}
    (h : p.isBoundary = true) : p.isAttempt = false := by cases p <;> simp_all [Phase.isBoundary, Phase.isAttempt]
/-- The phases of an attempt (R65). -/
theorem isAttempt_iff
    (p : Phase) : p.isAttempt = true ↔ p = .arbitrating ∨ p = .sending ∨ p = .windowOut := by cases p <;> simp [Phase.isAttempt]

/-- Going to OFF keeps the line engine sound. -/
theorem LineSound.goOff {s : State} (h : LineSound s) : LineSound (goOff s) := by
  obtain ⟨a,b,c,d,e,g,f⟩ := h
  unfold Machine.goOff clearFault
  split <;> simp_all [LineSound, Phase.isAttempt]

/-- A line engine with run 0, not muted and in no attempt is sound when its fault flag and OFFLINE agree with its phase. -/
theorem LineSound.fresh {t : State} (h1 : t.le.errorRun = 0) (h2 : t.le.muted = false)
    (h3 : t.le.phase.isAttempt = false)
   (h4 : t.le.fault = true → t.le.phase = .fault ∧ (t.le.mode = .listen ∨ t.le.mode = .online) ∨ t.hp.engine = .resetting)
   (h5 : t.le.mode = .offline → t.le.phase = .off) (h6 : t.le.txd = .released) : LineSound t := by
  refine ⟨by omega, by simp [h1, h2, Config.muteThreshold], by simp [h3], by simp [h2], h4, h5, by simp [h6]⟩

/-- Taking a mode in a boundary phase keeps the line engine sound. -/
theorem LineSound.takeMode {s : State} (h : LineSound s) (hb : s.le.phase.isBoundary = true)
    (he : s.hp.engine = .running) (m) :
    LineSound (takeMode m s) := by
  have hna := boundary_not_attempt hb
  obtain ⟨a,b,c,d,e,g,f⟩ := h
  have hrel : s.le.txd = .released := by
    cases ht : s.le.txd
    · rfl
    · obtain ⟨_, _, hp | hp⟩ := f ht
      · simp_all
      · rw [hp] at hb; cases hb
  simp only [he] at e
  have hx : LineSound (applyMode s.le.mode m
    (s.updLe (fun l => { l with mode := m, pendingMode := none, errorRun := 0, muted := false }))) := by
    unfold applyMode
    by_cases hm : m = s.le.mode
    · subst hm
      rw [if_pos rfl]
      exact LineSound.fresh rfl rfl hna (by simp [he]; simpa using e) g hrel
    · rw [if_neg hm]
      have key : s.le.mode = .offline ∨ s.le.mode = .loopback → s.le.fault = false := by
        intro hh; by_contra hf; have := e (by simpa using hf); rcases hh with hh | hh <;> simp [hh] at this
      cases hmm : m with
      | offline =>
        apply LineSound.fresh <;> simp [Machine.goOff, clearFault] <;> split <;> simp_all [Phase.isAttempt]
      | loopback =>
        apply LineSound.fresh <;> simp [Machine.setPhase, measureQuiet, clearFault] <;> (try split) <;> simp_all [Phase.isAttempt]
      | listen =>
        dsimp only
        split
        · next ho => exact LineSound.fresh rfl rfl rfl (by simp [Machine.setPhase, measureQuiet, key ho]) (by simp [Machine.setPhase, measureQuiet]) hrel
        · next ho =>
          split
          · next hf => exact LineSound.fresh rfl rfl hna (by intro _; left; exact ⟨by simpa using hf, by simp⟩) (by simp) hrel
          · next hf =>
            have hf' : s.le.fault = false := by by_contra hq; have := e (by simpa using hq); simp at hf; simp_all
            unfold joinIfQuiet
            split <;> exact LineSound.fresh rfl rfl rfl (by simp [Machine.setPhase, hf']) (by simp [Machine.setPhase]) (by simp [Machine.setPhase, hrel])
      | online =>
        dsimp only
        split
        · next ho => exact LineSound.fresh rfl rfl rfl (by simp [Machine.setPhase, measureQuiet, key ho]) (by simp [Machine.setPhase, measureQuiet]) hrel
        · next ho =>
          split
          · next hf => exact LineSound.fresh rfl rfl hna (by intro _; left; exact ⟨by simpa using hf, by simp⟩) (by simp) hrel
          · next hf =>
            have hf' : s.le.fault = false := by by_contra hq; have := e (by simpa using hq); simp at hf; simp_all
            unfold joinIfQuiet
            split <;> exact LineSound.fresh rfl rfl rfl (by simp [Machine.setPhase, hf']) (by simp [Machine.setPhase]) (by simp [Machine.setPhase, hrel])
  simp only [Machine.takeMode]
  split
  · exact hx.congr (by simp)
  · exact hx.congr (by simp)

/-- What is taken at a boundary phase keeps the line engine sound. -/
theorem LineSound.atBoundary {s : State} (h : LineSound s) : LineSound (atBoundary s) := by
  unfold Machine.atBoundary
  split
  · next hb =>
    split
    · exact h.goOff
    · next he =>
      split
      · exact h.takeMode hb he _
      · exact h
    all_goals exact h
  · exact h

/-- A mode request keeps the line engine sound. -/
theorem LineSound.requestMode {s : State} (h : LineSound s) (m) : LineSound (requestMode m s) :=
  LineSound.atBoundary (s := s.updLe _) h

/-- The line engine's part of an attempt end keeps the line engine sound. -/
theorem LineSound.leaveAttempt {s : State} (h : LineSound s) (o kept) (ha : s.le.phase.isAttempt = true)
    (hl : s.le.mode = .loopback → ∃ x, o = .sentClean x) :
    LineSound (leaveAttempt o kept s) := by
  obtain ⟨a,b,c,d,e,g,f⟩ := h
  obtain ⟨c1, c2⟩ := c ha
  have hne : s.le.errorRun ≠ 16 := by intro h; simp_all [Config.muteThreshold]
  have hphase : s.le.phase ≠ .fault := by intro h; simp_all [Phase.isAttempt]
  have hmode : s.le.mode ≠ .offline := by intro h; simp_all [Phase.isAttempt]
  have hlt : s.le.errorRun < 16 := by simp only [Config.muteThreshold] at a; omega
  have hfl : s.le.fault = true → s.hp.engine = .resetting := by intro h; rcases e h with h | h; exact absurd h.1 hphase; exact h
  clear e a
  unfold Machine.leaveAttempt muteIfDue
  cases o <;> split <;> simp_all [LineSound, Phase.isAttempt, AttemptOutcome.phaseAfter, runAfter, Config.muteThreshold, AttemptOutcome.isLineError] <;> omega

/-- An attempt end keeps the line engine sound. -/
theorem LineSound.endAttempt {s : State} (h : LineSound s) (o kept) (ha : s.le.phase.isAttempt = true)
    (hl : s.le.mode = .loopback → ∃ x, o = .sentClean x) :
    LineSound (endAttempt o kept s) := by
  unfold Machine.endAttempt
  split
  · exact h
  · have h' := h.leaveAttempt o kept ha hl
    dsimp only
    split
    · exact h'.congr (by simp)
    · exact h'.congr (by simp)

/-- The entry into FAULT keeps the line engine sound. -/
theorem LineSound.enterFault {s : State} (h : LineSound s) : LineSound (enterFault s) := by
  unfold Machine.enterFault
  by_cases hc : s.le.phase = .off ∨ s.le.mode = .loopback
  · rw [if_pos hc]; exact h
  · rw [if_neg hc]
    by_cases hf : s.le.phase = .fault
    · rw [if_pos hf]; exact h
    · rw [if_neg hf]
      have hm1 : (if s.le.phase.isAttempt = true then Machine.endAttempt .lineFault none s else s).le.mode = s.le.mode := by split <;> simp
      have h1 : LineSound (if s.le.phase.isAttempt = true then Machine.endAttempt .lineFault none s else s) := by
        split
        · next ha => exact h.endAttempt _ _ ha (fun e => by simp_all)
        · exact h
      dsimp only
      generalize (if s.le.phase.isAttempt = true then Machine.endAttempt .lineFault none s else s) = u at h1 hm1
      have h2 : LineSound (if u.le.phase = .receiving then abandonReception u else u) := by
        split
        · exact h1.congr (by simp)
        · exact h1
      have hm2 : (if u.le.phase = .receiving then abandonReception u else u).le.mode = u.le.mode := by split <;> simp
      generalize (if u.le.phase = .receiving then abandonReception u else u) = v at h2 hm2
      apply LineSound.atBoundary
      obtain ⟨a,b,c,d,e,g,f⟩ := h2
      have hmv : v.le.mode = .listen ∨ v.le.mode = .online := by
        have h3 := h.2.2.2.2.2.1
        rw [hm2, hm1]
        cases hh : s.le.mode <;> simp_all
      exact ⟨a, b, by simp [Phase.isAttempt], d, by simp [hmv], by rcases hmv with h | h <;> simp [h], by simp⟩

/-- In LOOPBACK an attempt ends SENT_CLEAN only (R83). -/
theorem attemptOutcomeAt_loop {f line} {s : State} {o} (hm : s.le.mode = .loopback)
    (h : attemptOutcomeAt f line s = some o) :
    ∃ x, o = .sentClean x := by
  unfold attemptOutcomeAt at h
  split at h
  · cases h
  · split at h
    · split at h
      · cases h; exact ⟨_, rfl⟩
      · simp [cellOutcome, hm] at h
    · cases h

/-- An attempt end at the reading of a cell keeps the line engine sound. -/
theorem LineSound.attemptEndAt {s : State} (h : LineSound s) (ha : s.le.phase.isAttempt = true)
    (cells quiet) :
    LineSound (attemptEndAt cells quiet s) := by
  unfold Machine.attemptEndAt
  split
  · exact h
  · dsimp only
    split
    · exact h
    · exact h.enterFault
    · next ho =>
      exact (LineSound.endAttempt (s := measureQuiet quiet s) h _ _ ha (fun e => attemptOutcomeAt_loop e ho)).atBoundary

/-- The end of an event keeps the line engine sound. -/
theorem LineSound.conclude {s : State} (h : LineSound s) : LineSound (conclude s) :=
  h.congr (by simp)

/-- The end of an attempt's event keeps the line engine sound. -/
theorem LineSound.concludeAttempt {s : State} (h : LineSound s) (m) : LineSound (concludeAttempt m s) :=
  h.congr (by simp)

/-- What an attempt needs to begin (R69). -/
theorem lineReady_and {s : State} (h : mayStart s = true) : s.le.phase = .idle ∧
    (s.le.mode = .online ∧ s.le.muted = false ∨ s.le.mode = .loopback) ∧ s.hp.engine = .running := by
  unfold mayStart lineReady at h
  simp at h
  tauto

/-- An attempt may begin at an SOF edge only at a plain moment, not at that of an expiry that has emptied the slot (R60). -/
theorem mayStartAt_iff {m : SofMoment} {s : State} : mayStartAt m s = true ↔ m = .plain ∧ mayStart s = true := by
  simp [mayStartAt]

/-- The SOF edge of an expiry that has emptied the slot is followed as a receiver, whatever the slot holds (R60, R69). -/
theorem sofEdge_afterExpiry (quiet : Nat) {s : State} (hi : s.le.phase = .idle) (hm : s.le.mode ≠ .loopback) :
    sofEdge .afterExpiry quiet s = startReceiving s := by
  simp [sofEdge, hi, hm, mayStartAt]

/-- The beginning of an attempt keeps the line engine sound. -/
theorem LineSound.startAttempt {s : State} (h : LineSound s) (hm : mayStart s = true) :
    LineSound (startAttempt s) := by
  obtain ⟨h1, h2, h3⟩ := lineReady_and hm
  obtain ⟨a,b,c,d,e,g,f⟩ := h
  have hf : s.le.fault = false := by by_contra hf; have := e (by simpa using hf); simp_all
  refine ⟨a, b, ?_, d, by simp [Machine.startAttempt, hf], by rcases h2 with h2 | h2 <;> simp [Machine.startAttempt, h2], ?_⟩
  · intro _; simp only [Machine.startAttempt, State.updLe_fields, State.updSch_fields]; rcases h2 with h2 | h2 <;> simp_all
  · simp only [Machine.startAttempt, State.updLe_fields, State.updSch_fields, originatorDrive, Phase.isAttempt]; intro hx; split at hx <;> simp_all

/-- Following a frame from its SOF keeps the line engine sound. -/
theorem LineSound.startReceiving {s : State} (h : LineSound s) (hi : s.le.phase = .idle): LineSound
    (startReceiving s) := by
  obtain ⟨a,b,c,d,e,g,f⟩ := h
  refine ⟨a, b, by simp [Machine.startReceiving, Phase.isAttempt], d, ?_, ?_, ?_⟩
  · intro hf; have := e hf; simp_all
  · intro hm; have := g hm; simp_all
  · intro ht; have := f ht; simp_all [Phase.isAttempt]

/-- A pulse outside a frame keeps the line engine sound. -/
theorem LineSound.restartQuiet {s : State} (h : LineSound s) : LineSound (restartQuiet s) :=
  h.congr (by simp)

/-- An SOF edge keeps the line engine sound. -/
theorem LineSound.sofEdge {s : State} (h : LineSound s) (m q) : LineSound (sofEdge m q s) := by
  unfold Machine.sofEdge
  split
  · next hi =>
    split
    · next hm => exact h.startAttempt (mayStartAt_iff.1 hm.1).2
    · exact h.startReceiving hi.1
  · exact h.restartQuiet

/-- The end of a soft reset keeps the line engine sound. -/
theorem LineSound.softReset (s : State) : LineSound (softResetState s) := by
  exact (show LineSound State.reset by decide).congr ⟨rfl, rfl, rfl, rfl, rfl, rfl, rfl⟩

/-- Where no frame is sent or answered, TXD is released. -/
theorem LineSound.notDriving {s : State} (h : LineSound s)
    (h1 : s.le.phase.isAttempt = false) (h2 : s.le.phase ≠ .receiving) : s.le.txd = .released := by
  obtain ⟨a,b,c,d,e,g,f⟩ := h
  cases hx : s.le.txd
  · rfl
  · have := f hx; simp_all

/-- TXD taken up by a responder keeps the line engine sound: it is driven in ONLINE, unmuted, in RECEIVING alone. -/
theorem LineSound.takeUpAnswer {s : State} (h : LineSound s) : LineSound (takeUpAnswer s) := by
  obtain ⟨a,b,c,d,e,g,f⟩ := h
  refine ⟨by simpa using a, by simpa using b, by simpa using c, by simpa using d, by simpa using e, by simpa using g, ?_⟩
  have hd : (Machine.takeUpAnswer s).le.txd = responderDrive s.le := rfl
  rw [hd]
  simp only [takeUpAnswer_frame]
  unfold responderDrive
  split
  · split
    · next hc => intro _; exact ⟨hc.2.1, hc.2.2.1, Or.inr hc.1⟩
    · intro hx; cases hx
  · intro hx; cases hx

/-- A change of the frame in progress alone, with TXD released or as before, keeps the line engine sound. -/
theorem LineSound.withTxd {s t : State} (h : LineSound s) (h6 : t.le.txd = .released ∨ t.le.txd = s.le.txd)
    (e : t.le.mode = s.le.mode ∧ t.le.phase = s.le.phase ∧ t.le.muted = s.le.muted ∧ t.le.fault = s.le.fault
      ∧ t.le.errorRun = s.le.errorRun ∧ t.hp.engine = s.hp.engine) : LineSound t := by
  obtain ⟨a,b,c,d,f,g,i⟩ := h
  obtain ⟨h1, h2, h3, h4, h5, h7⟩ := e
  unfold LineSound
  rw [h1, h2, h3, h4, h5, h7]
  refine ⟨a, b, c, d, f, g, ?_⟩
  rcases h6 with h6 | h6
  · intro hx; rw [h6] at hx; cases hx
  · rw [h6]; exact i

/-- The check end keeps the line engine sound. -/
theorem LineSound.reachCheckEnd {s : State} (h : LineSound s) (f p c) : LineSound (reachCheckEnd f p c s) := by
  unfold Machine.reachCheckEnd
  apply LineSound.takeUpAnswer
  exact h.withTxd (Or.inl (by simp)) (by simp)

/-- A receiver's slot end keeps the line engine sound. -/
theorem LineSound.receiverSlotEnd {s : State} (h : LineSound s) (f k) : LineSound (receiverSlotEnd f k s) := by
  unfold Machine.receiverSlotEnd
  apply LineSound.takeUpAnswer
  exact h.withTxd (Or.inr (by simp)) (by simp)

/-- The originator's slot end in WINDOW_OUT keeps the line engine sound. -/
theorem LineSound.originatorSlotEnd {s : State} (h : LineSound s) (hp : s.le.phase = .windowOut) (f k m r) :
    LineSound (originatorSlotEnd f k m r s) := by
  obtain ⟨a,b,c,d,e,g,i⟩ := h
  unfold Machine.originatorSlotEnd
  split
  · exact ⟨a, b, c, d, e, g, i⟩
  · refine ⟨a, b, c, d, e, g, ?_⟩
    intro hx
    have hm : s.le.mode = .online := by
      simp only [State.updLe_fields] at hx
      split at hx
      · unfold originatorDrive at hx
        split at hx
        · assumption
        · cases hx
      · cases hx
    have ha : s.le.phase.isAttempt = true := by simp [hp, Phase.isAttempt]
    exact ⟨hm, (c ha).2, Or.inl ha⟩

/-- Leaving a frame for a phase of no attempt with the fault flag clear is sound. -/
theorem LineSound.leave {s t : State} (h : LineSound s) (h1 : t.le.mode = s.le.mode) (h3 : t.le.muted = s.le.muted)
  (h4 : t.le.fault = false) (h5 : t.le.errorRun = s.le.errorRun) (h6 : t.le.txd = .released) (h2 : t.le.phase.isAttempt = false) (hno : s.le.phase ≠ .off) : LineSound t := by
  obtain ⟨a,b,c,d,e,g,f⟩ := h
  unfold LineSound; rw [h1,h3,h4,h5,h6,h2]; simp_all

/-- Outside FAULT the fault flag is clear, but for a soft reset in progress. -/
theorem fault_false {s : State} (h : LineSound s) (h1 : s.le.phase ≠ .fault)
    (h2 : s.hp.engine ≠ .resetting) : s.le.fault = false := by
  by_contra hf; have := h.2.2.2.2.1 (by simpa using hf); simp_all

/-- Abandoning a followed frame keeps the line engine sound. -/
theorem LineSound.abandonFrame {s : State} (h : LineSound s) (hp : s.le.phase = .receiving) (q) :
    LineSound (abandonFrame q s) := by
  apply LineSound.atBoundary
  obtain ⟨a,b,c,d,e,g,f⟩ := h
  refine ⟨by simpa using a, by simpa using b, by simp [Phase.isAttempt], by simpa using d, ?_, by intro hm; have := g (by simpa using hm); simp_all, by simp⟩
  intro hf; have := e (by simpa using hf); simp_all

/-- The end of a followed frame keeps the line engine sound. -/
theorem LineSound.endFrame {s : State} (h : LineSound s) (hp : s.le.phase = .receiving) (q) :
    LineSound (endFrame q s) := by
  apply LineSound.atBoundary
  obtain ⟨a,b,c,d,e,g,f⟩ := h
  refine ⟨by simpa using a, by simpa using b, by simp [Phase.isAttempt], by simpa using d, ?_, by intro hm; have := g (by simpa using hm); simp_all, by simp⟩
  intro hf; have := e (by simpa using hf); simp_all

/-- A change of phase outside FAULT and OFF is sound when it begins no attempt. -/
theorem LineSound.setPhase {s t : State} (h : LineSound s) (hp : s.le.phase ≠ .fault ∧ s.le.phase ≠ .off)
    (p : Phase) (hpa : p.isAttempt = true → s.le.phase.isAttempt = true)
  (h1 : t.le.mode = s.le.mode) (h2 : t.le.phase = p) (h3 : t.le.muted = s.le.muted)
  (h4 : t.le.fault = s.le.fault) (h5 : t.le.errorRun = s.le.errorRun) (h6 : t.le.txd = .driving → s.le.mode = .online ∧ s.le.muted = false ∧ (p.isAttempt = true ∨ p = .receiving)) (h7 : t.hp.engine = s.hp.engine) : LineSound t := by
  obtain ⟨a,b,c,d,e,g,f⟩ := h
  unfold LineSound; rw [h1,h2,h3,h4,h5,h7]
  refine ⟨a,b,fun x => c (hpa x),d,fun x => ?_,fun x => by have := g x; simp_all,h6⟩
  have := e x; simp_all

/-- The entry into HALTED keeps the line engine sound. -/
theorem LineSound.enterHalted {s : State} (h : LineSound s) (hr : s.hp.engine ≠ .resetting) (r) :
    LineSound (enterHalted r s) := by
  apply LineSound.atBoundary
  obtain ⟨a,b,c,d,e,g,f⟩ := h
  refine ⟨a, b, c, d, ?_, g, f⟩
  intro hf; have := e hf; simp_all

/-- An administrative command keeps the line engine sound. -/
theorem LineSound.performCommand {s : State} (h : LineSound s) (c q) : LineSound (performCommand c q s) := by
  cases c with
  | lineMode code =>
    simp only [Machine.performCommand, performLineMode]
    split
    · apply LineSound.requestMode
      split <;> exact h
    · exact h
  | nodeSet p =>
    simp only [Machine.performCommand, performNodeSet]
    (repeat' split) <;> exact h.congr (by simp)
  | openSend p =>
    simp only [Machine.performCommand, performOpenSend]
    (repeat' split) <;> exact h.congr (by simp)
  | openArrival p =>
    simp only [Machine.performCommand, performOpenArrival]
    (repeat' split) <;> exact h.congr (by simp)
  | closeRing p =>
    simp only [Machine.performCommand, performCloseRing, performCloseSend, performCloseArrival]
    (repeat' split) <;> exact h.congr (by simp)
  | filterWrite p f =>
    simp only [Machine.performCommand, performFilterWrite]
    (repeat' split) <;> exact h.congr (by simp)
  | filterRead p =>
    simp only [Machine.performCommand, performFilterRead]
    exact h.congr (by simp)
  | countsRead p =>
    simp only [Machine.performCommand, performCountsRead]
    exact h.congr (by simp)

end Sys2Proof.Machine
end

