-- ==== Sys2Proof/Laws/Pool.lean ====
section
/-! SUPPORT. Every shared operation keeps the pool sound (R30): the use counts and the cells held are the numbers of
cells they count, within the limits. -/

namespace Sys2Proof.Machine

/-! ## When nothing of the pool changes -/

/-- The pool is as sound as before when its cells and counts, its limits and every ring's cells held are as before. -/
theorem PoolSound.congr {s t : State} (h : PoolSound s) (cp : t.cp = s.cp)
    (send : ∀ r, (t.send r).held = (s.send r).held) (arrival : ∀ r, (t.arrival r).held = (s.arrival r).held) :
    PoolSound t := by
  obtain ⟨hu, ⟨hs, ha⟩, hl⟩ := h
  refine ⟨?_, ⟨fun r => ?_, fun r => ?_⟩, ?_⟩
  · simpa only [UseCounts, cp] using hu
  · rw [send, cp, hs]
  · rw [arrival, cp, ha]
  · simpa only [UseWithinLimits, cp] using hl

/-- The same when the rings are as before as well. -/
theorem PoolSound.congr_rings {s t : State} (h : PoolSound s) (cp : t.cp = s.cp) (send : t.rct.send = s.rct.send)
    (arrival : t.rct.arrival = s.rct.arrival) : PoolSound t :=
  h.congr cp (fun r => by simp [State.send, send]) (fun r => by simp [State.arrival, arrival])

/-- The notice-owed flag plays no part. -/
theorem PoolSound.setNotice {s : State} (h : PoolSound s) (b : Bool) :
    PoolSound (s.updCp (fun p => { p with noticeOwed := b })) := h

/-- A send ring update that keeps cells held keeps the pool sound. -/
theorem PoolSound.updSend {s : State} (h : PoolSound s) (r : SendId) (f : SendRing → SendRing)
    (hf : ∀ c, (f c).held = c.held) : PoolSound (s.updSend r f) :=
  h.congr rfl
    (fun j => by rw [State.send_updSend]; split <;> simp_all)
    (fun j => rfl)

/-- An arrival ring update that keeps cells held keeps the pool sound. -/
theorem PoolSound.updArrival {s : State} (h : PoolSound s) (r : ArrivalId) (f : ArrivalRing → ArrivalRing)
    (hf : ∀ c, (f c).held = c.held) : PoolSound (s.updArrival r f) :=
  h.congr rfl (fun j => rfl)
    (fun j => by rw [State.arrival_updArrival]; split <;> simp_all)

/-- A cell replaced by one that counts in the same way keeps the pool sound. -/
theorem PoolSound.setCell {s : State} (h : PoolSound s) (id : CellId) (c : Cell)
    (tx : c.isTx = (s.cell id).isTx) (low : c.isLow = (s.cell id).isLow) (rx : c.isRx = (s.cell id).isRx)
    (send : ∀ r, c.isOfSend r = (s.cell id).isOfSend r)
    (arrival : ∀ r, c.isOfArrival r = (s.cell id).isOfArrival r) : PoolSound (s.setCell id c) := by
  have same (p : Cell → Bool) (hp : p c = p (s.cell id)) :
      (s.cp.cells.set id.val c).countP p = s.cp.cells.countP p := by
    have hle : (if p s.cp.cells[id.val] = true then 1 else 0) ≤ s.cp.cells.countP p := by
      split
      · exact Vector.countP_pos_iff.mpr ⟨_, Vector.getElem_mem id.isLt, by assumption⟩
      · exact Nat.zero_le _
    rw [Vector.countP_set, hp, State.cell]; omega
  obtain ⟨⟨h1, h2, h3⟩, ⟨hs, ha⟩, hl⟩ := h
  refine ⟨⟨?_, ?_, ?_⟩, ⟨fun r => ?_, fun r => ?_⟩, hl⟩ <;> simp only [State.setCell_fields]
  · rw [same _ tx]; exact h1
  · rw [same _ low]; exact h2
  · rw [same _ rx]; exact h3
  · rw [same _ (send r)]; exact hs r
  · rw [same _ (arrival r)]; exact ha r

/-- A transmit cell's fields other than ring and class may change. -/
theorem PoolSound.updTx {s : State} (h : PoolSound s) (id : CellId) (f : TxCell → TxCell)
    (ring : ∀ c, (f c).ring = c.ring) (cls : ∀ c, (f c).cls = c.cls) : PoolSound (s.updTx id f) := by
  unfold State.updTx
  split
  · next c hc =>
    exact h.setCell id _ (by simp [hc, Cell.isTx]) (by simp [hc, Cell.isLow, cls]) (by simp [hc, Cell.isRx])
      (fun r => by simp [hc, Cell.isOfSend, ring]) (fun r => by simp [hc, Cell.isOfArrival])
  · exact h

/-! ## Grants and frees -/

/-- The lowest free cell is FREE. -/
theorem lowestFree_isFree {s : State} {id : CellId} (h : lowestFree s = some id) : s.cell id = .free := by
  have hf := List.find?_some h
  revert hf
  cases s.cell id <;> simp [Cell.isFree]

/-- The count of cells with a property, after a FREE cell is filled. -/
theorem countP_fill {s : State} {id : CellId} (h : s.cell id = .free) (p : Cell → Bool) (hp : p .free = false)
    (c : Cell) : (s.cp.cells.set id.val c).countP p = s.cp.cells.countP p + if p c then 1 else 0 := by
  have hc : s.cp.cells[id.val] = .free := h
  rw [Vector.countP_set, hc, hp]; simp

/-- The count of cells with a property, after a cell is emptied. -/
theorem countP_empty (s : State) (id : CellId) (p : Cell → Bool) (hp : p .free = false) :
    (s.cp.cells.set id.val .free).countP p = s.cp.cells.countP p - if p (s.cell id) then 1 else 0 := by
  rw [Vector.countP_set, hp, State.cell]; simp

/-- A cell with a property counts at least once. -/
theorem countP_ge_one {s : State} (id : CellId) (p : Cell → Bool) (h : p (s.cell id) = true) :
    1 ≤ s.cp.cells.countP p :=
  Vector.countP_pos_iff.mpr ⟨_, Vector.getElem_mem id.isLt, h⟩

/-- A transmit grant of a FREE cell under the conditions of R31 keeps the pool sound. -/
theorem PoolSound.grantTx {s : State} (h : PoolSound s) {id : CellId} (hfree : s.cell id = .free) (c : TxCell)
    (htx : s.cp.txInUse < s.cp.txLimit)
    (hlow : c.cls ≠ 0 → s.cp.lowInUse + Config.urgentReserve < s.cp.txLimit) : PoolSound (grantTx id c s) := by
  obtain ⟨⟨h1, h2, h3⟩, ⟨hs, ha⟩, hl⟩ := h
  have ftx := countP_fill hfree Cell.isTx rfl (.tx c)
  have flow := countP_fill hfree Cell.isLow rfl (.tx c)
  have frx := countP_fill hfree Cell.isRx rfl (.tx c)
  have fsend := fun r => countP_fill hfree (Cell.isOfSend r) rfl (.tx c)
  have farr := fun r => countP_fill hfree (Cell.isOfArrival r) rfl (.tx c)
  refine ⟨⟨?_, ?_, ?_⟩, ⟨fun r => ?_, fun r => ?_⟩, ?_⟩
  · simpa [Machine.grantTx, ftx, Cell.isTx] using h1
  · by_cases hc : c.cls = 0 <;> simpa [Machine.grantTx, flow, Cell.isLow, hc] using h2
  · simpa [Machine.grantTx, frx, Cell.isRx] using h3
  · have key := hs r
    simp only [Machine.grantTx, State.send_updSend]
    by_cases hr : c.ring = r
    · subst hr; simpa [fsend, Cell.isOfSend, State.send] using key
    · simpa [fsend, Cell.isOfSend, State.send, hr] using key
  · have key := ha r
    simpa [Machine.grantTx, farr, Cell.isOfArrival, State.arrival] using key
  · simp only [UseWithinLimits, Machine.grantTx, State.updSend_fields, State.updCp_fields, State.setCell_fields] at hl ⊢
    by_cases hc : c.cls = 0
    · simp only [hc, if_true]; omega
    · have := hlow hc; simp only [hc, if_false]; omega

/-- A receive grant of a FREE cell below RX_LIMIT keeps the pool sound. -/
theorem PoolSound.grantRx {s : State} (h : PoolSound s) {id : CellId} (hfree : s.cell id = .free) (c : RxCell)
    (hrx : s.cp.rxInUse < s.cp.rxLimit) : PoolSound (grantRx id c s) := by
  obtain ⟨⟨h1, h2, h3⟩, ⟨hs, ha⟩, hl⟩ := h
  have ftx := countP_fill hfree Cell.isTx rfl (.rx c)
  have flow := countP_fill hfree Cell.isLow rfl (.rx c)
  have frx := countP_fill hfree Cell.isRx rfl (.rx c)
  have fsend := fun r => countP_fill hfree (Cell.isOfSend r) rfl (.rx c)
  have farr := fun r => countP_fill hfree (Cell.isOfArrival r) rfl (.rx c)
  refine ⟨⟨?_, ?_, ?_⟩, ⟨fun r => ?_, fun r => ?_⟩, ?_⟩
  · simpa [Machine.grantRx, ftx, Cell.isTx] using h1
  · simpa [Machine.grantRx, flow, Cell.isLow] using h2
  · simpa [Machine.grantRx, frx, Cell.isRx] using h3
  · have key := hs r
    simpa [Machine.grantRx, fsend, Cell.isOfSend, State.send] using key
  · have key := ha r
    simp only [Machine.grantRx, State.arrival_updArrival]
    by_cases hr : c.ring = r
    · subst hr; simpa [farr, Cell.isOfArrival, State.arrival] using key
    · simpa [farr, Cell.isOfArrival, State.arrival, hr] using key
  · simp only [UseWithinLimits, Machine.grantRx, State.updArrival_fields, State.updCp_fields,
      State.setCell_fields] at hl ⊢
    omega

/-- A free keeps the pool sound (R35). -/
theorem PoolSound.freeCell {s : State} (h : PoolSound s) (id : CellId) : PoolSound (freeCell id s) := by
  obtain ⟨⟨h1, h2, h3⟩, ⟨hs, ha⟩, hl⟩ := h
  have ftx := countP_empty s id Cell.isTx rfl
  have flow := countP_empty s id Cell.isLow rfl
  have frx := countP_empty s id Cell.isRx rfl
  have fsend := fun r => countP_empty s id (Cell.isOfSend r) rfl
  have farr := fun r => countP_empty s id (Cell.isOfArrival r) rfl
  unfold Machine.freeCell
  split
  · exact ⟨⟨h1, h2, h3⟩, ⟨hs, ha⟩, hl⟩
  · next c hc =>
    simp only [hc] at ftx flow frx fsend farr
    refine ⟨⟨?_, ?_, ?_⟩, ⟨fun r => ?_, fun r => ?_⟩, ?_⟩
    · simp [ftx, Cell.isTx, h1]
    · by_cases h0 : c.cls = 0 <;> simp [flow, Cell.isLow, h0, h2]
    · simp [frx, Cell.isRx, h3]
    · have key := hs r
      rw [State.send_updSend]
      by_cases hr : c.ring = r
      · subst hr; simp [fsend, Cell.isOfSend, State.send, ← key]
      · simp [fsend, Cell.isOfSend, State.send, hr, ← key]
    · have key := ha r
      simpa [farr, Cell.isOfArrival, State.arrival] using key
    · simp only [UseWithinLimits, State.updSend_fields, State.updCp_fields, State.setCell_fields] at hl ⊢
      by_cases h0 : c.cls = 0
      · simp only [h0, if_true]; omega
      · simp only [h0, if_false]; omega
  · next c hc =>
    simp only [hc] at ftx flow frx fsend farr
    refine ⟨⟨?_, ?_, ?_⟩, ⟨fun r => ?_, fun r => ?_⟩, ?_⟩
    · simp [ftx, Cell.isTx, h1]
    · simp [flow, Cell.isLow, h2]
    · simp [frx, Cell.isRx, h3]
    · have key := hs r
      simpa [fsend, Cell.isOfSend, State.send] using key
    · have key := ha r
      rw [State.arrival_updArrival]
      by_cases hr : c.ring = r
      · subst hr; simp [farr, Cell.isOfArrival, State.arrival, ← key]
      · simp [farr, Cell.isOfArrival, State.arrival, hr, ← key]
    · simp only [UseWithinLimits, State.updArrival_fields, State.updCp_fields, State.setCell_fields] at hl ⊢
      omega

/-! ## The scheduler -/

theorem PoolSound.completeCell {s : State} (h : PoolSound s) (id : CellId) (status : SendStatus) :
    PoolSound (completeCell id status s) :=
  (h.updTx id (fun c => { c with deadline := none }) (fun _ => rfl) (fun _ => rfl)).congr_rings rfl rfl rfl

theorem PoolSound.setVerdict {s : State} (h : PoolSound s) (v : Verdict) (id : CellId) : PoolSound (setVerdict v id s) :=
  h.updTx id _ (fun _ => rfl) (fun _ => rfl)

/-- A property that each step of a fold keeps is kept by the fold. -/
theorem foldl_keeps_prop {α β : Type} (P : β → Prop) (f : β → α → β) (h : ∀ b a, P b → P (f b a)) (l : List α) (b : β)
    (hb : P b) : P (l.foldl f b) := by
  induction l generalizing b with
  | nil => exact hb
  | cons a l ih => exact ih _ (h _ _ hb)

theorem PoolSound.verdictDepartures {s : State} (h : PoolSound s) (ring : SendId) :
    PoolSound (verdictDepartures ring s) := by
  unfold Machine.verdictDepartures
  split
  · exact h
  · exact foldl_keeps_prop PoolSound _ (fun _ _ hb => hb.completeCell _ _) _ _ (h.congr_rings rfl rfl rfl)

theorem PoolSound.withdrawOffer {s : State} (h : PoolSound s) : PoolSound (withdrawOffer s) := by
  unfold Machine.withdrawOffer
  (repeat' split) <;> first | exact h | skip
  exact PoolSound.verdictDepartures (s := joinHead _ _ (emptySlot s)) (h.congr_rings rfl rfl rfl) _

/-- The outcome's counts change neither ring nor class. -/
theorem countOutcome_keeps (c : TxCell) (o : AttemptOutcome) :
    (countOutcome c o).ring = c.ring ∧ (countOutcome c o).cls = c.cls := by cases o <;> exact ⟨rfl, rfl⟩

theorem PoolSound.settleAttempt {s : State} (h : PoolSound s) (id : CellId) (o : AttemptOutcome) :
    PoolSound (settleAttempt id o s) := by
  unfold Machine.settleAttempt
  split
  · next c hc =>
    have hk := countOutcome_keeps c o
    have h' : PoolSound (s.setCell id (.tx (countOutcome c o))) :=
      h.setCell id _ (by simp [hc, Cell.isTx]) (by simp [hc, Cell.isLow, hk]) (by simp [hc, Cell.isRx])
        (fun r => by simp [hc, Cell.isOfSend, hk]) (fun r => by simp [hc, Cell.isOfArrival])
    dsimp only
    split
    · exact h'.congr_rings rfl rfl rfl
    · exact (h'.completeCell _ _).verdictDepartures _
  · exact h

theorem PoolSound.expireCell {s : State} (h : PoolSound s) (id : CellId) (c : TxCell) : PoolSound (expireCell id c s) := by
  unfold Machine.expireCell
  split
  · split
    · exact h.setVerdict _ _
    · exact PoolSound.verdictDepartures (PoolSound.completeCell (s := emptySlot s) (h.congr_rings rfl rfl rfl) _ _) _
  · split
    · exact (h.setVerdict _ _).verdictDepartures _
    · exact h

theorem PoolSound.flushRing {s : State} (h : PoolSound s) (ring : SendId) : PoolSound (flushRing ring s) :=
  PoolSound.verdictDepartures (foldl_keeps_prop PoolSound _ (fun _ _ hb => hb.setVerdict _ _) _ _ h) ring

theorem PoolSound.closeIfDrainedSend {s : State} (h : PoolSound s) (ring : SendId) :
    PoolSound (closeIfDrainedSend ring s) := by
  unfold Machine.closeIfDrainedSend
  split
  · exact (h.updSend ring (fun r => { r with state := .closed }) (fun _ => rfl)).congr_rings
      (by simp) (by simp) (by simp)
  · exact h

/-! ## The fetch engine -/

/-- What a granted transmit claim says of the counts (R31). -/
theorem judgeTransmitClaim_granted {cls : ClassId} {s : State} (h : judgeTransmitClaim cls s = .granted) :
    s.cp.txInUse < s.cp.txLimit ∧ (cls ≠ 0 → s.cp.lowInUse + Config.urgentReserve < s.cp.txLimit) := by
  unfold judgeTransmitClaim at h
  split at h
  · cases h
  · split at h
    · cases h
    · split at h
      · cases h
      · next h1 h2 => exact ⟨by omega, fun hc => by by_contra hn; exact h2 ⟨hc, by omega⟩⟩

theorem PoolSound.beginFetch {s : State} (h : PoolSound s) {r : SendId} {id : CellId}
    (hg : judgeTransmitClaim (s.send r).cls s = .granted) (hfree : s.cell id = .free) : PoolSound (beginFetch r id s) := by
  have hj := judgeTransmitClaim_granted hg
  exact (PoolSound.updSend ((h.grantTx hfree (freshTx r (s.send r).head (s.send r).cls) hj.1 hj.2).congr_rings
    (t := (Machine.grantTx id (freshTx r (s.send r).head (s.send r).cls) s).updFe _) rfl rfl rfl) r
      (fun c => { c with fetchInFlight := true }) (fun _ => rfl)).congr_rings rfl rfl rfl

theorem PoolSound.fetchVisit {s : State} (h : PoolSound s) (l : List SendId) (b : Bool) :
    PoolSound (fetchVisit l b s) := by
  induction l generalizing b s with
  | nil => exact h.congr_rings rfl rfl rfl
  | cons r l ih =>
    simp only [Machine.fetchVisit]
    split
    · split
      · next hg =>
        split
        · next id hid => exact h.beginFetch hg (lowestFree_isFree hid)
        · exact (h.setNotice true).congr_rings rfl rfl rfl
      · exact ih (h.setNotice true) _
      · exact (h.setNotice true).congr_rings rfl rfl rfl
      · exact (h.setNotice true).congr_rings rfl rfl rfl
      · exact h.congr_rings rfl rfl rfl
    · exact ih h _

theorem PoolSound.fetchDecision {s : State} (h : PoolSound s) : PoolSound (fetchDecision s) := by
  unfold Machine.fetchDecision; split
  · exact h.fetchVisit _ _
  · exact h

theorem PoolSound.roomNotice {s : State} (h : PoolSound s) : PoolSound (roomNotice s) := by
  unfold Machine.roomNotice; split
  · exact PoolSound.fetchDecision (h.setNotice false)
  · exact h

/-- Filling a cell at its fetch end changes neither ring nor class. -/
theorem filledCell_keeps (c : TxCell) (v : Option Verdict) (r : ReadEnd) (b : BitVec 4) (t : Word) :
    (filledCell c v r b t).ring = c.ring ∧ (filledCell c v r b t).cls = c.cls := by
  unfold filledCell; split <;> exact ⟨rfl, rfl⟩

theorem PoolSound.takeFetchEnd {s : State} (h : PoolSound s) (r : ReadEnd) : PoolSound (takeFetchEnd r s) := by
  unfold Machine.takeFetchEnd; split
  · exact h
  · next f _ =>
    refine PoolSound.fetchDecision (PoolSound.verdictDepartures ?_ _)
    refine PoolSound.congr_rings (s := State.updTx _ _ _) ?_ rfl rfl rfl
    refine PoolSound.updTx ?_ _ _ (fun c => (filledCell_keeps c _ _ _ _).1) (fun c => (filledCell_keeps c _ _ _ _).2)
    exact (h.updSend f.ring (fun c => fetchedRing c r) (fun _ => rfl)).congr_rings rfl rfl rfl

/-! ## The arrival writer -/

theorem PoolSound.notifyArrival {s : State} (h : PoolSound s) (r : ArrivalId) : PoolSound (notifyArrival r s) :=
  (h.updArrival r (fun c => { c with unnotified := 0, timer := none }) (fun _ => rfl)).congr_rings
    (by simp [Machine.notifyArrival]) (by simp [Machine.notifyArrival]) (by simp [Machine.notifyArrival])

theorem PoolSound.closeIfDrainedArrival {s : State} (h : PoolSound s) (r : ArrivalId) :
    PoolSound (closeIfDrainedArrival r s) := by
  unfold Machine.closeIfDrainedArrival; split
  · exact ((h.updArrival r (fun c => { c with state := .closed }) (fun _ => rfl)).notifyArrival r).congr_rings
      (by simp) (by simp) (by simp)
  · exact h

theorem PoolSound.discardCell {s : State} (h : PoolSound s) (r : ArrivalId) (id : CellId) :
    PoolSound (discardCell r id s) :=
  (h.updArrival r (fun c => { c with discards := satInc c.discards }) (fun _ => rfl)).freeCell id

theorem PoolSound.discardPending {s : State} (h : PoolSound s) (r : ArrivalId) : PoolSound (discardPending r s) :=
  foldl_keeps_prop PoolSound _ (fun _ _ hb => hb.discardCell _ _) _ _ (h.congr_rings rfl rfl rfl)

theorem PoolSound.arrivalDecision {s : State} (h : PoolSound s) : PoolSound (arrivalDecision s) := by
  unfold Machine.arrivalDecision
  split
  · split
    · next r _ =>
      unfold beginArrivalWrite
      split
      · exact h
      · exact (PoolSound.updArrival (h.congr_rings (t := ((s.setArrivalPending r _).updAw _)) rfl rfl rfl) r
          (fun c => { c with writeInFlight := true }) (fun _ => rfl)).congr_rings rfl rfl rfl
    · exact h
  · exact h

theorem PoolSound.coalesceArrival {s : State} (h : PoolSound s) (r : ArrivalId) : PoolSound (coalesceArrival r s) :=
  h.congr (by simp) (fun j => by simp [State.send])
    (fun j => by
      simp only [Machine.coalesceArrival, setCauseIf_frame, State.arrival, State.updArrival_fields, Vector.getElem_set]
      split
      · next e => simp [← e]
      · rfl)

theorem PoolSound.advanceArrivalTail {s : State} (h : PoolSound s) (r : ArrivalId) :
    PoolSound (advanceArrivalTail r s) := by
  unfold Machine.advanceArrivalTail
  exact h.updArrival r _ (fun _ => rfl)

theorem PoolSound.clearArrivalWrite {s : State} (h : PoolSound s) (r : ArrivalId) :
    PoolSound (clearArrivalWrite r s) := by
  unfold Machine.clearArrivalWrite
  exact PoolSound.updArrival (s := s.updAw _) (h.congr_rings rfl rfl rfl) r _ (fun _ => rfl)

theorem PoolSound.arrivalDelivered {s : State} (h : PoolSound s) (w : ArrivalWrite) : PoolSound (arrivalDelivered w s) := by
  unfold Machine.arrivalDelivered
  exact ((((h.advanceArrivalTail _).clearArrivalWrite _).freeCell _).coalesceArrival _).closeIfDrainedArrival _

theorem PoolSound.arrivalLostDraining {s : State} (h : PoolSound s) (w : ArrivalWrite) :
    PoolSound (arrivalLostDraining w s) := by
  unfold Machine.arrivalLostDraining
  exact ((h.clearArrivalWrite _).discardCell _ _).closeIfDrainedArrival _

theorem PoolSound.arrivalFaulted {s : State} (h : PoolSound s) (w : ArrivalWrite) : PoolSound (arrivalFaulted w s) := by
  unfold Machine.arrivalFaulted
  have faulted := h.updArrival w.ring (fun c => { c with state := .faulted }) (fun _ => rfl)
  have noticed := (((faulted.clearArrivalWrite w.ring).discardCell w.ring w.cell).discardPending w.ring).notifyArrival
    w.ring
  exact noticed.congr_rings (by simp) (by simp) (by simp)

theorem PoolSound.takeArrivalEnd {s : State} (h : PoolSound s) (r : WriteEnd) : PoolSound (takeArrivalEnd r s) := by
  unfold Machine.takeArrivalEnd
  split
  · exact h
  · refine PoolSound.arrivalDecision ?_
    split
    · exact h.arrivalDelivered _
    · split
      · exact h.arrivalLostDraining _
      · exact h.arrivalFaulted _

theorem PoolSound.commitToRing {s : State} (h : PoolSound s) (r : ArrivalId) (id : CellId) :
    PoolSound (commitToRing r id s) := by
  unfold Machine.commitToRing; split
  · exact PoolSound.arrivalDecision (h.congr_rings rfl rfl rfl)
  · exact (h.discardCell _ _).closeIfDrainedArrival _

/-! ## Reception -/

/-- What a granted receive claim says of the counts, with RX_HOLD at most RX_LIMIT (R32). -/
theorem judgeReceiveClaim_granted {solicited : Bool} {s : State} (h : judgeReceiveClaim solicited s = .granted)
    (hold : s.cp.rxHold ≤ s.cp.rxLimit) : s.cp.rxInUse < s.cp.rxLimit := by
  unfold judgeReceiveClaim at h
  split at h
  · cases h
  · split at h <;> split at h <;> first | (cases h; done) | omega

theorem PoolSound.acceptFrame {s : State} (h : PoolSound s) (i : Fin 32) (e : Entry) (hd : FrameHead) (sol : Bool) :
    PoolSound (acceptFrame i e hd sol s) := by
  have hold : s.cp.rxHold ≤ s.cp.rxLimit := h.2.2.2.2.2.2.2.2.1
  simp only [Machine.acceptFrame]
  split
  · next hg =>
    split
    · next id hid =>
      exact (h.grantRx (lowestFree_isFree hid) _ (judgeReceiveClaim_granted hg hold)).congr_rings rfl rfl rfl
    · exact h.congr_rings rfl rfl rfl
  · exact h.congr_rings rfl rfl rfl
  · exact h.congr_rings rfl rfl rfl
  · exact h.congr_rings rfl rfl rfl
  · exact h.congr_rings rfl rfl rfl

theorem PoolSound.headerCall {s : State} (h : PoolSound s) (hd : FrameHead) (own allowed : Bool) :
    PoolSound (headerCall hd own allowed s) := by
  unfold Machine.headerCall
  split
  · exact h.congr_rings rfl rfl rfl
  · split
    · next i _ =>
      simp only [decideFrame]
      split
      · exact PoolSound.acceptFrame (s := countHit i s) (h.congr_rings rfl rfl rfl) _ _ _ _
      · exact h.congr_rings rfl rfl rfl
      · exact h.congr_rings rfl rfl rfl
    · exact h.congr_rings rfl rfl rfl

theorem PoolSound.dropReceptionCell {s : State} (h : PoolSound s) (id : CellId) : PoolSound (dropReceptionCell id s) := by
  unfold Machine.dropReceptionCell; split
  · exact (h.freeCell _).closeIfDrainedArrival _
  · exact h

theorem PoolSound.checkCall {s : State} (h : PoolSound s) (good : Bool) (payload : List Byte) :
    PoolSound (checkCall good payload s) := by
  unfold Machine.checkCall
  split
  · exact h
  · next r _ =>
    split
    · split
      · next id _ =>
        unfold commitReception
        split
        · next c hc =>
          refine PoolSound.commitToRing ?_ _ _
          refine PoolSound.congr_rings (s := State.setCell id _ (settleReception true r.answer r s)) ?_ rfl rfl rfl
          refine PoolSound.setCell (s := settleReception true r.answer r s) (h.congr_rings rfl rfl rfl) id _ ?_ ?_ ?_ ?_ ?_
          all_goals
            have hc' : (settleReception true r.answer r s).cell id = .rx c := hc
            simp [hc', Cell.isTx, Cell.isLow, Cell.isRx, Cell.isOfSend, Cell.isOfArrival]
        · exact h.congr_rings rfl rfl rfl
      · exact h.congr_rings (by simp) (by simp) (by simp)
    · unfold cancelReception
      split
      · next id _ =>
        exact PoolSound.dropReceptionCell (s := countCheckError (settleReception false none r s))
          (h.congr_rings rfl rfl rfl) id
      · exact h.congr_rings rfl rfl rfl

theorem PoolSound.abandonReception {s : State} (h : PoolSound s) : PoolSound (abandonReception s) := by
  unfold Machine.abandonReception
  split
  · exact h
  · split
    · next id _ =>
      exact PoolSound.dropReceptionCell (s := countFormatError (clearReception s)) (h.congr_rings rfl rfl rfl) id
    · exact h.congr_rings rfl rfl rfl

/-! ## The line engine -/

theorem PoolSound.reportMode {s : State} (h : PoolSound s) : PoolSound (reportMode s) :=
  h.congr_rings (by simp) (by simp) (by simp)

theorem PoolSound.applyMode {s : State} (h : PoolSound s) (old new : LineMode) : PoolSound (applyMode old new s) :=
  h.congr_rings (by simp) (by simp) (by simp)

theorem PoolSound.takeMode {s : State} (h : PoolSound s) (m : LineMode) : PoolSound (takeMode m s) := by
  simp only [Machine.takeMode]
  refine PoolSound.reportMode ?_
  split
  · exact (PoolSound.applyMode (s := s.updLe _) h _ _).withdrawOffer
  · exact PoolSound.applyMode (s := s.updLe _) h _ _

theorem PoolSound.atBoundary {s : State} (h : PoolSound s) : PoolSound (atBoundary s) := by
  unfold Machine.atBoundary
  (repeat' split) <;> first | exact h | skip
  · exact h.congr_rings (by simp) (by simp) (by simp)
  · exact h.takeMode _

theorem PoolSound.endAttempt {s : State} (h : PoolSound s) (o : AttemptOutcome) (rest : Option Frame) :
    PoolSound (endAttempt o rest s) := by
  unfold Machine.endAttempt
  split
  · exact h
  · have h' : PoolSound (leaveAttempt o rest s) := h.congr_rings (by simp) (by simp) (by simp)
    dsimp only
    refine PoolSound.settleAttempt ?_ _ _
    split
    · exact h'
    · exact h'.abandonReception

theorem PoolSound.enterFault {s : State} (h : PoolSound s) : PoolSound (enterFault s) := by
  have h1 (c : Prop) [Decidable c] : PoolSound (if c then Machine.endAttempt .lineFault none s else s) := by
    split
    · exact h.endAttempt _ _
    · exact h
  have h2 {t : State} (ht : PoolSound t) (c : Prop) [Decidable c] :
      PoolSound (if c then Machine.abandonReception t else t) := by
    split
    · exact ht.abandonReception
    · exact ht
  unfold Machine.enterFault
  by_cases hc : s.le.phase = .off ∨ s.le.mode = .loopback
  · rw [if_pos hc]; exact h
  · rw [if_neg hc]
    by_cases hf : s.le.phase = .fault
    · rw [if_pos hf]; exact h.congr_rings rfl rfl rfl
    · rw [if_neg hf]
      exact PoolSound.atBoundary (PoolSound.congr_rings (t := setCause .line (State.updLe _ _)) (h2 (h1 _) _)
        rfl rfl rfl)

theorem PoolSound.attemptEndAt {s : State} (h : PoolSound s) (cells : CellsRead) (quiet : Nat) :
    PoolSound (attemptEndAt cells quiet s) := by
  unfold Machine.attemptEndAt
  split
  · exact h
  · dsimp only
    split
    · exact h
    · exact h.enterFault
    · exact PoolSound.atBoundary (PoolSound.endAttempt (s := measureQuiet quiet s) (h.congr_rings rfl rfl rfl) _ _)

theorem PoolSound.abandonFrame {s : State} (h : PoolSound s) (quiet : Nat) : PoolSound (abandonFrame quiet s) :=
  PoolSound.atBoundary (h.abandonReception.congr_rings rfl rfl rfl)

theorem PoolSound.endFrame {s : State} (h : PoolSound s) (quiet : Nat) : PoolSound (endFrame quiet s) :=
  PoolSound.atBoundary (PoolSound.congr_rings (t := (clearReception s).updLe _) h rfl rfl rfl)

/-! ## The whole part -/

theorem PoolSound.conclude {s : State} (h : PoolSound s) : PoolSound (conclude s) :=
  h.congr_rings (by simp) (by simp) (by simp)

theorem PoolSound.concludeAttempt {s : State} (h : PoolSound s) (m : EndMoment) : PoolSound (concludeAttempt m s) :=
  h.congr_rings (by simp) (by simp) (by simp)

theorem PoolSound.softReset (s : State) : PoolSound (softResetState s) :=
  (show PoolSound State.reset by decide).congr_rings rfl rfl rfl

theorem PoolSound.enterHalted {s : State} (h : PoolSound s) (reason : HaltReason) : PoolSound (enterHalted reason s) :=
  PoolSound.atBoundary (PoolSound.congr_rings (t := State.updSch _ (setCause .halt (s.updHp _))) h rfl rfl rfl)

theorem PoolSound.releaseEntry {s : State} (h : PoolSound s) (e : CompletionEntry) : PoolSound (releaseEntry e s) := by
  unfold Machine.releaseEntry
  (repeat' split) <;> first | exact h | skip
  exact ((h.freeCell _).roomNotice).closeIfDrainedSend _

theorem PoolSound.coalesceCompletion {s : State} (h : PoolSound s) : PoolSound (coalesceCompletion s) :=
  h.congr_rings (by simp) (by simp) (by simp)

theorem PoolSound.endCommand {s : State} (h : PoolSound s) (status : AdminStatus) (area : List Byte) :
    PoolSound (endCommand status area s) :=
  h.congr_rings (by simp) (by simp) (by simp)

theorem PoolSound.awaitEvent {s : State} (h : PoolSound s) (a : Awaited) : PoolSound (awaitEvent a s) := h

theorem PoolSound.completionWritten {s : State} (h : PoolSound s) (w : CompletionWrite) :
    PoolSound (completionWritten w s) :=
  (PoolSound.releaseEntry (s := State.updCw _ (advanceCompletionTail s)) (h.congr_rings rfl rfl rfl)
    _).coalesceCompletion

theorem PoolSound.takeCompletionEnd {s : State} (h : PoolSound s) (r : WriteEnd) :
    PoolSound (takeCompletionEnd r s) := by
  unfold Machine.takeCompletionEnd
  (repeat' split) <;> first | exact h | exact h.completionWritten _ | exact h.enterHalted _

theorem PoolSound.takeBootEnd {s : State} (h : PoolSound s) (r : ReadEnd) : PoolSound (takeBootEnd r s) := by
  unfold Machine.takeBootEnd judgeBoot
  (repeat' split) <;> first | exact h | exact h.enterHalted _ | skip
  exact PoolSound.arrivalDecision (h.congr_rings rfl rfl rfl)

/-- A limit change within range, taken by the pool, keeps the pool sound (R36). -/
theorem PoolSound.setLimits {s : State} (h : PoolSound s) (p : NodeSetForm) (hr : nodeSetInRange p = true)
    (ht : limitChangeTaken p.txLimit.toNat p.rxLimit.toNat s = true) :
    PoolSound (setLimits p.txLimit.toNat p.rxLimit.toNat p.rxHold.toNat s) := by
  refine ⟨h.1, h.2.1, ?_⟩
  simp only [nodeSetInRange, limitChangeTaken, Bool.and_eq_true, decide_eq_true_eq] at hr ht
  simp only [UseWithinLimits, Machine.setLimits, State.updCp_fields]
  omega

theorem PoolSound.performNodeSet {s : State} (h : PoolSound s) (p : NodeSetForm) (hr : nodeSetInRange p = true) :
    PoolSound (performNodeSet p s) := by
  unfold Machine.performNodeSet
  split
  · next ht =>
    refine PoolSound.endCommand ?_ _ _
    have h' (f : AdminEngine → AdminEngine) :
        PoolSound ((Machine.setLimits p.txLimit.toNat p.rxLimit.toNat p.rxHold.toNat s).updAe f) :=
      (h.setLimits p hr ht).congr_rings rfl rfl rfl
    split
    · exact (h' _).roomNotice
    · exact h' _
  · exact h.endCommand _ _

theorem PoolSound.performCommand {s : State} (h : PoolSound s) (c : AdminCommand) (quiet : Nat)
    (hr : adminInRange c = true) : PoolSound (performCommand c quiet s) := by
  cases c with
  | nodeSet p => exact h.performNodeSet p hr
  | lineMode code =>
    simp only [Machine.performCommand, performLineMode]
    split
    · refine PoolSound.atBoundary (h.congr_rings ?_ ?_ ?_) <;> split <;> rfl
    · exact h
  | openSend p =>
    simp only [Machine.performCommand, performOpenSend]
    split
    · exact PoolSound.endCommand (PoolSound.updSend h _ _ (by intro c; rfl)) _ _
    · exact h
  | openArrival p =>
    simp only [Machine.performCommand, performOpenArrival]
    split
    · exact PoolSound.endCommand (PoolSound.updArrival h _ _ (by intro c; rfl)) _ _
    · exact h
  | closeRing ring =>
    simp only [Machine.performCommand, performCloseRing]
    split
    · next r _ =>
      exact (PoolSound.flushRing (PoolSound.awaitEvent (h.updSend r (fun c => { c with state := .draining })
        (fun _ => rfl)) .ringClosed) r).closeIfDrainedSend r
    · next r _ =>
      exact (PoolSound.discardPending (PoolSound.awaitEvent (h.updArrival r (fun c => { c with state := .draining })
        (fun _ => rfl)) .ringClosed) r).closeIfDrainedArrival r
    · exact h
  | filterWrite index form =>
    simp only [Machine.performCommand, performFilterWrite]
    split
    · exact PoolSound.endCommand (s := s.setEntry _ _) h _ _
    · exact h
  | filterRead index => exact h.endCommand _ _
  | countsRead clear address => exact h.congr_rings rfl rfl rfl

theorem PoolSound.judgeCommand {s : State} (h : PoolSound s) (c : AdminCommand) (zero : Bool) (quiet : Nat) :
    PoolSound (judgeCommand c zero quiet s) := by
  unfold Machine.judgeCommand
  split
  · exact h.congr_rings (by simp) (by simp) (by simp)
  · next hn =>
    split
    · exact h.congr_rings (by simp) (by simp) (by simp)
    · exact h.performCommand c quiet (by simp_all)

end Sys2Proof.Machine
end

