-- ==== Sys2Proof/Laws/Reception.lean ====
section
/-! SUPPORT. What the operations on a reception's cell can do (R102 to R105, R132, R141): the close of a drained arrival
ring, the discard and the drop of a cell, the commit; and that none of them reads or writes the line engine. -/

namespace Sys2Proof.Machine

/-! ## One arrival ring -/

@[simp] theorem State.updArrival_arrival (r : ArrivalId) (f : ArrivalRing → ArrivalRing) (s : State) :
    (s.updArrival r f).arrival r = f (s.arrival r) := by simp [State.arrival, State.updArrival]

@[simp] theorem State.updArrival_updArrival (r : ArrivalId) (f g : ArrivalRing → ArrivalRing) (s : State) :
    (s.updArrival r f).updArrival r g = s.updArrival r (fun c => g (f c)) := by
  simp [State.updArrival, State.updRct]

/-- The end of a close gives its result to the CLOSE_RING that waits for it, if there is one (R169). -/
theorem endCloseRing_eq (area : List Byte) (s : State) :
    endCloseRing area s =
      match (if s.ae.awaited = .ringClosed then s.ae.current else none) with
      | some c =>
        { s with
          cw := { s.cw with
            pending := s.cw.pending ++ [.admin { status := .done, tag := c.tag, index := c.index, area := area }] },
          ae := { s.ae with phase := .idle, current := none, awaited := .nothing } }
      | none => s := by
  unfold endCloseRing
  by_cases ha : s.ae.awaited = .ringClosed
  · rw [if_pos ha, if_pos ha]
    unfold endCommand
    split
    · next h => rw [h]
    · next h => rw [h]; rfl
  · rw [if_neg ha, if_neg ha]

/-- The notification of a ring, its cause last (R138, R139, R141). -/
theorem notifyArrival_eq (r : ArrivalId) (s : State) :
    notifyArrival r s =
      { (s.updArrival r (fun c => { c with unnotified := 0, timer := none })) with
        hp := { s.hp with
          cause := if 0 < (s.arrival r).unnotified then s.hp.cause ||| BitVec.twoPow 9 (1 + r.val) else s.hp.cause } } := by
  unfold notifyArrival setCauseIf
  by_cases h : 0 < (s.arrival r).unnotified
  · rw [if_pos (decide_eq_true h), if_pos h]; rfl
  · rw [if_neg (by simpa using h), if_neg h]; rfl

/-- A DRAINING arrival ring that holds no cell becomes CLOSED; any other ring stays as it is (R141). -/
theorem closeIfDrainedArrival_eq (r : ArrivalId) (s : State) :
    closeIfDrainedArrival r s =
      if (s.arrival r).state = .draining ∧ (s.arrival r).held = 0 then arrivalClosed r s else s := by
  unfold closeIfDrainedArrival
  split
  · rw [endCloseRing_eq, notifyArrival_eq]
    simp only [State.updArrival_updArrival, State.updArrival_arrival]
    unfold arrivalClosed
    simp only [State.updArrival, State.updRct]
    by_cases ha : s.ae.awaited = .ringClosed
    · cases hc : s.ae.current with
      | none => simp only [ha, hc, if_true]
      | some c => simp only [ha, if_true]; rfl
    · simp only [ha, if_false]
  · rfl

/-- The cell of a reception is freed; a DRAINING ring whose last cell it was becomes CLOSED (R104, R105, R141). -/
theorem dropReceptionCell_eq {id : CellId} {c : RxCell} {s v : State} (h : s.cell id = .rx c)
    (hv : v = { (s.updArrival c.ring (fun a => { a with held := a.held - 1 })) with
      cp := { s.cp with cells := s.cp.cells.set id.val .free, rxInUse := s.cp.rxInUse - 1 } }) :
    dropReceptionCell id s =
      if (s.arrival c.ring).state = .draining ∧ (s.arrival c.ring).held ≤ 1 then arrivalClosed c.ring v else v := by
  have hf : freeCell id s = v := by unfold freeCell; rw [h, hv]; rfl
  have h1 : v.arrival c.ring = { s.arrival c.ring with held := (s.arrival c.ring).held - 1 } := by
    rw [hv]; simp [State.arrival, State.updArrival]
  unfold dropReceptionCell
  rw [h]
  simp only [hf, closeIfDrainedArrival_eq, h1, Nat.sub_eq_zero_iff_le]

/-- The abandonment report (R105). -/
theorem abandonReception_eq (s : State) :
    abandonReception s =
      match s.au.reception with
      | none => s
      | some r =>
        match r.cell with
        | some id => dropReceptionCell id (countFormatError (clearReception s))
        | none => clearReception s := rfl

/-- A cell committed to a ring that is not OPEN is discarded; a DRAINING ring whose last cell it was becomes CLOSED (R132,
R141). -/
theorem commitToRing_closed {r : ArrivalId} {id : CellId} {c : RxCell} {s v : State} (hs : (s.arrival r).state ≠ .opened)
    (h : s.cell id = .rx c) (hr : c.ring = r)
    (hv : v = { (s.updArrival r (fun a => { a with held := a.held - 1, discards := satInc a.discards })) with
      cp := { s.cp with cells := s.cp.cells.set id.val .free, rxInUse := s.cp.rxInUse - 1 } }) :
    commitToRing r id s =
      if (s.arrival r).state = .draining ∧ (s.arrival r).held ≤ 1 then arrivalClosed r v else v := by
  subst hr
  have hd : discardCell c.ring id s = v := by
    unfold discardCell freeCell
    have hc : (s.updArrival c.ring (fun a => { a with discards := satInc a.discards })).cell id = .rx c := h
    rw [hc, hv]
    simp only [State.setCell, State.updArrival, State.updCp, State.updRct]
    simp
  have h1 : v.arrival c.ring =
      { s.arrival c.ring with
        held := (s.arrival c.ring).held - 1, discards := satInc (s.arrival c.ring).discards } := by
    rw [hv]; simp [State.arrival, State.updArrival]
  unfold commitToRing
  rw [if_neg hs, hd]
  simp only [closeIfDrainedArrival_eq, h1, Nat.sub_eq_zero_iff_le]

/-! ## The line engine beside them -/

/-- A change of the line engine before the close of a ring is the same change after it. -/
theorem arrivalClosed_updLe (r : ArrivalId) (f : LineEngine → LineEngine) (s : State) :
    arrivalClosed r (s.updLe f) = (arrivalClosed r s).updLe f := rfl

/-- A change of the line engine before the close of a drained ring is the same change after it. -/
theorem closeIfDrainedArrival_updLe (r : ArrivalId) (f : LineEngine → LineEngine) (s : State) :
    closeIfDrainedArrival r (s.updLe f) = (closeIfDrainedArrival r s).updLe f := by
  rw [closeIfDrainedArrival_eq, closeIfDrainedArrival_eq, arrivalClosed_updLe]
  exact (apply_ite (State.updLe f) _ _ _).symm

/-- A change of the line engine before an arrival write begins is the same change after it. -/
theorem beginArrivalWrite_updLe (r : ArrivalId) (f : LineEngine → LineEngine) (s : State) :
    beginArrivalWrite r (s.updLe f) = (beginArrivalWrite r s).updLe f := by
  have h : (s.updLe f).arrivalPending r = s.arrivalPending r := rfl
  unfold beginArrivalWrite
  rw [h]
  cases s.arrivalPending r <;> rfl

/-- A change of the line engine before an arrival write decision is the same change after it. -/
theorem arrivalDecision_updLe (f : LineEngine → LineEngine) (s : State) :
    arrivalDecision (s.updLe f) = (arrivalDecision s).updLe f := by
  have hr : arrivalReady (s.updLe f) = arrivalReady s := rfl
  unfold arrivalDecision
  simp only [State.updLe_fields, hr]
  by_cases hc : s.hp.engine = .running ∧ s.aw.inFlight = none
  · rw [if_pos hc, if_pos hc]
    cases (arrivalOrder s.aw.pointer).find? (arrivalReady s) with
    | none => rfl
    | some r => exact beginArrivalWrite_updLe r f s
  · rw [if_neg hc, if_neg hc]

/-- A change of the line engine before the discard of a cell is the same change after it. -/
theorem discardCell_updLe (r : ArrivalId) (id : CellId) (f : LineEngine → LineEngine) (s : State) :
    discardCell r id (s.updLe f) = (discardCell r id s).updLe f := by
  unfold discardCell freeCell
  simp only [show ((s.updLe f).updArrival r (fun c => { c with discards := satInc c.discards })).cell id
    = (s.updArrival r (fun c => { c with discards := satInc c.discards })).cell id from rfl]
  split <;> rfl

/-- A change of the line engine before a commit is the same change after it. -/
theorem commitToRing_updLe (r : ArrivalId) (id : CellId) (f : LineEngine → LineEngine) (s : State) :
    commitToRing r id (s.updLe f) = (commitToRing r id s).updLe f := by
  unfold commitToRing
  simp only [show (s.updLe f).arrival r = s.arrival r from rfl]
  split
  · exact arrivalDecision_updLe f (s.setArrivalPending r (s.arrivalPending r ++ [id]))
  · rw [discardCell_updLe, closeIfDrainedArrival_updLe]

end Sys2Proof.Machine
end

