-- ==== Sys2Proof/Laws/Scheduler.lean ====
section
/-! SUPPORT. Every shared operation keeps the passed-over count of an empty class at 0 (R43). -/

namespace Sys2Proof.Machine

/-- The counts are as sound as before when the class lists and the counts are as before. -/
theorem PassedOverSound.congr {s t : State} (h : PassedOverSound s) (h1 : t.sch.lists = s.sch.lists)
    (h2 : t.sch.passed = s.sch.passed) :
    PassedOverSound t := by
  intro c hc; unfold State.classList at hc; rw [h1] at hc; rw [h2]; exact h c hc

/-- The counts are as sound as before when the scheduler is as before. -/
theorem PassedOverSound.congrS {s t : State} (h : PassedOverSound s) (h1 : t.sch = s.sch) :
    PassedOverSound t := h.congr (by rw [h1]) (by rw [h1])

/-- Reading a passed-over count after one is replaced. -/
theorem PassedOver.get_put (p : PassedOver) (v c d) : (p.put v c).get d = if d = c ∧ c ≠ 0 then v else p.get d := by
  match c, d with
  | 0, 0 | 0, 1 | 0, 2 | 0, 3 | 1, 0 | 1, 1 | 1, 2 | 1, 3 | 2, 0 | 2, 1 | 2, 2 | 2, 3 | 3, 0 | 3, 1 | 3, 2 | 3, 3 => rfl

/-- Replacing a class list keeps the passed-over count of every empty class at 0. -/
theorem PassedOverSound.setClassList {s} (h : PassedOverSound s) (c l) : PassedOverSound (setClassList c l s) := by
  intro d hd
  simp only [Machine.setClassList, State.classList, State.updSch_fields] at hd ⊢
  by_cases hcd : d = c
  · subst hcd
    simp at hd
    subst hd
    split
    · rw [PassedOver.get_put]; split
      · rfl
      · next h0 => simp at h0; subst h0; rfl
    · next hh => simp at hh; exact h _ hh
  · have : d.val ≠ c.val := fun e => hcd (Fin.ext e)
    rw [Vector.getElem_set_ne _ _ (Ne.symm this)] at hd
    have := h d hd
    split
    · rw [PassedOver.get_put, if_neg (by simp [hcd])]; exact this
    · exact this

/-- The win report keeps the passed-over count of every empty class at 0. -/
theorem PassedOverSound.winReport {s} (h : PassedOverSound s) (w) : PassedOverSound (winReport w s) := by
  have h1 := h 1; have h2 := h 2; have h3 := h 3
  simp only [State.classList, PassedOver.get] at h1 h2 h3
  intro d hd
  have hd' : s.sch.lists[d.val] = [] := hd
  clear hd h
  match d, hd' with
  | 0, _ => rfl
  | 1, hd' =>
    change countAfterWin w 1 (s.sch.lists[1] != []) s.sch.passed.class1 = 0
    have e : s.sch.lists[1] = [] := hd'
    simp [countAfterWin, e, h1 hd']
  | 2, hd' =>
    change countAfterWin w 2 (s.sch.lists[2] != []) s.sch.passed.class2 = 0
    have e : s.sch.lists[2] = [] := hd'
    simp [countAfterWin, e, h2 hd']
  | 3, hd' =>
    change countAfterWin w 3 (s.sch.lists[3] != []) s.sch.passed.class3 = 0
    have e : s.sch.lists[3] = [] := hd'
    simp [countAfterWin, e, h3 hd']

/-- Cells joining the completion pending list leave the scheduler alone. -/
theorem foldl_completeCell_sch (out : List (CellId × Verdict)) (s : State) :
    (out.foldl (fun s p => completeCell p.1 p.2.status s) s).sch = s.sch :=
  foldl_keeps State.sch _ (by intro s p; simp) out s

/-- The completions of one event depend on the cells and the completion list alone. -/
theorem foldl_completeCell_congr (out : List (CellId × Verdict)) {s t : State} (hp : t.cp = s.cp) (hw : t.cw = s.cw) :
    (out.foldl (fun s p => completeCell p.1 p.2.status s) t).cp
        = (out.foldl (fun s p => completeCell p.1 p.2.status s) s).cp
      ∧ (out.foldl (fun s p => completeCell p.1 p.2.status s) t).cw
        = (out.foldl (fun s p => completeCell p.1 p.2.status s) s).cw := by
  induction out generalizing s t with
  | nil => exact ⟨hp, hw⟩
  | cons p rest ih =>
    refine ih ?_ ?_ <;>
    · simp only [completeCell, joinPending, State.updTx, State.cell, State.setCell, State.updCp, State.updCw, hp]
      split <;> simp_all

/-- The departures of a ring depend on the class lists, the cells, the offer slot and the ring's class alone. -/
theorem verdictDepartures_congr (r : SendId) {s t : State} (hs : t.sch = s.sch) (hp : t.cp = s.cp) (hw : t.cw = s.cw)
    (hr : t.rct.send = s.rct.send) (hl : t.le.slot = s.le.slot) :
    (verdictDepartures r t).sch = (verdictDepartures r s).sch ∧ (verdictDepartures r t).cp = (verdictDepartures r s).cp
      ∧ (verdictDepartures r t).cw = (verdictDepartures r s).cw := by
  have h1 : isOfRing t = isOfRing s := by funext a b; simp [isOfRing, State.cell, hp]
  have h2 : verdictOf t = verdictOf s := by funext a; simp [verdictOf, State.cell, hp]
  have h3 : (t.send r).cls = (s.send r).cls := by simp [State.send, hr]
  have h4 : t.classList = s.classList := by funext c; simp [State.classList, hs]
  have h5 : offeredOfRing t r = offeredOfRing s r := by simp [offeredOfRing, hl, h1]
  unfold verdictDepartures
  rw [h1, h2, h3, h4, h5]
  split
  · exact ⟨hs, hp, hw⟩
  · exact ⟨by rw [foldl_completeCell_sch, foldl_completeCell_sch]; simp [setClassList, State.updSch, hs],
      foldl_completeCell_congr _ (by simpa [setClassList, State.updSch] using hp)
        (by simpa [setClassList, State.updSch] using hw)⟩

/-- The departures of marked cells keeps the passed-over count of every empty class at 0. -/
theorem PassedOverSound.verdictDepartures {s} (h : PassedOverSound s) (r) :
    PassedOverSound (verdictDepartures r s) := by
  unfold Machine.verdictDepartures
  split
  · exact h
  · exact (h.setClassList _ _).congrS (foldl_completeCell_sch _ _)

/-- Joining the tail of a class list keeps the passed-over count of every empty class at 0. -/
theorem PassedOverSound.joinTail {s} (h : PassedOverSound s) (c i) :
    PassedOverSound (joinTail c i s) := h.setClassList _ _

/-- Joining the head of a class list keeps the passed-over count of every empty class at 0. -/
theorem PassedOverSound.joinHead {s} (h : PassedOverSound s) (c i) :
    PassedOverSound (joinHead c i s) := h.setClassList _ _

/-- The offer decision keeps the passed-over count of every empty class at 0. -/
theorem PassedOverSound.offerDecision {s} (h : PassedOverSound s) : PassedOverSound (offerDecision s) := by
  unfold Machine.offerDecision
  (repeat' split) <;> first | exact h | skip
  unfold offerHead
  split
  · exact h
  · exact h.setClassList _ _

/-- The end of an event keeps the passed-over count of every empty class at 0. -/
theorem PassedOverSound.conclude {s} (h : PassedOverSound s) : PassedOverSound (conclude s) := by
  unfold Machine.conclude
  exact h.offerDecision.congrS (by simp)

/-- The end of an attempt's event keeps the passed-over count of every empty class at 0. -/
theorem PassedOverSound.concludeAttempt {s} (h : PassedOverSound s) (m) : PassedOverSound (concludeAttempt m s) := by
  cases m
  · exact h.conclude
  · exact h.congrS (by simp [Machine.concludeAttempt])

/-- The withdrawal of an offered cell keeps the passed-over count of every empty class at 0. -/
theorem PassedOverSound.withdrawOffer {s} (h : PassedOverSound s) : PassedOverSound (withdrawOffer s) := by
  unfold Machine.withdrawOffer
  (repeat' split) <;> first | exact h | skip
  exact PassedOverSound.verdictDepartures (PassedOverSound.joinHead (s := emptySlot s) h _ _) _

/-- The settlement of an attempt keeps the passed-over count of every empty class at 0. -/
theorem PassedOverSound.settleAttempt {s} (h : PassedOverSound s) (i o) :
    PassedOverSound (settleAttempt i o s) := by
  unfold Machine.settleAttempt
  split
  · dsimp only
    split
    · exact PassedOverSound.joinHead (s := State.setCell _ _ s) h _ _
    · exact PassedOverSound.verdictDepartures (h.congrS (by simp)) _
  · exact h

/-- A deadline expiry keeps the passed-over count of every empty class at 0. -/
theorem PassedOverSound.expireCell {s} (h : PassedOverSound s) (i c) : PassedOverSound (expireCell i c s) := by
  unfold Machine.expireCell
  (repeat' split) <;> first | exact h | exact h.congrS (by simp) | skip
  all_goals exact PassedOverSound.verdictDepartures (h.congrS (by simp)) _

/-- The flush of a send ring keeps the passed-over count of every empty class at 0. -/
theorem PassedOverSound.flushRing {s} (h : PassedOverSound s) (r) : PassedOverSound (flushRing r s) := by
  unfold Machine.flushRing
  exact PassedOverSound.verdictDepartures (h.congrS (foldl_keeps State.sch _ (by intro s i; simp) _ _)) _

/-- A fetch end keeps the passed-over count of every empty class at 0. -/
theorem PassedOverSound.takeFetchEnd {s} (h : PassedOverSound s) (r) : PassedOverSound (takeFetchEnd r s) := by
  unfold Machine.takeFetchEnd
  split
  · exact h
  · dsimp only
    refine PassedOverSound.congrS (PassedOverSound.verdictDepartures (PassedOverSound.joinTail (h.congrS ?_) _ _) _) (by simp; rfl)
    simp

/-- Taking a mode in a boundary phase keeps the passed-over count of every empty class at 0. -/
theorem PassedOverSound.takeMode {s} (h : PassedOverSound s) (m) : PassedOverSound (takeMode m s) := by
  unfold Machine.takeMode
  dsimp only
  split
  · refine PassedOverSound.congrS (PassedOverSound.withdrawOffer (s := applyMode s.le.mode m _) (h.congrS ?_)) (reportMode_frame _).2.2.2.2.1 <;> simp
  · exact h.congrS (by simp)

/-- What is taken at a boundary phase keeps the passed-over count of every empty class at 0. -/
theorem PassedOverSound.atBoundary {s} (h : PassedOverSound s) : PassedOverSound (atBoundary s) := by
  unfold Machine.atBoundary
  (repeat' split) <;> first | exact h | exact h.takeMode _ | exact h.congrS (by simp)

/-- A mode request keeps the passed-over count of every empty class at 0. -/
theorem PassedOverSound.requestMode {s} (h : PassedOverSound s) (m) :
    PassedOverSound (requestMode m s) := PassedOverSound.atBoundary (s := s.updLe _) h

/-- An attempt end keeps the passed-over count of every empty class at 0. -/
theorem PassedOverSound.endAttempt {s} (h : PassedOverSound s) (o k) : PassedOverSound (endAttempt o k s) := by
  unfold Machine.endAttempt
  split
  · exact h
  · dsimp only
    apply PassedOverSound.settleAttempt
    split <;> exact h.congrS (by simp)

/-- The entry into FAULT keeps the passed-over count of every empty class at 0. -/
theorem PassedOverSound.enterFault {s} (h : PassedOverSound s) : PassedOverSound (enterFault s) := by
  unfold Machine.enterFault
  dsimp only
  split
  · exact h
  · split
    · exact h
    · apply PassedOverSound.atBoundary
      have h1 : PassedOverSound (if s.le.phase.isAttempt = true then Machine.endAttempt .lineFault none s else s) := by
        split
        · exact h.endAttempt _ _
        · exact h
      generalize (if s.le.phase.isAttempt = true then Machine.endAttempt .lineFault none s else s) = u at h1
      split <;> exact h1.congrS (by simp)

/-- An attempt end at the reading of a cell keeps the passed-over count of every empty class at 0. -/
theorem PassedOverSound.attemptEndAt {s} (h : PassedOverSound s) (c q) :
    PassedOverSound (attemptEndAt c q s) := by
  unfold Machine.attemptEndAt
  split
  · exact h
  · dsimp only
    split
    · exact h
    · exact h.enterFault
    · exact (PassedOverSound.endAttempt (s := measureQuiet q s) h _ _).atBoundary

/-- An administrative command keeps the passed-over count of every empty class at 0. -/
theorem PassedOverSound.performCommand {s} (h : PassedOverSound s) (c q) :
    PassedOverSound (performCommand c q s) := by
  cases c with
  | lineMode code =>
    simp only [Machine.performCommand, performLineMode]
    split
    · apply PassedOverSound.requestMode
      split <;> exact h
    · exact h
  | nodeSet p =>
    simp only [Machine.performCommand, performNodeSet]
    split
    · split <;> exact h.congrS (by simp)
    · exact h.congrS (by simp)
  | openSend p =>
    simp only [Machine.performCommand, performOpenSend]
    split
    · exact h.congrS (by simp)
    · exact h
  | openArrival p =>
    simp only [Machine.performCommand, performOpenArrival]
    split
    · exact h.congrS (by simp)
    · exact h
  | closeRing p =>
    simp only [Machine.performCommand, performCloseRing, performCloseSend, performCloseArrival]
    split
    · next r _ =>
      have hf := PassedOverSound.flushRing (s := awaitEvent .ringClosed (State.updSend r (fun c => { c with state := .draining }) s)) h r
      exact hf.congrS (by simp)
    · exact h.congrS (by simp)
    · exact h
  | filterWrite p f =>
    simp only [Machine.performCommand, performFilterWrite]
    split
    · exact h.congrS (by simp)
    · exact h
  | filterRead p =>
    simp only [Machine.performCommand, performFilterRead]
    exact h.congrS (by simp)
  | countsRead p =>
    simp only [Machine.performCommand, performCountsRead]
    exact h.congrS (by simp)

end Sys2Proof.Machine
end

