-- ==== Sys2Proof/WellFormed.lean ====
section
/-! DEFINITION. Which commands their rows of the opcode table can spell: the CONTROL rows name the bits they stand for,
a row with the cells of a frame bounds how many lie between two of its points. Everything else is bounded by the operand types (a
REGISTER_WRITE may name any register, since every write during RESETTING stands under it). The meanings are defined on every command, well formed or not. -/

namespace Sys2Proof

/-- The most cells between two points of a frame: from the header end to the check end with 32 payload bytes (R8, R23). -/
def longestStretch : Nat := 272

/-- The most payload bytes of a frame (R10). -/
def longestPayload : Nat := 32

/-- The cells from the check end to the end of the EOF of a frame with a ROLL window (R8). -/
def longestTail : Nat := 144

/-- The write of a SOFT_RESET row has SOFT_RESET 1 (R177). -/
def isSoftResetValue (value : Word) : Bool := value.getLsbD 1

/-- The write of an ENABLE row has ENABLE 1 and SOFT_RESET 0 (R177). -/
def isEnableValue (value : Word) : Bool := value.getLsbD 0 && !value.getLsbD 1

/-- The check on a command's operands. -/
def Instr.wellFormed : Instr → Bool
  | .softReset value => isSoftResetValue value
  | .enable value => isEnableValue value
  | .headerEnd cells => 1 ≤ cells.length && cells.length ≤ 33
  | .checkEnd payload check => payload.length % 8 == 0 && payload.length ≤ 8 * longestPayload && check.length == 16
  | .slotEnd _ cells => 17 ≤ cells.length && cells.length ≤ longestTail - 6
  | .frameEnd tail => 6 ≤ tail.cells.length && tail.cells.length ≤ longestTail
  | .attemptEnd before _ _ => before.length < longestStretch
  | .frameAbandoned cells _ => 1 ≤ cells.length && cells.length ≤ longestStretch
  | .resetPinAssert | .resetPinRelease | .softResetComplete | .bootLoWrite _ | .bootHiWrite _ | .post _ | .release _
  | .causeWrite _ | .maskWrite _ | .registerWrite _ _ _ | .bootReadEnd _ | .fetchEnd _ | .adminFetchEnd _ _ | .nodeSet _ _ | .lineMode _ _ _
  | .openSend _ _ | .openArrival _ _ | .closeRing _ _ | .filterWrite _ _ _ | .filterRead _ _ | .countsRead _ _ _
  | .countsWriteEnd _ | .arrivalWriteEnd _ | .completionWriteEnd _ | .tick | .deadlineExpiry _ | .arrivalTimerExpiry _
  | .crTimerExpiry | .joinComplete _ | .attemptStart _ _ | .frameStart _ _
  | .arbitrationWon | .stuckLine _ | .faultExit _ | .recoveryEnd _ | .eodEnd => true

end Sys2Proof
end

