-- ==== Sys2Proof/Tests/Slice0.lean ====
section
/-! SUPPORT. Tests: the check of commands, the guide's own examples (the section is named at each), and one witness for
the hypotheses of each statement that has some. -/

namespace Sys2Proof.Tests

open Sys2Proof Sys2Proof.Machine

/-! ## Small states and operands -/

/-- The next state of an outcome. -/
def nextOf (o : Host.Outcome State Fault Refusal) : Option State :=
  match o with
  | .next t => some t
  | _ => none

/-- RUNNING, AR and CR open with 8 entries each, one admin record posted. -/
def booted : State :=
  { State.reset with
    hp := { State.reset.hp with engine := .running, enabled := true },
    rct := { State.reset.rct with
      admin := { Reset.adminRing with state := .opened, base := 0x1000, size := 8, tail := 1 },
      completion := { Reset.completionRing with state := .opened, base := 0x2000, size := 8 } },
    sch := { State.reset.sch with tickRunning := true } }

/-- The transfer of an owner stands on the bus. -/
def onBus (o : BusOwner) (d : Direction) (s : State) : State :=
  s.updHp (fun h => { h with onBus := some (o, { direction := d, address := 0, bytes := [] }) })

/-- The engine state. -/
def inEngine (e : EngineState) (s : State) : State := s.updHp (fun h => { h with engine := e })

/-- An open send ring of 8 entries. -/
def openSend (r : SendId) (c : ClassId) (head tail : Nat) (s : State) : State :=
  s.updSend r (fun x => { x with state := .opened, base := 0x4000, size := 8, cls := c, head := head, tail := tail })

/-- An open arrival ring of 8 entries. -/
def openArrival (r : ArrivalId) (head tail : Nat) (s : State) : State :=
  s.updArrival r (fun x => { x with state := .opened, base := 0x8000, size := 8, head := head, tail := tail })

/-- A transmit cell of S0. -/
def sampleTx : TxCell :=
  { ring := 0, index := 0, cls := 1, target := 17, topic := 5, mode := .noWindow, length := 0, payload := [],
    expect := 0, tag := 0, budget := 4, attemptsUsed := 0, lostCount := 0, deadline := none, verdict := none,
    lastFailure := .noFailure, responses := [] }

/-- A receive cell of A0. -/
def sampleRx : RxCell :=
  { ring := 0, entry := 0, cls := 1, target := 9, topic := 0, source := 3, mode := .noWindow, length := 0,
    payload := [], answer := none, arrivalTick := 0 }

/-- Cell 0 holds a transmit cell. -/
def withTx (c : TxCell) (s : State) : State := s.setCell 0 (.tx c)

/-- Cell 0 holds a receive cell. -/
def withRx (c : RxCell) (s : State) : State := s.setCell 0 (.rx c)

/-- The line engine in a mode and a phase. -/
def onLine (m : LineMode) (p : Phase) (s : State) : State := s.updLe (fun l => { l with mode := m, phase := p })

/-- An attempt of cell 0 in progress. -/
def attempting (m : LineMode) (p : Phase) : State :=
  (onLine m p (withTx sampleTx booted)).updLe (fun l => { l with slot := some 0, frame := some (newFrame .originator) })

/-- A head of a frame with a window of eight slots. -/
def rollHead : FrameHead := { cls := 1, target := 17, topic := 5, source := 3, mode := .roll, length := 0 }

/-- A frame that has reached a point. -/
def frameAt (role : Role) (p : Point) (h : FrameHead) : Frame := { newFrame role with point := p, head := some h }

/-- The frame with its next cell, expected where a frame of nominal pulses has it at 20 kbit/s: the SOF edge is 0. -/
def atCell (cell : Nat) (f : Frame) : Frame := { f with cell := cell, expected := (cell + 2) * 500 }

/-- A nominal pulse of a cell at 20 kbit/s. -/
def pulseAt (cell : Nat) (p : DrivenPulse) : LinePulse :=
  { edge := if cell = 0 then 0 else (cell + 2) * 500, length := p.cycles .kbit20 }

/-- Nominal cells at 20 kbit/s that carry data bits, from a cell on. -/
def bitCells (cell : Nat) : List Bool → CellsRead
  | [] => []
  | b :: rest => [pulseAt cell (.ofBit b)] :: bitCells (cell + 1) rest

/-- The SOF and the cells after it. -/
def sofAnd (bits : List Bool) : CellsRead := [pulseAt 0 .sof] :: bitCells 1 bits

/-- Quiet cells. -/
def quietCells (n : Nat) : CellsRead := List.replicate n []

/-- A state that follows a frame. -/
def following (m : LineMode) (p : Phase) (f : Frame) (s : State) : State :=
  (onLine m p s).updLe (fun l => { l with frame := some f })

/-- A reception without a cell. -/
def emptyReception : Reception := silentReception

/-- The admin engine's read of a record stands on the bus. -/
def adminFetching : State :=
  onBus (.requester .ae) .read (booted.updAe (fun a => { a with phase := .fetching }))

/-- A record from its first bytes; the rest is 0. -/
def recordOf (bytes : List Byte) : Record := Vector.ofFn (fun i => bytes.getD i.val 0)

/-- A valid boot block: AR at 0x1000 with 8 entries, CR at 0x2000 with 1024, count 64, delay 255 (11.7). -/
def bootRecord : Record :=
  recordOf
    [0x42, 0x34, 0x4C, 0x53, 0, 0, 0, 0, 0, 0x10, 0, 0, 0, 0, 0, 0, 8, 0, 0, 0, 0, 0, 0, 0, 0, 0x20, 0, 0, 0, 0, 0, 0,
      0, 4, 64, 255]

/-- A valid NODE_SET form at the ends of its ranges. -/
def nodeForm : NodeSetForm :=
  { nodeId := 239, rateCode := 2, defaultBudget := 15, yieldValue := 15, txLimit := 28, rxLimit := 4, rxHold := 4 }

/-- A valid acceptance entry form at the ends of its ranges. -/
def entryForm : EntryForm :=
  { flags := 3, action := 2, ring := 3, slot := 7, reply := 255, targetValue := 255, targetMask := 255,
    topicValue := 63, topicMask := 63, sourceValue := 255, sourceMask := 255 }

/-! ## The check of commands -/

theorem test_softReset_without_its_bit_is_ill_formed :
    (Instr.softReset 1).wellFormed = false ∧ (Instr.softReset 2).wellFormed = true := by decide
theorem test_enable_with_soft_reset_or_without_its_bit_is_ill_formed :
    (Instr.enable 3).wellFormed = false ∧ (Instr.enable 0).wellFormed = false
      ∧ (Instr.enable 1).wellFormed = true := by decide
theorem test_attemptEnd_with_too_many_cells_is_ill_formed :
    (Instr.attemptEnd (List.replicate 272 []) [] { quiet := 0, moment := .plain }).wellFormed = false
      ∧ (Instr.attemptEnd (List.replicate 271 []) [] { quiet := 0, moment := .plain }).wellFormed = true := by
  simp only [Instr.wellFormed, List.length_replicate]; decide
theorem test_checkEnd_with_33_bytes_is_ill_formed :
    (Instr.checkEnd (List.replicate 264 []) (List.replicate 16 [])).wellFormed = false
      ∧ (Instr.checkEnd (List.replicate 255 []) (List.replicate 16 [])).wellFormed = false
      ∧ (Instr.checkEnd (List.replicate 256 []) (List.replicate 15 [])).wellFormed = false
      ∧ (Instr.checkEnd (List.replicate 256 []) (List.replicate 16 [])).wellFormed = true := by
  simp only [Instr.wellFormed, List.length_replicate]; decide
theorem test_points_with_the_wrong_number_of_cells_are_ill_formed :
    (Instr.headerEnd (List.replicate 34 [])).wellFormed = false
      ∧ (Instr.headerEnd (List.replicate 33 [])).wellFormed = true
      ∧ (Instr.slotEnd 0 (List.replicate 16 [])).wellFormed = false
      ∧ (Instr.slotEnd 0 (List.replicate 17 [])).wellFormed = true
      ∧ (Instr.frameEnd { cells := List.replicate 5 [], quiet := 0 }).wellFormed = false
      ∧ (Instr.frameEnd { cells := List.replicate 144 [], quiet := 0 }).wellFormed = true := by
  simp only [Instr.wellFormed, List.length_replicate]; decide
theorem test_frameAbandoned_with_no_cell_is_ill_formed :
    (Instr.frameAbandoned [] 0).wellFormed = false ∧ (Instr.frameAbandoned [[]] 0).wellFormed = true := by decide
theorem test_no_word_spells_a_command : decodeTableWord 32 0xFFFFFFFF = none := by decide

/-! ## The guide's examples -/

/-- R196: STATUS after either reset, while loading, booted, joining, joined, muted, stuck, halted. -/
theorem test_status_values :
    State.reset.readRegister .status = 0x20000000 ∧ (inEngine .loading State.reset).readRegister .status = 0x20000001
      ∧ booted.readRegister .status = 0x20000002 ∧ (onLine .online .joining booted).readRegister .status = 0x20000182
      ∧ (onLine .online .idle booted).readRegister .status = 0x20000282
      ∧ ((onLine .online .idle booted).updLe (fun l => { l with muted := true })).readRegister .status = 0x20001282
      ∧ ((onLine .online .fault booted).updLe (fun l => { l with fault := true })).readRegister .status = 0x20002882
      ∧ ((onLine .online .off booted).updHp
          (fun h => { h with engine := .halted, haltReason := .crWrite })).readRegister .status = 0x200000B3 := by decide

/-- R180, R196: a boot read that fails, and one that gives no valid block. -/
theorem test_boot_failures :
    ((nextOf (exec (.bootReadEnd .busError) (onBus .boot .read (inEngine .loading State.reset)))).map
        (·.readRegister .status)) = some 0x20000013
      ∧ ((nextOf (exec (.bootReadEnd (.data (recordOf [])))
          (onBus .boot .read (inEngine .loading State.reset)))).map (·.readRegister .status)) = some 0x20000023 := by
  decide

set_option maxRecDepth 8000 in
/-- R11: the check over 0x31 to 0x39. -/
theorem test_check_of_nine_bytes :
    runCheck 0xFFFF#16 (payloadBits [0x31, 0x32, 0x33, 0x34, 0x35, 0x36, 0x37, 0x38, 0x39]) = 0x29B1#16 := by decide

/-- 1.6, arbitration worked: the headers of node 3 and node 9 differ first at cell 16, where node 3 loses. -/
theorem test_arbitration_worked :
    lineBits (FrameHead.bits { cls := 1, target := 17, topic := 5, source := 3, mode := .noWindow, length := 0 })
        = [false, true, false, false, false, true, false, false, false, true, false, false, false, true, false, true,
            false, false, false, false, false, false, true, true, false, false, false, false, false, false, false, false]
      ∧ attemptReading .header (some true) (.data (lineBit [true, false])) = some .lost
      ∧ attemptReading .header (some false) (.data (lineBit [true, false])) = none := by decide

/-- 2.4, claims worked: RESERVE at 4 low-class cells of 6 - 2, class 0 granted at 5, LIMIT at 6; HOLD at 3, unsolicited
granted there. -/
theorem test_claims_worked :
    judgeTransmitClaim 2
        (booted.updCp (fun p => { p with txLimit := 6, rxLimit := 6, rxHold := 3, txInUse := 4, lowInUse := 4 }))
          = .reserve
      ∧ judgeTransmitClaim 0 (booted.updCp (fun p => { p with txLimit := 6, txInUse := 5, lowInUse := 4 })) = .granted
      ∧ judgeTransmitClaim 0 (booted.updCp (fun p => { p with txLimit := 6, txInUse := 6, lowInUse := 4 })) = .limit
      ∧ judgeReceiveClaim true (booted.updCp (fun p => { p with rxLimit := 6, rxHold := 3, rxInUse := 3 })) = .hold
      ∧ judgeReceiveClaim false (booted.updCp (fun p => { p with rxLimit := 6, rxHold := 3, rxInUse := 3 }))
          = .granted := by decide

/-- 3.4, offer order under YIELD 2: below 2 the head of class 0 is offered, at 2 the head of class 2. -/
theorem test_offer_under_yield :
    (let s := (onLine .online .idle booted).updAe (fun a => { a with yieldValue := 2 })
     let lists : Vector (List CellId) 4 := #v[[1, 2], [], [3, 4], []]
     ((offerDecision (s.updSch (fun h => { h with lists := lists, passed := { h.passed with class2 := 1 } }))).le.slot,
       (offerDecision (s.updSch (fun h => { h with lists := lists, passed := { h.passed with class2 := 2 } }))).le.slot))
      = (some 1, some 3) := by decide

/-- 3.5, a ROLL record over three attempts: mask of slots 0, 2 and 5. -/
theorem test_roll_worked :
    attemptResult { sampleTx with mode := .roll, expect := 0x25 }
        (.sentClean [.read .ack 0x10, .absent, .read .busy 1, .absent, .absent, .absent, .read .ack 0x22, .absent])
          = .failure .missing
      ∧ attemptResult { sampleTx with mode := .roll, expect := 0x25 }
        (.sentClean [.read .ack 0x10, .absent, .read .ack 1, .absent, .absent, .read .ack 5, .read .ack 0x22,
          .read .reject 0]) = .final .ok := by decide

/-- 6.2, round robin under the reserve: S0 of class 2 is refused with RESERVE, S1 of class 0 granted, the pointer then
at S2, and a notice is owed. -/
theorem test_fetch_under_reserve :
    (let s := fetchDecision (openSend 1 0 3 5 (openSend 0 2 6 7
        (booted.updCp (fun p => { p with txLimit := 6, txInUse := 4, lowInUse := 4 }))))
     (s.fe.pointer, s.fe.inFlight, s.cp.txInUse, s.cp.lowInUse, s.cp.noticeOwed))
      = (2, some { ring := 1, index := 3, cell := 0 }, 5, 4, true) := by decide

/-- 7.4, coalescing and the lap tag: the third record of a count of 3, at entry 7 of 8, wraps the tail and notifies. -/
theorem test_coalescing_worked :
    ((nextOf (exec (.arrivalWriteEnd .written)
        (onBus (.requester .aw) .write
          (((openArrival 2 5 7 (withRx { sampleRx with ring := 2 } booted)).updArrival 2
            (fun r => { r with count := 3, delay := 5, unnotified := 2, timer := some 1005, held := 1,
                               writeInFlight := true })).updAw
            (fun w => { w with inFlight := some { cell := 0, ring := 2, index := 7 } }))))).map
      (fun t => ((t.arrival 2).tail, (t.arrival 2).lapTag, (t.arrival 2).unnotified, (t.arrival 2).timer, t.hp.cause)))
      = some (0, false, 0, none, 0x008#9) := by decide

/-- 7.4, the RELEASE at 1014: new head 1 from head 5 and tail 4 is taken. -/
theorem test_release_worked :
    (nextOf (exec (.release 0x0001000B) (openArrival 2 5 4 booted))).map (fun t => (t.arrival 2).head) = some 1 := by
  decide

/-- 10.5, the arbiter visits from its pointer: from AE, with AE not waiting, CW is granted before FE. -/
theorem test_arbiter_order :
    (let t : Transfer := { direction := .read, address := 0, bytes := [] }
     let s := arbitrate (booted.updHp (fun h =>
        { h with pointer := .ae, waiting := { fe := some t, ae := none, aw := none, cw := some t } }))
     (s.hp.onBus, s.hp.pointer, s.hp.waiting.fe))
      = (some (.requester .cw, { direction := .read, address := 0, bytes := [] }), .fe,
          some { direction := .read, address := 0, bytes := [] }) := by decide

/-- 12.2: NODE_SET of the bring-up, with node id 9 and rate code 1, is taken and gives DONE. -/
theorem test_node_set_of_the_bring_up :
    (nextOf (exec
        (.nodeSet 7 { nodeId := 9, rateCode := 1, defaultBudget := 4, yieldValue := 4, txLimit := 20, rxLimit := 12,
                      rxHold := 8 }) adminFetching)).map (fun t => (t.ae.nodeId, t.ae.rate, t.cw.inFlight))
      = some (9, .kbit50,
          some { entry := .admin { status := .done, tag := 7, index := 0, area := [] }, index := 0 }) := by decide

/-- 12.2: LINE_MODE ONLINE in OFF is taken at once and the engine joins; the quiet run of 8 bit times ends the join. -/
theorem test_line_mode_of_the_bring_up :
    (nextOf (exec (.lineMode 7 2 0) (adminFetching.updAe (fun a => { a with nodeId := 9 })))).map
        (fun t => (t.le.mode, t.le.phase)) = some (.online, .joining)
      ∧ (nextOf (exec (.joinComplete 4000) (onLine .online .joining booted))).map
        (fun t => (t.le.phase, t.hp.cause)) = some (.idle, 0x020#9) := by decide

/-- R60, first row, and R69: with the expiry first the slot counts as empty at the edge of that moment, also when the next
head has been offered, and the SOF is followed as a receiver. -/
theorem test_expiry_before_the_sof_edge :
    let s := (onLine .online .idle (withTx sampleTx booted)).updLe (fun l => { l with slot := some 0 })
    (nextOf (exec (.attemptStart (.edgeRead .afterExpiry) 4000) s)).map (fun t => (t.le.phase, t.le.slot))
        = some (.receiving, some 0)
      ∧ (nextOf (exec (.attemptStart (.edgeRead .plain) 4000) s)).map (fun t => (t.le.phase, t.le.slot))
        = some (.arbitrating, some 0) := by decide

/-- R20, R6: an SOF of 2 bit times read while RECOVERING starts no frame, and the quiet run restarts; a glitch does not. -/
theorem test_sof_while_recovering :
    let s := measureQuiet 2000 (onLine .online .recovering booted)
    (nextOf (exec (.frameStart 2000 { length := 1000, moment := .plain }) s)).map (fun t => (t.le.phase, t.le.quietRun))
        = some (.recovering, 0)
      ∧ (nextOf (exec (.frameStart 2000 { length := 62, moment := .plain }) s)).map (·.le.quietRun) = some 2000 := by
  decide

/-- R58: a deadline of 1 at tick 4,294,967,295 arms tick 0. -/
theorem test_deadline_wraps : armDeadline 0xFFFFFFFF 1 = some 0 ∧ armDeadline 5 0 = none := by decide

/-- R81, R82: the sixteenth line error in a row mutes, with the LINE cause. -/
theorem test_sixteenth_error_mutes :
    (let s := leaveAttempt .bitError none ((attempting .online .sending).updLe (fun l => { l with errorRun := 15 }))
     (s.le.muted, s.le.errorRun, s.hp.cause)) = (true, 16, 0x020#9) := by decide

/-- R4: a pulse of 64 bit times whose edge is outside the start window is an invalid symbol; inside it is a stuck line. -/
theorem test_window_before_stuck :
    readCell .kbit20 1500 [{ edge := 1626, length := 32000 }] = .invalid
      ∧ readCell .kbit20 1500 [{ edge := 1625, length := 32000 }] = .stuck := by decide

/-- R4: after an SOF edge at 0 the first header cell is expected at 3 bit times, and each later one 1 bit time after the
edge read in the window of the one before. -/
theorem test_grid_of_three_cells :
    (gridOf .kbit20 0 0 [[pulseAt 0 .sof], [{ edge := 1600, length := 125 }], [{ edge := 1980, length := 375 }]]).map
        (fun g => (g.expected, g.reading .kbit20))
      = [(0, .sof), (1500, .data true), (2100, .data false)] := by decide

/-- R64, R76: after a good check a responder that answers in slot 0 drives TXD; one that answers in slot 1 does not yet. -/
theorem test_responder_drives_txd :
    (let drive := fun slot : Slot =>
      let f := { atCell 33 (frameAt .receiver .headerEnd rollHead) with answerAllowed := true }
      let r := { emptyReception with answer := some { slot := slot, code := .reject, value := 5 } }
      let s := (following .online .receiving f booted).updAu (fun u => { u with reception := some r })
      (nextOf (exec (.checkEnd [] (bitCells 33 (List.replicate 16 true))) s)).map (·.le.txd)
     (drive 0, drive 1)) = (some .driving, some .released) := by decide

/-- What an own frame has come to after the header cells carry these bits: point, next cell, its start, pulses driven. -/
def afterHeader (bits : List Bool) : Option (Option (Point × Nat × Nat × Nat)) :=
  (nextOf (exec (.headerEnd (sofAnd bits)) (attempting .online .sending))).map
    (fun t => t.le.frame.map (fun f => (f.point, f.cell, f.expected, f.driven.length)))

/-- R71, R74: an own frame without a window at its header end, every cell read as driven; and one with a cell that is not. -/
theorem test_header_end_of_an_own_frame :
    (let image := lineBits (drivenHead sampleTx booted.ae.nodeId).bits
     afterHeader image = some (some (.headerEnd, 33, 17500, 33))
      ∧ afterHeader (image.set 20 true) = some (some (.start, 0, 0, 0))) := by decide

/-- R71: the EOD of an own frame with a window; the first mark is driven. -/
theorem test_eod_end :
    (nextOf (exec .eodEnd (following .online .sending (atCell 49 (frameAt .originator .checkEnd rollHead)) booted))).map
        (fun t => (t.le.phase, t.le.txd, t.le.frame.map (·.cell))) = some (.windowOut, .driving, some 51) := by decide

/-- R72, R84: in LOOPBACK the planned answer is driven and read in its slot, whatever RXD shows. -/
theorem test_loopback_reads_its_own_answer :
    (let f := { atCell 170 (frameAt .originator (.slot 6) rollHead) with
                  answer := some { slot := 7, code := .busy, value := 9 }, answerAllowed := true }
     (nextOf (exec (.slotEnd 7 []) (following .loopback .windowOut f booted))).map
        (fun t => (t.le.frame.map (fun f => (f.slots, f.slotDrive)), t.le.txd)))
      = some (some ([.read .busy 9], .complete), .released) := by decide

/-- R8, chapter 1: the last EOF cell of a frame with no payload and no window is cell 56. -/
theorem test_last_cells :
    lastCell 0 .noWindow = 56 ∧ lastCell 32 .roll = 448 := by decide

/-! ## Witnesses: the hypotheses of the statements can be met, clause by clause -/

/-- A RESETTING engine whose send record read is still on the bus. -/
def resettingBusy : State := onBus (.requester .fe) .read (inEngine .resetting booted)

/-- The boot block read stands on the bus. -/
def loading : State := (nextOf (exec (.enable 1) State.reset)).getD State.reset

theorem witness_StepRunsFrontCommand : State.reset.pending = [] := by decide

theorem witness_SoftReset :
    ((2#32).getLsbD 1 = true ∧ State.reset.hp.pinAsserted = false ∧ State.reset.hp.engine ≠ .resetting
        ∧ State.reset.hp.onBus = none)
      ∧ ((3#32).getLsbD 1 = true ∧ loading.hp.pinAsserted = false ∧ loading.hp.engine ≠ .resetting
        ∧ loading.hp.onBus ≠ none)
      ∧ resettingBusy.hp.engine = .resetting
      ∧ (endsTransfer (.fetchEnd .busError) = some (.requester .fe, .read)
        ∧ onBusOf (.requester .fe) .read resettingBusy = true) := by decide

theorem witness_EnableStartsLoading :
    ((1#32).getLsbD 0 = true ∧ (1#32).getLsbD 1 = false)
      ∧ (State.reset.hp.pinAsserted = false ∧ State.reset.hp.engine = .reset)
      ∧ (booted.hp.pinAsserted = false ∧ booted.hp.engine ≠ .reset) := by decide

theorem witness_BootAddressRegisters :
    (State.reset.hp.pinAsserted = false ∧ State.reset.hp.engine = .reset) ∧ booted.hp.engine ≠ .reset
      ∧ (nextOf (exec (.enable 1) State.reset)).map (·.hp.engine) = some .loading
      ∧ (nextOf (exec .resetPinAssert booted)).isSome = true
      ∧ ((nextOf (exec .tick booted)).isSome = true ∧ Instr.tick ≠ .resetPinAssert)
      ∧ ((nextOf (exec (.softReset 2) State.reset)).isSome = true ∧ startsReset (.softReset 2) = true) := by decide

/-- POST to S7, the last send ring, with the last index; to AR; and refused: RELEASE's first ring number, an index at the
size, a closed ring, a tail moved back. -/
theorem witness_PostWrites :
    (let s := openSend 7 0 0 0 booted
     s.hp.pinAsserted = false ∧ s.hp.engine = .running ∧ ((0x00070008#32).extractLsb' 0 4).toNat = 7 + 1
        ∧ (s.send 7).state = .opened ∧ ((0x00070008#32).extractLsb' 16 10).toNat < (s.send 7).size
        ∧ ringDistance (s.send 7).tail (s.send 7).head (s.send 7).size
            ≤ ringDistance ((0x00070008#32).extractLsb' 16 10).toNat (s.send 7).head (s.send 7).size)
      ∧ (((0x00070000#32).extractLsb' 0 4).toNat = 0 ∧ booted.rct.admin.state = .opened
        ∧ ((0x00070000#32).extractLsb' 16 10).toNat < booted.rct.admin.size
        ∧ ringDistance booted.rct.admin.tail booted.rct.admin.head booted.rct.admin.size
            ≤ ringDistance ((0x00070000#32).extractLsb' 16 10).toNat booted.rct.admin.head booted.rct.admin.size)
      ∧ 8 < ((0x00070009#32).extractLsb' 0 4).toNat
      ∧ (((0x00080000#32).extractLsb' 0 4).toNat = 0
        ∧ booted.rct.admin.size ≤ ((0x00080000#32).extractLsb' 16 10).toNat)
      ∧ (((0x00000000#32).extractLsb' 0 4).toNat = 0
        ∧ ringDistance ((0x00000000#32).extractLsb' 16 10).toNat booted.rct.admin.head booted.rct.admin.size
            < ringDistance booted.rct.admin.tail booted.rct.admin.head booted.rct.admin.size)
      ∧ (booted.hp.pinAsserted = false ∧ booted.hp.engine ≠ .resetting ∧ (booted.send 0).state ≠ .opened) := by decide

/-- RELEASE of A3, the last arrival ring, up to its tail; of CR; and refused: the last send ring's number, 14, a head past
the tail. -/
theorem witness_ReleaseWrites :
    (let s := openArrival 3 0 7 booted
     s.hp.pinAsserted = false ∧ s.hp.engine = .running ∧ ((0x0007000C#32).extractLsb' 0 4).toNat = 3 + 9
        ∧ (s.arrival 3).state ≠ .closed ∧ ((0x0007000C#32).extractLsb' 16 10).toNat < (s.arrival 3).size
        ∧ ringDistance ((0x0007000C#32).extractLsb' 16 10).toNat (s.arrival 3).head (s.arrival 3).size
            ≤ ringDistance (s.arrival 3).tail (s.arrival 3).head (s.arrival 3).size)
      ∧ (((0x0000000D#32).extractLsb' 0 4).toNat = 13 ∧ booted.rct.completion.state = .opened
        ∧ ((0x0000000D#32).extractLsb' 16 10).toNat < booted.rct.completion.size
        ∧ ringDistance ((0x0000000D#32).extractLsb' 16 10).toNat booted.rct.completion.head booted.rct.completion.size
            ≤ ringDistance booted.rct.completion.tail booted.rct.completion.head booted.rct.completion.size)
      ∧ ((0x00000008#32).extractLsb' 0 4).toNat < 9 ∧ 13 < ((0x0000000E#32).extractLsb' 0 4).toNat
      ∧ (((0x0001000D#32).extractLsb' 0 4).toNat = 13
        ∧ ringDistance booted.rct.completion.tail booted.rct.completion.head booted.rct.completion.size
            < ringDistance ((0x0001000D#32).extractLsb' 16 10).toNat booted.rct.completion.head
                booted.rct.completion.size) := by decide

/-- A cause that a TICK leaves set. -/
theorem witness_Causes :
    (booted.hp.pinAsserted = false ∧ booted.hp.engine ≠ .resetting)
      ∧ (writesCause .tick = false ∧ startsReset .tick = false)
      ∧ (writesCause (.post 0) = false ∧ startsReset (.post 0) = false ∧ State.reset.hp.engine ≠ .resetting
        ∧ (setCause .halt State.reset).hp.cause.getLsbD 8 = true)
      ∧ ((nextOf (exec .tick (setCause .halt booted))).map (fun t => (t.hp.engine, t.hp.cause.getLsbD 8)))
        = some (.running, true) := by decide

theorem witness_MaskAndInterruptLine :
    (booted.hp.pinAsserted = false ∧ booted.hp.engine ≠ .resetting) ∧ booted.hp.mask = 0
      ∧ (nextOf (exec .softResetComplete resettingBusy)).isSome = true ∧ resettingBusy.hp.engine = .resetting
      ∧ (nextOf (exec .tick booted)).map (fun t => (t.hp.cause, t.hp.mask, t.hp.pinAsserted))
        = some (booted.hp.cause, booted.hp.mask, booted.hp.pinAsserted) := by decide

theorem witness_RegisterWindow :
    AccessWidth.half ≠ .word ∧ resettingBusy.hp.engine = .resetting
      ∧ (nextOf (exec .resetPinAssert booted)).map (·.hp.pinAsserted) = some true
      ∧ (booted.hp.pinAsserted = false ∧ booted.hp.engine ≠ .resetting) := by decide

theorem witness_RegisterReads :
    (booted.updCp (fun p => { p with txInUse := 28, rxInUse := 28 })).cp.txInUse ≤ 28
      ∧ (booted.updCp (fun p => { p with txInUse := 28, rxInUse := 28 })).cp.rxInUse ≤ 28 ∧ (2 : Fin 4) = 2 := by decide

/-- A boot block at the ends of its ranges, and one of no record at all. -/
theorem witness_BootReadEnds :
    UnbootedSound loading ∧ loading.hp.engine = .loading
      ∧ bootBlockOf bootRecord =
        some { arBase := 0x1000, arSize := 8, crBase := 0x2000, crSize := 1024, crCount := 64, crDelay := 255 }
      ∧ bootBlockOf (recordOf []) = none := ⟨by decide, by decide, by decide, by decide⟩

/-- The request at the pointer, and the one that is passed last. -/
theorem witness_ArbiterRoundRobin :
    (onBus .boot .read booted).hp.onBus ≠ none ∧ booted.hp.onBus = none
      ∧ (∀ q ∈ [Requester.fe, .ae, .aw, .cw], booted.hp.waiting.get q = none)
      ∧ (let t : Transfer := { direction := .read, address := 0, bytes := [] }
         let s := booted.updHp (fun h => { h with waiting := { fe := none, ae := none, aw := none, cw := some t } })
         s.hp.onBus = none ∧ s.hp.engine = .running
          ∧ s.hp.waiting.get (Requester.next (Requester.next (Requester.next s.hp.pointer))) = some t
          ∧ s.hp.waiting.get s.hp.pointer = none ∧ s.hp.waiting.get (Requester.next s.hp.pointer) = none
          ∧ s.hp.waiting.get (Requester.next (Requester.next s.hp.pointer)) = none) := by decide

/-- R61 and R60: an attempt whose slot is ABSENT ends at its last EOF cell and its cell is retried. A flush or the expiry
taken next at the same moment finds the cell QUEUED and completes it; with none to come it is offered again at once. -/
theorem test_flush_or_expiry_after_an_attempt_end :
    let c : TxCell := { sampleTx with mode := .single, deadline := some 0 }
    let f := { atCell 68 (frameAt .originator (.slot 0) { rollHead with mode := .single }) with slots := [.absent] }
    let s := (following .online .windowOut f (openSend 0 1 0 0 (withTx c booted))).updLe (fun l => { l with slot := some 0 })
    let ends := fun moment => nextOf (exec (.attemptEnd (quietCells 5) [] { quiet := 3000, moment := moment }) s)
    (ends .plain).map (fun t => (t.le.slot, t.classList 1)) = some (some 0, [])
      ∧ (ends .beforeNext).map (fun t => (t.le.slot, t.classList 1)) = some (none, [0])
      ∧ (ends .beforeNext).map (fun t => (flushRing 0 t).cw.pending) = some [.cell 0 .flushed]
      ∧ (ends .beforeNext).map (fun t => (expireDeadline 0 t).cw.inFlight)
        = some (some { entry := .cell 0 .expired, index := 0 }) := by decide

/-- A fetch of S0 in flight; a valid record of zeros. -/
theorem witness_FetchEnds :
    (let s := (onBus (.requester .fe) .read (openSend 0 1 0 1 (withTx sampleTx booted))).updFe
        (fun f => { f with inFlight := some { ring := 0, index := 0, cell := 0 } })
     onBusOf (.requester .fe) .read s = true ∧ s.hp.engine ≠ .resetting
        ∧ s.fe.inFlight = some { ring := 0, index := 0, cell := 0 })
      ∧ RingState.opened ≠ .draining ∧ sendRecordValid (recordOf []) = true
      ∧ sendRecordValid (recordOf [0, 0, 3]) = false := by decide

/-- The last ring visited is granted; the first is refused at the limit; all eligible rings meet the reserve. -/
theorem witness_FetchDecision :
    inEngine .halted booted ≠ booted
      ∧ (let s := openSend 7 0 0 1 booted
         s.hp.engine = .running ∧ s.fe.inFlight = none
          ∧ (∀ j : Fin 7, fetchEligible s (s.fe.pointer + Fin.ofNat 8 j.val) = false)
          ∧ fetchEligible s (s.fe.pointer + Fin.ofNat 8 7) = true ∧ s.cp.txInUse < s.cp.txLimit
          ∧ (s.send 7).cls = 0 ∧ lowestFree s = some 0)
      ∧ (let s := openSend 0 0 0 1 (booted.updCp (fun p => { p with txInUse := 20 }))
         fetchEligible s s.fe.pointer = true ∧ s.cp.txLimit ≤ s.cp.txInUse)
      ∧ (let s := openSend 3 1 0 1 (booted.updCp (fun p => { p with txInUse := 18, lowInUse := 18 }))
         ∀ r : SendId, fetchEligible s r = true →
          s.cp.txInUse < s.cp.txLimit ∧ (s.send r).cls ≠ 0 ∧ s.cp.txLimit ≤ s.cp.lowInUse + 2) := by decide

set_option maxRecDepth 8000 in
/-- COUNTS_READ, whose parameters end the latest, in the bytes of 11.3. -/
theorem witness_AdminRecordSpellsCommand :
    readAdminRecord (adminRecord 7 (.closeRing 12)) = .command (.closeRing 12) true
      ∧ (adminRecord 0x04030201 (.countsRead 1 0x8877665544332220)).toList =
        [8, 0, 0, 0, 1, 2, 3, 4, 1, 0, 0, 0, 0, 0, 0, 0, 0x20, 0x22, 0x33, 0x44, 0x55, 0x66, 0x77, 0x88]
          ++ List.replicate 40 0 := by decide

/-- The admin read on the bus, in RUNNING and in HALTED; codes 0 and 9; a node id of 240; OPEN_SEND of an open ring. -/
theorem witness_AdminCommandRefused :
    AdminFetchDue adminFetching
      ∧ (onBusOf (.requester .ae) .read (inEngine .halted adminFetching) = true
        ∧ (inEngine .halted adminFetching).ae.phase = .fetching
        ∧ (inEngine .halted adminFetching).hp.engine = .halted)
      ∧ (byteAt (recordOf [0]) 0 = 0 ∧ 8 < (byteAt (recordOf [9]) 0).toNat)
      ∧ adminInRange (.nodeSet { nodeForm with nodeId := 240 }) = false
      ∧ (adminInRange (.openSend { ring := 1, cls := 3, size := 8, base := 64 }) = true
        ∧ adminStateHolds (openSend 0 0 0 0 adminFetching) (.openSend { ring := 1, cls := 3, size := 8, base := 64 })
            = false)
      ∧ (adminCommandOf (recordOf [2, 1, 0, 0, 0, 0, 0, 0, 1]) = some (.lineMode 1)
        ∧ 1 ∈ adminReservedOffsets (.lineMode 1) ∧ byteAt (recordOf [2, 1]) 1 ≠ 0) := by decide

theorem witness_AdminRangesAndStates :
    (8#8).toNat = (7 : SendId).val + 1 ∧ (9#8).toNat = (0 : ArrivalId).val + 9
      ∧ (12#8).toNat = (3 : ArrivalId).val + 9 := by decide

/-- The form at the ends of its ranges, taken; below the use; and a raise while a notice is owed. -/
theorem witness_NodeSet :
    AdminFetchDue adminFetching ∧ adminInRange (.nodeSet nodeForm) = true ∧ adminFetching.le.mode = .offline
      ∧ (nodeForm.rxLimit.toNat < (adminFetching.updCp (fun p => { p with rxInUse := 5 })).cp.rxInUse)
      ∧ (adminFetching.cp.txInUse ≤ nodeForm.txLimit.toNat ∧ adminFetching.cp.lowInUse + 2 ≤ nodeForm.txLimit.toNat
        ∧ adminFetching.cp.rxInUse ≤ nodeForm.rxLimit.toNat ∧ adminFetching.cp.noticeOwed = false)
      ∧ (let s := adminFetching.updCp (fun p => { p with noticeOwed := true })
         AdminFetchDue s ∧ s.cp.txLimit < nodeForm.txLimit.toNat ∧ s.cp.noticeOwed = true) := by decide

theorem witness_LineModeCommand :
    (AdminFetchDue (onLine .listen .receiving adminFetching)
        ∧ ¬(LineMode.offline = .online ∧ adminFetching.ae.nodeId = 0)
        ∧ (onLine .listen .receiving adminFetching).le.phase.isBoundary = false)
      ∧ (AdminFetchDue adminFetching ∧ adminFetching.le.phase.isBoundary = true
        ∧ adminFetching.hp.engine = .running)
      ∧ ((inEngine .halted (onLine .online .idle booted)).hp.engine = .halted
        ∧ (inEngine .halted (onLine .online .idle booted)).le.phase.isBoundary = true)
      ∧ ¬((adminFetching.le.mode = .online ∨ adminFetching.le.mode = .loopback) ∧ LineMode.listen ≠ adminFetching.le.mode
        ∧ adminFetching.sch.sofReported = false ∧ (offeredCell adminFetching).isSome = true) := by decide

/-- A cell withdrawn by a mode change, unmarked and marked FLUSH, with a cell behind it in its class list. -/
theorem witness_LineModeCommand_withdrawal :
    ∀ v ∈ [none, some Verdict.flush],
      let c := { sampleTx with verdict := v }
      let s := ((onLine .online .idle (openSend 0 1 0 0 (withTx c adminFetching))).updLe (fun l =>
        { l with slot := some 0 })).updSch (fun h => { h with lists := h.lists.set 1 [1] })
      AdminFetchDue s ∧ s.le.phase.isBoundary = true ∧ s.hp.engine = .running ∧ s.le.mode = .online
        ∧ LineMode.offline ≠ s.le.mode ∧ s.sch.sofReported = false ∧ s.le.slot = some 0 ∧ s.cell 0 = .tx c
        ∧ (s.send c.ring).cls = c.cls ∧ 0 ∉ s.classList c.cls := by decide

/-- OPEN_SEND of S7 and OPEN_ARRIVAL of A3, at the ends of their ranges. -/
theorem witness_OpenRings :
    AdminFetchDue adminFetching
      ∧ (adminInRange (.openSend { ring := 8, cls := 3, size := 1024, base := 64 }) = true
        ∧ (8#8).toNat = (7 : SendId).val + 1 ∧ (adminFetching.send 7).state = .closed)
      ∧ (adminInRange (.openArrival { ring := 12, count := 64, size := 8, delay := 255, base := 0 }) = true
        ∧ (12#8).toNat = (3 : ArrivalId).val + 9 ∧ (adminFetching.arrival 3).state = .closed) := by decide

/-- A send ring with a cell held, one without, and an arrival ring without and with a cell being received. -/
theorem witness_CloseRing :
    (let s := (openSend 0 1 0 0 (withTx sampleTx adminFetching)).updSend 0 (fun r => { r with held := 1 })
     AdminFetchDue s ∧ (s.send 0).state ≠ .closed ∧ (s.send 0).held ≠ 0)
      ∧ (AdminFetchDue (openSend 7 1 0 0 adminFetching) ∧ ((openSend 7 1 0 0 adminFetching).send 7).state ≠ .closed
        ∧ ((openSend 7 1 0 0 adminFetching).send 7).held = 0)
      ∧ PoolSound (openSend 7 1 0 0 adminFetching)
      ∧ (let s := openArrival 3 0 0 adminFetching
         let d := discardPending 3
          ((adminWaits 0 (.closeRing 12) .ringClosed s).updArrival 3 (fun c => { c with state := .draining }))
         AdminFetchDue s ∧ (12#8).toNat = (3 : ArrivalId).val + 9 ∧ (s.arrival 3).state ≠ .closed
          ∧ (d.arrival 3).held = 0)
      ∧ (let s := (openArrival 3 0 0 adminFetching).updArrival 3 (fun c => { c with held := 1 })
         let d := discardPending 3
          ((adminWaits 0 (.closeRing 12) .ringClosed s).updArrival 3 (fun c => { c with state := .draining }))
         AdminFetchDue s ∧ (s.arrival 3).state ≠ .closed ∧ (d.arrival 3).held ≠ 0) :=
  ⟨by decide, by decide, by decide, by decide, by decide⟩

/-- Departures and a flush with marked cells in the class list, with and without a cell of the ring in the offer slot; a
discard of one pending cell whose ring has discarded 65535. -/
theorem witness_FlushAndDiscard :
    (let c := { sampleTx with verdict := some .invalid }
     let s := (openSend 0 1 0 0 ((withTx c booted).setCell 1 (.tx sampleTx))).updSch
       (fun h => { h with lists := h.lists.set 1 [0, 1] })
     offeredOfRing s 0 = false ∧ (s.classList (s.send 0).cls).Nodup ∧ s.classList (s.send 0).cls = [0, 1]
        ∧ ((s.classList (s.send 0).cls).filter (isOfRing s 0)).takeWhile (fun id => (verdictOf s id).isSome) = [0]
        ∧ s.cell 0 = .tx c
        ∧ (let o := s.updLe (fun l => { l with slot := some 1 })
           offeredOfRing o 0 = true ∧ o.cell 1 = .tx sampleTx))
      ∧ (let s := ((openArrival 0 0 0 (withRx sampleRx booted)).updArrival 0
            (fun c => { c with discards := 65535, held := 1 })).setArrivalPending 0 [0]
         s.arrivalPending 0 = [0] ∧ (s.arrivalPending 0).Nodup ∧ s.cell 0 = .rx sampleRx ∧ sampleRx.ring = 0) := by decide

/-- The last entry, 31, and the form at the ends of its ranges. -/
theorem witness_AcceptanceTableCommands :
    AdminFetchDue adminFetching ∧ (31#8).toNat ≤ 31 ∧ (entryOfForm entryForm).isSome = true := by decide

theorem witness_CountsRead :
    (AdminFetchDue adminFetching ∧ (1#8).toNat ≤ 1 ∧ (0xFFFFFFFFFFFFFFE0#64).toNat % 32 = 0)
      ∧ (let s := ((onBus (.requester .ae) .write booted).updAe (fun a =>
            { a with phase := .executing, awaited := .countsWriteEnd,
                     current := some { tag := 7, index := 0, command := .countsRead 1 0 } })).updLe
            (fun l => { l with snapshot := some Reset.counters })
         onBusOf (.requester .ae) .write s = true ∧ s.hp.engine ≠ .resetting ∧ s.ae.awaited = .countsWriteEnd
          ∧ s.ae.current = some { tag := 7, index := 0, command := .countsRead 1 0 }
          ∧ s.le.snapshot = some Reset.counters) := by decide

/-- An arrival write in flight on A0 in a state of the ring, with so many cells held. -/
def arrivalWriting (st : RingState) (held : Nat) : State :=
  ((onBus (.requester .aw) .write (openArrival 0 0 0 (withRx sampleRx booted))).updArrival 0
    (fun r => { r with state := st, held := held, writeInFlight := true })).updAw
    (fun w => { w with inFlight := some { cell := 0, ring := 0, index := 0 } })

theorem witness_ArrivalWriteEnds :
    (∀ s ∈ [arrivalWriting .opened 1, arrivalWriting .draining 2, arrivalWriting .draining 1],
        onBusOf (.requester .aw) .write s = true ∧ s.hp.engine ≠ .resetting
          ∧ s.aw.inFlight = some { cell := 0, ring := 0, index := 0 } ∧ s.cell 0 = .rx sampleRx)
      ∧ sampleRx.ring = 0 ∧ ((arrivalWriting .opened 1).arrival 0).state = .opened
      ∧ (((arrivalWriting .draining 2).arrival 0).state = .draining
        ∧ 2 ≤ ((arrivalWriting .draining 2).arrival 0).held)
      ∧ (((arrivalWriting .draining 1).arrival 0).state = .draining
        ∧ ((arrivalWriting .draining 1).arrival 0).held = 1)
      ∧ (arrivalWriting .draining 1).ae.awaited ≠ .ringClosed
      ∧ (let cmd : CurrentCommand := { tag := 7, index := 0, command := .closeRing 9 }
         ((arrivalWriting .draining 1).updAe (fun a =>
           { a with awaited := .ringClosed, current := some cmd })).ae.current = some cmd) := by decide

/-- The ring visited last has the only pending cell. -/
theorem witness_ArrivalDecision :
    (∀ r, arrivalReady booted r = false)
      ∧ (let s := (openArrival 3 0 6 (withRx { sampleRx with ring := 3 } booted)).setArrivalPending 3 [0]
         s.hp.engine = .running ∧ s.aw.inFlight = none ∧ (3 : ArrivalId) = s.aw.pointer + Fin.ofNat 4 3
          ∧ arrivalReady s 3 = true ∧ (∀ j : Fin 3, arrivalReady s (s.aw.pointer + Fin.ofNat 4 j.val) = false)
          ∧ s.arrivalPending 3 = [0] ∧ s.cell 0 = .rx { sampleRx with ring := 3 }) := by decide

theorem witness_RecordLayouts :
    sampleTx.responses.length ≤ 8 ∧ (AdminResult.area { status := .done, tag := 0, index := 0, area := [] }).length ≤ 16
      ∧ (let c := { sampleRx with payload := List.replicate 32 0, length := 32 }
         c.payload.length = c.length ∧ c.length ≤ 32) := by decide

/-- The write of a transmit cell's completion, and of a RING_FAULT notice. -/
theorem witness_CompletionWriteEnds :
    (let s := (onBus (.requester .cw) .write (withTx sampleTx booted)).updCw
        (fun w => { w with inFlight := some { entry := .cell 0 .ok, index := 0 } })
     onBusOf (.requester .cw) .write s = true ∧ s.hp.engine = .running
        ∧ s.cw.inFlight = some { entry := .cell 0 .ok, index := 0 } ∧ s.cell 0 = .tx sampleTx)
      ∧ (let s := inEngine .halted (onBus (.requester .cw) .write booted)
         onBusOf (.requester .cw) .write s = true ∧ s.hp.engine = .halted)
      ∧ (onBus (.requester .cw) .write booted).hp.engine ≠ .resetting
      ∧ (let s := booted.updSend 0 (fun r => { r with state := .draining })
         let cmd : CurrentCommand := { tag := 7, index := 0, command := .closeRing 1 }
         let w := s.updAe (fun a => { a with awaited := .ringClosed, current := some cmd })
         (s.send 0).state = .draining ∧ (s.send 0).held = 0 ∧ s.ae.awaited ≠ .ringClosed
          ∧ (w.send 0).state = .draining ∧ (w.send 0).held = 0 ∧ w.ae.awaited = .ringClosed
          ∧ w.ae.current = some cmd) := by decide

/-- CR at the count before the last and at one below; a timer at the running tick for A3 and for CR. -/
theorem witness_Coalescing :
    booted.rct.completion.count ≤ booted.rct.completion.unnotified + 1
      ∧ (let r := { booted.rct.completion with count := 64, unnotified := 62 }
         r.unnotified + 1 < r.count)
      ∧ (let s := booted.updArrival 3 (fun r => { r with timer := some 0 })
         s.sch.tickRunning = true ∧ (s.arrival 3).timer = some s.sch.tick)
      ∧ (let s := booted.updCompletion (fun r => { r with timer := some 0 })
         s.sch.tickRunning = true ∧ s.rct.completion.timer = some s.sch.tick) := by decide

/-- CR with room for one more entry and with none; AR with a record posted, with 3 and with 4 results waiting. -/
theorem witness_CompletionAndAdminDecisions :
    (let e : CompletionEntry := .admin { status := .done, tag := 0, index := 0, area := [] }
     let s := (booted.updCompletion (fun r => { r with tail := 6 })).updCw (fun w => { w with pending := [e] })
     s.cw.pending = [e] ∧ s.hp.engine = .running ∧ s.rct.completion.state = .opened
        ∧ s.rct.completion.writeInFlight = false
        ∧ ringDistance s.rct.completion.tail s.rct.completion.head s.rct.completion.size + 1 < s.rct.completion.size)
      ∧ (withTx sampleTx booted).cell 0 = .tx sampleTx
      ∧ (let s := booted.updCompletion (fun r => { r with tail := 7 })
         s.rct.completion.size ≤ ringDistance s.rct.completion.tail s.rct.completion.head s.rct.completion.size + 1)
      ∧ (let e : CompletionEntry := .admin { status := .done, tag := 0, index := 0, area := [] }
         let s := booted.updCw (fun w => { w with pending := [e, e, e] })
         s.ae.phase = .idle ∧ s.rct.admin.state = .opened ∧ s.rct.admin.fetchInFlight = false
          ∧ ringDistance s.rct.admin.tail s.rct.admin.head s.rct.admin.size ≠ 0 ∧ adminResultsPending s < 4
          ∧ 4 ≤ adminResultsPending (booted.updCw (fun w => { w with pending := [e, e, e, e] }))) := by decide

/-- A deadline at the running tick, for a cell in the offer slot before and after its SOF, in its class list, and in a
fetch. -/
theorem witness_TickAndDeadlines :
    booted.sch.tickRunning = true ∧ State.reset.sch.tickRunning = false
      ∧ (let c := { sampleTx with deadline := some 0 }
         let s := withTx c booted
         s.cell 0 = .tx c ∧ s.sch.tickRunning = true ∧ c.deadline = some s.sch.tick ∧ s.le.slot ≠ some 0
          ∧ 0 ∉ s.classList c.cls
          ∧ (s.updLe (fun l => { l with slot := some 0 })).le.slot = some 0 ∧ s.sch.sofReported = false
          ∧ ((s.updSch (fun h => { h with lists := h.lists.set 1 [0] })).classList c.cls = [0]) ∧ c.verdict = none
          ∧ (s.updSch (fun h => { h with sofReported := true })).sch.sofReported = true) := by decide

/-- The head of class 3 at a count that has reached YIELD 15, and the head of class 3 in strict class order. -/
theorem witness_OfferDecision :
    (let s := ((onLine .online .idle booted).updSch (fun h =>
        { h with lists := h.lists.set 3 [0], passed := { h.passed with class3 := 15 } })).updAe
        (fun a => { a with yieldValue := 15 })
     s.hp.engine = .running ∧ s.le.slot = none ∧ s.le.phase = .idle ∧ s.le.mode = .online ∧ s.le.muted = false
        ∧ s.classList 3 = [0] ∧ 0 < s.ae.yieldValue ∧ s.ae.yieldValue ≤ s.sch.passed.get 3
        ∧ ∀ d : ClassId, d ≠ 0 → d < 3 → s.classList d ≠ [] → s.sch.passed.get d < s.ae.yieldValue)
      ∧ (let s := ((onLine .loopback .idle booted).updSch (fun h => { h with lists := h.lists.set 3 [0] })).updAe
          (fun a => { a with yieldValue := 0 })
         s.ae.yieldValue = 0 ∧ s.classList 3 = [0] ∧ ∀ d : ClassId, d < 3 → s.classList d = [])
      ∧ (onLine .listen .idle booted).le.mode ≠ .online := by decide

theorem witness_LostAndErrorOutcomes :
    (AttemptOutcome.lineFault = .lineFault ∧ Failure.lineFault = .lineFault)
      ∧ (withTx sampleTx booted).cell 0 = .tx sampleTx ∧ sampleTx.verdict = none
      ∧ (let c := { sampleTx with attemptsUsed := 2 }
         c.attemptsUsed + 1 < c.budget ∧ c.attemptsUsed < c.budget) := by decide

theorem witness_SentCleanOutcome :
    (let slots : List SlotClass := List.replicate 8 .absent
     slots.length ≤ 8 ∧ slots.length = 8)
      ∧ (let c := { sampleTx with mode := .roll, expect := 0x80 }
         c.mode = .roll ∧ c.expect ≠ 0 ∧ c.expect.getLsbD 7 = true)
      ∧ (let c := { sampleTx with mode := .single }
         c.mode = .single) ∧ sampleTx.mode = .noWindow
      ∧ (List.replicate 8 (SlotClass.read .reject 0))[7]? = some (.read .reject 0)
      ∧ (∀ k : Fin 8, (List.replicate 8 (SlotClass.read .ack 5))[k.val]? = some (.read .ack 5)) := by decide

theorem witness_AttemptSettlement :
    (let c := { sampleTx with attemptsUsed := 4 }
     c.verdict = none ∧ c.budget ≤ c.attemptsUsed) ∧ sampleTx.attemptsUsed < sampleTx.budget
      ∧ (let c := { sampleTx with verdict := some .expired }
         c.verdict = some .expired) ∧ (withTx sampleTx booted).cell 0 = .tx sampleTx
      ∧ settlement (countOutcome sampleTx (.sentClean [])) (attemptResult sampleTx (.sentClean []))
        = .complete .ok := by decide

theorem witness_ArbitrationWon :
    (let s := attempting .online .arbitrating
     s.le.phase = .arbitrating ∧ s.le.slot = some 0 ∧ s.cell 0 = .tx sampleTx
        ∧ s.le.frame = some (newFrame .originator)) ∧ booted.le.phase ≠ .arbitrating := by decide

theorem witness_AttemptReadings :
    (0x000000#24).toNat < (0x000001#24).toNat ∧ rollHead.cls < ({ rollHead with cls := 3 } : FrameHead).cls
      ∧ (let f := atCell 55 (frameAt .originator .checkEnd { rollHead with mode := .noWindow })
         let s := following .online .sending f booted
         s.le.mode ≠ .loopback ∧ gridEnd s.ae.rate f.cell f.expected (quietCells 1) = 29000
          ∧ (∀ g ∈ gridOf s.ae.rate f.cell f.expected (quietCells 1), goesOn f s g = true)
          ∧ cellIsDue s.le.phase f 56 = true ∧ f.partOf 56 = some .eof ∧ 56 = lastCell (frameShape f).1 (frameShape f).2
          ∧ cellIsDue s.le.phase f 55 = true ∧ f.partOf 55 = some .eof
          ∧ readCell s.ae.rate 29000 [] = .quiet ∧ readCell s.ae.rate 29000 [pulseAt 56 .data0] ≠ .quiet
          ∧ readCell s.ae.rate 29000 [{ edge := 29000, length := 32000 }] ≠ .quiet) := by decide

/-- An attempt ended at its first header cell, which reads a 0 against an own 1 in class 2, is quiet, or is stuck; and its
last EOF cell. -/
theorem witness_AttemptEnds :
    (let c := { sampleTx with cls := 2 }
     let f := atCell 1 (newFrame .originator)
     let s := ((attempting .online .arbitrating).setCell 0 (.tx c)).updLe (fun l => { l with frame := some f })
     s.le.phase.isAttempt = true ∧ s.le.slot = some 0 ∧ s.cell 0 = .tx c ∧ s.le.frame = some f
        ∧ decodedLine f (lastCell (frameShape f).1 (frameShape f).2) ([] ++ [[]]) s = [[]]
        ∧ attemptOutcomeAt f [[pulseAt 1 .data0]] s = some .lost
        ∧ attemptOutcomeAt f [[]] s = some .formatError
        ∧ attemptOutcomeAt f [[{ edge := 1500, length := 32000 }]] s = some .lineFault
        ∧ 64 * s.ae.rate.bitCycles ≤ 32000)
      ∧ (let f := atCell 49 (frameAt .originator .checkEnd { rollHead with mode := .noWindow })
         let s := following .online .sending f (withTx sampleTx booted)
         attemptOutcomeAt f (quietCells 8) s = some (.sentClean []) ∧ s.le.phase.isAttempt = true
          ∧ s.le.frame = some f
          ∧ attemptOutcomeAt f (decodedLine f (lastCell (frameShape f).1 (frameShape f).2) (quietCells 6 ++ [[]]) s) s
            = none)
      ∧ booted.le.phase.isAttempt = false
      ∧ (onLine .online .sending booted).le.phase.isAttempt = true ∧ (onLine .online .sending booted).le.frame = none := by
  decide

/-- A join at 8 bit times and one below; an SOF of 2 bit times joined at 7 3/4; one followed; an SOF that is not driven one
cycle below 8 bit times; a line in LOOPBACK; the phases that wait for quiet, with the shortest pulse and the longest glitch. -/
theorem witness_JoinsAndFrameStarts :
    (let s := onLine .online .joining booted
     s.le.phase = .joining ∧ 8 * s.ae.rate.bitCycles ≤ 4000 ∧ 3999 < 8 * s.ae.rate.bitCycles)
      ∧ (let s := (onLine .online .idle (withTx sampleTx booted)).updLe (fun l => { l with slot := some 0 })
         s.le.phase = .idle ∧ s.hp.engine = .running ∧ s.le.slot = some 0 ∧ s.cell 0 = .tx sampleTx
          ∧ s.le.mode = .online ∧ s.le.muted = false ∧ 31 * s.ae.rate.bitCycles ≤ 4 * 3875
          ∧ classifyPulse s.ae.rate 1000 = .sof ∧ 4 * 3874 < 31 * s.ae.rate.bitCycles
          ∧ s.le.mode ≠ .loopback ∧ 3999 < 8 * s.ae.rate.bitCycles ∧ 8 * s.ae.rate.bitCycles ≤ 4000)
      ∧ (let s := onLine .listen .idle booted
         s.le.phase = .idle ∧ s.le.mode ≠ .loopback ∧ s.le.slot = none ∧ classifyPulse s.ae.rate 62 = .glitch
          ∧ classifyPulse s.ae.rate 63 = .data1 ∧ classifyPulse s.ae.rate 32000 = .stuck)
      ∧ (onLine .loopback .idle booted).le.mode = .loopback ∧ (onLine .online .receiving booted).le.phase = .receiving
      ∧ ∀ p ∈ [Phase.joining, .recovering, .fault], (onLine .listen p booted).le.phase = p
          ∧ (onLine .listen p booted).le.mode ≠ .loopback ∧ classifyPulse booted.ae.rate 63 ≠ .glitch
          ∧ classifyPulse booted.ae.rate 31999 ≠ .stuck ∧ classifyPulse booted.ae.rate 62 = .glitch
          ∧ classifyPulse booted.ae.rate 32000 = .stuck := by decide

/-- The ends of the classes, of the start window, and two drivers a quarter of a bit apart. -/
theorem witness_PulseClasses :
    8 * 62 < RateCode.kbit20.bitCycles ∧ RateCode.kbit20.bitCycles ≤ 8 * 63
      ∧ (RateCode.kbit20.bitCycles ≤ 2 * 250 ∧ 2 * 249 < RateCode.kbit20.bitCycles)
      ∧ (RateCode.kbit20.bitCycles ≤ 500 ∧ 499 < RateCode.kbit20.bitCycles)
      ∧ (3 * RateCode.kbit20.bitCycles ≤ 2 * 750 ∧ 2 * 1249 < 5 * RateCode.kbit20.bitCycles)
      ∧ (8 * RateCode.kbit20.bitCycles ≤ 4000 ∧ 31999 < 64 * RateCode.kbit20.bitCycles)
      ∧ 64 * RateCode.kbit20.bitCycles ≤ 32000
      ∧ ([{ edge := 1375, length := 62 }] : CellPulses).filter (fun p => RateCode.kbit20.bitCycles ≤ 8 * p.length) = []
      ∧ (∀ e ∈ [1374, 1375, 1625, 1626],
          ([{ edge := e, length := 63 }] : CellPulses).filter (fun p => RateCode.kbit20.bitCycles ≤ 8 * p.length)
            = [{ edge := e, length := 63 }])
      ∧ (4 * 1374 + RateCode.kbit20.bitCycles < 4 * 1500 ∧ 4 * 1500 ≤ 4 * 1375 + RateCode.kbit20.bitCycles
        ∧ 4 * 1625 ≤ 4 * 1500 + RateCode.kbit20.bitCycles ∧ 4 * 1500 + RateCode.kbit20.bitCycles < 4 * 1626)
      ∧ (1500 ≤ 1625 ∧ 4 * 1625 ≤ 4 * 1500 + RateCode.kbit20.bitCycles) := by decide

theorem witness_HeaderFieldsRoundTrip :
    ({ rollHead with length := 32 } : FrameHead).length ≤ 32
      ∧ FrameHead.ofBits rollHead.bits = some rollHead := by decide

/-- A receiver from its SOF, one that lost at cell 24, and an originator. -/
theorem witness_HeaderEnds :
    (let f := newFrame .receiver
     let s := following .listen .receiving f booted
     let cells := sofAnd (lineBits rollHead.bits)
     s.le.phase = .receiving ∧ s.le.mode ≠ .loopback ∧ s.le.frame = some f ∧ f.role = .receiver ∧ f.point = .start
        ∧ reaches f 32 cells s = true
        ∧ f.kept ++ dataBits s.ae.rate (gridOf s.ae.rate f.cell f.expected cells) = lineBits rollHead.bits
        ∧ FrameHead.ofBits rollHead.bits = some rollHead)
      ∧ (let f := { atCell 25 (newFrame .receiver) with kept := (lineBits rollHead.bits).take 24 }
         let s := following .online .receiving f booted
         let cells := bitCells 25 ((lineBits rollHead.bits).drop 24)
         f.role = .receiver ∧ reaches f 32 cells s = true
          ∧ f.kept ++ dataBits s.ae.rate (gridOf s.ae.rate f.cell f.expected cells) = lineBits rollHead.bits)
      ∧ (let head := drivenHead sampleTx booted.ae.nodeId
         let f := newFrame .originator
         let s := attempting .online .sending
         let cells := sofAnd (lineBits head.bits)
         s.le.phase = .sending ∧ s.le.frame = some f ∧ f.role = .originator ∧ f.point = .start ∧ f.cell = 0
          ∧ f.kept = [] ∧ s.le.slot = some 0 ∧ s.cell 0 = .tx sampleTx ∧ sampleTx.length ≤ 32 ∧ s.ae.nodeId = booted.ae.nodeId
          ∧ decodedLine f 32 cells s = cells ∧ reaches f 32 cells s = true
          ∧ (∀ e ∈ [(0, Part.sofPart), (1, .header), (32, .control), (33, .check), (48, .check), (49, .eod), (56, .eof)],
            f.partOf e.1 = some e.2)
          ∧ (frameAt .originator .checkEnd rollHead).partOf 51 = some .slotMark
          ∧ (frameAt .originator .checkEnd rollHead).partOf 186 = some .response) := by decide

/-- An entry that matches everything, one that matches one head only, one with a value outside its mask, and a first match
at the last index. -/
theorem witness_AcceptanceMatching :
    (let e := { Reset.entry with valid := true }
     e.valid = true ∧ e.targetMask = 0 ∧ e.topicMask = 0 ∧ e.sourceMask = 0)
      ∧ (let e := { Reset.entry with valid := true, targetMask := 255, topicMask := 63, sourceMask := 255 }
         e.valid = true ∧ e.targetMask = 255 ∧ e.topicMask = 63 ∧ e.sourceMask = 255)
      ∧ (let s := booted.setEntry 31 { Reset.entry with valid := true }
         ¬(false = true ∧ (s.le.mode = .listen ∨ s.le.mode = .online)) ∧ (s.entry 31).matchesHead rollHead = true
          ∧ ∀ j : Fin 32, j < 31 → (s.entry j).matchesHead rollHead = false)
      ∧ 15#8 &&& 240#8 = 0#8 &&& 240#8 ∧ 15#6 &&& 48#6 = 0#6 &&& 48#6 ∧ (239 < (255#8).toNat ∧ 240 ≤ (240#8).toNat) := by
  decide

/-- The last entry decides alone: accepted, at RX_HOLD, at RX_LIMIT, refused, and discarded as its ring is closed. -/
theorem witness_AcceptanceDecision :
    (let e := { Reset.entry with valid := true, respond := true, slot := 7 }
     let s := openArrival 0 0 0 (booted.setEntry 31 e)
     ¬(false = true ∧ (s.le.mode = .listen ∨ s.le.mode = .online)) ∧ e = s.entry 31 ∧ e.matchesHead rollHead = true
        ∧ (∀ j : Fin 32, j < 31 → (s.entry j).matchesHead rollHead = false) ∧ rollHead.mode ≠ .noWindow
        ∧ e.action = .accept ∧ (s.arrival e.ring).state = .opened ∧ s.hp.engine = .running
        ∧ s.cp.rxInUse < s.cp.rxHold ∧ lowestFree s = some 0
        ∧ (s.updCp (fun p => { p with rxInUse := 8 })).cp.rxHold ≤ (s.updCp (fun p => { p with rxInUse := 8 })).cp.rxInUse
        ∧ (s.updCp (fun p => { p with rxInUse := 12 })).cp.rxLimit
            ≤ (s.updCp (fun p => { p with rxInUse := 12 })).cp.rxInUse
        ∧ (inEngine .halted s).hp.engine = .halted ∧ ((booted.setEntry 31 e).arrival e.ring).state ≠ .opened)
      ∧ (∀ i, (booted.entry i).matchesHead rollHead = false)
      ∧ (onLine .online .sending booted).le.mode = .online := by decide

/-- A receiver whose answer stands in slot 0, with a good check and a bad one, with a cell and without; an originator; a
commit to an open ring, to a closed one, and to a draining one with its last cell. -/
theorem witness_CheckEnds :
    (let f := { atCell 33 (frameAt .receiver .headerEnd rollHead) with answerAllowed := true }
     let r := { emptyReception with cell := some 0, answer := some { slot := 0, code := .ack, value := 5 } }
     let s := (following .online .receiving f (withRx sampleRx booted)).updAu (fun u => { u with reception := some r })
     let good := bitCells 33 (List.replicate 16 true)
     let bad := bitCells 33 (List.replicate 16 false)
     s.le.frame = some f ∧ f.point = .headerEnd ∧ f.head = some rollHead ∧ s.le.phase = .receiving
        ∧ (∀ cells ∈ [good, bad], decodedLine f 48 ([] ++ cells) s = cells ∧ reaches f 48 cells s = true
          ∧ bytesOfBits 0 (dataBits s.ae.rate (gridOf s.ae.rate f.cell f.expected cells)) = [])
        ∧ (BitVec.ofNat 16 (bitsToNat (dataBits s.ae.rate (gridOf s.ae.rate f.cell f.expected good))) = 0xFFFF#16)
        ∧ (BitVec.ofNat 16 (bitsToNat (dataBits s.ae.rate (gridOf s.ae.rate f.cell f.expected bad))) = 0#16)
        ∧ runCheck f.checkRegister (payloadBits []) = 0xFFFF#16 ∧ s.au.reception = some r ∧ r.cell = some 0
        ∧ emptyReception.cell = none ∧ s.cell 0 = .rx sampleRx)
      ∧ ((openArrival 0 0 0 booted).arrival 0).state = .opened ∧ (booted.arrival 0).state ≠ .opened
      ∧ (let s := (withRx sampleRx booted).updArrival 0 (fun r => { r with state := .draining, held := 1 })
         (s.arrival 0).state = .draining ∧ (s.arrival 0).held ≤ 1 ∧ s.cell 0 = .rx sampleRx ∧ sampleRx.ring = 0) := by
  decide

set_option maxRecDepth 8000 in
/-- An originator at its check end. -/
theorem witness_CheckEnds_of_an_originator :
    (let head := drivenHead sampleTx booted.ae.nodeId
     let f := atCell 33 (frameAt .originator .headerEnd head)
     let s := (attempting .online .sending).updLe (fun l => { l with frame := some f })
     let cells := bitCells 33 (lineBits (frameCheck head.bits []))
     s.le.frame = some f ∧ s.le.phase = .sending ∧ f.role = .originator ∧ f.cell = 33 ∧ s.le.slot = some 0
        ∧ s.cell 0 = .tx sampleTx ∧ head = drivenHead sampleTx s.ae.nodeId ∧ sampleTx.payload.length = sampleTx.length
        ∧ decodedLine f (48 + 8 * head.length) ([] ++ cells) s = cells ∧ reaches f (48 + 8 * head.length) cells s = true) := by
  decide

theorem witness_SlotReadings :
    (∃ r ∈ [Reading.invalid], r ≠ .quiet ∧ ∀ b, r ≠ .data b)
      ∧ (let cells : List Reading := .data true :: List.replicate 15 .quiet
         cells.length = 16 ∧ (∀ r ∈ cells, r = .quiet ∨ r = .data true) ∧ .quiet ∈ cells ∧ .data true ∈ cells)
      ∧ (List.replicate 16 true).length = 16 :=
  ⟨⟨.invalid, by simp, by simp, by simp⟩, by decide, by decide⟩

/-- The EOD; the last slot, ONLINE and in LOOPBACK with the own answer there; a receiver that answers in the last slot,
before it and in it. -/
theorem witness_WindowEvents :
    (let f := atCell 49 (frameAt .originator .checkEnd rollHead)
     let s := following .online .sending f booted
     s.le.phase = .sending ∧ s.le.frame = some f ∧ f.point = .checkEnd ∧ f.head = some rollHead
        ∧ rollHead.mode ≠ .noWindow ∧ f.cell = 49 + 8 * rollHead.length)
      ∧ (let f := atCell 170 (frameAt .originator (.slot 6) rollHead)
         let s := following .online .windowOut f booted
         let cells := bitCells 170 [false] ++ quietCells 16
         s.le.phase = .windowOut ∧ s.le.frame = some f ∧ (7 : Slot).val < rollHead.mode.slotCount
          ∧ f.point = .slot 6 ∧ (7 : Slot).val = (6 : Slot).val + 1 ∧ s.le.mode = .online ∧ f.answer = none
          ∧ reaches f (67 + 17 * 7) cells s = true
          ∧ classifySlot (((gridOf s.ae.rate f.cell f.expected cells).drop (cells.length - 16)).map
              (GridCell.reading s.ae.rate)) = some .absent)
      ∧ (let a : Answer := { slot := 7, code := .ack, value := 0 }
         let f := { atCell 170 (frameAt .originator (.slot 6) rollHead) with answer := some a, answerAllowed := true }
         let s := following .loopback .windowOut f booted
         s.le.mode = .loopback ∧ f.role = .originator ∧ f.cell = 51 + 17 * 7 ∧ f.slotDrive = .pending
          ∧ f.answerAllowed = true ∧ f.answer.map (fun a => a.slot) = some 7)
      ∧ (let a : Answer := { slot := 7, code := .ack, value := 0 }
         let f := { atCell 153 (frameAt .receiver (.slot 5) rollHead) with answer := some a, answerAllowed := true }
         let s := following .online .receiving f booted
         let cells := bitCells 153 [false] ++ quietCells 16
         s.le.phase = .receiving ∧ s.le.mode ≠ .loopback ∧ s.le.frame = some f ∧ f.head = some rollHead
          ∧ f.point = .slot 5 ∧ (5 : Slot) < 6 ∧ reaches f (67 + 17 * 6) cells s = true
          ∧ f.cell = 51 + 17 * 6 ∧ f.answer.map (fun a => a.slot) ≠ some 6
          ∧ f.answer.map (fun a => a.slot.val) = some (6 + 1))
      ∧ (let a : Answer := { slot := 7, code := .ack, value := 0 }
         let f := { atCell 170 (frameAt .receiver (.slot 6) rollHead) with answer := some a, answerAllowed := true }
         let s := following .online .receiving f booted
         let cells := bitCells 170 (false :: a.bits)
         f.answer = some a ∧ a.slot = 7 ∧ f.answerAllowed = true ∧ f.cell ≤ 52 + 17 * 7
          ∧ reaches f (67 + 17 * 7) cells s = true) := by decide

/-- A frame past its last EOF cell, in RUNNING and in HALTED; one abandoned at a quiet cell, with and without a cell, the
last of a draining ring; one whose control byte has length 33. -/
theorem witness_FrameEnds :
    (let h := { rollHead with mode := .noWindow }
     let f := atCell 49 (frameAt .receiver .checkEnd h)
     let s := following .listen .receiving f booted
     s.le.phase = .receiving ∧ s.le.frame = some f ∧ f.head = some h ∧ f.point ≠ .start ∧ f.point ≠ .headerEnd
        ∧ reaches f (56 + 8 * h.length + 17 * h.mode.slotCount) (quietCells 8) s = true
        ∧ (inEngine .halted s).hp.engine = .halted
        ∧ reaches f (56 + 8 * h.length + 17 * h.mode.slotCount) (quietCells 8) (inEngine .halted s) = true)
      ∧ (let f := atCell 33 (frameAt .receiver .headerEnd rollHead)
         let r := { emptyReception with cell := some 0 }
         let s := ((following .listen .receiving f (withRx sampleRx booted)).updAu
            (fun u => { u with reception := some r })).updArrival 0 (fun r => { r with state := .draining, held := 1 })
         abandons f (quietCells 1) s = true ∧ s.au.reception = some r ∧ r.cell = some 0 ∧ s.cell 0 = .rx sampleRx
          ∧ (s.arrival sampleRx.ring).state = .draining ∧ (s.arrival sampleRx.ring).held ≤ 1
          ∧ cellIsDue .receiving f 33 = true ∧ f.partOf 33 = some .check ∧ f.role = .receiver ∧ s.le.mode ≠ .loopback)
      ∧ (let f := { atCell 32 (newFrame .receiver) with kept := (lineBits 0x11#31) }
         let s := following .listen .receiving f booted
         let cells := bitCells 32 [true]
         s.le.phase = .receiving ∧ f.point = .start ∧ f.cell ≤ 32 ∧ reaches f 32 cells s = true
          ∧ cellIsDue .receiving f 32 = true ∧ f.partOf 32 = some .control
          ∧ f.kept ++ dataBits s.ae.rate (gridOf s.ae.rate f.cell f.expected cells) = lineBits 0x23#32
          ∧ (0x61#32).extractLsb' 0 6 = 33#6)
      ∧ (onLine .online .idle (inEngine .halted booted)).le.phase.isBoundary = true
      ∧ (onLine .online .receiving booted).le.phase.isBoundary = false
      ∧ (let f := newFrame .receiver
         let s := following .listen .receiving f booted
         let breakInSof : CellPulses := [{ edge := 0, length := 4000 }]
         cellIsDue .receiving f 0 = true ∧ f.partOf 0 = some .sofPart ∧ f.expected = 0 ∧ s.le.mode ≠ .loopback
          ∧ readCell s.ae.rate 0 breakInSof = .breakPulse ∧ isFormatError .sofPart .breakPulse = true
          ∧ isFormatError .sofPart .sof = false) := by decide

theorem witness_StuckLineAndRecovery :
    64 * booted.ae.rate.bitCycles ≤ 32000 ∧ booted.le.phase = .off
      ∧ (∀ p ∈ [Phase.joining, .idle, .recovering, .receiving, .sending, .fault],
          (onLine .online p booted).le.phase = p ∧ (onLine .online p booted).le.mode ≠ .loopback)
      ∧ (attempting .online .sending).le.phase.isAttempt = true ∧ (attempting .online .sending).le.slot = some 0
      ∧ 8 * booted.ae.rate.bitCycles ≤ 4000 ∧ 6 * booted.ae.rate.bitCycles ≤ 3000
      ∧ 2999 < 6 * booted.ae.rate.bitCycles := by decide

/-- A HALTED engine on which a command that starts no reset acts. -/
theorem witness_EngineStates :
    (nextOf (exec .tick (inEngine .halted booted))).isSome = true ∧ startsReset .tick = false
      ∧ (inEngine .halted booted).hp.engine = .halted
      ∧ (inEngine .halted State.reset).sch.tickRunning = false := by decide

theorem witness_CompletionListIsFifo :
    (nextOf (exec .tick booted)).map (·.hp.engine) = some .running := by decide

/-- RUNNING with the end of the completion write of cell 0 waiting in the queue. -/
def queued : State := booted.withPending [.completionWriteEnd .written]

theorem witness_PoolStaysSound : PoolSound queued ∧ (nextOf (step queued)).isSome = true := ⟨by decide, by decide⟩

theorem witness_PoolLeavesFreeCells :
    PoolSound booted ∧ judgeTransmitClaim 3 booted = .granted ∧ judgeReceiveClaim true booted = .granted :=
  ⟨by decide, by decide, by decide⟩

/-- An attempt in progress is sound, and steps. -/
theorem witness_LineStaysSound :
    LineSound ((attempting .online .sending).withPending [.stuckLine 32000])
      ∧ (nextOf (step ((attempting .online .sending).withPending [.stuckLine 32000]))).isSome = true :=
  ⟨by decide, by decide⟩

theorem witness_RingsAndAdminStaySound :
    PassedOverSound queued ∧ OpenRingsSound queued ∧ AdminSound queued ∧ (nextOf (step queued)).isSome = true :=
  ⟨by decide, by decide, by decide, by decide⟩

theorem witness_NothingRunsBeforeBoot :
    UnbootedSound (loading.withPending [.bootReadEnd .busError])
      ∧ (nextOf (step (loading.withPending [.bootReadEnd .busError]))).isSome = true := ⟨by decide, by decide⟩

end Sys2Proof.Tests
end

section
/-! PROOFS. The shared line: the header and control byte as bits, its fields read back, and the check (R8 to R12). -/

namespace Sys2Proof.Machine

/-! ## The header and control byte (R9, R10) -/

/-- Each of six fields in a row stands in its own bits. -/
theorem extract_of_append_fields (a : BitVec 2) (b : BitVec 8) (c : BitVec 6) (d : BitVec 8) (e : BitVec 2)
    (f : BitVec 6) :
    (a ++ b ++ c ++ d ++ e ++ f).extractLsb' 30 2 = a ∧ (a ++ b ++ c ++ d ++ e ++ f).extractLsb' 22 8 = b
      ∧ (a ++ b ++ c ++ d ++ e ++ f).extractLsb' 16 6 = c ∧ (a ++ b ++ c ++ d ++ e ++ f).extractLsb' 8 8 = d
      ∧ (a ++ b ++ c ++ d ++ e ++ f).extractLsb' 6 2 = e ∧ (a ++ b ++ c ++ d ++ e ++ f).extractLsb' 0 6 = f := by
  simp (disch := decide) [BitVec.extractLsb'_append_eq_of_le, BitVec.extractLsb'_append_eq_of_add_le, -Nat.reduceAdd]

/-- Thirty-two bits are their six fields in a row. -/
theorem append_of_extract_fields (b : BitVec 32) :
    b.extractLsb' 30 2 ++ b.extractLsb' 22 8 ++ b.extractLsb' 16 6 ++ b.extractLsb' 8 8 ++ b.extractLsb' 6 2
      ++ b.extractLsb' 0 6 = b := by
  simp (disch := decide) [BitVec.extractLsb'_append_extractLsb'_eq_extractLsb', -Nat.reduceAdd]

/-- Every field of a head stands in its own cells: bit 31 is cell 1 (R9, R10). -/
theorem FrameHead.extract_bits (h : FrameHead) :
    h.bits.extractLsb' 30 2 = BitVec.ofNat 2 h.cls.val ∧ h.bits.extractLsb' 22 8 = h.target
      ∧ h.bits.extractLsb' 16 6 = h.topic ∧ h.bits.extractLsb' 8 8 = h.source
      ∧ h.bits.extractLsb' 6 2 = h.mode.code ∧ h.bits.extractLsb' 0 6 = BitVec.ofNat 6 h.length :=
  extract_of_append_fields _ _ _ _ _ _

/-- The class stands above the other 22 bits of the header (R9). -/
theorem FrameHead.header_div (h : FrameHead) : (h.bits.extractLsb' 8 24).toNat / 2 ^ 22 = h.cls.val := by
  have hcls : (h.bits.extractLsb' 30 2).toNat = h.cls.val := by
    rw [h.extract_bits.1, BitVec.toNat_ofNat, Nat.mod_eq_of_lt h.cls.isLt]
  rw [← hcls, BitVec.extractLsb'_toNat, BitVec.extractLsb'_toNat]
  omega

/-- A legal length fits its field (R10). -/
theorem toNat_ofNat_length {n : Nat} (h : n ≤ 32) : (BitVec.ofNat 6 n).toNat = n := by
  rw [BitVec.toNat_ofNat, Nat.mod_eq_of_lt (by omega)]

/-- The code of a mode reads back (R10). -/
@[simp] theorem ResponseMode.ofCode_code (m : ResponseMode) : ofCode m.code = some m := by
  cases m <;> rfl

/-- A code that reads as a mode is that mode's (R10). -/
theorem ResponseMode.code_of_ofCode {c : BitVec 2} {m : ResponseMode} (h : ofCode c = some m) : m.code = c := by
  revert c
  cases m <;> decide

/-- Code 3 alone is no mode's (R10). -/
theorem ResponseMode.ofCode_eq_none {c : BitVec 2} : ofCode c = none ↔ c = 3#2 := by
  revert c
  decide

/-- Bits read as no head exactly for mode 3 or a length above 32 (R10). -/
theorem FrameHead.ofBits_eq_none {b : BitVec 32} :
    ofBits b = none ↔ b.extractLsb' 6 2 = 3#2 ∨ 32 < (b.extractLsb' 0 6).toNat := by
  rw [← ResponseMode.ofCode_eq_none]
  unfold ofBits
  split
  · next hm => exact iff_of_true rfl (.inl hm)
  · next m hm =>
    split
    · next hl => exact iff_of_true rfl (.inr hl)
    · next hl => exact iff_of_false nofun (by rw [hm]; exact fun h => h.elim nofun hl)

/-- Bits that read as a head hold its fields, and its length is legal (R9, R10). -/
theorem FrameHead.ofBits_eq_some {b : BitVec 32} {h : FrameHead} (hb : ofBits b = some h) :
    h.mode.code = b.extractLsb' 6 2 ∧ (b.extractLsb' 0 6).toNat ≤ 32
      ∧ h.cls = (b.extractLsb' 30 2).toFin ∧ h.target = b.extractLsb' 22 8 ∧ h.topic = b.extractLsb' 16 6
      ∧ h.source = b.extractLsb' 8 8 ∧ h.length = (b.extractLsb' 0 6).toNat := by
  unfold ofBits at hb
  split at hb
  · cases hb
  · next m hm =>
    split at hb
    · cases hb
    · next hl =>
      cases hb
      exact ⟨ResponseMode.code_of_ofCode hm, Nat.le_of_not_lt hl, rfl, rfl, rfl, rfl, rfl⟩

/-- A head with a legal length reads back from its bits (R9, R10). -/
theorem FrameHead.ofBits_bits {h : FrameHead} (hl : h.length ≤ 32) : ofBits h.bits = some h := by
  obtain ⟨hcls, htarget, htopic, hsource, hmode, hlength⟩ := h.extract_bits
  unfold ofBits
  rw [hcls, htarget, htopic, hsource, hmode, hlength, ResponseMode.ofCode_code, toNat_ofNat_length hl]
  simp [Nat.not_lt.mpr hl]

/-- Bits that read as a head are that head's (R9, R10). -/
theorem FrameHead.bits_of_ofBits {b : BitVec 32} {h : FrameHead} (hb : ofBits b = some h) : h.bits = b := by
  obtain ⟨hmode, -, hcls, htarget, htopic, hsource, hlength⟩ := ofBits_eq_some hb
  unfold FrameHead.bits
  rw [hmode, hcls, htarget, htopic, hsource, hlength, BitVec.val_toFin, BitVec.ofNat_toNat, BitVec.ofNat_toNat,
    BitVec.setWidth_eq, BitVec.setWidth_eq]
  exact append_of_extract_fields b

/-! ## The check register (R11, R12) -/

/-- A step of the check register drops its first bit, and its last one tells whether the bit run in was the first. -/
theorem checkStep_getMsbD_last (r : BitVec 16) (b : Bool) : (checkStep r b).getMsbD 15 = (b != r.msb) := by
  unfold checkStep
  split <;> simp_all [Config.checkPolynomial]

/-- A step that runs in the register's first bit shifts the register (R11). -/
theorem checkStep_msb (r : BitVec 16) : checkStep r r.msb = r <<< 1 := if_pos rfl

/-- A register is 0 when its bits are. -/
theorem eq_zero_iff_getMsbD {w : Nat} (r : BitVec w) : r = 0 ↔ ∀ i < w, r.getMsbD i = false := by
  refine ⟨fun h => by simp [h], fun h => BitVec.eq_of_getMsbD_eq fun i hi => ?_⟩
  rw [h i hi]
  exact BitVec.getMsbD_zero.symm

/-- The register runs to 0 over at most sixteen bits exactly when they are its first bits, and the rest of it is 0: a
bit that is not the register's first leaves a 1 at its end, which fewer than sixteen further steps do not drop. -/
theorem runCheck_eq_zero_iff (bits : List Bool) (r : BitVec 16) (hl : bits.length ≤ 16) :
    runCheck r bits = 0 ↔ ∀ i < 16, r.getMsbD i = bits.getD i false := by
  induction bits generalizing r with
  | nil => simpa [runCheck] using eq_zero_iff_getMsbD r
  | cons b bits ih =>
    have hlast : bits.getD 15 false = false := List.getD_eq_default _ _ (Nat.le_of_succ_le_succ hl)
    have hrun : runCheck r (b :: bits) = runCheck (checkStep r b) bits := rfl
    rw [hrun, ih _ (Nat.le_of_succ_le hl)]
    by_cases hb : b = r.msb
    · subst hb
      rw [checkStep_msb]
      constructor
      · intro h i hi
        cases i with
        | zero => simp [BitVec.msb]
        | succ i => simpa [hi] using h i (by omega)
      · intro h i hi
        by_cases h15 : i = 15
        · subst h15
          rw [hlast]
          simp
        · simpa [show i + 1 < 16 by omega] using h (i + 1) (by omega)
    · refine iff_of_false (fun h => ?_) (fun h => hb ?_)
      · have h15 := h 15 (by omega)
        rw [checkStep_getMsbD_last, hlast] at h15
        exact hb (by simpa using h15)
      · simpa [BitVec.msb] using (h 0 (by omega)).symm

/-- Sixteen check bits run the register to 0 exactly when they are its own (R12). -/
theorem runCheck_lineBits_eq_zero (register check : BitVec 16) :
    runCheck register (lineBits check) = 0 ↔ check = register := by
  rw [runCheck_eq_zero_iff _ _ (by simp)]
  constructor
  · intro h
    refine BitVec.eq_of_getMsbD_eq fun i hi => ?_
    simpa [lineBits, hi] using (h i hi).symm
  · rintro rfl i hi
    simp [lineBits, hi]

/-- The register runs over two stretches of bits one after the other (R11). -/
theorem runCheck_append (r : BitVec 16) (a b : List Bool) : runCheck r (a ++ b) = runCheck (runCheck r a) b :=
  List.foldl_append

/-- A frame's check is the register run over header, control byte and payload (R11). -/
theorem frameCheck_eq (head : BitVec 32) (payload : List Byte) :
    frameCheck head payload = runCheck Config.checkStart (lineBits head ++ payloadBits payload) :=
  (runCheck_append _ _ _).symm

/-- A frame read back as driven has a good check (R12). -/
theorem runCheck_imageBits (head : BitVec 32) (payload : List Byte) :
    runCheck Config.checkStart (imageBits head payload) = 0 := by
  rw [imageBits, runCheck_append, ← frameCheck_eq, runCheck_lineBits_eq_zero]

/-- The bits of a field spell the field itself (R8). -/
theorem ofNat_bitsToNat_lineBits {w : Nat} (x : BitVec w) : BitVec.ofNat w (bitsToNat (lineBits x)) = x := by
  rw [bitsToNat_lineBits, BitVec.ofNat_toNat, BitVec.setWidth_eq]

set_option maxRecDepth 8000 in
/-- The worked value of R11: the register after the bytes of "123456789". -/
theorem runCheck_nine_bytes :
    runCheck 0xFFFF#16 (payloadBits [0x31, 0x32, 0x33, 0x34, 0x35, 0x36, 0x37, 0x38, 0x39]) = 0x29B1#16 := by decide

end Sys2Proof.Machine

namespace Sys2Proof.Proofs

open Sys2Proof.Machine

/-- Settles O45: the six fields stand side by side in the 32 bits, and a code reads as the mode whose code it is. -/
theorem headerFieldsRoundTrip : Obligations.HeaderFieldsRoundTrip := by
  refine ⟨fun h hl => FrameHead.ofBits_bits hl, fun b h hb => ⟨FrameHead.bits_of_ofBits hb, ?_⟩, fun h hl => ?_,
    fun b => FrameHead.ofBits_eq_none⟩
  · obtain ⟨-, hle, -, -, -, -, hlength⟩ := FrameHead.ofBits_eq_some hb
    rwa [hlength]
  · obtain ⟨hcls, htarget, htopic, hsource, hmode, hlength⟩ := h.extract_bits
    refine ⟨?_, htarget, htopic, hsource, ?_, ?_⟩
    · rw [hcls, BitVec.toNat_ofNat, Nat.mod_eq_of_lt h.cls.isLt]
    · rw [hmode]
      cases h.mode <;> rfl
    · rw [hlength, toNat_ofNat_length hl]

/-- Settles O44: the residue lemma for sixteen bits, put after the register's run over the frame. -/
theorem checkResidue : Obligations.CheckResidue :=
  ⟨runCheck_nine_bytes, runCheck_lineBits_eq_zero, runCheck_imageBits,
    fun w x => ⟨rfl, ofNat_bitsToNat_lineBits x⟩, fun payload rest => ⟨rfl, bytesOfBits_payloadBits payload rest⟩,
    fun head payload => ⟨frameCheck_eq head payload, rfl⟩⟩

end Sys2Proof.Proofs
end

section
/-! PROOFS. The shared line: how a slot reads, and where a responder withdraws (R17, R18, R25). -/

namespace Sys2Proof.Machine

/-! ## The classification of a slot (R18) -/

/-- A reading that may stand in a response cell is quiet or a data bit. -/
theorem Reading.isResponse_iff (r : Reading) : r.isResponse = true ↔ r = .quiet ∨ ∃ b, r = .data b := by
  cases r <;> simp [Reading.isResponse]

/-- A slot with a symbol that is no response reading is a format error (R18, R19). -/
theorem classifySlot_of_symbol {cells : List Reading} (h : ∃ r ∈ cells, r.isResponse = false) :
    classifySlot cells = none := by
  unfold classifySlot
  rw [if_pos (by simpa using h)]

/-- A slot of response readings that are not all quiet: GARBLED when one is quiet, by its code otherwise (R18, R25). -/
theorem classifySlot_of_read {cells : List Reading} (hr : ∀ r ∈ cells, r.isResponse = true)
    (hd : ∃ r ∈ cells, r ≠ .quiet) :
    classifySlot cells = some (.read
      (if .quiet ∈ cells then .garbled
       else if BitVec.ofNat 8 (bitsToNat ((cells.map Reading.midCell).take 8)) = Config.codeAck then .ack
       else if BitVec.ofNat 8 (bitsToNat ((cells.map Reading.midCell).take 8)) = Config.codeBusy then .busy
       else if BitVec.ofNat 8 (bitsToNat ((cells.map Reading.midCell).take 8)) = Config.codeReject then .reject
       else .garbled)
      (BitVec.ofNat 8 (bitsToNat ((cells.map Reading.midCell).drop 8)))) := by
  have hany : cells.any (fun r => !r.isResponse) = false := by simpa using hr
  have hall : cells.all (fun r => r == .quiet) = false := by simpa using hd
  have hquiet : cells.any (fun r => r == .quiet) = decide (.quiet ∈ cells) := by
    rw [Bool.eq_iff_iff, List.any_eq_true, decide_eq_true_iff]
    simp
  unfold classifySlot
  rw [hany, hall, hquiet]
  simp only [Bool.false_eq_true, if_false, decide_eq_true_eq]
  (repeat' split) <;> rfl

/-- Sixteen data bits give the code they spell, with its value byte (R18, R25). -/
theorem classifySlot_of_bits (code value : Byte) :
    classifySlot ((lineBits code ++ lineBits value).map Reading.data) =
      some (.read (if code = Config.codeAck then .ack else if code = Config.codeBusy then .busy
        else if code = Config.codeReject then .reject else .garbled) value) := by
  have hmid : ((lineBits code ++ lineBits value).map Reading.data).map Reading.midCell =
      lineBits code ++ lineBits value := by
    simp [Function.comp_def, Reading.midCell]
  rw [classifySlot_of_read, hmid, List.take_left' (lineBits_length code), List.drop_left' (lineBits_length code),
    ofNat_bitsToNat_lineBits, ofNat_bitsToNat_lineBits, if_neg (by simp)]
  · intro r hr
    obtain ⟨b, -, rfl⟩ := List.mem_map.mp hr
    rfl
  · exact ⟨.data (code.getMsbD 0), List.mem_map_of_mem (by simp [lineBits, List.range_succ]), nofun⟩

/-! ## The drive of an answer (R17) -/

/-- A drive goes on past a cell that reads as its own bit, and ends at any other. -/
theorem driveSlot_cons (n : Nat) (own bit : Bool) (bits : List Bool) (cells : List Reading) :
    driveSlot n (own :: bits) (.data bit :: cells) =
      if bit = own then driveSlot (n + 1) bits cells else .withdrawn n := by
  simp [driveSlot]

/-- A drive is carried to the end exactly when every cell reads as its own bit. -/
theorem driveSlot_eq_complete_iff (n : Nat) (own bits : List Bool) (hl : bits.length = own.length) :
    driveSlot n own (bits.map Reading.data) = .complete ↔ bits = own := by
  induction own generalizing n bits with
  | nil => simp [List.length_eq_zero_iff.mp hl, driveSlot]
  | cons o own ih =>
    cases bits with
    | nil => cases hl
    | cons b bits =>
      rw [List.map_cons, driveSlot_cons]
      split
      · next hb => rw [ih _ _ (Nat.succ.inj hl), hb, List.cons_inj_right]
      · next hb => simp [hb]

/-- Of two answers read together up to the first cell in which they differ, the one that drives a 1 there withdraws at
that cell, whatever follows (R5, R17). -/
theorem driveSlot_loses (n : Nat) (common own other : List Bool) :
    driveSlot n (common ++ true :: own)
        ((List.zipWith (fun b d => lineBit [b, d]) (common ++ false :: other) (common ++ true :: own)).map
          Reading.data) =
      .withdrawn (n + common.length) := by
  induction common generalizing n with
  | nil => simp [driveSlot, lineBit]
  | cons b common ih =>
    have hb : lineBit [b, b] = b := by simp [lineBit]
    rw [List.cons_append, List.cons_append, List.zipWith_cons_cons, List.map_cons, hb, driveSlot_cons, if_pos rfl, ih,
      List.length_cons, Nat.add_right_comm, Nat.add_assoc]

/-- The bits of the three code bytes, in line order (R17). -/
theorem lineBits_code :
    lineBits ResponseCode.ack.byte = [true, false, false, true, false, true, true, false]
      ∧ lineBits ResponseCode.busy.byte = [false, true, false, true, true, false, true, false]
      ∧ lineBits ResponseCode.reject.byte = [false, false, true, true, true, true, false, false] := by
  decide

end Sys2Proof.Machine

namespace Sys2Proof.Proofs

open Sys2Proof.Machine

/-- Settles O50: a slot reads by its kinds of cells, and of two answers the one that drives a 1 in the first cell
in which they differ withdraws there. -/
theorem slotReadings : Obligations.SlotReadings := by
  refine ⟨by decide, classifySlot_of_bits, fun cells h => ?_, fun cells hl hr hq hd => ?_, ⟨rfl, fun _ => rfl⟩,
    ofNat_bitsToNat_lineBits, fun a => ?_, fun a bits hl => ?_, fun slot v w read hread => ?_⟩
  · obtain ⟨r, hr, hne, hnd⟩ := h
    refine classifySlot_of_symbol ⟨r, hr, ?_⟩
    rw [← Bool.not_eq_true, Reading.isResponse_iff]
    exact fun h => h.elim hne fun ⟨b, hb⟩ => hnd b hb
  · obtain ⟨b, hb⟩ := hd
    rw [classifySlot_of_read (fun r h => r.isResponse_iff.mpr (hr r h)) ⟨_, hb, nofun⟩, if_pos hq, List.map_drop]
  · cases h : a.code <;> simp [Answer.bits, h, ResponseCode.byte, Config.codeAck, Config.codeBusy, Config.codeReject]
  · exact driveSlot_eq_complete_iff 0 a.bits bits (by simp [hl, Answer.bits])
  · obtain ⟨hack, hbusy, hreject⟩ := lineBits_code
    simp only [hread, Answer.bits, hack, hbusy, hreject]
    exact ⟨driveSlot_loses 0 [false] _ _, driveSlot_loses 0 [] _ _, driveSlot_loses 0 [] _ _⟩

end Sys2Proof.Proofs
end

section
/-! PROOFS. The shared line: pulses, and the cell grid (R2 to R5). -/

namespace Sys2Proof.Machine

/-! ## The classes of a pulse (R2, R3) -/

/-- A pulse is a glitch when it is shorter than an eighth of a bit time (R3). -/
theorem classifyPulse_eq_glitch (rate : RateCode) (n : Nat) :
    classifyPulse rate n = .glitch ↔ 8 * n < rate.bitCycles := by
  unfold classifyPulse
  grind

/-- A pulse is a stuck line from 64 bit times on (R3, R21). -/
theorem classifyPulse_eq_stuck (rate : RateCode) (n : Nat) :
    classifyPulse rate n = .stuck ↔ 64 * rate.bitCycles ≤ n := by
  unfold classifyPulse
  grind

/-- The class of a pulse by its length (R3). -/
theorem classifyPulse_table (rate : RateCode) (n : Nat) :
    (8 * n < rate.bitCycles → classifyPulse rate n = .glitch)
      ∧ (rate.bitCycles ≤ 8 * n → 2 * n < rate.bitCycles → classifyPulse rate n = .data1)
      ∧ (rate.bitCycles ≤ 2 * n → n < rate.bitCycles → classifyPulse rate n = .data0)
      ∧ (rate.bitCycles ≤ n → 2 * n < 3 * rate.bitCycles → classifyPulse rate n = .invalid)
      ∧ (3 * rate.bitCycles ≤ 2 * n → 2 * n < 5 * rate.bitCycles → classifyPulse rate n = .sof)
      ∧ (5 * rate.bitCycles ≤ 2 * n → n < 8 * rate.bitCycles → classifyPulse rate n = .invalid)
      ∧ (8 * rate.bitCycles ≤ n → n < 64 * rate.bitCycles → classifyPulse rate n = .breakPulse)
      ∧ (64 * rate.bitCycles ≤ n → classifyPulse rate n = .stuck) := by
  unfold classifyPulse
  generalize rate.bitCycles = bit
  refine ⟨?_, ?_, ?_, ?_, ?_, ?_, ?_, ?_⟩ <;> intros <;> dsimp only <;> grind

/-! ## One cell (R4) -/

/-- The pulses of a cell that count last an eighth of a bit time or more (R3). -/
theorem dominantPulses_eq (rate : RateCode) (pulses : CellPulses) :
    dominantPulses rate pulses = pulses.filter (fun p => rate.bitCycles ≤ 8 * p.length) := by
  unfold dominantPulses
  congr 1
  funext p
  rw [bne, Bool.eq_iff_iff]
  simp [classifyPulse_eq_glitch]

/-- The start window reaches a quarter of a bit time to both sides of the expected start (R4). -/
theorem inStartWindow_iff (rate : RateCode) (expected edge : Nat) :
    inStartWindow rate expected edge = true ↔
      4 * expected ≤ 4 * edge + rate.bitCycles ∧ 4 * edge ≤ 4 * expected + rate.bitCycles := by
  simp [inStartWindow]

section
variable {rate : RateCode} {expected : Nat} {pulses rest : CellPulses} {p : LinePulse}

/-- A cell with glitches alone has no edge in its window (R3, R4). -/
theorem windowEdge_of_nil (h : dominantPulses rate pulses = []) : windowEdge rate expected pulses = none := by
  simp [windowEdge, h]

/-- The first pulse of a cell gives the edge, when it starts in the window (R4). -/
theorem windowEdge_of_cons (h : dominantPulses rate pulses = p :: rest)
    (hw : inStartWindow rate expected p.edge = true) : windowEdge rate expected pulses = some p.edge := by
  simp [windowEdge, h, hw]

/-- A cell past the SOF part lasts 1 bit time from its start (R4). -/
theorem gridEnd_singleton {n : Nat} (hn : n ≠ 0) :
    gridEnd rate n expected [pulses] = cellStart rate expected pulses + rate.bitCycles := by
  simp [gridEnd, nextExpected, hn]

/-- A cell with glitches alone is quiet, and starts at its expected start (R3, R4). -/
theorem cell_of_glitches (h : dominantPulses rate pulses = []) :
    readCell rate expected pulses = .quiet ∧ driveStart rate expected pulses = expected
      ∧ cellStart rate expected pulses = expected := by
  simp [readCell, driveStart, cellStart, windowEdge_of_nil h, h]

/-- An edge outside the start window is an invalid symbol (R4). -/
theorem readCell_of_edge_outside (h : dominantPulses rate pulses = p :: rest)
    (hw : inStartWindow rate expected p.edge = false) : readCell rate expected pulses = .invalid := by
  simp [readCell, h, hw]

/-- A pulse that starts in the window is stuck from 64 bit times on; a shorter one is read by its class when it is the
cell's only one, and a second one makes an invalid symbol of it (R4, R21). -/
theorem readCell_of_edge (h : dominantPulses rate pulses = p :: rest)
    (hw : inStartWindow rate expected p.edge = true) :
    readCell rate expected pulses =
      if 64 * rate.bitCycles ≤ p.length then .stuck
      else if rest = [] then Reading.ofSymbol (classifyPulse rate p.length) else .invalid := by
  simp [readCell, h, hw, classifyPulse_eq_stuck]

/-- A pulse that starts in the window starts its cell, and a driver's pulse unless that is to start earlier (R4). -/
theorem starts_of_edge (h : dominantPulses rate pulses = p :: rest)
    (hw : inStartWindow rate expected p.edge = true) :
    cellStart rate expected pulses = p.edge ∧ driveStart rate expected pulses = min expected p.edge := by
  simp [cellStart, driveStart, windowEdge_of_cons h hw]

end

/-- The pulses a node drives count (R2, R3). -/
theorem dominantPulses_driven (rate : RateCode) (expected : Nat) (p : DrivenPulse) :
    dominantPulses rate [drivePulse rate expected [] p] = [drivePulse rate expected [] p] := by
  have hclass : classifyPulse rate (drivePulse rate expected [] p).length ≠ .glitch := by
    rw [drivePulse, classify_driven]
    cases p <;> nofun
  simp [dominantPulses, hclass]

/-- A driver that reads another's edge in its window, at its own expected start or earlier, starts on that edge (R4,
R5). -/
theorem driveStart_joins {rate : RateCode} {a b : Nat} (p : DrivenPulse) (hab : a ≤ b)
    (hw : 4 * b ≤ 4 * a + rate.bitCycles) : driveStart rate b [drivePulse rate a [] p] = a := by
  have hedge : (drivePulse rate a [] p).edge = a := driveStart_nil rate a
  have hin : inStartWindow rate b (drivePulse rate a [] p).edge = true := by
    rw [hedge, inStartWindow_iff]
    omega
  rw [(starts_of_edge (dominantPulses_driven rate a p) hin).2, hedge, Nat.min_eq_right hab]

/-! ## The data bits of the cells read (R8) -/

/-- The data bits of one more cell: its own, unless it is the SOF part or reads as no data bit. -/
theorem dataBits_cons (rate : RateCode) (g : GridCell) (grid : List GridCell) :
    (∀ bit, g.number ≠ 0 → g.reading rate = .data bit → dataBits rate (g :: grid) = bit :: dataBits rate grid)
      ∧ (g.number = 0 ∨ (∀ bit, g.reading rate ≠ .data bit) → dataBits rate (g :: grid) = dataBits rate grid) := by
  constructor
  · intro bit hn hr
    have hd : g.dataBit rate = some bit := by simp [GridCell.dataBit, hr, hn]
    rw [dataBits, List.filterMap_cons_some hd, dataBits]
  · intro h
    have hd : g.dataBit rate = none := by
      unfold GridCell.dataBit
      split
      · next bit hr => exact if_pos (h.resolve_right fun hne => hne bit hr)
      · rfl
    rw [dataBits, List.filterMap_cons_none hd, dataBits]

end Sys2Proof.Machine

namespace Sys2Proof.Proofs

open Sys2Proof.Machine

/-- Settles O43: the pulses that count are those of an eighth of a bit time or more, and the first of them gives a cell
its start and its reading. -/
theorem pulseClasses : Obligations.PulseClasses := by
  refine ⟨⟨rfl, rfl, rfl⟩, classifyPulse_table, ?nominal, ?quiet, ?pulse,
    fun _ _ => by simp [gridEnd, nextExpected], fun rate n e a b => gridEnd_append rate a b n e,
    fun rate n e pulses rest g grid => ?_, fun rate a b p q hab hw => ?_⟩
  case nominal =>
    intro rate
    cases rate <;> decide
  case quiet =>
    intro rate expected pulses h
    rw [← dominantPulses_eq] at h
    obtain ⟨hread, hdrive, hstart⟩ := cell_of_glitches (expected := expected) h
    exact ⟨hread, hdrive, fun n hn => by rw [gridEnd_singleton hn, hstart]⟩
  case pulse =>
    intro rate expected pulses rest p h
    rw [← dominantPulses_eq] at h
    refine ⟨fun hout => readCell_of_edge_outside h ?_, fun hlo hhi => ?_⟩
    · rw [← Bool.not_eq_true, inStartWindow_iff]
      omega
    · have hw := (inStartWindow_iff rate expected p.edge).mpr ⟨hlo, hhi⟩
      obtain ⟨hstart, hdrive⟩ := starts_of_edge h hw
      refine ⟨fun n hn => by rw [gridEnd_singleton hn, hstart], hdrive, fun hl => ?_, fun hl hr => ?_, fun hl hr => ?_⟩
      all_goals rw [readCell_of_edge h hw]
      · rw [if_pos hl]
      · rw [if_neg (Nat.not_le.mpr hl), if_pos hr]
      · rw [if_neg (Nat.not_le.mpr hl), if_neg hr]
  · exact ⟨rfl, rfl, rfl, rfl, dataBits_cons rate g grid⟩
  · exact ⟨driveStart_joins p hab hw, driveStart_nil rate a, rfl⟩

end Sys2Proof.Proofs
end

section
/-! PROOFS. The shared line: the cells of a frame, arbitration, and the readings of an attempt (R5, R8, R14 to R22). -/

namespace Sys2Proof.Machine

/-! ## The parts of a frame (R8, R16) -/

/-- The cells of a window: its marks stand 17 cells apart. -/
theorem exists_mark_iff (first cell slots : Nat) :
    (∃ k < slots, cell = first + 17 * k) ↔
      first ≤ cell ∧ cell < first + 17 * slots ∧ (cell - first) % 17 = 0 := by
  constructor
  · rintro ⟨k, hk, rfl⟩
    omega
  · rintro ⟨hlo, hhi, hmod⟩
    exact ⟨(cell - first) / 17, by omega, by omega⟩

/-- The cells of a window: sixteen response cells follow each mark. -/
theorem exists_response_iff (first cell slots : Nat) :
    (∃ k < slots, first + 1 + 17 * k ≤ cell ∧ cell ≤ first + 16 + 17 * k) ↔
      first ≤ cell ∧ cell < first + 17 * slots ∧ (cell - first) % 17 ≠ 0 := by
  constructor
  · rintro ⟨k, hk, hlo, hhi⟩
    omega
  · rintro ⟨hlo, hhi, hmod⟩
    exact ⟨(cell - first) / 17, by omega, by omega, by omega⟩

/-- The cells of each part, as bounds of their numbers (R8, R16). -/
theorem partOfCell_iff (length : Nat) (mode : ResponseMode) (cell : Nat) :
    (partOfCell length mode cell = some .sofPart ↔ cell = 0)
      ∧ (partOfCell length mode cell = some .header ↔ 1 ≤ cell ∧ cell ≤ 24)
      ∧ (partOfCell length mode cell = some .control ↔ 25 ≤ cell ∧ cell ≤ 32)
      ∧ (partOfCell length mode cell = some .payload ↔ 33 ≤ cell ∧ cell ≤ 32 + 8 * length)
      ∧ (partOfCell length mode cell = some .check ↔ 33 + 8 * length ≤ cell ∧ cell ≤ 48 + 8 * length)
      ∧ (partOfCell length mode cell = some .eod ↔ 49 + 8 * length ≤ cell ∧ cell ≤ 50 + 8 * length)
      ∧ (partOfCell length mode cell = some .slotMark ↔ ∃ k < mode.slotCount, cell = 51 + 8 * length + 17 * k)
      ∧ (partOfCell length mode cell = some .response ↔
        ∃ k < mode.slotCount, 52 + 8 * length + 17 * k ≤ cell ∧ cell ≤ 67 + 8 * length + 17 * k)
      ∧ (partOfCell length mode cell = some .eof ↔
        51 + 8 * length + 17 * mode.slotCount ≤ cell ∧ cell ≤ 56 + 8 * length + 17 * mode.slotCount)
      ∧ (partOfCell length mode cell = none ↔ 56 + 8 * length + 17 * mode.slotCount < cell) := by
  have hm := exists_mark_iff (51 + 8 * length) cell mode.slotCount
  have hr := exists_response_iff (51 + 8 * length) cell mode.slotCount
  rw [show 51 + 8 * length + 1 = 52 + 8 * length by omega, show 51 + 8 * length + 16 = 67 + 8 * length by omega] at hr
  rw [hm, hr]
  unfold partOfCell lastCell ResponseMode.windowCells
  split_ifs <;> simp only [Option.some.injEq, reduceCtorEq, true_iff, false_iff] <;> omega

/-- After slot `k` the next slot's cells are due, and after the last one the EOF's (R16, R23). -/
theorem cellIsDue_windowOut_slot {f : Frame} {length : Nat} {mode : ResponseMode} {k : Slot} (cell : Nat)
    (hf : frameShape f = (length, mode)) (hp : f.point = .slot k) :
    cellIsDue .windowOut f cell = true ↔
      if k.val + 1 < mode.slotCount then 68 + 8 * length + 17 * k.val ≤ cell ∧ cell ≤ 84 + 8 * length + 17 * k.val
      else 51 + 8 * length + 17 * mode.slotCount ≤ cell := by
  simp only [cellIsDue, hf, hp, slotStart]
  split
  · rw [Bool.and_eq_true, decide_eq_true_eq, decide_eq_true_eq]
    omega
  · rw [decide_eq_true_eq]

/-- A cell lets the frame go on when it is a cell of the frame and, outside LOOPBACK, its reading gives no outcome. -/
theorem goesOn_iff (f : Frame) (s : State) (g : GridCell) :
    goesOn f s g = true ↔ ∃ part, f.partOf g.number = some part
      ∧ (s.le.mode = .loopback
        ∨ attemptReading part (ownBit f (drivenImage f s) part g.number) (g.reading s.ae.rate) = none) := by
  unfold goesOn cellOutcome
  rw [Bool.and_eq_true, Option.isSome_iff_exists, beq_iff_eq, ← exists_and_right]
  refine exists_congr fun part => and_congr_right fun hp => ?_
  rw [hp]
  split <;> simp [*]

/-! ## Arbitration (R5, R9, R14) -/

/-- The first bit in which two numbers differ orders them. -/
theorem toNat_lt_of_getMsbD {w k : Nat} {a b : BitVec w} (hk : k < w) (hsame : ∀ j < k, a.getMsbD j = b.getMsbD j)
    (ha : a.getMsbD k = false) (hb : b.getMsbD k = true) : a.toNat < b.toNat := by
  rw [BitVec.getMsbD_eq_getLsbD, decide_eq_true hk, Bool.true_and] at ha hb
  refine Nat.lt_of_testBit (w - 1 - k) ha hb fun j hj => ?_
  change a.getLsbD j = b.getLsbD j
  by_cases hjw : j < w
  · rw [BitVec.getLsbD_eq_getMsbD, BitVec.getLsbD_eq_getMsbD, hsame _ (by omega)]
  · rw [BitVec.getLsbD_of_ge a j (by omega), BitVec.getLsbD_of_ge b j (by omega)]

/-- Of two numbers of one width the lower one has a 0 in the first bit in which they differ, and the higher one a 1. -/
theorem exists_first_difference {w : Nat} {a b : BitVec w} (h : a.toNat < b.toNat) :
    ∃ k < w, (∀ j < k, a.getMsbD j = b.getMsbD j) ∧ a.getMsbD k = false ∧ b.getMsbD k = true := by
  have hex : ∃ k, k < w ∧ a.getMsbD k ≠ b.getMsbD k := by
    by_contra hne
    push Not at hne
    exact absurd h (BitVec.eq_of_getMsbD_eq hne ▸ Nat.lt_irrefl _)
  obtain ⟨hk, hdiff⟩ := Nat.find_spec hex
  have hsame : ∀ j < Nat.find hex, a.getMsbD j = b.getMsbD j := fun j hj => by
    by_contra hne
    exact Nat.find_min hex hj ⟨hj.trans hk, hne⟩
  refine ⟨Nat.find hex, hk, hsame, ?_⟩
  cases ha : a.getMsbD (Nat.find hex) with
  | false => exact ⟨rfl, by simpa [ha] using hdiff.symm⟩
  | true =>
    have hb : b.getMsbD (Nat.find hex) = false := by simpa [ha] using hdiff.symm
    exact absurd (toNat_lt_of_getMsbD hk (fun j hj => (hsame j hj).symm) hb ha) (Nat.lt_asymm h)

/-- A frame of a more urgent class has the lower header (R9). -/
theorem FrameHead.header_lt {h h' : FrameHead} (hc : h.cls < h'.cls) :
    (h.bits.extractLsb' 8 24).toNat < (h'.bits.extractLsb' 8 24).toNat := by
  refine lt_of_not_ge fun hge => ?_
  have hdiv := Nat.div_le_div_right (c := 2 ^ 22) hge
  rw [h.header_div, h'.header_div] at hdiv
  exact Nat.not_lt.mpr hdiv hc

/-! ## The readings of an attempt (R14, R15, R22) -/

/-- A data bit read against an own one (R14, R15). -/
theorem attemptReading_data (p : Part) (own bit : Bool) :
    attemptReading p (some own) (.data bit) =
      if bit = own then none else if p = .header ∧ own = true then some .lost else some .bitError := rfl

/-- A cell in which both of two headers drive one bit reads as that bit, and lets both go on (R5). -/
theorem attemptReading_header_same (b : Bool) :
    attemptReading .header (some b) (.data (lineBit [b, b])) = none := by
  cases b <;> rfl

/-- The outcome at the last cell read, when every cell before it lets the frame go on (R22). -/
theorem attemptOutcomeAt_append {f : Frame} {before : CellsRead} {pulses : CellPulses} {g : GridCell} {s : State}
    (hg : g = { number := f.cell + before.length, expected := gridEnd s.ae.rate f.cell f.expected before,
                pulses := pulses })
    (hbefore : ∀ g ∈ gridOf s.ae.rate f.cell f.expected before, goesOn f s g = true)
    (hdue : cellIsDue s.le.phase f g.number = true) :
    attemptOutcomeAt f (before ++ [pulses]) s =
      if g.number = lastCell (frameShape f).1 (frameShape f).2 ∧ g.reading s.ae.rate = .quiet then
        some (.sentClean f.slots)
      else cellOutcome f s g := by
  have hgrid : f.grid (before ++ [pulses]) s = gridOf s.ae.rate f.cell f.expected before ++ [g] := by
    rw [Frame.grid, gridOf_append, hg]
    rfl
  unfold attemptOutcomeAt
  rw [hgrid, List.getLast?_concat, List.dropLast_concat]
  simp only [hdue, List.all_eq_true.mpr hbefore, Bool.and_self, if_true]

end Sys2Proof.Machine

namespace Sys2Proof.Proofs

open Sys2Proof.Machine

/-- Settles O40: the parts of a frame are intervals of cells, two headers part at their first differing bit, and the last
cell read is judged by its part and the bit driven in it. -/
theorem attemptReadings : Obligations.AttemptReadings := by
  refine ⟨⟨fun f length mode cell =>
        ⟨rfl, rfl, by rw [lastCell, ResponseMode.windowCells], partOfCell_iff length mode cell⟩,
      ⟨rfl, rfl, rfl⟩, ?due, fun f g s => goesOn_iff f s g, fun f last cells s => ?reach⟩,
    ⟨fun a b h => ?arbitration, fun h h' hc => FrameHead.header_lt hc⟩,
    ?header, ?outside, ?quiet, ?stuck, ?breakOrSof, ?ends, ?response, ?outcome⟩
  case due =>
    intro phase f length mode cell hf
    cases phase <;> cases hp : f.point
    case windowOut.slot k => exact cellIsDue_windowOut_slot cell hf hp
    case windowOut.checkEnd =>
      simp [cellIsDue, hf, hp, slotStart]
      omega
    all_goals simp only [cellIsDue, hf, hp, Bool.false_eq_true, Bool.and_eq_true, Bool.or_eq_true, decide_eq_true_eq,
      beq_iff_eq]
  case reach =>
    simp [reaches, Frame.grid]
  case arbitration =>
    obtain ⟨k, hk, hsame, ha, hb⟩ := exists_first_difference h
    refine ⟨k, hk, fun j hj => ⟨hsame j hj, ?_⟩, ?_, ?_⟩
    · rw [hsame j hj, attemptReading_header_same]
    · rw [ha, hb]
      rfl
    · rw [ha, hb]
      rfl
  case header =>
    intro own bit
    rw [attemptReading_data]
    simp
  case outside =>
    intro p own bit hp
    rw [attemptReading_data, if_neg fun (hh : p = .header ∧ own = true) => ?_]
    simp [hh.1] at hp
  case quiet => exact fun p own => rfl
  case stuck => exact fun p own => ⟨rfl, by cases p <;> rfl⟩
  case breakOrSof =>
    intro p own
    cases p <;> simp [attemptReading, isFormatError]
  case ends =>
    rintro p bit (rfl | rfl) <;> exact ⟨rfl, rfl⟩
  case response => exact fun bit => ⟨rfl, rfl⟩
  case outcome =>
    intro f before pulses part number expected s hn he hbefore hdue hpart
    subst hn he
    rw [attemptOutcomeAt_append rfl hbefore hdue]
    refine ⟨fun hlast hquiet => if_pos ⟨hlast, hquiet⟩, fun hnot => ?_⟩
    rw [if_neg fun ⟨hlast, hquiet⟩ => hnot.elim (· hlast) (· hquiet), cellOutcome, hpart]
    rfl

end Sys2Proof.Proofs
end

section
/-! PROOFS. What soundness of the cell pool means for a claim (R24, R30 to R32). -/

namespace Sys2Proof.Machine

/-! ## The lowest free cell (R24) -/

/-- A cell is free exactly when it is FREE. -/
theorem Cell.isFree_iff (c : Cell) : c.isFree = true ↔ c = .free := by
  cases c <;> simp [Cell.isFree]

/-- A cell is not free exactly when it is another cell than FREE. -/
theorem Cell.isFree_eq_false_iff (c : Cell) : c.isFree = false ↔ c ≠ .free := by
  rw [← Bool.not_eq_true, Cell.isFree_iff]

/-- The lowest free cell is the FREE cell that no FREE cell stands below. -/
theorem lowestFree_eq_some_iff (id : CellId) (s : State) :
    lowestFree s = some id ↔ s.cell id = .free ∧ ∀ j < id, s.cell j ≠ .free := by
  rw [lowestFree, ← Fin.find?_eq_find?_finRange, Fin.find?_eq_some_iff, Cell.isFree_iff]
  simp only [Cell.isFree_eq_false_iff]

/-- Some cell is the lowest free one as soon as a FREE cell counts. -/
theorem exists_lowestFree {s : State} (h : 0 < s.cp.cells.countP Cell.isFree) :
    ∃ id, lowestFree s = some id ∧ s.cell id = .free ∧ ∀ j < id, s.cell j ≠ .free := by
  obtain ⟨c, hc, hfree⟩ := Vector.countP_pos_iff.mp h
  obtain ⟨i, hi, rfl⟩ := Vector.getElem_of_mem hc
  obtain ⟨id, hid⟩ : ∃ id, lowestFree s = some id := by
    rw [← Option.isSome_iff_exists, lowestFree, ← Fin.find?_eq_find?_finRange]
    exact Fin.isSome_find?_of_eq_true (i := ⟨i, hi⟩) hfree
  exact ⟨id, hid, (lowestFree_eq_some_iff id s).mp hid⟩

/-! ## Free cells and the room left (R30 to R32) -/

/-- Every cell is FREE, a transmit cell or a receive cell, and one of them only. -/
theorem countP_isFree_isTx_isRx (l : List Cell) :
    l.countP Cell.isFree + l.countP Cell.isTx + l.countP Cell.isRx = l.length := by
  induction l with
  | nil => rfl
  | cons c l ih => cases c <;> simp [List.countP_cons, Cell.isFree, Cell.isTx, Cell.isRx] <;> omega

/-- The 32 cells of the pool in their three sorts. -/
theorem pool_countP_isFree_isTx_isRx (s : State) :
    s.cp.cells.countP Cell.isFree + s.cp.cells.countP Cell.isTx + s.cp.cells.countP Cell.isRx = 32 := by
  simpa [← Vector.countP_toList] using countP_isFree_isTx_isRx s.cp.cells.toList

/-- At least as many cells are FREE as the two limits still allow, since the limits together allow at most 32. -/
theorem PoolSound.room_le_free {s : State} (h : PoolSound s) :
    (s.cp.txLimit - s.cp.txInUse) + (s.cp.rxLimit - s.cp.rxInUse) ≤ s.cp.cells.countP Cell.isFree := by
  obtain ⟨⟨htx, -, hrx⟩, -, -, -, -, -, hsum, -, -, htxLimit, -, hrxLimit⟩ := h
  have hcells := pool_countP_isFree_isTx_isRx s
  omega

/-- RX_HOLD is at most RX_LIMIT (R163). -/
theorem PoolSound.rxHold_le_rxLimit {s : State} (h : PoolSound s) : s.cp.rxHold ≤ s.cp.rxLimit := by
  obtain ⟨-, -, -, -, -, -, -, -, hold, -⟩ := h
  exact hold

end Sys2Proof.Machine

namespace Sys2Proof.Proofs

open Sys2Proof.Machine

/-- Settles O57: the limits together are at most the 32 cells, so the room that a granted claim finds is a FREE
cell. -/
theorem poolLeavesFreeCells : Obligations.PoolLeavesFreeCells := by
  refine ⟨lowestFree_eq_some_iff, fun s h => ⟨h.room_le_free, fun cls hg => ?transmit, fun solicited hg => ?receive⟩⟩
  all_goals
    have hroom := h.room_le_free
    refine exists_lowestFree ?_
  case transmit =>
    have hlimit := (judgeTransmitClaim_granted hg).1
    omega
  case receive =>
    have hlimit := judgeReceiveClaim_granted hg h.rxHold_le_rxLimit
    omega

end Sys2Proof.Proofs
end

section
/-! PROOFS. The reset values of the indexed pieces of every block (R37, R62, R91, R112, R129, R143). -/

namespace Sys2Proof.Machine

@[simp] theorem State.reset_send (r : SendId) : State.reset.send r = Reset.sendRing := by
  simp [State.send, State.reset, Reset.ringTable]

@[simp] theorem State.reset_arrival (r : ArrivalId) : State.reset.arrival r = Reset.arrivalRing := by
  simp [State.arrival, State.reset, Reset.ringTable]

@[simp] theorem State.reset_cell (i : CellId) : State.reset.cell i = .free := by
  simp [State.cell, State.reset, Reset.cellPool]

@[simp] theorem State.reset_classList (c : ClassId) : State.reset.classList c = [] := by
  simp [State.classList, State.reset, Reset.scheduler]

@[simp] theorem State.reset_entry (i : Fin 32) : State.reset.entry i = Reset.entry := by
  simp [State.entry, State.reset, Reset.acceptanceUnit]

@[simp] theorem State.reset_arrivalPending (r : ArrivalId) : State.reset.arrivalPending r = [] := by
  simp [State.arrivalPending, State.reset, Reset.arrivalWriter]

end Sys2Proof.Machine

namespace Sys2Proof.Proofs

open Sys2Proof.Machine

/-- Settles O2: the blocks' reset values, read field by field, and the six invariants decided on the state after
reset. -/
theorem resetValues : Obligations.ResetValues :=
  ⟨⟨rfl, rfl, State.reset_send, State.reset_arrival, rfl, rfl, State.reset_cell, rfl, State.reset_classList, rfl,
      ⟨0, rfl⟩, State.reset_entry, rfl, State.reset_arrivalPending, rfl, rfl, rfl, rfl, rfl⟩,
    by decide, by decide, by decide, by decide, by decide, by decide⟩

end Sys2Proof.Proofs
end

section
/-! PROOFS. What one step of the whole part can do, and what it keeps. -/

namespace Sys2Proof.Machine

/-- A step idles on an empty queue, and runs the front command on the state with the queue's rest otherwise. -/
theorem step_cases {s t : State} (ht : step s = .next t) :
    t = s ∨ ∃ c rest, s.pending = c :: rest ∧ exec c (s.withPending rest) = .next t := by
  unfold step at ht
  split at ht
  · cases ht
    exact .inl rfl
  · next c rest hq => exact .inr ⟨c, rest, hq, ht⟩

/-- A property that the queue plays no part in, and that every command keeps, is kept by every step. -/
theorem step_keeps {P : State → Prop} (hqueue : ∀ s q, P s → P (s.withPending q))
    (hexec : ∀ i s t, P s → exec i s = .next t → P t) {s t : State} (h : P s) (ht : step s = .next t) : P t := by
  obtain rfl | ⟨c, rest, -, ht⟩ := step_cases ht
  · exact h
  · exact hexec c _ t (hqueue s rest h) ht

end Sys2Proof.Machine
end

section
/-! PROOFS. Every command keeps the pool sound (R30): the register writes, the ends of transfers, the line events, the
timers. -/

namespace Sys2Proof.Machine

/-! ## Register writes (chapter 10) -/

theorem PoolSound.beginSoftReset {s : State} (h : PoolSound s) : PoolSound (beginSoftReset s) := by
  unfold Machine.beginSoftReset
  dsimp only
  split
  · exact PoolSound.softReset _
  · exact h.congr_rings rfl rfl rfl

theorem PoolSound.writeControl {s : State} (h : PoolSound s) (value : Word) : PoolSound (writeControl value s) := by
  unfold Machine.writeControl
  split
  · exact h.beginSoftReset
  · split
    · exact h.congr_rings rfl rfl rfl
    · exact h

/-- A POST write is refused, moves AR's tail, or moves a send ring's tail and lets the fetch engine decide (R183). -/
theorem writePost_cases (value : Word) (s : State) :
    writePost value s = refuseIndex s
      ∨ writePost value s = conclude (s.updAdmin (fun r => { r with tail := indexField value }))
      ∨ ∃ n, writePost value s
          = conclude (fetchDecision (s.updSend n (fun r => { r with tail := indexField value }))) := by
  unfold writePost
  dsimp only
  split
  · split
    · split
      · exact .inr (.inl rfl)
      · exact .inl rfl
    · next n _ =>
      split
      · exact .inr (.inr ⟨n, rfl⟩)
      · exact .inl rfl
    · exact .inl rfl
  · exact .inl rfl

theorem PoolSound.writePost {s : State} (h : PoolSound s) (value : Word) : PoolSound (writePost value s) := by
  obtain heq | heq | ⟨n, heq⟩ := writePost_cases value s <;> rw [heq]
  · exact h.congr_rings rfl rfl rfl
  · exact PoolSound.conclude (h.congr_rings rfl rfl rfl)
  · exact (h.updSend n (fun r => { r with tail := indexField value }) (fun _ => rfl)).fetchDecision.conclude

/-- A RELEASE write is refused, moves CR's head, or moves an arrival ring's head and lets the arrival writer decide
(R184). -/
theorem writeRelease_cases (value : Word) (s : State) :
    writeRelease value s = refuseIndex s
      ∨ writeRelease value s = conclude (s.updCompletion (fun r => { r with head := indexField value }))
      ∨ ∃ n, writeRelease value s
          = conclude (arrivalDecision (s.updArrival n (fun r => { r with head := indexField value }))) := by
  unfold writeRelease
  dsimp only
  split
  · split
    · next n _ =>
      split
      · exact .inr (.inr ⟨n, rfl⟩)
      · exact .inl rfl
    · split
      · exact .inr (.inl rfl)
      · exact .inl rfl
    · exact .inl rfl
  · exact .inl rfl

theorem PoolSound.writeRelease {s : State} (h : PoolSound s) (value : Word) : PoolSound (writeRelease value s) := by
  obtain heq | heq | ⟨n, heq⟩ := writeRelease_cases value s <;> rw [heq]
  · exact h.congr_rings rfl rfl rfl
  · exact PoolSound.conclude (h.congr_rings rfl rfl rfl)
  · exact (h.updArrival n (fun r => { r with head := indexField value }) (fun _ => rfl)).arrivalDecision.conclude

theorem PoolSound.windowWrite {s : State} (h : PoolSound s) (r : Register) (value : Word) :
    PoolSound (windowWrite r value s) := by
  unfold Machine.windowWrite
  split
  · cases r with
    | control => exact h.writeControl value
    | status => exact h
    | bootLo =>
      simp only [writeRegister, writeBootLo]
      split <;> exact h
    | bootHi =>
      simp only [writeRegister, writeBootHi]
      split <;> exact h
    | post => exact h.writePost value
    | release => exact h.writeRelease value
    | cause => exact h.congr_rings rfl rfl rfl
    | mask => exact h.congr_rings rfl rfl rfl
  · exact h

/-! ## Ends of transfers (R159, R160, R172, R187, R190) -/

/-- The end of a transfer is no event when the transfer is not on the bus, reaches RESET in RESETTING, and is taken by
its owner otherwise. -/
theorem transferEnd_cases (owner : BusOwner) (d : Direction) (take : State → State) (s : State) :
    transferEnd owner d take s = s ∨ transferEnd owner d take s = softResetState s
      ∨ transferEnd owner d take s = conclude (take (clearBus s)) := by
  unfold transferEnd
  split
  · split
    · exact .inr (.inl rfl)
    · exact .inr (.inr rfl)
  · exact .inl rfl

/-- The end of a transfer keeps the pool sound when its owner's rule does. -/
theorem PoolSound.transferEnd {s : State} (h : PoolSound s) (owner : BusOwner) (d : Direction) {take : State → State}
    (htake : ∀ u, PoolSound u → PoolSound (take u)) : PoolSound (transferEnd owner d take s) := by
  obtain heq | heq | heq := transferEnd_cases owner d take s <;> rw [heq]
  · exact h
  · exact PoolSound.softReset s
  · exact (htake _ (h.congr_rings (by simp) (by simp) (by simp))).conclude

theorem PoolSound.takeAdminRecord {s : State} (h : PoolSound s) (tag : Word) (reading : AdminReading) (quiet : Nat) :
    PoolSound (takeAdminRecord tag reading quiet s) := by
  have advanced : PoolSound (advanceAdminHead s) := h.congr_rings rfl rfl rfl
  simp only [Machine.takeAdminRecord]
  split
  · exact advanced.congr_rings rfl rfl rfl
  · cases reading with
    | unknown => exact advanced.congr_rings rfl rfl rfl
    | command c zero =>
      exact PoolSound.judgeCommand (s := (advanceAdminHead s).updAe _) (advanced.congr_rings rfl rfl rfl) c zero quiet

theorem PoolSound.whenFetching {s : State} (h : PoolSound s) {take : State → State}
    (htake : ∀ u, PoolSound u → PoolSound (take u)) : PoolSound (whenFetching take s) := by
  unfold Machine.whenFetching
  split
  · exact htake s h
  · exact h

theorem PoolSound.takeAdminEnd {s : State} (h : PoolSound s) (result : ReadEnd) (quiet : Nat) :
    PoolSound (takeAdminEnd result quiet s) := by
  refine h.whenFetching fun u hu => ?_
  cases result with
  | data r => exact hu.takeAdminRecord _ _ _
  | busError => exact hu.congr_rings rfl rfl rfl

theorem PoolSound.adminCommandEnd {s : State} (h : PoolSound s) (tag : Word) (c : AdminCommand) (quiet : Nat) :
    PoolSound (adminCommandEnd tag c quiet s) :=
  h.transferEnd _ _ fun _ hu => hu.whenFetching fun _ hv => hv.takeAdminRecord _ _ _

theorem PoolSound.takeCountsEnd {s : State} (h : PoolSound s) (result : WriteEnd) :
    PoolSound (takeCountsEnd result s) := by
  unfold Machine.takeCountsEnd
  split
  · cases result with
    | written =>
      refine PoolSound.endCommand ?_ _ _
      split <;> exact h
    | busError => exact PoolSound.endCommand (s := dropSnapshot s) h _ _
  · exact h

/-! ## Line events (chapter 4) -/

theorem PoolSound.sofEdge {s : State} (h : PoolSound s) (m : SofMoment) (quiet : Nat) : PoolSound (sofEdge m quiet s) :=
  h.congr_rings (by simp) (by simp) (by simp)

theorem PoolSound.restartQuiet {s : State} (h : PoolSound s) : PoolSound (restartQuiet s) :=
  h.congr_rings (by simp) (by simp) (by simp)

theorem PoolSound.reachHeaderEnd {s : State} (h : PoolSound s) (f : Frame) (bits : BitVec 32) (hd : FrameHead) :
    PoolSound (reachHeaderEnd f bits hd s) :=
  PoolSound.headerCall (s := s.updLe _) h _ _ _

theorem PoolSound.reachCheckEnd {s : State} (h : PoolSound s) (f : Frame) (payload : List Byte) (check : BitVec 16) :
    PoolSound (reachCheckEnd f payload check s) :=
  (PoolSound.checkCall (s := s.updLe _) h _ _).congr_rings rfl rfl rfl

theorem PoolSound.execAttemptStart {s t : State} (h : PoolSound s) {kind : SofKind} {quiet : Nat}
    (ht : execAttemptStart kind quiet s = .next t) : PoolSound t := by
  cases ht
  cases kind with
  | driven m =>
    dsimp only
    split
    · exact h.congr_rings rfl rfl rfl
    · exact h
  | edgeRead m => exact h.sofEdge m quiet

theorem PoolSound.execFrameStart {s t : State} (h : PoolSound s) {quiet : Nat} {pulse : PulseRead}
    (ht : execFrameStart quiet pulse s = .next t) : PoolSound t := by
  cases ht
  cases classifyPulse s.ae.rate pulse.length with
  | sof => exact h.sofEdge _ _
  | data1 | data0 | invalid | breakPulse => exact h.restartQuiet
  | stuck =>
    dsimp only
    split
    · exact h.restartQuiet
    · exact h
  | glitch => exact h

theorem PoolSound.execHeaderEnd {s t : State} (h : PoolSound s) {cells : CellsRead}
    (ht : execHeaderEnd cells s = .next t) : PoolSound t := by
  cases ht
  split
  · dsimp only
    split
    · split
      · exact h.reachHeaderEnd _ _ _
      · exact h
    · exact h
  · exact h

theorem PoolSound.execCheckEnd {s t : State} (h : PoolSound s) {payload check : CellsRead}
    (ht : execCheckEnd payload check s = .next t) : PoolSound t := by
  cases ht
  split
  · dsimp only
    split
    · exact (h.reachCheckEnd _ _ _).conclude
    · exact h
  · exact h

theorem PoolSound.execSlotEnd {s t : State} (h : PoolSound s) {slot : Slot} {cells : CellsRead}
    (ht : execSlotEnd slot cells s = .next t) : PoolSound t := by
  cases ht
  split
  · dsimp only
    split
    · exact h.congr_rings (by simp) (by simp) (by simp)
    · split
      · exact h.congr_rings (by simp) (by simp) (by simp)
      · exact h
  · exact h

theorem PoolSound.execFrameEnd {s t : State} (h : PoolSound s) {tail : TailRead}
    (ht : execFrameEnd tail s = .next t) : PoolSound t := by
  cases ht
  split
  · split
    · exact (h.endFrame _).conclude
    · exact h
  · exact h

theorem PoolSound.execFrameAbandoned {s t : State} (h : PoolSound s) {cells : CellsRead} {quiet : Nat}
    (ht : execFrameAbandoned cells quiet s = .next t) : PoolSound t := by
  cases ht
  split
  · split
    · exact (h.abandonFrame _).conclude
    · exact h
  · exact h

theorem PoolSound.execEodEnd {s t : State} (h : PoolSound s) (ht : execEodEnd s = .next t) : PoolSound t := by
  cases ht
  split
  · dsimp only
    split <;> exact h
  · exact h

/-! ## Timers -/

theorem PoolSound.expireDeadline {s : State} (h : PoolSound s) (id : CellId) : PoolSound (expireDeadline id s) := by
  unfold Machine.expireDeadline
  split
  · split
    · exact (h.expireCell _ _).conclude
    · exact h
  · exact h

theorem PoolSound.execArrivalTimerExpiry {s t : State} (h : PoolSound s) {r : ArrivalId}
    (ht : execArrivalTimerExpiry r s = .next t) : PoolSound t := by
  cases ht
  split
  · exact h.notifyArrival r
  · exact h

/-! ## One command -/

/-- Every command keeps the pool sound (R30). -/
theorem PoolSound.exec {s t : State} (h : PoolSound s) {i : Instr} (ht : exec i s = .next t) : PoolSound t := by
  cases i with
  | resetPinAssert =>
    cases ht
    exact (show PoolSound State.reset by decide).congr_rings rfl rfl rfl
  | resetPinRelease => cases ht; exact h
  | softResetComplete =>
    cases ht
    split
    · exact PoolSound.softReset s
    · exact h
  | softReset value | enable value => cases ht; exact h.windowWrite .control value
  | bootLoWrite value => cases ht; exact h.windowWrite .bootLo value
  | bootHiWrite value => cases ht; exact h.windowWrite .bootHi value
  | post value => cases ht; exact h.windowWrite .post value
  | release value => cases ht; exact h.windowWrite .release value
  | causeWrite value => cases ht; exact h.windowWrite .cause value
  | maskWrite value => cases ht; exact h.windowWrite .mask value
  | registerWrite r width value =>
    cases ht
    split
    · exact h.windowWrite r value
    · exact h
  | bootReadEnd result => cases ht; exact h.transferEnd _ _ fun _ hu => hu.takeBootEnd result
  | fetchEnd result => cases ht; exact h.transferEnd _ _ fun _ hu => hu.takeFetchEnd result
  | adminFetchEnd result quiet => cases ht; exact h.transferEnd _ _ fun _ hu => hu.takeAdminEnd result quiet
  | nodeSet tag form => cases ht; exact h.adminCommandEnd tag _ _
  | lineMode tag code quiet => cases ht; exact h.adminCommandEnd tag _ _
  | openSend tag form => cases ht; exact h.adminCommandEnd tag _ _
  | openArrival tag form => cases ht; exact h.adminCommandEnd tag _ _
  | closeRing tag ring => cases ht; exact h.adminCommandEnd tag _ _
  | filterWrite tag index form => cases ht; exact h.adminCommandEnd tag _ _
  | filterRead tag index => cases ht; exact h.adminCommandEnd tag _ _
  | countsRead tag clear address => cases ht; exact h.adminCommandEnd tag _ _
  | countsWriteEnd result => cases ht; exact h.transferEnd _ _ fun _ hu => hu.takeCountsEnd result
  | arrivalWriteEnd result => cases ht; exact h.transferEnd _ _ fun _ hu => hu.takeArrivalEnd result
  | completionWriteEnd result => cases ht; exact h.transferEnd _ _ fun _ hu => hu.takeCompletionEnd result
  | tick =>
    cases ht
    split <;> exact h
  | deadlineExpiry id => cases ht; exact h.expireDeadline id
  | arrivalTimerExpiry r => exact h.execArrivalTimerExpiry ht
  | crTimerExpiry =>
    cases ht
    split
    · exact h.congr_rings (by simp) (by simp) (by simp)
    · exact h
  | joinComplete quiet =>
    cases ht
    split
    · exact PoolSound.conclude (h.congr_rings (by simp) (by simp) (by simp))
    · exact h
  | attemptStart kind quiet => exact h.execAttemptStart ht
  | frameStart quiet pulse => exact h.execFrameStart ht
  | arbitrationWon =>
    cases ht
    split
    · split
      · exact h.congr_rings (by simp) (by simp) (by simp)
      · exact h
    · exact h
  | attemptEnd before last ending =>
    cases ht
    split
    · exact (h.attemptEndAt _ _).concludeAttempt _
    · exact h
  | headerEnd cells => exact h.execHeaderEnd ht
  | checkEnd payload check => exact h.execCheckEnd ht
  | slotEnd slot cells => exact h.execSlotEnd ht
  | frameEnd tail => exact h.execFrameEnd ht
  | frameAbandoned cells quiet => exact h.execFrameAbandoned ht
  | stuckLine dominant =>
    cases ht
    split
    · exact h.enterFault.conclude
    · exact h
  | faultExit quiet =>
    cases ht
    split
    · exact PoolSound.conclude (h.congr_rings rfl rfl rfl)
    · exact h
  | recoveryEnd quiet =>
    cases ht
    split
    · exact PoolSound.conclude (h.congr_rings rfl rfl rfl)
    · exact h
  | eodEnd => exact h.execEodEnd ht

end Sys2Proof.Machine

namespace Sys2Proof.Proofs

open Sys2Proof.Machine

/-- Settles O56: soundness of the pool is inductive by itself; every shared operation keeps it, and so does every
command. -/
theorem poolStaysSound : Obligations.PoolStaysSound := fun _ _ h ht =>
  step_keeps (P := PoolSound) (fun _ _ hs => hs) (fun _ _ _ hs hi => PoolSound.exec hs hi) h ht

end Sys2Proof.Proofs
end

section
/-! PROOFS. One case split over the commands for every invariant of the rings, the class lists, the completion pending
list and the admin engine: such an invariant is kept by every step when each event's own operation keeps it. -/

namespace Sys2Proof.Machine

/-- An event that is taken when its condition holds, and changes nothing otherwise. -/
theorem ite_keeps {P : State → Prop} {s : State} {c : Prop} [Decidable c] {u : State} (h : P s) (hu : P u) :
    P (if c then u else s) := by
  split
  · exact hu
  · exact h

/-- At a boundary phase the line engine goes to OFF, takes a mode, or does nothing (R85, R89). -/
theorem atBoundary_cases (s : State) :
    atBoundary s = s ∨ atBoundary s = goOff s ∨ ∃ m, atBoundary s = takeMode m s := by
  unfold atBoundary
  split
  · split
    · exact .inr (.inl rfl)
    · split
      · next m _ => exact .inr (.inr ⟨m, rfl⟩)
      · exact .inl rfl
    all_goals exact .inl rfl
  · exact .inl rfl

/-- The rings, the class lists with their passed-over counts, the completion writer and the admin engine stand as
before. -/
abbrev SameRingsAndLists (s t : State) : Prop :=
  t.rct = s.rct ∧ t.sch.lists = s.sch.lists ∧ t.sch.passed = s.sch.passed ∧ t.cw = s.cw ∧ t.ae = s.ae

/-- The invariant speaks of the rings, the class lists, the completion writer and the admin engine alone, holds at reset,
and is kept by the operation of every event that touches them. -/
structure KeptByEvents (P : State → Prop) : Prop where
  congr : ∀ {s t : State}, P s → SameRingsAndLists s t → P t
  reset : P State.reset
  writePost : ∀ {s : State}, P s → ∀ value, P (writePost value s)
  writeRelease : ∀ {s : State}, P s → ∀ value, P (writeRelease value s)
  enterRunning : ∀ {s : State}, P s → ∀ {r b}, bootBlockOf r = some b → P (enterRunning b s)
  takeFetchEnd : ∀ {s : State}, P s → ∀ result, P (takeFetchEnd result s)
  takeAdminRecord : ∀ {s : State}, P s → s.ae.phase = .fetching →
    ∀ tag reading quiet, P (takeAdminRecord tag reading quiet s)
  takeAdminError : ∀ {s : State}, P s → s.ae.phase = .fetching → P (takeAdminError s)
  takeCountsEnd : ∀ {s : State}, P s → ∀ result, P (takeCountsEnd result s)
  takeArrivalEnd : ∀ {s : State}, P s → ∀ result, P (takeArrivalEnd result s)
  completionWritten : ∀ {s : State}, P s → ∀ w, P (completionWritten w s)
  expireCell : ∀ {s : State}, P s → ∀ id c, P (expireCell id c s)
  notifyArrival : ∀ {s : State}, P s → ∀ r, P (notifyArrival r s)
  expireCompletionTimer : ∀ {s : State}, P s → P (expireCompletionTimer s)
  winReport : ∀ {s : State}, P s → ∀ won, P (winReport won s)
  settleAttempt : ∀ {s : State}, P s → ∀ id o, P (settleAttempt id o s)
  takeMode : ∀ {s : State}, P s → ∀ m, P (takeMode m s)
  grantRx : ∀ {s : State}, P s → ∀ id c, P (grantRx id c s)
  commitToRing : ∀ {s : State}, P s → ∀ r id, P (commitToRing r id s)
  dropReceptionCell : ∀ {s : State}, P s → ∀ id, P (dropReceptionCell id s)
  offerDecision : ∀ {s : State}, P s → P (offerDecision s)
  concludeWithoutOffer : ∀ {s : State}, P s → P (concludeWithoutOffer s)

namespace KeptByEvents

variable {P : State → Prop} {s t : State}

theorem conclude (k : KeptByEvents P) (h : P s) : P (conclude s) := k.concludeWithoutOffer (k.offerDecision h)

theorem concludeAttempt (k : KeptByEvents P) (h : P s) (m : EndMoment) : P (concludeAttempt m s) := by
  cases m with
  | plain => exact k.conclude h
  | beforeNext => exact k.concludeWithoutOffer h

/-! ## The reception (chapter 5) -/

theorem headerCall (k : KeptByEvents P) (h : P s) (hd : FrameHead) (own allowed : Bool) :
    P (headerCall hd own allowed s) := by
  unfold Machine.headerCall
  split
  · exact k.congr h ⟨rfl, rfl, rfl, rfl, rfl⟩
  · split
    · next i _ =>
      have hit : P (countHit i s) := k.congr h ⟨rfl, rfl, rfl, rfl, rfl⟩
      simp only [decideFrame, acceptFrame]
      split
      · split
        · split
          · exact k.congr (k.grantRx hit _ _) ⟨rfl, rfl, rfl, rfl, rfl⟩
          · exact k.congr hit ⟨rfl, rfl, rfl, rfl, rfl⟩
        all_goals exact k.congr hit ⟨rfl, rfl, rfl, rfl, rfl⟩
      all_goals exact k.congr hit ⟨rfl, rfl, rfl, rfl, rfl⟩
    · exact k.congr h ⟨rfl, rfl, rfl, rfl, rfl⟩

theorem checkCall (k : KeptByEvents P) (h : P s) (good : Bool) (payload : List Byte) :
    P (checkCall good payload s) := by
  unfold Machine.checkCall
  split
  · exact h
  · split
    · split
      · unfold commitReception
        split
        · refine k.commitToRing ?_ _ _
          exact k.congr h ⟨rfl, rfl, rfl, rfl, rfl⟩
        · exact k.congr h ⟨rfl, rfl, rfl, rfl, rfl⟩
      · exact k.congr h (by simp [SameRingsAndLists])
    · unfold cancelReception
      split
      · refine k.dropReceptionCell ?_ _
        exact k.congr h ⟨rfl, rfl, rfl, rfl, rfl⟩
      · exact k.congr h ⟨rfl, rfl, rfl, rfl, rfl⟩

theorem abandonReception (k : KeptByEvents P) (h : P s) : P (abandonReception s) := by
  unfold Machine.abandonReception
  split
  · exact h
  · split
    · refine k.dropReceptionCell ?_ _
      exact k.congr h ⟨rfl, rfl, rfl, rfl, rfl⟩
    · exact k.congr h ⟨rfl, rfl, rfl, rfl, rfl⟩

/-! ## The line engine (chapter 4) -/

theorem atBoundary (k : KeptByEvents P) (h : P s) : P (atBoundary s) := by
  obtain heq | heq | ⟨m, heq⟩ := atBoundary_cases s <;> rw [heq]
  · exact h
  · exact k.congr h (by simp [SameRingsAndLists])
  · exact k.takeMode h m

theorem endAttempt (k : KeptByEvents P) (h : P s) (o : AttemptOutcome) (rest : Option Frame) :
    P (endAttempt o rest s) := by
  unfold Machine.endAttempt
  split
  · exact h
  · have left : P (leaveAttempt o rest s) := k.congr h (by simp [SameRingsAndLists])
    dsimp only
    refine k.settleAttempt ?_ _ _
    split
    · exact left
    · exact k.abandonReception left

theorem enterFault (k : KeptByEvents P) (h : P s) : P (enterFault s) := by
  have ended : P (if s.le.phase.isAttempt then Machine.endAttempt .lineFault none s else s) :=
    ite_keeps h (k.endAttempt h _ _)
  unfold Machine.enterFault
  split
  · exact h
  · split
    · exact k.congr h ⟨rfl, rfl, rfl, rfl, rfl⟩
    · refine k.atBoundary (k.congr (ite_keeps ended (k.abandonReception ended)) ⟨rfl, rfl, rfl, rfl, rfl⟩)

theorem attemptEndAt (k : KeptByEvents P) (h : P s) (cells : CellsRead) (quiet : Nat) :
    P (attemptEndAt cells quiet s) := by
  unfold Machine.attemptEndAt
  split
  · exact h
  · dsimp only
    split
    · exact h
    · exact k.enterFault h
    · exact k.atBoundary (k.endAttempt (s := measureQuiet quiet s) (k.congr h ⟨rfl, rfl, rfl, rfl, rfl⟩) _ _)

/-! ## Register writes and resets (chapter 10) -/

theorem softResetState (k : KeptByEvents P) (s : State) : P (softResetState s) :=
  k.congr k.reset ⟨rfl, rfl, rfl, rfl, rfl⟩

theorem writeControl (k : KeptByEvents P) (h : P s) (value : Word) : P (writeControl value s) := by
  unfold Machine.writeControl
  split
  · unfold beginSoftReset
    dsimp only
    split
    · exact k.softResetState _
    · exact k.congr h ⟨rfl, rfl, rfl, rfl, rfl⟩
  · split
    · exact k.congr h ⟨rfl, rfl, rfl, rfl, rfl⟩
    · exact h

theorem windowWrite (k : KeptByEvents P) (h : P s) (r : Register) (value : Word) : P (windowWrite r value s) := by
  unfold Machine.windowWrite
  split
  · cases r with
    | control => exact k.writeControl h value
    | status => exact h
    | bootLo =>
      simp only [writeRegister, writeBootLo]
      split
      · exact k.congr h ⟨rfl, rfl, rfl, rfl, rfl⟩
      · exact h
    | bootHi =>
      simp only [writeRegister, writeBootHi]
      split
      · exact k.congr h ⟨rfl, rfl, rfl, rfl, rfl⟩
      · exact h
    | post => exact k.writePost h value
    | release => exact k.writeRelease h value
    | cause | mask => exact k.congr h ⟨rfl, rfl, rfl, rfl, rfl⟩
  · exact h

/-! ## Ends of transfers (10.5) -/

theorem transferEnd (k : KeptByEvents P) (h : P s) (owner : BusOwner) (d : Direction) {take : State → State}
    (htake : ∀ u, P u → P (take u)) : P (transferEnd owner d take s) := by
  obtain heq | heq | heq := transferEnd_cases owner d take s <;> rw [heq]
  · exact h
  · exact k.softResetState s
  · exact k.conclude (htake _ (k.congr h ⟨rfl, rfl, rfl, rfl, rfl⟩))

theorem enterHalted (k : KeptByEvents P) (h : P s) (reason : HaltReason) : P (enterHalted reason s) :=
  k.atBoundary (k.congr (s := s) h ⟨rfl, rfl, rfl, rfl, rfl⟩)

theorem takeBootEnd (k : KeptByEvents P) (h : P s) (result : ReadEnd) : P (takeBootEnd result s) := by
  unfold Machine.takeBootEnd judgeBoot
  refine ite_keeps h ?_
  split
  · exact k.enterHalted h _
  · split
    · next hb => exact k.enterRunning h hb
    · exact k.enterHalted h _

theorem takeCompletionEnd (k : KeptByEvents P) (h : P s) (result : WriteEnd) : P (takeCompletionEnd result s) := by
  unfold Machine.takeCompletionEnd
  split
  · exact h
  · cases result with
    | written => exact k.completionWritten h _
    | busError => exact ite_keeps h (k.enterHalted h _)

/-- The end of an admin read, taken by an engine that is FETCHING (R157). -/
theorem whenFetching (h : P s) {take : State → State} (htake : s.ae.phase = .fetching → P (take s)) :
    P (whenFetching take s) := by
  unfold Machine.whenFetching
  split
  · next hf => exact htake hf
  · exact h

theorem takeAdminEnd (k : KeptByEvents P) (h : P s) (result : ReadEnd) (quiet : Nat) :
    P (takeAdminEnd result quiet s) := by
  cases result with
  | data r => exact whenFetching h fun hf => k.takeAdminRecord h hf _ _ _
  | busError => exact whenFetching h fun hf => k.takeAdminError h hf

theorem adminCommandEnd (k : KeptByEvents P) (h : P s) (tag : Word) (c : AdminCommand) (quiet : Nat) :
    P (adminCommandEnd tag c quiet s) :=
  k.transferEnd h _ _ fun _ hu => whenFetching hu fun hf => k.takeAdminRecord hu hf _ _ _

/-! ## Line events (chapter 4) -/

theorem sofEdge (k : KeptByEvents P) (h : P s) (m : SofMoment) (quiet : Nat) : P (sofEdge m quiet s) :=
  k.congr h (by simp [SameRingsAndLists])

theorem restartQuiet (k : KeptByEvents P) (h : P s) : P (restartQuiet s) := k.congr h (by simp [SameRingsAndLists])

theorem execAttemptStart (k : KeptByEvents P) (h : P s) {kind : SofKind} {quiet : Nat}
    (ht : execAttemptStart kind quiet s = .next t) : P t := by
  cases ht
  cases kind with
  | driven m =>
    dsimp only
    split
    · exact k.congr h ⟨rfl, rfl, rfl, rfl, rfl⟩
    · exact h
  | edgeRead m => exact k.sofEdge h m quiet

theorem execFrameStart (k : KeptByEvents P) (h : P s) {quiet : Nat} {pulse : PulseRead}
    (ht : execFrameStart quiet pulse s = .next t) : P t := by
  cases ht
  cases classifyPulse s.ae.rate pulse.length with
  | sof => exact k.sofEdge h _ _
  | data1 | data0 | invalid | breakPulse => exact k.restartQuiet h
  | stuck =>
    dsimp only
    split
    · exact k.restartQuiet h
    · exact h
  | glitch => exact h

theorem execArbitrationWon (k : KeptByEvents P) (h : P s) (ht : execArbitrationWon s = .next t) : P t := by
  cases ht
  split
  · split
    · exact k.winReport (s := setPhase .sending s) (k.congr h ⟨rfl, rfl, rfl, rfl, rfl⟩) _
    · exact h
  · exact h

theorem execHeaderEnd (k : KeptByEvents P) (h : P s) {cells : CellsRead} (ht : execHeaderEnd cells s = .next t) :
    P t := by
  cases ht
  split
  · dsimp only
    split
    · split
      · exact k.headerCall (s := s.updLe _) (k.congr h ⟨rfl, rfl, rfl, rfl, rfl⟩) _ _ _
      · exact h
    · exact h
  · exact h

theorem execCheckEnd (k : KeptByEvents P) (h : P s) {payload check : CellsRead}
    (ht : execCheckEnd payload check s = .next t) : P t := by
  cases ht
  split
  · dsimp only
    split
    · refine k.conclude (k.congr (k.checkCall (s := s.updLe _) ?_ _ _) ⟨rfl, rfl, rfl, rfl, rfl⟩)
      exact k.congr h ⟨rfl, rfl, rfl, rfl, rfl⟩
    · exact h
  · exact h

theorem execEodEnd (k : KeptByEvents P) (h : P s) (ht : execEodEnd s = .next t) : P t := by
  cases ht
  split
  · dsimp only
    split
    · exact k.congr h ⟨rfl, rfl, rfl, rfl, rfl⟩
    · exact h
  · exact h

theorem execSlotEnd (k : KeptByEvents P) (h : P s) {slot : Slot} {cells : CellsRead}
    (ht : execSlotEnd slot cells s = .next t) : P t := by
  cases ht
  split
  · dsimp only
    split
    · exact k.congr h (by simp [SameRingsAndLists])
    · split
      · exact k.congr h (by simp [SameRingsAndLists])
      · exact h
  · exact h

theorem execFrameEnd (k : KeptByEvents P) (h : P s) {tail : TailRead} (ht : execFrameEnd tail s = .next t) : P t := by
  cases ht
  split
  · split
    · exact k.conclude (k.atBoundary (k.congr (s := s) h ⟨rfl, rfl, rfl, rfl, rfl⟩))
    · exact h
  · exact h

theorem execFrameAbandoned (k : KeptByEvents P) (h : P s) {cells : CellsRead} {quiet : Nat}
    (ht : execFrameAbandoned cells quiet s = .next t) : P t := by
  cases ht
  split
  · split
    · exact k.conclude (k.atBoundary (k.congr (k.abandonReception h) ⟨rfl, rfl, rfl, rfl, rfl⟩))
    · exact h
  · exact h

/-! ## Timers (R57 to R59, R138, R153) -/

theorem expireDeadline (k : KeptByEvents P) (h : P s) (id : CellId) : P (expireDeadline id s) := by
  unfold Machine.expireDeadline
  split
  · split
    · exact k.conclude (k.expireCell h _ _)
    · exact h
  · exact h

/-! ## One command, one step -/

/-- Every command keeps the invariant. -/
theorem exec (k : KeptByEvents P) (h : P s) {i : Instr} (ht : exec i s = .next t) : P t := by
  cases i with
  | resetPinAssert => cases ht; exact k.congr k.reset ⟨rfl, rfl, rfl, rfl, rfl⟩
  | resetPinRelease => cases ht; exact k.congr h ⟨rfl, rfl, rfl, rfl, rfl⟩
  | softResetComplete => cases ht; exact ite_keeps h (k.softResetState s)
  | softReset value | enable value | bootLoWrite value | bootHiWrite value | post value | release value
  | causeWrite value | maskWrite value => cases ht; exact k.windowWrite h _ value
  | registerWrite r width value => cases ht; exact ite_keeps h (k.windowWrite h r value)
  | bootReadEnd result => cases ht; exact k.transferEnd h _ _ fun _ hu => k.takeBootEnd hu result
  | fetchEnd result => cases ht; exact k.transferEnd h _ _ fun _ hu => k.takeFetchEnd hu result
  | adminFetchEnd result quiet => cases ht; exact k.transferEnd h _ _ fun _ hu => k.takeAdminEnd hu result quiet
  | nodeSet tag _ | lineMode tag _ _ | openSend tag _ | openArrival tag _ | closeRing tag _ | filterWrite tag _ _
  | filterRead tag _ | countsRead tag _ _ => cases ht; exact k.adminCommandEnd h tag _ _
  | countsWriteEnd result => cases ht; exact k.transferEnd h _ _ fun _ hu => k.takeCountsEnd hu result
  | arrivalWriteEnd result => cases ht; exact k.transferEnd h _ _ fun _ hu => k.takeArrivalEnd hu result
  | completionWriteEnd result => cases ht; exact k.transferEnd h _ _ fun _ hu => k.takeCompletionEnd hu result
  | tick => cases ht; exact ite_keeps h (k.congr h ⟨rfl, rfl, rfl, rfl, rfl⟩)
  | deadlineExpiry id => cases ht; exact k.expireDeadline h id
  | arrivalTimerExpiry r => cases ht; exact ite_keeps h (k.notifyArrival h r)
  | crTimerExpiry => cases ht; exact ite_keeps h (k.expireCompletionTimer h)
  | joinComplete quiet => cases ht; exact ite_keeps h (k.conclude (k.congr h (by simp [SameRingsAndLists])))
  | attemptStart kind quiet => exact k.execAttemptStart h ht
  | frameStart quiet pulse => exact k.execFrameStart h ht
  | arbitrationWon => exact k.execArbitrationWon h ht
  | attemptEnd before last ending => cases ht; exact ite_keeps h (k.concludeAttempt (k.attemptEndAt h _ _) _)
  | headerEnd cells => exact k.execHeaderEnd h ht
  | checkEnd payload check => exact k.execCheckEnd h ht
  | slotEnd slot cells => exact k.execSlotEnd h ht
  | frameEnd tail => exact k.execFrameEnd h ht
  | frameAbandoned cells quiet => exact k.execFrameAbandoned h ht
  | stuckLine dominant => cases ht; exact ite_keeps h (k.conclude (k.enterFault h))
  | faultExit quiet | recoveryEnd quiet =>
    cases ht
    exact ite_keeps h (k.conclude (k.congr h ⟨rfl, rfl, rfl, rfl, rfl⟩))
  | eodEnd => exact k.execEodEnd h ht

/-- Every step keeps the invariant. -/
theorem step (k : KeptByEvents P) (h : P s) (ht : step s = .next t) : P t :=
  step_keeps (fun _ _ hs => k.congr hs ⟨rfl, rfl, rfl, rfl, rfl⟩) (fun _ _ _ hs hi => k.exec hs hi) h ht

end KeptByEvents

end Sys2Proof.Machine
end

section
/-! PROOFS. The passed-over counts stay sound (R43): the shared operations keep them, and every event is made of those. -/

namespace Sys2Proof.Machine

theorem PassedOverSound.judgeCommand {s : State} (h : PassedOverSound s) (c : AdminCommand) (reservedZero : Bool)
    (quiet : Nat) : PassedOverSound (judgeCommand c reservedZero quiet s) := by
  unfold Machine.judgeCommand
  split
  · exact h.congrS (by simp)
  · split
    · exact h.congrS (by simp)
    · exact h.performCommand c quiet

theorem PassedOverSound.takeAdminRecord {s : State} (h : PassedOverSound s) (tag : Word) (reading : AdminReading)
    (quiet : Nat) : PassedOverSound (takeAdminRecord tag reading quiet s) := by
  have advanced : PassedOverSound (advanceAdminHead s) := h.congrS rfl
  simp only [Machine.takeAdminRecord]
  split
  · exact advanced.congrS rfl
  · cases reading with
    | unknown => exact advanced.congrS rfl
    | command c reservedZero =>
      refine PassedOverSound.judgeCommand ?_ c reservedZero quiet
      exact advanced.congrS rfl

theorem PassedOverSound.takeCountsEnd {s : State} (h : PassedOverSound s) (result : WriteEnd) :
    PassedOverSound (takeCountsEnd result s) := by
  unfold Machine.takeCountsEnd
  refine ite_keeps h ?_
  cases result with
  | written =>
    refine h.congrS ?_
    simp only [endCommand_frame]
    split <;> rfl
  | busError => exact h.congrS (by simp [dropSnapshot])

/-- The passed-over count of an empty class stays 0 at every event (R43). -/
theorem passedOverSound_keptByEvents : KeptByEvents PassedOverSound where
  congr h := fun ⟨_, lists, passed, _, _⟩ => h.congr lists passed
  reset := by decide
  writePost h value := by
    obtain heq | heq | ⟨n, heq⟩ := writePost_cases value _ <;> rw [heq]
    · exact h
    · exact PassedOverSound.conclude (s := State.updAdmin _ _) h
    · exact PassedOverSound.conclude (h.congrS (by simp))
  writeRelease h value := by
    obtain heq | heq | ⟨n, heq⟩ := writeRelease_cases value _ <;> rw [heq]
    · exact h
    · exact PassedOverSound.conclude (s := State.updCompletion _ _) h
    · exact PassedOverSound.conclude (h.congrS (by simp))
  enterRunning h _ _ _ := h.congr (by simp [enterRunning]) (by simp [enterRunning])
  takeFetchEnd h result := h.takeFetchEnd result
  takeAdminRecord h _ := h.takeAdminRecord
  takeAdminError h _ := h
  takeCountsEnd h := h.takeCountsEnd
  takeArrivalEnd h _ := h.congrS (by simp)
  completionWritten h _ := h.congrS (by simp)
  expireCell h id c := h.expireCell id c
  notifyArrival h _ := h.congrS (by simp)
  expireCompletionTimer h := h.congrS (by simp)
  winReport h won := h.winReport won
  settleAttempt h id o := h.settleAttempt id o
  takeMode h m := h.takeMode m
  grantRx h _ _ := h.congrS (by simp)
  commitToRing h _ _ := h.congrS (by simp)
  dropReceptionCell h _ := h.congrS (by simp)
  offerDecision h := h.offerDecision
  concludeWithoutOffer h := h.congrS (by simp)

end Sys2Proof.Machine
end

section
/-! PROOFS. The OPEN rings stay sound (R112, R129, R135, R137, R151, R183, R184): every change of a ring context keeps its
size and indices in range, or takes it out of OPEN. -/

namespace Sys2Proof.Machine

/-! ## One ring context -/

/-- What OPEN asks of the admin ring's context. -/
abbrev AdminRing.Sound (r : AdminRing) : Prop := r.state = .opened → indicesSound r.size r.head r.tail

/-- What OPEN asks of a send ring's context. -/
abbrev SendRing.Sound (r : SendRing) : Prop := r.state = .opened → indicesSound r.size r.head r.tail

/-- What OPEN asks of an arrival ring's context. -/
abbrev ArrivalRing.Sound (r : ArrivalRing) : Prop :=
  r.state = .opened → indicesSound r.size r.head r.tail ∧ coalescingSound r.count r.unnotified

/-- What OPEN asks of the completion ring's context. -/
abbrev CompletionRing.Sound (r : CompletionRing) : Prop :=
  r.state = .opened → indicesSound r.size r.head r.tail ∧ coalescingSound r.count r.unnotified

/-- The OPEN rings are sound when each context is. -/
theorem openRingsSound_iff (s : State) :
    OpenRingsSound s ↔
      s.rct.admin.Sound ∧ (∀ r, (s.send r).Sound) ∧ (∀ r, (s.arrival r).Sound) ∧ s.rct.completion.Sound :=
  Iff.rfl

/-- The next index of a ring lies below its size. -/
theorem nextIndex_lt {size : Nat} (i : Nat) (h : 0 < size) : nextIndex i size < size := Nat.mod_lt _ h

/-- A ring size that the spec admits is above 0. -/
theorem sizeValid_pos {size : Nat} (h : sizeValid size = true) : 0 < size := by
  refine Nat.pos_of_ne_zero fun h0 => ?_
  subst h0
  cases h

/-- A coalescing count in range stays above the unnotified count after one more record (R137). -/
theorem coalescingSound.coalesce {count unnotified : Nat} (h : coalescingSound count unnotified) (delay : BitVec 8)
    (timer : Option Word) (tick : Word) : coalescingSound count (coalesce count delay unnotified timer tick).1 := by
  obtain ⟨hlo, hhi, hun⟩ := h
  unfold Machine.coalesce
  split
  · exact ⟨hlo, hhi, hlo⟩
  · split
    · exact ⟨hlo, hhi, by dsimp only; omega⟩
    · exact ⟨hlo, hhi, by dsimp only; omega⟩

/-- A coalescing count in range is above an unnotified count returned to 0 (R138). -/
theorem coalescingSound.zero {count unnotified : Nat} (h : coalescingSound count unnotified) :
    coalescingSound count 0 := by
  obtain ⟨hlo, hhi, -⟩ := h
  exact ⟨hlo, hhi, hlo⟩

/-! ## One change of a context -/

namespace OpenRingsSound

variable {s t : State}

theorem congr (h : OpenRingsSound s)
    (hr : t.rct.admin = s.rct.admin ∧ t.rct.send = s.rct.send ∧ t.rct.arrival = s.rct.arrival
      ∧ t.rct.completion = s.rct.completion) : OpenRingsSound t := by
  obtain ⟨ha, hs, hv, hc⟩ := hr
  simpa only [OpenRingsSound, State.send, State.arrival, ha, hs, hv, hc] using h

theorem updAdmin (h : OpenRingsSound s) {f : AdminRing → AdminRing} (hf : s.rct.admin.Sound → (f s.rct.admin).Sound) :
    OpenRingsSound (s.updAdmin f) := by
  obtain ⟨ha, hs, hv, hc⟩ := (openRingsSound_iff s).mp h
  exact ⟨hf ha, hs, hv, hc⟩

theorem updCompletion (h : OpenRingsSound s) {f : CompletionRing → CompletionRing}
    (hf : s.rct.completion.Sound → (f s.rct.completion).Sound) : OpenRingsSound (s.updCompletion f) := by
  obtain ⟨ha, hs, hv, hc⟩ := (openRingsSound_iff s).mp h
  exact ⟨ha, hs, hv, hf hc⟩

theorem updSend (h : OpenRingsSound s) (r : SendId) {f : SendRing → SendRing}
    (hf : (s.send r).Sound → (f (s.send r)).Sound) : OpenRingsSound (s.updSend r f) := by
  obtain ⟨ha, hs, hv, hc⟩ := (openRingsSound_iff s).mp h
  refine ⟨ha, fun j => ?_, hv, hc⟩
  rw [State.send_updSend]
  split
  · exact hf (hs r)
  · exact hs j

theorem updArrival (h : OpenRingsSound s) (r : ArrivalId) {f : ArrivalRing → ArrivalRing}
    (hf : (s.arrival r).Sound → (f (s.arrival r)).Sound) : OpenRingsSound (s.updArrival r f) := by
  obtain ⟨ha, hs, hv, hc⟩ := (openRingsSound_iff s).mp h
  refine ⟨ha, hs, fun j => ?_, hc⟩
  rw [State.arrival_updArrival]
  split
  · exact hf (hv r)
  · exact hv j

/-! ## What touches no ring -/

theorem updSch (h : OpenRingsSound s) (f : Scheduler → Scheduler) : OpenRingsSound (s.updSch f) := h

theorem updCw (h : OpenRingsSound s) (f : CompletionWriter → CompletionWriter) : OpenRingsSound (s.updCw f) := h

theorem awaitEvent (h : OpenRingsSound s) (a : Awaited) : OpenRingsSound (awaitEvent a s) := h

theorem requestRead (h : OpenRingsSound s) (q : Requester) (address : Addr) :
    OpenRingsSound (requestRead q address s) := h

theorem requestWrite (h : OpenRingsSound s) (q : Requester) (address : Addr) (bytes : List Byte) :
    OpenRingsSound (requestWrite q address bytes s) := h

theorem joinPending (h : OpenRingsSound s) (e : CompletionEntry) : OpenRingsSound (joinPending e s) := h

theorem setCauseIf (h : OpenRingsSound s) (b : Bool) (c : Cause) : OpenRingsSound (setCauseIf b c s) :=
  h.congr (by simp)

theorem endCommand (h : OpenRingsSound s) (status : AdminStatus) (area : List Byte) :
    OpenRingsSound (endCommand status area s) :=
  h.congr (by simp)

theorem endCloseRing (h : OpenRingsSound s) (area : List Byte) : OpenRingsSound (endCloseRing area s) :=
  h.congr (by simp)

/-! ## The pool (chapter 2) -/

theorem grantTx (h : OpenRingsSound s) (id : CellId) (c : TxCell) : OpenRingsSound (grantTx id c s) :=
  updSend (s := State.updCp _ (s.setCell id (.tx c))) h _ fun hr => hr

theorem grantRx (h : OpenRingsSound s) (id : CellId) (c : RxCell) : OpenRingsSound (grantRx id c s) :=
  updArrival (s := State.updCp _ (s.setCell id (.rx c))) h _ fun hr => hr

theorem freeCell (h : OpenRingsSound s) (id : CellId) : OpenRingsSound (freeCell id s) := by
  unfold Machine.freeCell
  split
  · exact h
  · exact updSend (s := State.updCp _ (s.setCell id .free)) h _ fun hr => hr
  · exact updArrival (s := State.updCp _ (s.setCell id .free)) h _ fun hr => hr

/-! ## The fetch engine (chapter 6) -/

theorem fetchVisit (h : OpenRingsSound s) (l : List SendId) (b : Bool) : OpenRingsSound (fetchVisit l b s) := by
  induction l generalizing b s with
  | nil => exact h
  | cons r l ih =>
    simp only [Machine.fetchVisit]
    split
    · split
      · split
        · exact requestRead (updSend (s := State.updFe _ (Machine.grantTx _ _ s)) (h.grantTx _ _) r fun hr => hr) _ _
        · exact h
      · exact ih (s := oweNotice s) h _
      all_goals exact h
    · exact ih h _

theorem fetchDecision (h : OpenRingsSound s) : OpenRingsSound (fetchDecision s) :=
  ite_keeps h (h.fetchVisit _ _)

theorem roomNotice (h : OpenRingsSound s) : OpenRingsSound (roomNotice s) :=
  ite_keeps h (fetchDecision (s := State.updCp _ s) h)

/-- A fetch end moves an OPEN ring's head to the next index, or faults the ring (R120, R122). -/
theorem fetchedRing_sound {r : SendRing} (h : r.Sound) (result : ReadEnd) : (fetchedRing r result).Sound := by
  intro ho
  have hr : r.state = .opened := by
    simp only [fetchedRing] at ho
    split at ho
    · cases ho
    · exact ho
  obtain ⟨hsize, -, htail⟩ := h hr
  exact ⟨hsize, nextIndex_lt _ (sizeValid_pos hsize), htail⟩

theorem takeFetchEnd (h : OpenRingsSound s) (result : ReadEnd) : OpenRingsSound (takeFetchEnd result s) := by
  unfold Machine.takeFetchEnd
  split
  · exact h
  · next f _ =>
    have fetched : OpenRingsSound (s.updSend f.ring fun r => fetchedRing r result) :=
      h.updSend f.ring fun hr => fetchedRing_sound hr result
    exact fetchDecision (fetched.congr (by simp))

/-! ## The arrival writer (chapter 7) -/

theorem notifyArrival (h : OpenRingsSound s) (r : ArrivalId) : OpenRingsSound (notifyArrival r s) := by
  refine setCauseIf (h.updArrival r fun hr ho => ?_) _ _
  obtain ⟨hindices, hcoalesce⟩ := hr ho
  exact ⟨hindices, hcoalesce.zero⟩

theorem closeIfDrainedArrival (h : OpenRingsSound s) (r : ArrivalId) : OpenRingsSound (closeIfDrainedArrival r s) := by
  unfold Machine.closeIfDrainedArrival
  refine ite_keeps h (endCloseRing (notifyArrival (h.updArrival r ?_) r) _)
  exact fun _ => nofun

theorem discardCell (h : OpenRingsSound s) (r : ArrivalId) (id : CellId) : OpenRingsSound (discardCell r id s) :=
  freeCell (h.updArrival r fun hr => hr) id

theorem discardPending (h : OpenRingsSound s) (r : ArrivalId) : OpenRingsSound (discardPending r s) :=
  foldl_keeps_prop OpenRingsSound _ (fun _ _ hb => hb.discardCell _ _) _ _ h

theorem arrivalDecision (h : OpenRingsSound s) : OpenRingsSound (arrivalDecision s) := by
  unfold Machine.arrivalDecision
  refine ite_keeps h ?_
  split
  · unfold beginArrivalWrite
    split
    · exact h
    · exact requestWrite (updArrival (s := State.updAw _ (s.setArrivalPending _ _)) h _ fun hr => hr) _ _ _
  · exact h

theorem coalesceArrival (h : OpenRingsSound s) (r : ArrivalId) : OpenRingsSound (coalesceArrival r s) := by
  refine setCauseIf (h.updArrival r fun hr ho => ?_) _ _
  obtain ⟨hindices, hcoalesce⟩ := hr ho
  exact ⟨hindices, hcoalesce.coalesce _ _ _⟩

theorem advanceArrivalTail (h : OpenRingsSound s) (r : ArrivalId) : OpenRingsSound (advanceArrivalTail r s) := by
  refine h.updArrival r fun hr ho => ?_
  obtain ⟨⟨hsize, hhead, -⟩, hcoalesce⟩ := hr ho
  exact ⟨⟨hsize, hhead, nextIndex_lt _ (sizeValid_pos hsize)⟩, hcoalesce⟩

theorem clearArrivalWrite (h : OpenRingsSound s) (r : ArrivalId) : OpenRingsSound (clearArrivalWrite r s) :=
  updArrival (s := State.updAw _ s) h r fun hr => hr

theorem arrivalFaulted (h : OpenRingsSound s) (w : ArrivalWrite) : OpenRingsSound (arrivalFaulted w s) := by
  unfold Machine.arrivalFaulted
  refine joinPending (notifyArrival (discardPending (discardCell (clearArrivalWrite ?_ _) _ _) _) _) _
  exact h.updArrival _ fun _ => nofun

theorem takeArrivalEnd (h : OpenRingsSound s) (result : WriteEnd) : OpenRingsSound (takeArrivalEnd result s) := by
  unfold Machine.takeArrivalEnd
  split
  · exact h
  · refine arrivalDecision ?_
    cases result with
    | written =>
      simp only [arrivalDelivered]
      exact ((((h.advanceArrivalTail _).clearArrivalWrite _).freeCell _).coalesceArrival _).closeIfDrainedArrival _
    | busError =>
      dsimp only
      split
      · simp only [arrivalLostDraining]
        exact ((h.clearArrivalWrite _).discardCell _ _).closeIfDrainedArrival _
      · exact h.arrivalFaulted _

theorem commitToRing (h : OpenRingsSound s) (r : ArrivalId) (id : CellId) : OpenRingsSound (commitToRing r id s) := by
  unfold Machine.commitToRing
  split
  · exact arrivalDecision (s := s.setArrivalPending _ _) h
  · exact (h.discardCell r id).closeIfDrainedArrival r

theorem dropReceptionCell (h : OpenRingsSound s) (id : CellId) : OpenRingsSound (dropReceptionCell id s) := by
  unfold Machine.dropReceptionCell
  split
  · exact (h.freeCell id).closeIfDrainedArrival _
  · exact h

/-! ## The completion ring (chapter 8) -/

theorem closeIfDrainedSend (h : OpenRingsSound s) (r : SendId) : OpenRingsSound (closeIfDrainedSend r s) := by
  unfold Machine.closeIfDrainedSend
  refine ite_keeps h (endCloseRing (h.updSend r ?_) _)
  exact fun _ => nofun

theorem coalesceCompletion (h : OpenRingsSound s) : OpenRingsSound (coalesceCompletion s) := by
  refine setCauseIf (h.updCompletion fun hr ho => ?_) _ _
  obtain ⟨hindices, hcoalesce⟩ := hr ho
  exact ⟨hindices, hcoalesce.coalesce _ _ _⟩

theorem expireCompletionTimer (h : OpenRingsSound s) : OpenRingsSound (expireCompletionTimer s) := by
  refine setCauseIf (h.updCompletion fun hr ho => ?_) _ _
  obtain ⟨hindices, hcoalesce⟩ := hr ho
  exact ⟨hindices, hcoalesce.zero⟩

theorem completionWritten (h : OpenRingsSound s) (w : CompletionWrite) : OpenRingsSound (completionWritten w s) := by
  have advanced : OpenRingsSound (advanceCompletionTail s) := by
    refine h.updCompletion fun hr ho => ?_
    obtain ⟨⟨hsize, hhead, -⟩, hcoalesce⟩ := hr ho
    exact ⟨⟨hsize, hhead, nextIndex_lt _ (sizeValid_pos hsize)⟩, hcoalesce⟩
  refine coalesceCompletion ?_
  have cleared := advanced.updCw fun c => { c with inFlight := none }
  unfold releaseEntry
  split
  · split
    · exact ((cleared.freeCell _).roomNotice).closeIfDrainedSend _
    · exact cleared
  · exact cleared
  · exact cleared

theorem concludeWithoutOffer (h : OpenRingsSound s) : OpenRingsSound (concludeWithoutOffer s) := by
  have written : OpenRingsSound (completionDecision s) := by
    unfold completionDecision
    split
    · exact h
    · exact ite_keeps h (requestWrite (updCompletion (s := State.updCw _ s) h fun hr => hr) _ _ _)
  have fetching : OpenRingsSound (adminDecision (completionDecision s)) := by
    unfold adminDecision
    refine ite_keeps written ?_
    exact requestRead (updAdmin (s := State.updAe _ (completionDecision s)) written fun hr => hr) _ _
  exact fetching.congr (by simp [Machine.concludeWithoutOffer])

/-! ## The administrative commands (chapter 9) -/

theorem performCommand (h : OpenRingsSound s) (c : AdminCommand) (quiet : Nat) (hr : adminInRange c = true) :
    OpenRingsSound (performCommand c quiet s) := by
  cases c with
  | nodeSet p =>
    simp only [Machine.performCommand, performNodeSet]
    split
    · refine endCommand (ite_keeps ?_ (roomNotice ?_)) _ _ <;> exact h
    · exact h.endCommand _ _
  | lineMode code =>
    simp only [Machine.performCommand, performLineMode]
    split
    · refine h.congr ?_
      simp only [requestMode_frame, awaitEvent_frame]
      split <;> exact ⟨rfl, rfl, rfl, rfl⟩
    · exact h
  | openSend p =>
    simp only [adminInRange, openSendInRange, Bool.and_eq_true] at hr
    obtain ⟨⟨-, hsize⟩, -⟩ := hr
    simp only [Machine.performCommand, performOpenSend]
    split
    · refine endCommand (h.updSend _ fun _ _ => ?_) _ _
      exact ⟨hsize, sizeValid_pos hsize, sizeValid_pos hsize⟩
    · exact h
  | openArrival p =>
    simp only [adminInRange, openArrivalInRange, Bool.and_eq_true, decide_eq_true_eq] at hr
    obtain ⟨⟨-, hsize⟩, hlo, hhi⟩ := hr
    simp only [Machine.performCommand, performOpenArrival]
    split
    · refine endCommand (h.updArrival _ fun _ _ => ?_) _ _
      exact ⟨⟨hsize, sizeValid_pos hsize, sizeValid_pos hsize⟩, hlo, hhi, hlo⟩
    · exact h
  | closeRing ring =>
    simp only [Machine.performCommand, performCloseRing]
    split
    · next r _ =>
      have draining : OpenRingsSound (s.updSend r fun c => { c with state := .draining }) := h.updSend r fun _ => nofun
      exact closeIfDrainedSend (draining.congr (by simp)) r
    · next r _ =>
      have draining : OpenRingsSound (s.updArrival r fun c => { c with state := .draining }) :=
        h.updArrival r fun _ => nofun
      exact closeIfDrainedArrival ((draining.awaitEvent _).discardPending r) r
    · exact h
  | filterWrite index form =>
    simp only [Machine.performCommand, performFilterWrite]
    split
    · exact endCommand (s := s.setEntry _ _) h _ _
    · exact h
  | filterRead index => exact h.endCommand _ _
  | countsRead clear address => exact h

theorem judgeCommand (h : OpenRingsSound s) (c : AdminCommand) (reservedZero : Bool) (quiet : Nat) :
    OpenRingsSound (judgeCommand c reservedZero quiet s) := by
  unfold Machine.judgeCommand
  split
  · exact h.endCommand _ _
  · next hn =>
    have hr : adminInRange c = true := by simpa using fun hf => hn (.inl hf)
    split
    · exact h.endCommand _ _
    · exact h.performCommand c quiet hr

theorem advanceAdminHead (h : OpenRingsSound s) : OpenRingsSound (advanceAdminHead s) := by
  refine h.updAdmin fun hr ho => ?_
  obtain ⟨hsize, -, htail⟩ := hr ho
  exact ⟨hsize, nextIndex_lt _ (sizeValid_pos hsize), htail⟩

theorem takeAdminRecord (h : OpenRingsSound s) (tag : Word) (reading : AdminReading) (quiet : Nat) :
    OpenRingsSound (takeAdminRecord tag reading quiet s) := by
  have advanced := h.advanceAdminHead
  simp only [Machine.takeAdminRecord]
  split
  · exact advanced
  · cases reading with
    | unknown => exact advanced
    | command c reservedZero =>
      refine judgeCommand ?_ c reservedZero quiet
      exact advanced

theorem takeAdminError (h : OpenRingsSound s) : OpenRingsSound (takeAdminError s) := by
  have faulted := h.advanceAdminHead.updAdmin (f := fun r => { r with state := .faulted }) fun _ => nofun
  exact faulted.congr ⟨rfl, rfl, rfl, rfl⟩

theorem takeCountsEnd (h : OpenRingsSound s) (result : WriteEnd) : OpenRingsSound (takeCountsEnd result s) := by
  unfold Machine.takeCountsEnd
  refine ite_keeps h ?_
  cases result with
  | written =>
    refine endCommand ?_ _ _
    split <;> exact h
  | busError => exact endCommand (s := dropSnapshot s) h _ _

/-! ## The boot (R180, R181) and the register writes (R183, R184) -/

/-- A valid boot block's sizes and coalescing count are in range (R180). -/
theorem bootBlockOf_inRange {r : Record} {b : BootBlock} (hb : bootBlockOf r = some b) :
    sizeValid b.arSize = true ∧ sizeValid b.crSize = true ∧ 1 ≤ b.crCount ∧ b.crCount ≤ 64 := by
  unfold bootBlockOf at hb
  split at hb
  · next hv =>
    obtain ⟨-, har, hcr, -, -, hlo, hhi⟩ := hv
    cases hb
    exact ⟨har, hcr, hlo, hhi⟩
  · cases hb

theorem enterRunning (h : OpenRingsSound s) {r : Record} {b : BootBlock} (hb : bootBlockOf r = some b) :
    OpenRingsSound (enterRunning b s) := by
  obtain ⟨har, hcr, hlo, hhi⟩ := bootBlockOf_inRange hb
  refine arrivalDecision (updSch (updCompletion (updAdmin (s := State.updHp _ s) h fun _ _ => ?_) fun _ _ => ?_) _)
  · exact ⟨har, sizeValid_pos har, sizeValid_pos har⟩
  · exact ⟨⟨hcr, sizeValid_pos hcr, sizeValid_pos hcr⟩, hlo, hhi, hlo⟩

theorem offerDecision (h : OpenRingsSound s) : OpenRingsSound (offerDecision s) := h.congr (by simp)

theorem conclude (h : OpenRingsSound s) : OpenRingsSound (conclude s) := h.offerDecision.concludeWithoutOffer

/-- A tail that POST takes lies below the ring's size (R183). -/
theorem postIndexTaken_lt {newTail head tail size : Nat} (h : postIndexTaken newTail head tail size = true) :
    newTail < size := by
  simp only [postIndexTaken, Bool.and_eq_true, decide_eq_true_eq] at h
  exact h.1

/-- A head that RELEASE takes lies below the ring's size (R184). -/
theorem releaseIndexTaken_lt {newHead head tail size : Nat} (h : releaseIndexTaken newHead head tail size = true) :
    newHead < size := by
  simp only [releaseIndexTaken, Bool.and_eq_true, decide_eq_true_eq] at h
  exact h.1

theorem writePost (h : OpenRingsSound s) (value : Word) : OpenRingsSound (writePost value s) := by
  unfold Machine.writePost
  dsimp only
  split
  · split
    · split
      · next taken =>
        refine conclude (h.updAdmin fun hr ho => ?_)
        obtain ⟨hsize, hhead, -⟩ := hr ho
        exact ⟨hsize, hhead, postIndexTaken_lt taken.2⟩
      · exact h
    · split
      · next taken =>
        refine conclude (fetchDecision (h.updSend _ fun hr ho => ?_))
        obtain ⟨hsize, hhead, -⟩ := hr ho
        exact ⟨hsize, hhead, postIndexTaken_lt taken.2⟩
      · exact h
    · exact h
  · exact h

theorem writeRelease (h : OpenRingsSound s) (value : Word) : OpenRingsSound (writeRelease value s) := by
  unfold Machine.writeRelease
  dsimp only
  split
  · split
    · split
      · next taken =>
        refine conclude (arrivalDecision (h.updArrival _ fun hr ho => ?_))
        obtain ⟨⟨hsize, -, htail⟩, hcoalesce⟩ := hr ho
        exact ⟨⟨hsize, releaseIndexTaken_lt taken.2, htail⟩, hcoalesce⟩
      · exact h
    · split
      · next taken =>
        refine conclude (h.updCompletion fun hr ho => ?_)
        obtain ⟨⟨hsize, -, htail⟩, hcoalesce⟩ := hr ho
        exact ⟨⟨hsize, releaseIndexTaken_lt taken.2, htail⟩, hcoalesce⟩
      · exact h
    · exact h
  · exact h

end OpenRingsSound

/-- The OPEN rings stay sound at every event. -/
theorem openRingsSound_keptByEvents : KeptByEvents OpenRingsSound where
  congr h := fun ⟨rct, _, _, _, _⟩ => h.congr (by rw [rct]; exact ⟨rfl, rfl, rfl, rfl⟩)
  reset := by decide
  writePost h := h.writePost
  writeRelease h := h.writeRelease
  enterRunning h _ _ hb := h.enterRunning hb
  takeFetchEnd h := h.takeFetchEnd
  takeAdminRecord h _ := h.takeAdminRecord
  takeAdminError h _ := h.takeAdminError
  takeCountsEnd h := h.takeCountsEnd
  takeArrivalEnd h := h.takeArrivalEnd
  completionWritten h := h.completionWritten
  expireCell h _ _ := h.congr (by simp)
  notifyArrival h := h.notifyArrival
  expireCompletionTimer h := h.expireCompletionTimer
  winReport h _ := h
  settleAttempt h _ _ := h.congr (by simp)
  takeMode h _ := h.congr (by simp)
  grantRx h := h.grantRx
  commitToRing h := h.commitToRing
  dropReceptionCell h := h.dropReceptionCell
  offerDecision h := h.offerDecision
  concludeWithoutOffer h := h.concludeWithoutOffer

end Sys2Proof.Machine
end

section
/-! PROOFS. The admin engine stays sound (R146, R157, R158): a result joins the completion pending list only when a fetch or
a command in progress ends, and that fetch began with room for it. -/

namespace Sys2Proof.Machine

/-! ## The admin results that wait (R158) -/

/-- An entry that joins the completion pending list counts when it is an admin result. -/
theorem adminResultsPending_joinPending (e : CompletionEntry) (s : State) :
    adminResultsPending (joinPending e s) = adminResultsPending s + if e.isAdmin then 1 else 0 := by
  simp only [adminResultsPending, joinPending, State.updCw_fields, List.filter_append, List.length_append]
  cases e <;> rfl

/-- The completion of a cell adds no admin result. -/
@[simp] theorem adminResultsPending_completeCell (id : CellId) (status : SendStatus) (s : State) :
    adminResultsPending (completeCell id status s) = adminResultsPending s := by
  rw [completeCell, adminResultsPending_joinPending]
  simp [CompletionEntry.isAdmin, adminResultsPending]

/-- The departures of marked cells add no admin result. -/
@[simp] theorem adminResultsPending_verdictDepartures (r : SendId) (s : State) :
    adminResultsPending (verdictDepartures r s) = adminResultsPending s := by
  unfold verdictDepartures
  split
  · rfl
  · exact foldl_keeps adminResultsPending _ (fun _ _ => adminResultsPending_completeCell _ _ _) _ _

namespace AdminSound

variable {s t : State}

/-- What the invariant speaks of: the admin results that wait, the phase and the current command. -/
theorem congr (h : AdminSound s)
    (ht : adminResultsPending t ≤ adminResultsPending s ∧ t.ae.phase = s.ae.phase ∧ t.ae.current = s.ae.current) :
    AdminSound t := by
  obtain ⟨hcap, hroom, hcurrent⟩ := h
  obtain ⟨hle, hp, hc⟩ := ht
  exact ⟨hle.trans hcap, fun hi => hle.trans_lt (hroom (hp ▸ hi)), fun hn => hp ▸ hcurrent (hc ▸ hn)⟩

/-- The completion pending list and the admin engine stand as before. -/
theorem congr_eq (h : AdminSound s) (ht : t.cw.pending = s.cw.pending ∧ t.ae = s.ae) : AdminSound t := by
  obtain ⟨hc, ha⟩ := ht
  exact h.congr ⟨by rw [adminResultsPending, adminResultsPending, hc], by rw [ha], by rw [ha]⟩

/-- While a fetch or a command is in progress there is room for its result (R158). -/
theorem results_lt (h : AdminSound s) (hp : s.ae.phase ≠ .idle) : adminResultsPending s < Config.adminResultCap :=
  h.2.1 hp

/-- A command is current in EXECUTING alone (R157). -/
theorem executing_of_current (h : AdminSound s) (hc : s.ae.current ≠ none) : s.ae.phase = .executing := h.2.2 hc

/-- An entry of another kind joins the completion pending list (R146). -/
theorem joinPending_of_not_admin (h : AdminSound s) {e : CompletionEntry} (he : e.isAdmin = false) :
    AdminSound (joinPending e s) :=
  h.congr ⟨by simp [adminResultsPending_joinPending, he], rfl, rfl⟩

/-- The engine goes IDLE with its result, for which there was room (R158, R162). -/
theorem idleAdmin_joinPending (h : AdminSound s) (hp : s.ae.phase ≠ .idle) (e : CompletionEntry) :
    AdminSound (idleAdmin (joinPending e s)) := by
  have hroom := h.results_lt hp
  have hjoin : adminResultsPending (joinPending e s) ≤ Config.adminResultCap := by
    rw [adminResultsPending_joinPending]
    split <;> omega
  exact ⟨hjoin, fun hi => absurd rfl hi, fun hn => absurd rfl hn⟩

theorem idleAdmin (h : AdminSound s) : AdminSound (idleAdmin s) :=
  ⟨h.1, fun hi => absurd rfl hi, fun hn => absurd rfl hn⟩

theorem endCommand (h : AdminSound s) (status : AdminStatus) (area : List Byte) :
    AdminSound (endCommand status area s) := by
  unfold Machine.endCommand
  split
  · exact h
  · next hc =>
    have hp := h.executing_of_current (by rw [hc]; nofun)
    exact h.idleAdmin_joinPending (by rw [hp]; nofun) _

theorem endCloseRing (h : AdminSound s) (area : List Byte) : AdminSound (endCloseRing area s) :=
  ite_keeps h (h.endCommand _ _)

theorem reportMode (h : AdminSound s) : AdminSound (reportMode s) := ite_keeps h (h.endCommand _ _)

/-- A command waits in EXECUTING, which it is in already (R157). -/
theorem awaitEvent (h : AdminSound s) (hp : s.ae.phase = .executing) (a : Awaited) : AdminSound (awaitEvent a s) :=
  h.congr ⟨le_refl _, hp.symm, rfl⟩

/-! ## The scheduler (chapter 3) -/

theorem completeCell (h : AdminSound s) (id : CellId) (status : SendStatus) : AdminSound (completeCell id status s) :=
  h.congr (by simp)

theorem setVerdict (h : AdminSound s) (v : Verdict) (id : CellId) : AdminSound (setVerdict v id s) :=
  h.congr_eq (by simp)

theorem verdictDepartures (h : AdminSound s) (r : SendId) : AdminSound (verdictDepartures r s) :=
  h.congr (by simp)

theorem withdrawOffer (h : AdminSound s) : AdminSound (withdrawOffer s) := by
  unfold Machine.withdrawOffer
  split
  · exact h
  · split
    · exact h
    · split
      · exact verdictDepartures (s := joinHead _ _ (emptySlot s)) h _
      · exact h

theorem settleAttempt (h : AdminSound s) (id : CellId) (o : AttemptOutcome) : AdminSound (settleAttempt id o s) := by
  unfold Machine.settleAttempt
  split
  · dsimp only
    split
    · exact h
    · exact (completeCell (s := s.setCell id _) h id _).verdictDepartures _
  · exact h

theorem expireCell (h : AdminSound s) (id : CellId) (c : TxCell) : AdminSound (expireCell id c s) := by
  unfold Machine.expireCell
  split
  · split
    · exact h.setVerdict _ _
    · exact (completeCell (s := emptySlot s) h id _).verdictDepartures _
  · split
    · exact (h.setVerdict _ _).verdictDepartures _
    · exact h

theorem fetchDecision (h : AdminSound s) : AdminSound (fetchDecision s) := h.congr_eq (by simp)

theorem takeFetchEnd (h : AdminSound s) (result : ReadEnd) : AdminSound (takeFetchEnd result s) := by
  unfold Machine.takeFetchEnd
  split
  · exact h
  · refine fetchDecision (verdictDepartures ?_ _)
    exact h.congr_eq (by simp)

theorem flushRing (h : AdminSound s) (r : SendId) : AdminSound (flushRing r s) := by
  refine verdictDepartures ?_ r
  exact foldl_keeps_prop AdminSound _ (fun _ _ hb => hb.setVerdict _ _) _ _ h

theorem takeMode (h : AdminSound s) (m : LineMode) : AdminSound (takeMode m s) := by
  have applied : AdminSound (applyMode s.le.mode m
      (s.updLe fun l => { l with mode := m, pendingMode := none, errorRun := 0, muted := false })) :=
    h.congr_eq (by simp)
  simp only [Machine.takeMode]
  refine reportMode ?_
  split
  · exact applied.withdrawOffer
  · exact applied

theorem atBoundary (h : AdminSound s) : AdminSound (atBoundary s) := by
  obtain heq | heq | ⟨m, heq⟩ := atBoundary_cases s <;> rw [heq]
  · exact h
  · exact h.congr_eq (by simp)
  · exact h.takeMode m

/-! ## The rings that close (R126, R141) and the arrival writer (chapter 7) -/

theorem closeIfDrainedSend (h : AdminSound s) (r : SendId) : AdminSound (closeIfDrainedSend r s) :=
  ite_keeps h (endCloseRing (s := State.updSend _ _ s) h _)

theorem closeIfDrainedArrival (h : AdminSound s) (r : ArrivalId) : AdminSound (closeIfDrainedArrival r s) :=
  ite_keeps h (endCloseRing (h.congr_eq (by simp)) _)

theorem discardPending (h : AdminSound s) (r : ArrivalId) : AdminSound (discardPending r s) := h.congr_eq (by simp)

theorem arrivalDecision (h : AdminSound s) : AdminSound (arrivalDecision s) := h.congr_eq (by simp)

theorem takeArrivalEnd (h : AdminSound s) (result : WriteEnd) : AdminSound (takeArrivalEnd result s) := by
  unfold Machine.takeArrivalEnd
  split
  · exact h
  · refine arrivalDecision ?_
    cases result with
    | written => exact closeIfDrainedArrival (h.congr_eq (by simp)) _
    | busError =>
      dsimp only
      split
      · exact closeIfDrainedArrival (h.congr_eq (by simp)) _
      · unfold arrivalFaulted
        exact joinPending_of_not_admin (h.congr_eq (by simp)) rfl

theorem commitToRing (h : AdminSound s) (r : ArrivalId) (id : CellId) : AdminSound (commitToRing r id s) := by
  unfold Machine.commitToRing
  split
  · exact h.congr_eq (by simp)
  · exact closeIfDrainedArrival (h.congr_eq (by simp)) r

theorem dropReceptionCell (h : AdminSound s) (id : CellId) : AdminSound (dropReceptionCell id s) := by
  unfold Machine.dropReceptionCell
  split
  · exact closeIfDrainedArrival (h.congr_eq (by simp)) _
  · exact h

/-! ## The completion writer and the decisions of an event (chapter 8, R158) -/

theorem coalesceCompletion (h : AdminSound s) : AdminSound (coalesceCompletion s) := h.congr_eq (by simp)

theorem completionWritten (h : AdminSound s) (w : CompletionWrite) : AdminSound (completionWritten w s) := by
  refine coalesceCompletion ?_
  unfold releaseEntry
  split
  · split
    · exact closeIfDrainedSend (h.congr_eq (by simp)) _
    · exact h
  · exact h
  · exact h

/-- A completion write takes the list's head away. -/
theorem completionDecision (h : AdminSound s) : AdminSound (completionDecision s) := by
  unfold Machine.completionDecision
  split
  · exact h
  · next e rest hq =>
    refine ite_keeps h (h.congr ⟨?_, rfl, rfl⟩)
    rw [adminResultsPending, adminResultsPending, hq]
    exact ((List.sublist_cons_self e rest).filter _).length_le

/-- A fetch begins from IDLE alone, with room for its result (R158). -/
theorem adminDecision (h : AdminSound s) : AdminSound (adminDecision s) := by
  unfold Machine.adminDecision
  split
  · next hf =>
    simp only [adminMayFetch, Bool.and_eq_true, beq_iff_eq, decide_eq_true_eq] at hf
    obtain ⟨⟨⟨⟨⟨hidle, -⟩, -⟩, -⟩, -⟩, hroom⟩ := hf
    refine ⟨h.1, fun _ => hroom, fun hn => ?_⟩
    have hexec := h.executing_of_current hn
    rw [hidle] at hexec
    cases hexec
  · exact h

theorem concludeWithoutOffer (h : AdminSound s) : AdminSound (concludeWithoutOffer s) :=
  h.completionDecision.adminDecision.congr_eq (by simp [Machine.concludeWithoutOffer])

theorem conclude (h : AdminSound s) : AdminSound (conclude s) :=
  concludeWithoutOffer (s := offerDecision s) (h.congr_eq (by simp))

/-! ## The administrative commands (chapter 9) -/

theorem performCommand (h : AdminSound s) (hp : s.ae.phase = .executing) (c : AdminCommand) (quiet : Nat) :
    AdminSound (performCommand c quiet s) := by
  cases c with
  | nodeSet p =>
    simp only [Machine.performCommand, performNodeSet]
    split
    · refine endCommand ?_ _ _
      split
      · exact h.congr (by simp [adminResultsPending])
      · exact h
    · exact h.endCommand _ _
  | lineMode code =>
    simp only [Machine.performCommand, performLineMode]
    split
    · refine atBoundary (congr_eq (s := Machine.awaitEvent .modeReport s) (h.awaitEvent hp _) ?_)
      split <;> exact ⟨rfl, rfl⟩
    · exact h
  | openSend p =>
    simp only [Machine.performCommand, performOpenSend]
    split
    · exact endCommand (s := State.updSend _ _ s) h _ _
    · exact h
  | openArrival p =>
    simp only [Machine.performCommand, performOpenArrival]
    split
    · exact endCommand (s := State.updArrival _ _ s) h _ _
    · exact h
  | closeRing ring =>
    simp only [Machine.performCommand, performCloseRing]
    split
    · exact closeIfDrainedSend (flushRing (awaitEvent (s := State.updSend _ _ s) h hp _) _) _
    · exact closeIfDrainedArrival (discardPending (awaitEvent (s := State.updArrival _ _ s) h hp _) _) _
    · exact h
  | filterWrite index form =>
    simp only [Machine.performCommand, performFilterWrite]
    split
    · exact endCommand (s := s.setEntry _ _) h _ _
    · exact h
  | filterRead index => exact h.endCommand _ _
  | countsRead clear address => exact awaitEvent (s := s.updLe _) h hp _

theorem judgeCommand (h : AdminSound s) (hp : s.ae.phase = .executing) (c : AdminCommand) (reservedZero : Bool)
    (quiet : Nat) : AdminSound (judgeCommand c reservedZero quiet s) := by
  unfold Machine.judgeCommand
  split
  · exact h.endCommand _ _
  · split
    · exact h.endCommand _ _
    · exact h.performCommand hp c quiet

theorem takeAdminRecord (h : AdminSound s) (hf : s.ae.phase = .fetching) (tag : Word) (reading : AdminReading)
    (quiet : Nat) : AdminSound (takeAdminRecord tag reading quiet s) := by
  have hp : s.ae.phase ≠ .idle := by rw [hf]; nofun
  have advanced : AdminSound (advanceAdminHead s) := h
  simp only [Machine.takeAdminRecord]
  split
  · exact advanced.idleAdmin
  · cases reading with
    | unknown => exact advanced.idleAdmin_joinPending hp _
    | command c reservedZero =>
      refine judgeCommand ?_ ?_ c reservedZero quiet
      · exact ⟨advanced.1, fun _ => advanced.results_lt hp, fun _ => rfl⟩
      · rfl

theorem takeAdminError (h : AdminSound s) (hf : s.ae.phase = .fetching) : AdminSound (takeAdminError s) :=
  idleAdmin_joinPending (s := State.updAdmin _ (advanceAdminHead s)) h
    (show s.ae.phase ≠ .idle by rw [hf]; nofun) _

theorem takeCountsEnd (h : AdminSound s) (result : WriteEnd) : AdminSound (takeCountsEnd result s) := by
  unfold Machine.takeCountsEnd
  refine ite_keeps h ?_
  cases result with
  | written =>
    refine endCommand ?_ _ _
    split <;> exact h
  | busError => exact endCommand (s := dropSnapshot s) h _ _

theorem writePost (h : AdminSound s) (value : Word) : AdminSound (writePost value s) := by
  obtain heq | heq | ⟨n, heq⟩ := writePost_cases value s <;> rw [heq]
  · exact h
  · exact conclude (s := State.updAdmin _ s) h
  · exact conclude (h.congr_eq (by simp))

theorem writeRelease (h : AdminSound s) (value : Word) : AdminSound (writeRelease value s) := by
  obtain heq | heq | ⟨n, heq⟩ := writeRelease_cases value s <;> rw [heq]
  · exact h
  · exact conclude (s := State.updCompletion _ s) h
  · exact conclude (h.congr_eq (by simp))

end AdminSound

/-- The admin engine stays sound at every event. -/
theorem adminSound_keptByEvents : KeptByEvents AdminSound where
  congr h := fun ⟨_, _, _, cw, ae⟩ => h.congr_eq ⟨by rw [cw], ae⟩
  reset := by decide
  writePost h := h.writePost
  writeRelease h := h.writeRelease
  enterRunning h _ _ _ := h.congr_eq (by simp [enterRunning])
  takeFetchEnd h := h.takeFetchEnd
  takeAdminRecord h hf := h.takeAdminRecord hf
  takeAdminError h hf := h.takeAdminError hf
  takeCountsEnd h := h.takeCountsEnd
  takeArrivalEnd h := h.takeArrivalEnd
  completionWritten h := h.completionWritten
  expireCell h := h.expireCell
  notifyArrival h _ := h.congr_eq (by simp)
  expireCompletionTimer h := h.congr_eq (by simp)
  winReport h _ := h
  settleAttempt h := h.settleAttempt
  takeMode h := h.takeMode
  grantRx h _ _ := h
  commitToRing h := h.commitToRing
  dropReceptionCell h := h.dropReceptionCell
  offerDecision h := h.congr_eq (by simp)
  concludeWithoutOffer h := h.concludeWithoutOffer

end Sys2Proof.Machine

namespace Sys2Proof.Proofs

open Sys2Proof.Machine

/-- Settles O59: each of the three invariants is inductive by itself, and each is kept by the operation of every event. -/
theorem ringsAndAdminStaySound : Obligations.RingsAndAdminStaySound :=
  ⟨fun _ _ => passedOverSound_keptByEvents.step, fun _ _ => openRingsSound_keptByEvents.step,
    fun _ _ => adminSound_keptByEvents.step⟩

end Sys2Proof.Proofs
end

section
/-! PROOFS. The scheduler's offer decision (R44 to R46): which class it takes, and what the offer changes. -/

namespace Sys2Proof.Machine

/-- The first element of an ascending list with a property is the least one that has it. -/
theorem find?_eq_some_of_least {α : Type} [LinearOrder α] {l : List α} (hl : l.Pairwise (· < ·)) {p : α → Bool} {a : α}
    (ha : a ∈ l) (hp : p a = true) (hleast : ∀ b ∈ l, b < a → p b = false) : l.find? p = some a := by
  induction l with
  | nil => cases ha
  | cons b l ih =>
    obtain ⟨hb, hl⟩ := List.pairwise_cons.mp hl
    rcases List.mem_cons.mp ha with rfl | hal
    · rw [List.find?_cons_of_pos hp]
    · rw [List.find?_cons_of_neg (by simp [hleast b List.mem_cons_self (hb a hal)])]
      exact ih hl hal fun d hd => hleast d (List.mem_cons_of_mem b hd)

/-- A class from 1 to 3 has been passed over as often as YIELD allows, and waits (R46). -/
def yieldDue (s : State) (c : ClassId) : Bool :=
  s.ae.yieldValue != 0 && s.classList c != [] && s.ae.yieldValue ≤ s.sch.passed.get c

/-- The decision takes the first class that is due by YIELD, or the first class that waits (R46). -/
theorem chooseClass_eq (s : State) :
    chooseClass s =
      match ([1, 2, 3] : List ClassId).find? (yieldDue s) with
      | some c => some c
      | none => ([0, 1, 2, 3] : List ClassId).find? (fun c => s.classList c != []) := rfl

/-- No class is taken when no class waits. -/
theorem chooseClass_of_empty {s : State} (h : ∀ c, s.classList c = []) : chooseClass s = none := by
  simp [chooseClass_eq, yieldDue, h]

/-- The most urgent class that is due by YIELD is taken before any other (R46). -/
theorem chooseClass_of_yieldDue {s : State} {c : ClassId} (hc : c ≠ 0) (hdue : yieldDue s c = true)
    (hleast : ∀ d, d ≠ 0 → d < c → yieldDue s d = false) : chooseClass s = some c := by
  have hmem : ∀ d : ClassId, d ∈ ([1, 2, 3] : List ClassId) ↔ d ≠ 0 := by decide
  rw [chooseClass_eq, find?_eq_some_of_least (by decide) ((hmem c).mpr hc) hdue fun d hd => hleast d ((hmem d).mp hd)]

/-- With no class due by YIELD the most urgent class that waits is taken (R46). -/
theorem chooseClass_of_urgent {s : State} {c : ClassId} (hnone : ∀ d, d ≠ 0 → yieldDue s d = false)
    (hc : s.classList c ≠ []) (hleast : ∀ d < c, s.classList d = []) : chooseClass s = some c := by
  have hmem : ∀ d ∈ ([1, 2, 3] : List ClassId), d ≠ 0 := by decide
  have hall : ∀ d : ClassId, d ∈ ([0, 1, 2, 3] : List ClassId) := by decide
  have hfind : ([1, 2, 3] : List ClassId).find? (yieldDue s) = none :=
    List.find?_eq_none.mpr fun d hd => by simp [hnone d (hmem d hd)]
  rw [chooseClass_eq, hfind]
  exact find?_eq_some_of_least (by decide) (hall c) (by simpa using hc) fun d _ hd => by simp [hleast d hd]

/-- The line engine is ready for an offer in IDLE, in ONLINE and not muted or in LOOPBACK (R45). -/
theorem lineReady_iff (s : State) :
    lineReady s = true ↔
      s.le.phase = .idle ∧ (s.le.mode = .online ∧ s.le.muted = false ∨ s.le.mode = .loopback) := by
  simp [lineReady]

/-- The offer of a class's head (R46): it leaves its list for the slot, and a list that becomes empty returns its count
to 0 (R43). -/
theorem offerHead_of_cons {s : State} {c : ClassId} {id : CellId} {rest : List CellId}
    (h : s.classList c = id :: rest) :
    offerHead c s =
      { s with
        le := { s.le with slot := some id },
        sch := { s.sch with
          lists := s.sch.lists.set c.val rest,
          passed := if rest = [] then s.sch.passed.put 0 c else s.sch.passed, sofReported := false } } := by
  have hne : s.sch.lists[c.val] ≠ [] := by
    rw [show s.sch.lists[c.val] = id :: rest from h]
    nofun
  unfold offerHead
  rw [h]
  simp only [setClassList, State.updLe, State.updSch, hne, ne_eq, not_false_eq_true, and_true]

/-- With the engine running, the slot empty and the line engine ready, the chosen class offers its head (R45). -/
theorem offerDecision_of_ready {s : State} (hrun : s.hp.engine = .running) (hslot : s.le.slot = none)
    (hready : lineReady s = true) {c : ClassId} (hc : chooseClass s = some c) : offerDecision s = offerHead c s := by
  rw [offerDecision, if_pos ⟨hrun, hslot, hready⟩, hc]

end Sys2Proof.Machine

namespace Sys2Proof.Proofs

open Sys2Proof.Machine

/-- Settles O35: the class taken is the least one due by YIELD, or the least one that waits. -/
theorem offerDecision : Obligations.OfferDecision := by
  constructor
  · intro s h
    unfold Machine.offerDecision
    split
    · next hready =>
      obtain ⟨hrun, hslot, hline⟩ := hready
      obtain ⟨hidle, hmode⟩ := (lineReady_iff s).mp hline
      rcases h with h | h | h | h | h
      · exact absurd hrun h
      · exact absurd hslot h
      · exact absurd hidle h
      · exact absurd hmode h
      · rw [chooseClass_of_empty h]
    · rfl
  · intro c id rest s hrun hslot hidle hmode hlist hchoice
    have hready : lineReady s = true := (lineReady_iff s).mpr ⟨hidle, hmode⟩
    have hwaits : s.classList c ≠ [] := by
      rw [hlist]
      nofun
    rw [← offerHead_of_cons hlist]
    refine offerDecision_of_ready hrun hslot hready ?_
    have hdue : ∀ d, yieldDue s d = false ↔
        s.ae.yieldValue = 0 ∨ (s.classList d ≠ [] → s.sch.passed.get d < s.ae.yieldValue) := fun d => by
      simp [yieldDue, or_iff_not_imp_left]
    rcases hchoice with ⟨hpos, hc, hreached, hleast⟩ | ⟨hnone, hleast⟩
    · refine chooseClass_of_yieldDue hc ?_ fun d hd hlt => (hdue d).mpr (.inr (hleast d hd hlt))
      have hyield : s.ae.yieldValue ≠ 0#4 := fun h0 => by simp [h0] at hpos
      simp [yieldDue, hyield, hwaits, hreached]
    · refine chooseClass_of_urgent (fun d hd => (hdue d).mpr ?_) hwaits hleast
      exact hnone.imp_right fun h => h d hd

end Sys2Proof.Proofs
end

section
/-! PROOFS. What a settled attempt and an expired deadline do to the state: one equation for each operation of the scheduler
on a transmit cell (R40, R41, R54, R58). -/

namespace Sys2Proof.Machine

/-! ## Saturating counts -/

/-- A saturating count stays at its greatest value, and rises by 1 below it. -/
theorem satInc_eq {w : Nat} {x top : BitVec w} (htop : top = BitVec.allOnes w) :
    satInc x = if x = top then top else x + 1 := by
  subst htop
  unfold satInc
  split
  · assumption
  · rfl

theorem satInc_four (x : BitVec 4) : satInc x = if x = 15 then 15 else x + 1 := satInc_eq rfl

theorem satInc_eight (x : BitVec 8) : satInc x = if x = 255 then 255 else x + 1 := satInc_eq rfl

/-- A count below another one rises by 1. -/
theorem satInc_of_lt {w : Nat} {x y : BitVec w} (h : x < y) : satInc x = x + 1 := by
  refine if_neg fun hx => ?_
  subst hx
  rw [BitVec.lt_def, BitVec.toNat_allOnes] at h
  omega

/-! ## One transmit cell -/

section
variable {s : State} {id : CellId} {c : TxCell}

/-- A transmit cell's update writes the cell changed. -/
theorem updTx_of_tx (h : s.cell id = .tx c) (f : TxCell → TxCell) : s.updTx id f = s.setCell id (.tx (f c)) := by
  rw [State.updTx, h]

/-- A settled transmit cell joins the completion pending list, disarmed (R28, R58). -/
theorem completeCell_of_tx (h : s.cell id = .tx c) (status : SendStatus) :
    completeCell id status s =
      { s with
        cp := { s.cp with cells := s.cp.cells.set id.val (.tx { c with deadline := none }) },
        cw := { s.cw with pending := s.cw.pending ++ [.cell id status] } } := by
  rw [completeCell, updTx_of_tx h]
  rfl

/-- A verdict set on a transmit cell (R41). -/
theorem setVerdict_of_tx (h : s.cell id = .tx c) (v : Verdict) :
    setVerdict v id s =
      { s with
        cp := { s.cp with cells := s.cp.cells.set id.val (.tx { c with verdict := markVerdict c.verdict v }) } } :=
  updTx_of_tx h _

end

/-- A cell put back at the head of its class list; the list is not empty, so its count stays (R43, R54). -/
theorem joinHead_eq (c : ClassId) (id : CellId) (s : State) :
    joinHead c id s = { s with sch := { s.sch with lists := s.sch.lists.set c.val (id :: s.classList c) } } := by
  simp [joinHead, setClassList, State.updSch]

/-- A LOST raises the lost count alone (R50). -/
theorem countOutcome_lost (c : TxCell) :
    countOutcome c .lost = { c with lostCount := if c.lostCount = 255 then 255 else c.lostCount + 1 } := by
  rw [countOutcome, satInc_eight]

/-- A line error raises attempts used, sets last failure, and is a failure with its own reason (R51). -/
theorem countOutcome_lineError (c : TxCell) {o : AttemptOutcome} {reason : Failure}
    (h : o = .bitError ∧ reason = .bitError ∨ o = .formatError ∧ reason = .formatError
      ∨ o = .lineFault ∧ reason = .lineFault) :
    countOutcome c o = { c with attemptsUsed := satInc c.attemptsUsed, lastFailure := reason }
      ∧ attemptResult c o = .failure reason := by
  obtain ⟨rfl, rfl⟩ | ⟨rfl, rfl⟩ | ⟨rfl, rfl⟩ := h <;> exact ⟨rfl, rfl⟩

/-! ## The settlement of an attempt (R49, R54, R55) -/

/-- A retried cell keeps its outcome's counts and goes back to the head of its class list (R54). -/
theorem settleAttempt_of_retry {s : State} {id : CellId} {c : TxCell} {o : AttemptOutcome} (h : s.cell id = .tx c)
    (hr : settlement (countOutcome c o) (attemptResult c o) = .retry) :
    settleAttempt id o s =
      { s with
        cp := { s.cp with cells := s.cp.cells.set id.val (.tx (countOutcome c o)) },
        sch := { s.sch with lists := s.sch.lists.set c.cls.val (id :: s.classList c.cls) } } := by
  unfold settleAttempt
  simp only [h, hr, joinHead_eq]
  rfl

/-- A completing cell keeps its outcome's counts and joins the completion pending list disarmed; marked cells of its ring
may follow (R40, R54, R55). -/
theorem settleAttempt_of_complete {s : State} {id : CellId} {c : TxCell} {o : AttemptOutcome} {status : SendStatus}
    (h : s.cell id = .tx c) (hr : settlement (countOutcome c o) (attemptResult c o) = .complete status) :
    settleAttempt id o s = verdictDepartures c.ring
      { s with
        cp := { s.cp with cells := s.cp.cells.set id.val (.tx { countOutcome c o with deadline := none }) },
        cw := { s.cw with pending := s.cw.pending ++ [.cell id status] } } := by
  have hcell : (s.setCell id (.tx (countOutcome c o))).cell id = .tx (countOutcome c o) := by
    rw [State.cell_setCell, if_pos rfl]
  unfold settleAttempt
  simp only [h, hr, completeCell_of_tx hcell, State.setCell_fields, Vector.set_set]

/-- A cell without a verdict is retried below its budget (R54). -/
theorem settlement_failure_of_unmarked {c : TxCell} {reason : Failure} (h : c.verdict = none) :
    settlement c (.failure reason) = if c.attemptsUsed < c.budget then .retry else .complete .exhausted := by
  simp only [settlement, h]

/-- A marked cell's failure completes it by its verdict (R55). -/
theorem settlement_failure_of_marked {c : TxCell} {reason : Failure} {v : Verdict} (h : c.verdict = some v) :
    settlement c (.failure reason) = .complete (verdictSettlement v (!decide (c.attemptsUsed < c.budget))) := by
  simp only [settlement, h]

/-- A LOST completes a marked cell by its verdict (R55). -/
theorem settlement_lost_of_marked {c : TxCell} {v : Verdict} (h : c.verdict = some v) :
    settlement c .lost = .complete (verdictSettlement v false) := by
  simp only [settlement, h]

end Sys2Proof.Machine

namespace Sys2Proof.Proofs

open Sys2Proof.Machine

/-- Settles O36: an outcome changes its own counts alone, and a retry the head of one class list. -/
theorem lostAndErrorOutcomes : Obligations.LostAndErrorOutcomes := by
  refine ⟨fun c => ⟨countOutcome_lost c, rfl⟩, fun c o reason ho => ?counts, fun id c s hc hv => ?lost,
    fun id c o reason s hc hv hnext hnow ho => ?error⟩
  case counts =>
    rw [← satInc_four]
    exact countOutcome_lineError c ho
  case lost =>
    rw [settleAttempt_of_retry hc (by simp [attemptResult, settlement, countOutcome, hv]), countOutcome_lost]
  case error =>
    obtain ⟨hcount, hresult⟩ := countOutcome_lineError c ho
    rw [satInc_of_lt hnow] at hcount
    rw [settleAttempt_of_retry hc, hcount]
    rw [hcount, hresult, settlement_failure_of_unmarked (by exact hv)]
    exact if_pos hnext

/-- Settles O38: the table of R55 row by row, and the completing cell's event. -/
theorem attemptSettlement : Obligations.AttemptSettlement := by
  refine ⟨fun c status => rfl, fun c reason hv => ?unmarked, fun c reason hv => ?expired, fun c reason hv => ?flush,
    fun id c o status s hc hr => settleAttempt_of_complete hc hr⟩
  case unmarked =>
    rw [settlement_failure_of_unmarked hv]
    exact ⟨fun hlt => if_pos hlt, fun hle => if_neg (BitVec.not_lt.mpr hle)⟩
  case expired =>
    rw [settlement_failure_of_marked hv, settlement_lost_of_marked hv]
    refine ⟨rfl, fun hlt => ?_, fun hle => ?_⟩
    · rw [decide_eq_true hlt]
      rfl
    · rw [decide_eq_false (BitVec.not_lt.mpr hle)]
      rfl
  case flush =>
    rw [settlement_failure_of_marked hv, settlement_lost_of_marked hv]
    exact ⟨rfl, rfl⟩

end Sys2Proof.Proofs
end

section
/-! PROOFS. SENT_CLEAN at the scheduler: the response list, and the judgement of SINGLE and ROLL frames (R52, R53, R56). -/

namespace Sys2Proof.Machine

/-! ## The response list (R56) -/

/-- The entry of slot `k` in the response list: none where the slot reads ABSENT or is not in the window (R56). -/
def responseEntry (slots : List SlotClass) (k : Slot) : Option ResponseEntry :=
  match slots[k.val]? with
  | some (.read reading value) => some { slot := k, reading := reading, value := value }
  | _ => none

/-- The response list from slot `n` on holds the entries of the slots from `n` on. -/
theorem responseListFrom_eq (before slots : List SlotClass) (h : (before ++ slots).length ≤ 8) :
    responseListFrom before.length slots =
      ((List.finRange 8).drop before.length).filterMap (responseEntry (before ++ slots)) := by
  induction slots generalizing before with
  | nil =>
    refine (List.filterMap_eq_nil_iff.mpr fun k hk => ?_).symm
    obtain ⟨i, hi, rfl⟩ := List.mem_drop_iff_getElem.mp hk
    simp [responseEntry]
  | cons c slots ih =>
    have hlen : before.length < 8 := by
      simp only [List.length_append, List.length_cons] at h
      omega
    have ih := ih (before ++ [c]) (by simpa using h)
    rw [List.append_assoc, List.singleton_append, List.length_append, List.length_singleton] at ih
    rw [List.drop_eq_getElem_cons (by simpa using hlen), List.filterMap_cons, ← ih]
    have hk : (List.finRange 8)[before.length]'(by simpa using hlen) = Fin.ofNat 8 before.length :=
      Fin.ext (by simp [Nat.mod_eq_of_lt hlen])
    have hread : (before ++ c :: slots)[(Fin.ofNat 8 before.length).val]? = some c := by
      simp [Nat.mod_eq_of_lt hlen]
    rw [hk]
    cases c <;> simp only [responseEntry, hread] <;> rfl

/-! ## The slots of a window (R52, R53) -/

/-- A slot reads as named when its place in the window holds that reading. -/
theorem reads_slotAt_iff (reading : SlotReading) (slots : List SlotClass) (k : Nat) :
    (slotAt slots k).reads reading = true ↔ ∃ v, slots[k]? = some (.read reading v) := by
  unfold slotAt
  rw [List.getD_eq_getElem?_getD]
  cases slots[k]? with
  | none => simp [SlotClass.reads]
  | some c => cases c <;> simp [SlotClass.reads]

/-- The slots of an expect mask are the window's slots whose bit is set (R53). -/
theorem mem_maskSlots_iff (mask : BitVec 8) (k : Nat) : k ∈ maskSlots mask ↔ k < 8 ∧ mask.getLsbD k = true := by
  simp [maskSlots]

/-- A REJECT in a slot of the mask rejects the frame (R53). -/
theorem judgeRoll_of_reject {mask : BitVec 8} {slots : List SlotClass} (hmask : mask ≠ 0)
    (h : ∃ k < 8, mask.getLsbD k = true ∧ ∃ v, slots[k]? = some (.read .reject v)) :
    judgeRoll mask slots = .final .rejected := by
  obtain ⟨k, hk, hbit, hread⟩ := h
  have hany : (maskSlots mask).any (fun k => (slotAt slots k).reads .reject) = true :=
    List.any_eq_true.mpr ⟨k, (mem_maskSlots_iff mask k).mpr ⟨hk, hbit⟩, (reads_slotAt_iff _ _ _).mpr hread⟩
  rw [judgeRoll, if_neg hmask, if_pos hany]

/-- Without a REJECT in the mask's slots the frame is OK when all of them read ACK, and MISSING otherwise (R53). -/
theorem judgeRoll_of_no_reject {mask : BitVec 8} {slots : List SlotClass} (hmask : mask ≠ 0)
    (h : ∀ k < 8, mask.getLsbD k = true → ∀ v, slots[k]? ≠ some (.read .reject v)) :
    ((∀ k < 8, mask.getLsbD k = true → ∃ v, slots[k]? = some (.read .ack v)) → judgeRoll mask slots = .final .ok)
      ∧ ((∃ k < 8, mask.getLsbD k = true ∧ ∀ v, slots[k]? ≠ some (.read .ack v)) →
        judgeRoll mask slots = .failure .missing) := by
  have hany : ¬ (maskSlots mask).any (fun k => (slotAt slots k).reads .reject) = true := by
    simp only [List.any_eq_true, mem_maskSlots_iff, reads_slotAt_iff]
    rintro ⟨k, ⟨hk, hbit⟩, v, hread⟩
    exact h k hk hbit v hread
  have hall : (maskSlots mask).all (fun k => (slotAt slots k).reads .ack) = true ↔
      ∀ k < 8, mask.getLsbD k = true → ∃ v, slots[k]? = some (.read .ack v) := by
    simp only [List.all_eq_true, mem_maskSlots_iff, reads_slotAt_iff, and_imp]
  rw [judgeRoll, if_neg hmask, if_neg hany]
  refine ⟨fun hack => if_pos (hall.mpr hack), fun ⟨k, hk, hbit, hread⟩ => if_neg fun hack => ?_⟩
  obtain ⟨v, hv⟩ := hall.mp hack k hk hbit
  exact hread v hv

section
variable {c : TxCell} {slots : List SlotClass}

/-- A NONE frame sent clean is OK (R52). -/
theorem attemptResult_noWindow (h : c.mode = .noWindow) : attemptResult c (.sentClean slots) = .final .ok := by
  simp only [attemptResult, judgeClean, h]

/-- A SINGLE frame sent clean is judged by slot 0 (R52). -/
theorem attemptResult_single (h : c.mode = .single) :
    attemptResult c (.sentClean slots) = judgeSingle (slotAt slots 0) := by
  simp only [attemptResult, judgeClean, h]

/-- A ROLL frame sent clean is judged against its expect mask (R53). -/
theorem attemptResult_roll (h : c.mode = .roll) : attemptResult c (.sentClean slots) = judgeRoll c.expect slots := by
  simp only [attemptResult, judgeClean, h]

end

/-- The counts, the last failure and the response list after SENT_CLEAN (R52, R53, R56). -/
theorem countOutcome_sentClean (c : TxCell) {slots : List SlotClass} (h : slots.length ≤ 8) :
    countOutcome c (.sentClean slots) =
      { c with
        attemptsUsed := if c.attemptsUsed = 15 then 15 else c.attemptsUsed + 1,
        lastFailure := failureAfter c.lastFailure (attemptResult c (.sentClean slots)),
        responses := (List.finRange 8).filterMap (responseEntry slots) } := by
  rw [countOutcome, satInc_four, show responseListFrom 0 slots = _ from responseListFrom_eq [] slots h]
  rfl

end Sys2Proof.Machine

namespace Sys2Proof.Proofs

open Sys2Proof.Machine

/-- Settles O37: the response list holds the entries of the window's slots in their order, and a ROLL frame is judged by
the slots of its mask. -/
theorem sentCleanOutcome : Obligations.SentCleanOutcome := by
  refine ⟨fun c slots hl => ?counts, fun c slots hm => attemptResult_noWindow hm, fun c v hm => ?single,
    fun c slots hm _ => ?roll⟩
  case counts =>
    rw [countOutcome_sentClean c hl]
    rfl
  case single =>
    simp only [attemptResult_single hm]
    exact ⟨rfl, rfl, rfl, rfl, rfl⟩
  case roll =>
    rw [attemptResult_roll hm]
    refine ⟨fun hmask => if_pos hmask, fun hmask => ⟨judgeRoll_of_reject hmask, fun hack => ?_, fun hreject => ?_⟩⟩
    · refine (judgeRoll_of_no_reject hmask fun k hk hbit v hread => ?_).1 hack
      obtain ⟨w, hw⟩ := hack k hk hbit
      rw [hread] at hw
      cases hw
    · exact (judgeRoll_of_no_reject hmask hreject).2

end Sys2Proof.Proofs
end

section
/-! PROOFS. The tick, and the expiry of a deadline by the place of its cell (R57 to R59). -/

namespace Sys2Proof.Machine

/-! ## Marks (R41) -/

/-- EXPIRED is taken by an unmarked cell alone (R41). -/
theorem markVerdict_expired (held : Option Verdict) :
    markVerdict held .expired = if held = none then some .expired else held := by
  cases held with
  | none => rfl
  | some v => cases v <;> rfl

/-- FLUSH is taken by an unmarked cell, and over INVALID (R41). -/
theorem markVerdict_flush (held : Option Verdict) :
    markVerdict held .flush = if held = none ∨ held = some .invalid then some .flush else held := by
  cases held with
  | none => rfl
  | some v => cases v <;> rfl

/-! ## An expiry (R59) -/

section
variable {s : State} {id : CellId} {c : TxCell}

/-- A deadline that a running tick has reached expires its cell, and the event concludes (R58, R59). -/
theorem exec_deadlineExpiry (hc : s.cell id = .tx c) (hrun : s.sch.tickRunning = true)
    (hd : c.deadline = some s.sch.tick) : exec (.deadlineExpiry id) s = .next (conclude (expireCell id c s)) := by
  change Host.Outcome.next (expireDeadline id s) = _
  unfold expireDeadline
  simp only [hc]
  rw [if_pos ⟨hrun, hd⟩]

/-- A cell in the offer slot before its SOF is withdrawn and completes, EXPIRED or by the verdict it holds (R59). -/
theorem expireCell_before_sof (hc : s.cell id = .tx c) (hslot : s.le.slot = some id) (hsof : s.sch.sofReported = false) :
    expireCell id c s = verdictDepartures c.ring
      { s with
        le := { s.le with slot := none },
        cp := { s.cp with cells := s.cp.cells.set id.val (.tx { c with deadline := none }) },
        cw := { s.cw with
          pending := s.cw.pending ++
            [.cell id (match c.verdict with | some v => v.status | none => .expired)] } } := by
  have hempty : (emptySlot s).cell id = .tx c := hc
  rw [expireCell, if_pos hslot, hsof, if_neg (by decide), completeCell_of_tx hempty]
  rfl

/-- A cell in the offer slot after its SOF takes the mark (R59). -/
theorem expireCell_after_sof (hc : s.cell id = .tx c) (hslot : s.le.slot = some id) (hsof : s.sch.sofReported = true) :
    expireCell id c s =
      { s with
        cp := { s.cp with
          cells := s.cp.cells.set id.val (.tx
            { c with verdict := if c.verdict = none then some .expired else c.verdict }) } } := by
  rw [expireCell, if_pos hslot, if_pos hsof, setVerdict_of_tx hc, markVerdict_expired]

/-- An unmarked cell in its class list takes the mark, and leaves when it is ring-oldest (R59, R40). -/
theorem expireCell_queued (hc : s.cell id = .tx c) (hslot : s.le.slot ≠ some id) (hq : id ∈ s.classList c.cls)
    (hv : c.verdict = none) :
    expireCell id c s = verdictDepartures c.ring
      { s with
        cp := { s.cp with cells := s.cp.cells.set id.val (.tx { c with verdict := some .expired }) } } := by
  rw [expireCell, if_neg hslot, if_pos ⟨List.contains_iff_mem.mpr hq, hv⟩, setVerdict_of_tx hc, hv]
  rfl

/-- A cell elsewhere, or a marked one, is left as it is (R59). -/
theorem expireCell_elsewhere (hslot : s.le.slot ≠ some id) (h : id ∉ s.classList c.cls ∨ c.verdict ≠ none) :
    expireCell id c s = s := by
  rw [expireCell, if_neg hslot, if_neg]
  rintro ⟨hq, hv⟩
  exact h.elim (· (List.contains_iff_mem.mp hq)) (· hv)

end

end Sys2Proof.Machine

namespace Sys2Proof.Proofs

open Sys2Proof.Machine

/-- Settles O34: a due expiry is `expireCell` and the event's end, and `expireCell` goes by the place of the cell. -/
theorem tickAndDeadlines : Obligations.TickAndDeadlines := by
  refine ⟨fun s => ⟨fun hrun => ?running, fun hstop => ?stopped⟩, fun id c s hc hrun hd => ?_⟩
  case running => exact congrArg Host.Outcome.next (if_pos hrun)
  case stopped => exact congrArg Host.Outcome.next (if_neg (by simp [hstop]))
  rw [exec_deadlineExpiry hc hrun hd]
  refine ⟨fun hslot hsof => ?_, fun hslot hsof => ?_, fun hslot hq hv => ?_, fun hslot h => ?_⟩
  · rw [expireCell_before_sof hc hslot hsof]
    cases c.verdict with
    | none => rfl
    | some v => cases v <;> rfl
  · rw [expireCell_after_sof hc hslot hsof]
  · rw [expireCell_queued hc hslot hq hv]
  · rw [expireCell_elsewhere hslot h]

end Sys2Proof.Proofs
end

section
/-! PROOFS. The departures of ring-oldest marked cells, and the flush of a send ring (R40, R41, R61). -/

namespace Sys2Proof.Machine

/-! ## Whose a cell is, and its verdict -/

section
variable {s : State} {id : CellId} {c : TxCell}

/-- A transmit cell is its own ring's. -/
theorem isOfRing_of_tx (h : s.cell id = .tx c) (r : SendId) : isOfRing s r id = true ↔ c.ring = r := by
  simp [isOfRing, h]

/-- A cell is a ring's when it is a transmit cell of the ring. -/
theorem isOfRing_iff (s : State) (r : SendId) (id : CellId) :
    isOfRing s r id = true ↔ ∃ c, s.cell id = .tx c ∧ c.ring = r := by
  cases h : s.cell id <;> simp [isOfRing, h]

/-- The offer slot holds a cell of the ring. -/
theorem offeredOfRing_iff (s : State) (r : SendId) :
    offeredOfRing s r = true ↔ ∃ k, s.le.slot = some k ∧ isOfRing s r k = true := by
  cases h : s.le.slot <;> simp [offeredOfRing, h]

/-- A transmit cell's verdict. -/
theorem verdictOf_of_tx (h : s.cell id = .tx c) : verdictOf s id = c.verdict := by
  rw [verdictOf, h]

/-- No other cell has a verdict. -/
theorem verdictOf_of_not_tx (h : ∀ c, s.cell id ≠ .tx c) : verdictOf s id = none := by
  unfold verdictOf
  split
  · next c hc => exact absurd hc (h c)
  · rfl

end

/-! ## The split of a class list (R40) -/

section
variable (ofRing : CellId → Bool) (verdict : CellId → Option Verdict)

/-- The cells of a list that depart: the ring's cells from the first on, up to the first without a verdict. -/
def departing (l : List CellId) : List CellId := (l.filter ofRing).takeWhile (fun id => (verdict id).isSome)

/-- The cells that a split takes out are those that depart. -/
theorem splitDeparting_fst (l : List CellId) :
    (splitDeparting ofRing verdict l).1.map Prod.fst = departing ofRing verdict l := by
  induction l with
  | nil => rfl
  | cons id rest ih =>
    unfold departing at ih ⊢
    by_cases hr : ofRing id = true
    · cases hv : verdict id <;> simp [splitDeparting, hr, hv, ih]
    · simp [splitDeparting, hr, ih]

/-- A cell is taken out with the verdict it holds. -/
theorem verdict_of_mem_splitDeparting (l : List CellId) :
    ∀ p ∈ (splitDeparting ofRing verdict l).1, verdict p.1 = some p.2 := by
  induction l with
  | nil => nofun
  | cons id rest ih =>
    by_cases hr : ofRing id = true
    · cases hv : verdict id with
      | none => simp [splitDeparting, hr, hv]
      | some v => simpa [splitDeparting, hr, hv] using ih
    · simpa [splitDeparting, hr] using ih

/-- A list without repetition keeps the cells that do not depart, in their order. -/
theorem splitDeparting_snd {l : List CellId} (hl : l.Nodup) :
    (splitDeparting ofRing verdict l).2 = l.filter (fun id => !(departing ofRing verdict l).contains id) := by
  induction l with
  | nil => rfl
  | cons id rest ih =>
    obtain ⟨hid, hrest⟩ := List.nodup_cons.mp hl
    have ih := ih hrest
    by_cases hr : ofRing id = true
    · cases hv : verdict id with
      | none => simp [splitDeparting, departing, hr, hv]
      | some v =>
        have hdep : departing ofRing verdict (id :: rest) = id :: departing ofRing verdict rest := by
          simp [departing, hr, hv]
        have hne : ∀ j ∈ rest, (id :: departing ofRing verdict rest).contains j
            = (departing ofRing verdict rest).contains j := fun j hj => by
          have : j ≠ id := fun e => hid (e ▸ hj)
          simp [this]
        simp only [splitDeparting, hr, hv, if_true, ih, hdep]
        rw [List.filter_cons_of_neg (by simp)]
        exact List.filter_congr fun j hj => by rw [hne j hj]
    · have hdep : departing ofRing verdict (id :: rest) = departing ofRing verdict rest := by
        simp [departing, hr]
      have hnot : id ∉ departing ofRing verdict rest := fun hm =>
        hr (List.mem_filter.mp ((List.takeWhile_sublist _).mem hm)).2
      simp only [splitDeparting, hr, Bool.false_eq_true, if_false, ih, hdep]
      rw [List.filter_cons_of_pos (by simpa using hnot)]

/-- When every cell of the ring carries a verdict, the list keeps the cells of other rings alone. -/
theorem splitDeparting_of_all_marked {l : List CellId} (h : ∀ id ∈ l, ofRing id = true → (verdict id).isSome = true) :
    departing ofRing verdict l = l.filter ofRing
      ∧ (splitDeparting ofRing verdict l).2 = l.filter (fun id => !ofRing id) := by
  constructor
  · refine List.takeWhile_eq_self_iff.mpr fun id hid => ?_
    obtain ⟨hmem, hr⟩ := List.mem_filter.mp hid
    exact h id hmem hr
  · induction l with
    | nil => rfl
    | cons id rest ih =>
      have ih := ih fun j hj => h j (List.mem_cons_of_mem id hj)
      by_cases hr : ofRing id = true
      · obtain ⟨v, hv⟩ := Option.isSome_iff_exists.mp (h id List.mem_cons_self hr)
        simp [splitDeparting, hr, hv, ih]
      · simp [splitDeparting, hr, ih]

end

/-! ## The departures (R40) -/

/-- A class list replaced reads back; the others are as before. -/
theorem classList_setClassList (c d : ClassId) (l : List CellId) (s : State) :
    (setClassList c l s).classList d = if c = d then l else s.classList d := by
  simp only [State.classList, setClassList, State.updSch_fields, Vector.getElem_set, Fin.ext_iff]

/-- The cells that complete in one event join the completion pending list in order. -/
theorem foldl_completeCell_pending (out : List (CellId × Verdict)) (s : State) :
    (out.foldl (fun s p => completeCell p.1 p.2.status s) s).cw.pending =
      s.cw.pending ++ out.map (fun p => .cell p.1 p.2.status) := by
  induction out generalizing s with
  | nil => simp
  | cons p out ih =>
    have hjoin : (completeCell p.1 p.2.status s).cw.pending = s.cw.pending ++ [.cell p.1 p.2.status] := by
      simp [completeCell, joinPending]
    rw [List.foldl_cons, ih, hjoin, List.map_cons, List.append_assoc, List.singleton_append]

/-- An update of one transmit cell changes no other transmit cell. -/
theorem cell_updTx {s : State} {j : CellId} {c : TxCell} (h : s.cell j = .tx c) (id : CellId) (f : TxCell → TxCell) :
    (s.updTx id f).cell j = .tx (if j = id then f c else c) := by
  by_cases hj : j = id
  · subst hj
    rw [updTx_of_tx h, State.cell_setCell, if_pos rfl, if_pos rfl]
  · rw [if_neg hj, ← h]
    unfold State.updTx
    split
    · rw [State.cell_setCell, if_neg (Ne.symm hj)]
    · rfl

/-- An update of one transmit cell leaves every other sort of cell as it is. -/
theorem cell_updTx_of_not_tx {s : State} {j : CellId} (h : ∀ c, s.cell j ≠ .tx c) (id : CellId)
    (f : TxCell → TxCell) : (s.updTx id f).cell j = s.cell j := by
  unfold State.updTx
  split
  · next c hc =>
    have hj : id ≠ j := fun e => h c (e ▸ hc)
    rw [State.cell_setCell, if_neg hj]
  · rfl

/-- The cells that complete in one event are disarmed, and no other. -/
theorem cell_foldl_completeCell (out : List (CellId × Verdict)) {s : State} {id : CellId} {c : TxCell}
    (h : s.cell id = .tx c) :
    (out.foldl (fun s p => completeCell p.1 p.2.status s) s).cell id =
      .tx (if id ∈ out.map Prod.fst then { c with deadline := none } else c) := by
  induction out generalizing s c with
  | nil => simpa using h
  | cons p out ih =>
    rw [List.foldl_cons, ih (s := completeCell p.1 p.2.status s) (cell_updTx h p.1 _)]
    by_cases hp : id = p.1 <;> by_cases ho : id ∈ out.map Prod.fst <;> simp [hp, ho]

/-- With no cell of the ring in the offer slot its class list splits: the cells taken out complete one after another, the
others stay (R40). -/
theorem verdictDepartures_of_not_offered {s : State} {r : SendId} (h : offeredOfRing s r = false) :
    verdictDepartures r s =
      (splitDeparting (isOfRing s r) (verdictOf s) (s.classList (s.send r).cls)).1.foldl
        (fun s p => completeCell p.1 p.2.status s)
        (setClassList (s.send r).cls
          (splitDeparting (isOfRing s r) (verdictOf s) (s.classList (s.send r).cls)).2 s) := by
  rw [verdictDepartures, h]
  rfl

/-- Departures change the ring's class list alone among the class lists. -/
theorem classList_verdictDepartures {s : State} {r : SendId} (h : offeredOfRing s r = false) (d : ClassId) :
    (verdictDepartures r s).classList d =
      if (s.send r).cls = d then (splitDeparting (isOfRing s r) (verdictOf s) (s.classList (s.send r).cls)).2
      else s.classList d := by
  rw [verdictDepartures_of_not_offered h, State.classList, foldl_completeCell_sch]
  exact classList_setClassList _ _ _ _

/-- The status a departing cell completes with: its verdict's, FLUSHED for a mark FLUSH (R41). A departing cell holds a
verdict; without one the value is FLUSHED as well. -/
def departureStatus (held : Option Verdict) : SendStatus :=
  match held with
  | some .invalid => .invalid
  | some .fetchFailed => .fetchFailed
  | some .expired => .expired
  | _ => .flushed

/-- A held verdict gives its own status. -/
theorem departureStatus_some (v : Verdict) : departureStatus (some v) = v.status := by
  cases v <;> rfl

/-- Each departing cell joins the completion pending list with the status of its verdict (R40, R41). -/
theorem pending_verdictDepartures {s : State} {r : SendId} (h : offeredOfRing s r = false) :
    (verdictDepartures r s).cw.pending =
      s.cw.pending ++ (departing (isOfRing s r) (verdictOf s) (s.classList (s.send r).cls)).map
        (fun id => .cell id (departureStatus (verdictOf s id))) := by
  rw [verdictDepartures_of_not_offered h, foldl_completeCell_pending, ← splitDeparting_fst, List.map_map]
  congr 1
  refine List.map_congr_left fun p hp => ?_
  rw [Function.comp_apply, verdict_of_mem_splitDeparting _ _ _ p hp, departureStatus_some]

/-- The departing cells are disarmed, and no other (R40, R58). -/
theorem cell_verdictDepartures {s : State} {r : SendId} (h : offeredOfRing s r = false) {id : CellId} {c : TxCell}
    (hc : s.cell id = .tx c) :
    (verdictDepartures r s).cell id =
      .tx (if id ∈ departing (isOfRing s r) (verdictOf s) (s.classList (s.send r).cls) then { c with deadline := none }
        else c) := by
  rw [verdictDepartures_of_not_offered h, ← splitDeparting_fst]
  exact cell_foldl_completeCell _ hc

end Sys2Proof.Machine
end

section
/-! PROOFS. The flush of a send ring (R41, R61). -/

namespace Sys2Proof.Machine

/-! ## The FLUSH marks (R41, R61) -/

/-- A transmit cell with the mark FLUSH set on it (R41). -/
def flushMarked (c : TxCell) : TxCell := { c with verdict := markVerdict c.verdict .flush }

/-- FLUSH set again changes nothing. -/
theorem flushMarked_flushMarked (c : TxCell) : flushMarked (flushMarked c) = flushMarked c := by
  unfold flushMarked
  simp only [markVerdict_flush]
  split <;> simp_all

/-- The marks of one flush change the transmit cells of the list. -/
theorem cell_foldl_setVerdict (l : List CellId) {s : State} {id : CellId} {c : TxCell} (h : s.cell id = .tx c) :
    (l.foldl (fun s id => setVerdict .flush id s) s).cell id = .tx (if id ∈ l then flushMarked c else c) := by
  induction l generalizing s c with
  | nil => simpa using h
  | cons j l ih =>
    have hmark : (setVerdict .flush j s).cell id = .tx (if id = j then flushMarked c else c) := cell_updTx h j _
    rw [List.foldl_cons, ih hmark]
    by_cases hj : id = j <;> by_cases hl : id ∈ l <;> simp [hj, hl, flushMarked_flushMarked]

/-- The marks of one flush change no other sort of cell. -/
theorem cell_foldl_setVerdict_of_not_tx (l : List CellId) {s : State} {id : CellId} (h : ∀ c, s.cell id ≠ .tx c) :
    (l.foldl (fun s id => setVerdict .flush id s) s).cell id = s.cell id := by
  induction l generalizing s with
  | nil => rfl
  | cons j l ih =>
    have hmark : (setVerdict .flush j s).cell id = s.cell id := cell_updTx_of_not_tx h j _
    rw [List.foldl_cons, ih (by rwa [hmark]), hmark]

/-- The cells a flush marks: the ring's cells in its class list, and the offered cell if it is the ring's (R61). -/
def flushTargets (r : SendId) (s : State) : List CellId :=
  (s.classList (s.send r).cls).filter (isOfRing s r) ++ s.le.slot.toList.filter (isOfRing s r)

/-- The state after a flush has set its marks, before any departure (R61). -/
def flushMarks (r : SendId) (s : State) : State := (flushTargets r s).foldl (fun s id => setVerdict .flush id s) s

/-- A flush sets its marks, and the ring-oldest cells depart (R61). -/
theorem flushRing_eq (r : SendId) (s : State) : flushRing r s = verdictDepartures r (flushMarks r s) := rfl

/-- The marks of a flush change cells alone. -/
theorem flushMarks_frame (r : SendId) (s : State) :
    (flushMarks r s).sch = s.sch ∧ (flushMarks r s).cw = s.cw ∧ (flushMarks r s).le = s.le
      ∧ (flushMarks r s).rct = s.rct := by
  have key := foldl_keeps (fun s : State => (s.sch, s.cw, s.le, s.rct)) (fun s id => setVerdict .flush id s)
    (fun _ _ => by simp) (flushTargets r s) s
  simp only [Prod.mk.injEq] at key
  exact key

section
variable {s : State} {id : CellId} {c : TxCell}

/-- A transmit cell is a flush's target when it is the ring's and stands in the class list or the offer slot. -/
theorem mem_flushTargets_iff (h : s.cell id = .tx c) (r : SendId) :
    id ∈ flushTargets r s ↔ c.ring = r ∧ (id ∈ s.classList (s.send r).cls ∨ s.le.slot = some id) := by
  simp only [flushTargets, List.mem_append, List.mem_filter, isOfRing_of_tx h, Option.mem_toList]
  tauto

/-- A flush marks its targets alone (R61). -/
theorem cell_flushMarks (h : s.cell id = .tx c) (r : SendId) :
    (flushMarks r s).cell id = .tx (if id ∈ flushTargets r s then flushMarked c else c) :=
  cell_foldl_setVerdict _ h

end

/-- The marks leave every cell its ring. -/
theorem isOfRing_flushMarks (r q : SendId) (s : State) : isOfRing (flushMarks r s) q = isOfRing s q := by
  funext id
  by_cases h : ∃ c, s.cell id = .tx c
  · obtain ⟨c, hc⟩ := h
    unfold isOfRing
    rw [cell_flushMarks hc, hc]
    dsimp only
    split <;> rfl
  · have hcell : (flushMarks r s).cell id = s.cell id :=
      cell_foldl_setVerdict_of_not_tx _ fun c hc => h ⟨c, hc⟩
    unfold isOfRing
    rw [hcell]

/-- The marks leave the offer slot as it is. -/
theorem offeredOfRing_flushMarks (r : SendId) (s : State) :
    offeredOfRing (flushMarks r s) r = offeredOfRing s r := by
  obtain ⟨-, -, hle, -⟩ := flushMarks_frame r s
  unfold offeredOfRing
  rw [hle, isOfRing_flushMarks]

/-- A queued cell of the ring carries FLUSH after the marks, or the verdict that FLUSH does not replace (R41, R61). -/
theorem verdictOf_flushMarks {r : SendId} {s : State} {id : CellId} (hq : id ∈ s.classList (s.send r).cls)
    (hr : isOfRing s r id = true) :
    verdictOf (flushMarks r s) id = markVerdict (verdictOf s id) .flush := by
  obtain ⟨c, hc, hring⟩ := (isOfRing_iff s r id).mp hr
  have htarget : id ∈ flushTargets r s := (mem_flushTargets_iff hc r).mpr ⟨hring, .inl hq⟩
  rw [verdictOf_of_tx (cell_flushMarks hc r), verdictOf_of_tx hc, if_pos htarget]
  rfl

/-- The status a flushed cell completes with: FLUSHED, unless it already carried EXPIRED or FETCH_FAILED (R41). -/
def flushStatus (held : Option Verdict) : SendStatus :=
  match held with
  | some .expired => .expired
  | some .fetchFailed => .fetchFailed
  | _ => .flushed

/-- It is the status of the verdict after the mark. -/
theorem departureStatus_markVerdict_flush (held : Option Verdict) :
    departureStatus (markVerdict held .flush) = flushStatus held := by
  cases held with
  | none => rfl
  | some v => cases v <;> rfl

/-- The flush of a ring without an offered cell (R61): all its queued cells leave the class list and complete. -/
theorem flushRing_of_not_offered {r : SendId} {s : State} (h : offeredOfRing s r = false) :
    (flushRing r s).classList (s.send r).cls = (s.classList (s.send r).cls).filter (fun id => !isOfRing s r id)
      ∧ (flushRing r s).cw.pending =
        s.cw.pending ++ ((s.classList (s.send r).cls).filter (isOfRing s r)).map (fun id =>
          .cell id (flushStatus (verdictOf s id))) := by
  obtain ⟨hsch, hcw, hle, hrct⟩ := flushMarks_frame r s
  have hoff : offeredOfRing (flushMarks r s) r = false := by rw [offeredOfRing_flushMarks, h]
  have hcls : ((flushMarks r s).send r).cls = (s.send r).cls := by rw [State.send, hrct]; rfl
  have hlist : (flushMarks r s).classList (s.send r).cls = s.classList (s.send r).cls := by
    rw [State.classList, hsch]; rfl
  have hmarked : ∀ id ∈ s.classList (s.send r).cls, isOfRing s r id = true →
      (verdictOf (flushMarks r s) id).isSome = true := fun id hq hr => by
    rw [verdictOf_flushMarks hq hr, markVerdict_flush]
    split
    · rfl
    · next hn => exact Option.isSome_iff_ne_none.mpr fun e => hn (.inl e)
  obtain ⟨hdep, hstay⟩ := splitDeparting_of_all_marked (isOfRing s r) (verdictOf (flushMarks r s)) hmarked
  constructor
  · rw [flushRing_eq, classList_verdictDepartures hoff, hcls, if_pos rfl, isOfRing_flushMarks, hlist, hstay]
  · rw [flushRing_eq, pending_verdictDepartures hoff, hcw, hcls, isOfRing_flushMarks, hlist, hdep]
    congr 1
    refine List.map_congr_left fun id hid => ?_
    obtain ⟨hq, hr⟩ := List.mem_filter.mp hid
    rw [verdictOf_flushMarks hq hr, departureStatus_markVerdict_flush]

end Sys2Proof.Machine
end

section
/-! PROOFS. The discard of an arrival ring's pending cells (R132, R139, R140). -/

namespace Sys2Proof.Machine

/-- A saturating count of 16 bits, as a number. -/
theorem toNat_satInc_sixteen (x : BitVec 16) : (satInc x).toNat = min 65535 (x.toNat + 1) := by
  have hx := x.isLt
  rw [satInc_eq (top := 65535) (by decide)]
  split
  · next h =>
    subst h
    rfl
  · next h =>
    have hne : x.toNat ≠ 65535 := fun e => h (BitVec.eq_of_toNat_eq e)
    have hone : (x + 1).toNat = x.toNat + 1 := by
      rw [BitVec.toNat_add, Nat.mod_eq_of_lt]
      · rfl
      · change x.toNat + 1 < 65536
        omega
    rw [hone]
    omega

/-- The state after the discard of one cell (R132): it is free, the ring's discard count has risen, its cells held and
the receive count have fallen. -/
def cellDiscarded (r : ArrivalId) (id : CellId) (s : State) : State :=
  { (s.updArrival r (fun a => { a with discards := satInc a.discards, held := a.held - 1 })) with
    cp := { s.cp with cells := s.cp.cells.set id.val .free, rxInUse := s.cp.rxInUse - 1 } }

/-- A receive cell of the ring is discarded (R132). -/
theorem discardCell_of_rx {s : State} {id : CellId} {c : RxCell} (h : s.cell id = .rx c) :
    discardCell c.ring id s = cellDiscarded c.ring id s := by
  have hc : (s.updArrival c.ring (fun a => { a with discards := satInc a.discards })).cell id = .rx c := h
  unfold discardCell freeCell
  rw [hc]
  simp only [State.setCell, State.updArrival, State.updCp, State.updRct, cellDiscarded]
  simp

theorem arrival_cellDiscarded (r q : ArrivalId) (id : CellId) (s : State) :
    (cellDiscarded r id s).arrival q =
      if r = q then { s.arrival r with discards := satInc (s.arrival r).discards, held := (s.arrival r).held - 1 }
      else s.arrival q :=
  State.arrival_updArrival s r q fun a => { a with discards := satInc a.discards, held := a.held - 1 }

theorem cell_cellDiscarded (r : ArrivalId) (id j : CellId) (s : State) :
    (cellDiscarded r id s).cell j = if id = j then .free else s.cell j :=
  State.cell_setCell s id j .free

/-- What the discard of a ring's cells `l` makes of the state (R132): each is freed, the discard count rises by one for
each, saturating, the cells held and the receive count fall, and nothing else of the pool, the rings and the pending
lists changes. -/
structure CellsDiscarded (r : ArrivalId) (l : List CellId) (s t : State) : Prop where
  pending : ∀ q, t.arrivalPending q = s.arrivalPending q
  discards : (t.arrival r).discards.toNat = min 65535 ((s.arrival r).discards.toNat + l.length)
  held : (t.arrival r).held = (s.arrival r).held - l.length
  rxInUse : t.cp.rxInUse = s.cp.rxInUse - l.length
  cells : ∀ id, t.cell id = if id ∈ l then .free else s.cell id
  ringState : (t.arrival r).state = (s.arrival r).state
  others : ∀ q, q ≠ r → t.arrival q = s.arrival q

/-- No cell discarded. -/
theorem CellsDiscarded.nil (r : ArrivalId) (s : State) : CellsDiscarded r [] s s where
  pending _ := rfl
  discards := by
    have := (s.arrival r).discards.isLt
    simp only [List.length_nil]
    omega
  held := rfl
  rxInUse := rfl
  cells _ := by simp
  ringState := rfl
  others _ _ := rfl

/-- One cell discarded, then others. -/
theorem CellsDiscarded.cons {r : ArrivalId} {id : CellId} {l : List CellId} {s t : State}
    (h : CellsDiscarded r l (cellDiscarded r id s) t) : CellsDiscarded r (id :: l) s t := by
  obtain ⟨hpending, hdiscards, hheld, hrx, hcells, hstate, hothers⟩ := h
  rw [arrival_cellDiscarded, if_pos rfl] at hdiscards hheld hstate
  refine ⟨hpending, ?_, ?_, ?_, fun j => ?_, hstate, fun q hq => ?_⟩
  · rw [hdiscards, toNat_satInc_sixteen, List.length_cons]
    omega
  · rw [hheld, List.length_cons, Nat.add_comm, Nat.sub_sub]
  · rw [hrx, List.length_cons, Nat.add_comm]
    exact Nat.sub_sub _ _ _
  · rw [hcells, cell_cellDiscarded]
    by_cases hj : id = j <;> by_cases hl : j ∈ l <;> simp [hl, hj, eq_comm]
  · rw [hothers q hq, arrival_cellDiscarded, if_neg hq.symm]

/-- The cells of a ring, no two the same, are discarded one after another. -/
theorem cellsDiscarded_foldl {r : ArrivalId} {l : List CellId} (hl : l.Nodup) {s : State}
    (h : ∀ id ∈ l, ∃ c, s.cell id = .rx c ∧ c.ring = r) :
    CellsDiscarded r l s (l.foldl (fun s id => discardCell r id s) s) := by
  induction l generalizing s with
  | nil => exact CellsDiscarded.nil r s
  | cons id l ih =>
    obtain ⟨hid, hl⟩ := List.nodup_cons.mp hl
    obtain ⟨c, hc, rfl⟩ := h id List.mem_cons_self
    rw [List.foldl_cons, discardCell_of_rx hc]
    refine CellsDiscarded.cons (ih hl fun j hj => ?_)
    have hne : id ≠ j := fun e => hid (e ▸ hj)
    rw [cell_cellDiscarded, if_neg hne]
    exact h j (List.mem_cons_of_mem id hj)

/-- The discard of a ring's pending cells (R139, R140): its list is empty, and each of its cells is discarded. -/
theorem cellsDiscarded_discardPending {r : ArrivalId} {s : State} (hl : (s.arrivalPending r).Nodup)
    (h : ∀ id ∈ s.arrivalPending r, ∃ c, s.cell id = .rx c ∧ c.ring = r) :
    CellsDiscarded r (s.arrivalPending r) (s.setArrivalPending r []) (discardPending r s) :=
  cellsDiscarded_foldl (s := s.setArrivalPending r []) hl h

/-- A pending list replaced reads back; the others are as before. -/
theorem arrivalPending_setArrivalPending (r q : ArrivalId) (l : List CellId) (s : State) :
    (s.setArrivalPending r l).arrivalPending q = if r = q then l else s.arrivalPending q := by
  simp only [State.arrivalPending, State.setArrivalPending_fields, Vector.getElem_set, Fin.ext_iff]

end Sys2Proof.Machine

namespace Sys2Proof.Proofs

open Sys2Proof.Machine

/-- Settles O25: a ring's list splits at its first unmarked cell; a flush marks before it splits; a discard frees cell
after cell. -/
theorem flushAndDiscard : Obligations.FlushAndDiscard := by
  refine ⟨⟨fun r id s => ⟨isOfRing_iff s r id, offeredOfRing_iff s r⟩, fun id c s hc => verdictOf_of_tx hc,
      fun id s h => verdictOf_of_not_tx h⟩,
    ⟨fun r s h => ?heldBack, fun r marked s h hnodup hmarked => ?departures⟩,
    ⟨fun r s h => ?flush, fun r s h => ?flushOffered⟩, fun r s hl hcells => ?discard⟩
  case heldBack => exact if_pos h
  case departures =>
    change marked = departing (isOfRing s r) (verdictOf s) (s.classList (s.send r).cls) at hmarked
    subst hmarked
    refine ⟨?_, pending_verdictDepartures h, fun id c hc => cell_verdictDepartures h hc, fun c hne => ?_, ?_, ?_⟩
    · rw [classList_verdictDepartures h, if_pos rfl, splitDeparting_snd _ _ hnodup]
    · rw [classList_verdictDepartures h, if_neg hne.symm]
    · simp only [verdictDepartures_frame]
    · simp only [verdictDepartures_frame]
  case flush => exact flushRing_of_not_offered h
  case flushOffered =>
    have hflush : flushRing r s = flushMarks r s := by
      rw [flushRing_eq]
      exact if_pos (by rw [offeredOfRing_flushMarks, h])
    obtain ⟨hsch, hcw, hle, hrct⟩ := flushMarks_frame r s
    rw [hflush]
    refine ⟨hsch, hcw, hle, hrct, fun id c hc => ?_, fun id hn => cell_foldl_setVerdict_of_not_tx _ hn⟩
    rw [cell_flushMarks hc]
    simp only [mem_flushTargets_iff hc, flushMarked, markVerdict_flush]
  case discard =>
    have d := cellsDiscarded_discardPending hl hcells
    refine ⟨?_, d.discards, d.held, d.rxInUse, d.cells, d.ringState, fun q hq => ⟨d.others q hq, ?_⟩⟩
    · rw [d.pending, arrivalPending_setArrivalPending, if_pos rfl]
    · rw [d.pending, arrivalPending_setArrivalPending, if_neg hq.symm]

end Sys2Proof.Proofs
end

section
/-! PROOFS. Every command keeps the line engine sound (R64, R79, R81 to R83): the register writes, the ends of transfers,
the line events. -/

namespace Sys2Proof.Machine

namespace LineSound

variable {s t : State}

/-- Soundness of the line engine rests on the line engine and the engine state alone. -/
theorem congr_le (h : LineSound s) (hle : t.le = s.le) (he : t.hp.engine = s.hp.engine) : LineSound t := by
  unfold LineSound
  rw [hle, he]
  exact h

/-- Outside RESETTING the engine state may change freely: the fault flag then stands in FAULT already. -/
theorem congr_engine (h : LineSound s) (hr : s.hp.engine ≠ .resetting) (hle : t.le = s.le) : LineSound t := by
  obtain ⟨hrun, hmuted, hattempt, hloop, hfault, hoff, htxd⟩ := h
  unfold LineSound
  rw [hle]
  exact ⟨hrun, hmuted, hattempt, hloop, fun hf => .inl ((hfault hf).resolve_right hr), hoff, htxd⟩

/-! ## Register writes (chapter 10) -/

/-- In RESETTING the line engine stands in OFF with TXD released, and the fault flag waits for the reset (R90). -/
theorem beginSoftReset (h : LineSound s) : LineSound (beginSoftReset s) := by
  unfold Machine.beginSoftReset
  dsimp only
  split
  · exact softReset _
  · obtain ⟨hrun, hmuted, -, hloop, -, -, -⟩ := h
    exact ⟨hrun, hmuted, by simp [stopLine, Phase.isAttempt], hloop, fun _ => .inr rfl, fun _ => rfl,
      by simp [stopLine]⟩

theorem writeControl (h : LineSound s) (value : Word) : LineSound (writeControl value s) := by
  unfold Machine.writeControl
  split
  · exact h.beginSoftReset
  · split
    · next hc => exact h.congr_engine (by simp [hc.2]) rfl
    · exact h

theorem writePost (h : LineSound s) (value : Word) : LineSound (writePost value s) := by
  obtain heq | heq | ⟨n, heq⟩ := writePost_cases value s <;> rw [heq]
  · exact h.congr_le rfl rfl
  · exact conclude (h.congr_le rfl rfl)
  · exact conclude (h.congr_le (by simp) (by simp))

theorem writeRelease (h : LineSound s) (value : Word) : LineSound (writeRelease value s) := by
  obtain heq | heq | ⟨n, heq⟩ := writeRelease_cases value s <;> rw [heq]
  · exact h.congr_le rfl rfl
  · exact conclude (h.congr_le rfl rfl)
  · exact conclude (h.congr_le (by simp) (by simp))

theorem windowWrite (h : LineSound s) (r : Register) (value : Word) : LineSound (windowWrite r value s) := by
  unfold Machine.windowWrite
  refine ite_keeps h ?_
  cases r with
  | control => exact h.writeControl value
  | status => exact h
  | bootLo | bootHi => exact ite_keeps h (h.congr_le rfl rfl)
  | post => exact h.writePost value
  | release => exact h.writeRelease value
  | cause | mask => exact h.congr_le rfl rfl

/-! ## Ends of transfers (10.5) -/

/-- The end of a transfer keeps the line engine sound when its owner's rule does. -/
theorem transferEnd (h : LineSound s) (owner : BusOwner) (d : Direction) {take : State → State}
    (htake : ∀ u, LineSound u → LineSound (take u)) : LineSound (transferEnd owner d take s) := by
  obtain heq | heq | heq := transferEnd_cases owner d take s <;> rw [heq]
  · exact h
  · exact softReset s
  · exact conclude (htake _ (h.congr_le (by simp) (by simp)))

theorem takeBootEnd (h : LineSound s) (result : ReadEnd) : LineSound (takeBootEnd result s) := by
  unfold Machine.takeBootEnd judgeBoot
  split
  · next hl =>
    have hr : s.hp.engine ≠ .resetting := by simp [hl]
    split
    · exact h.enterHalted hr _
    · split
      · exact h.congr_engine hr (by simp [enterRunning])
      · exact h.enterHalted hr _
  · exact h

theorem takeCompletionEnd (h : LineSound s) (result : WriteEnd) : LineSound (takeCompletionEnd result s) := by
  unfold Machine.takeCompletionEnd
  split
  · exact h
  · split
    · exact h.congr_le (by simp) (by simp)
    · split
      · next hrun => exact h.enterHalted (by simp [hrun]) _
      · exact h

theorem takeAdminRecord (h : LineSound s) (tag : Word) (reading : AdminReading) (quiet : Nat) :
    LineSound (takeAdminRecord tag reading quiet s) := by
  simp only [Machine.takeAdminRecord, judgeCommand]
  split
  · exact h.congr_le rfl rfl
  · split
    · exact h.congr_le rfl rfl
    · have current : LineSound (advanceAdminHead s) := h.congr_le rfl rfl
      split
      · exact current.congr_le (by simp) (by simp)
      · split
        · exact current.congr_le (by simp) (by simp)
        · exact performCommand (s := (advanceAdminHead s).updAe _) current _ _

theorem adminCommandEnd (h : LineSound s) (tag : Word) (c : AdminCommand) (quiet : Nat) :
    LineSound (adminCommandEnd tag c quiet s) :=
  h.transferEnd _ _ fun _ hu => ite_keeps hu (hu.takeAdminRecord _ _ _)

theorem takeAdminEnd (h : LineSound s) (result : ReadEnd) (quiet : Nat) : LineSound (takeAdminEnd result quiet s) := by
  refine ite_keeps h ?_
  cases result with
  | data r => exact h.takeAdminRecord _ _ _
  | busError => exact h.congr_le rfl rfl

theorem takeCountsEnd (h : LineSound s) (result : WriteEnd) : LineSound (takeCountsEnd result s) := by
  unfold Machine.takeCountsEnd
  split
  · cases result with
    | written =>
      dsimp only
      split <;> exact h.congr (by simp [clearCounters, dropSnapshot])
    | busError => exact h.congr (by simp [dropSnapshot])
  · exact h

/-! ## Line events (chapter 4) -/

/-- JOINING and RECOVERING end in IDLE with TXD released (R66, R78). -/
theorem toIdle (h : LineSound s) (hp : s.le.phase = .joining ∨ s.le.phase = .recovering) (hphase : t.le.phase = .idle)
    (htxd : t.le.txd = s.le.txd)
    (e : t.le.mode = s.le.mode ∧ t.le.muted = s.le.muted ∧ t.le.fault = s.le.fault ∧ t.le.errorRun = s.le.errorRun
      ∧ t.hp.engine = s.hp.engine) : LineSound t := by
  obtain ⟨hmode, hmuted, hfault, hrun, he⟩ := e
  have released : s.le.txd = .released :=
    h.notDriving (by obtain hp | hp := hp <;> simp [hp, Phase.isAttempt]) (by obtain hp | hp := hp <;> simp [hp])
  refine h.setPhase ?_ .idle (by simp [Phase.isAttempt]) hmode hphase hmuted hfault hrun ?_ he
  · obtain hp | hp := hp <;> simp [hp]
  · simp [htxd, released]

theorem execJoinComplete (h : LineSound s) {quiet : Nat} (ht : execJoinComplete quiet s = .next t) : LineSound t := by
  cases ht
  split
  · next hj =>
    refine conclude ?_
    unfold joinIfQuiet
    exact ite_keeps (h.congr (by simp)) (h.toIdle (.inl hj) rfl rfl ⟨rfl, rfl, rfl, rfl, rfl⟩)
  · exact h

theorem execAttemptStart (h : LineSound s) {kind : SofKind} {quiet : Nat} (ht : execAttemptStart kind quiet s = .next t) :
    LineSound t := by
  cases ht
  cases kind with
  | driven m =>
    dsimp only
    split
    · next hc => exact h.startAttempt (mayStartAt_iff.1 hc.1).2
    · exact h
  | edgeRead m => exact h.sofEdge m quiet

theorem execFrameStart (h : LineSound s) {quiet : Nat} {pulse : PulseRead}
    (ht : execFrameStart quiet pulse s = .next t) : LineSound t := by
  cases ht
  cases classifyPulse s.ae.rate pulse.length with
  | sof => exact h.sofEdge _ _
  | data1 | data0 | invalid | breakPulse => exact h.restartQuiet
  | stuck => exact ite_keeps h h.restartQuiet
  | glitch => exact h

/-- Between the phases of an attempt TXD is the originator's: driven in ONLINE alone (R64, R70, R71). -/
theorem nextAttemptPhase (h : LineSound s) (ha : s.le.phase.isAttempt = true) {p : Phase} (hp : p.isAttempt = true)
    (hphase : t.le.phase = p) (htxd : t.le.txd = s.le.txd ∨ t.le.txd = originatorDrive s)
    (e : t.le.mode = s.le.mode ∧ t.le.muted = s.le.muted ∧ t.le.fault = s.le.fault ∧ t.le.errorRun = s.le.errorRun
      ∧ t.hp.engine = s.hp.engine) : LineSound t := by
  obtain ⟨hmode, hmuted, hfault, hrun, he⟩ := e
  obtain ⟨-, -, hattempt, -, -, -, hdrive⟩ := id h
  refine h.setPhase ⟨?_, ?_⟩ p (fun _ => ha) hmode hphase hmuted hfault hrun (fun hd => ?_) he
  · intro hf; simp [hf, Phase.isAttempt] at ha
  · intro hf; simp [hf, Phase.isAttempt] at ha
  · refine ⟨?_, (hattempt ha).2, .inl hp⟩
    obtain hs | ho := htxd
    · exact (hdrive (hs ▸ hd)).1
    · rw [ho, originatorDrive] at hd
      by_contra hm
      simp [hm] at hd

theorem execArbitrationWon (h : LineSound s) (ht : execArbitrationWon s = .next t) : LineSound t := by
  cases ht
  split
  · split
    · next ha =>
      exact h.nextAttemptPhase (by simp [ha, Phase.isAttempt]) (p := .sending) rfl (by simp [Machine.setPhase]) (.inl (by simp))
        (by simp)
    · exact h
  · exact h

theorem execHeaderEnd (h : LineSound s) {cells : CellsRead} (ht : execHeaderEnd cells s = .next t) : LineSound t := by
  cases ht
  split
  · dsimp only
    split
    · split
      · exact h.congr (by simp)
      · exact h
    · exact h
  · exact h

theorem execCheckEnd (h : LineSound s) {payload check : CellsRead} (ht : execCheckEnd payload check s = .next t) :
    LineSound t := by
  cases ht
  split
  · exact ite_keeps h (h.reachCheckEnd _ _ _).conclude
  · exact h

theorem execEodEnd (h : LineSound s) (ht : execEodEnd s = .next t) : LineSound t := by
  cases ht
  split
  · dsimp only
    split
    · next hc =>
      exact h.nextAttemptPhase (by simp [hc.1, Phase.isAttempt]) (p := .windowOut) rfl rfl (.inr rfl)
        ⟨rfl, rfl, rfl, rfl, rfl⟩
    · exact h
  · exact h

theorem execSlotEnd (h : LineSound s) {slot : Slot} {cells : CellsRead} (ht : execSlotEnd slot cells s = .next t) :
    LineSound t := by
  cases ht
  split
  · dsimp only
    split
    · next hc => exact h.originatorSlotEnd hc.1 _ _ _ _
    · exact ite_keeps h (h.receiverSlotEnd _ _)
  · exact h

theorem execFrameEnd (h : LineSound s) {tail : TailRead} (ht : execFrameEnd tail s = .next t) : LineSound t := by
  cases ht
  split
  · split
    · next hc => exact (h.endFrame hc.1 _).conclude
    · exact h
  · exact h

theorem execFrameAbandoned (h : LineSound s) {cells : CellsRead} {quiet : Nat}
    (ht : execFrameAbandoned cells quiet s = .next t) : LineSound t := by
  cases ht
  split
  · split
    · next hc => exact (h.abandonFrame hc.1 _).conclude
    · exact h
  · exact h

theorem execFaultExit (h : LineSound s) {quiet : Nat} (ht : execFaultExit quiet s = .next t) : LineSound t := by
  cases ht
  split
  · next hc =>
    refine conclude (h.leave rfl rfl rfl rfl ?_ (by simp [Phase.isAttempt]) (by simp [hc.1]))
    exact h.notDriving (by simp [hc.1, Phase.isAttempt]) (by simp [hc.1])
  · exact h

theorem execRecoveryEnd (h : LineSound s) {quiet : Nat} (ht : execRecoveryEnd quiet s = .next t) : LineSound t := by
  cases ht
  split
  · next hc => exact conclude (h.toIdle (.inr hc.1) rfl rfl ⟨rfl, rfl, rfl, rfl, rfl⟩)
  · exact h

/-! ## Timers, and one command -/

theorem expireDeadline (h : LineSound s) (id : CellId) : LineSound (expireDeadline id s) := by
  unfold Machine.expireDeadline
  split
  · exact ite_keeps h (conclude (h.congr (by simp)))
  · exact h

/-- Every command keeps the line engine sound (R64, R79, R81 to R83). -/
theorem exec (h : LineSound s) {i : Instr} (ht : exec i s = .next t) : LineSound t := by
  cases i with
  | resetPinAssert =>
    cases ht
    exact (show LineSound State.reset by decide).congr_le rfl rfl
  | resetPinRelease => cases ht; exact h.congr_le rfl rfl
  | softResetComplete => cases ht; exact ite_keeps h (softReset s)
  | softReset value | enable value | bootLoWrite value | bootHiWrite value | post value | release value
  | causeWrite value | maskWrite value => cases ht; exact h.windowWrite _ value
  | registerWrite r width value => cases ht; exact ite_keeps h (h.windowWrite r value)
  | bootReadEnd result => cases ht; exact h.transferEnd _ _ fun _ hu => hu.takeBootEnd result
  | fetchEnd result => cases ht; exact h.transferEnd _ _ fun _ hu => hu.congr_le (by simp) (by simp)
  | adminFetchEnd result quiet => cases ht; exact h.transferEnd _ _ fun _ hu => hu.takeAdminEnd result quiet
  | nodeSet tag _ | lineMode tag _ _ | openSend tag _ | openArrival tag _ | closeRing tag _ | filterWrite tag _ _
  | filterRead tag _ | countsRead tag _ _ => cases ht; exact h.adminCommandEnd tag _ _
  | countsWriteEnd result => cases ht; exact h.transferEnd _ _ fun _ hu => hu.takeCountsEnd result
  | arrivalWriteEnd result => cases ht; exact h.transferEnd _ _ fun _ hu => hu.congr_le (by simp) (by simp)
  | completionWriteEnd result => cases ht; exact h.transferEnd _ _ fun _ hu => hu.takeCompletionEnd result
  | tick => cases ht; exact ite_keeps h (h.congr_le rfl rfl)
  | deadlineExpiry id => cases ht; exact h.expireDeadline id
  | arrivalTimerExpiry r => cases ht; exact ite_keeps h (h.congr_le (by simp) (by simp))
  | crTimerExpiry => cases ht; exact ite_keeps h (h.congr_le (by simp) (by simp))
  | joinComplete quiet => exact h.execJoinComplete ht
  | attemptStart kind quiet => exact h.execAttemptStart ht
  | frameStart quiet pulse => exact h.execFrameStart ht
  | arbitrationWon => exact h.execArbitrationWon ht
  | attemptEnd before last ending =>
    cases ht
    split
    · next ha => exact (h.attemptEndAt ha _ _).concludeAttempt _
    · exact h
  | headerEnd cells => exact h.execHeaderEnd ht
  | checkEnd payload check => exact h.execCheckEnd ht
  | slotEnd slot cells => exact h.execSlotEnd ht
  | frameEnd tail => exact h.execFrameEnd ht
  | frameAbandoned cells quiet => exact h.execFrameAbandoned ht
  | stuckLine dominant => cases ht; exact ite_keeps h h.enterFault.conclude
  | faultExit quiet => exact h.execFaultExit ht
  | recoveryEnd quiet => exact h.execRecoveryEnd ht
  | eodEnd => exact h.execEodEnd ht

end LineSound

end Sys2Proof.Machine

namespace Sys2Proof.Proofs

open Sys2Proof.Machine

/-- Settles O58: soundness of the line engine is inductive by itself; every shared operation keeps it, and so does every
command. -/
theorem lineStaysSound : Obligations.LineStaysSound := fun _ _ h ht =>
  step_keeps (P := LineSound) (fun _ _ hs => hs) (fun _ _ _ hs hi => hs.exec hi) h ht

end Sys2Proof.Proofs
end

section
/-! PROOFS. The end of an attempt and the entry into FAULT: what the line engine's part of an attempt end leaves (R73, R81,
R82), and the entry into FAULT by the phase it comes in (R79). -/

namespace Sys2Proof.Machine

/-! ## Quiet runs (R6, R20) -/

theorem quietAtLeast8_iff (rate : RateCode) (cycles : Nat) :
    quietAtLeast8 rate cycles = true ↔ 8 * rate.bitCycles ≤ cycles := by
  simp [quietAtLeast8]

theorem quietAtLeast6_iff (rate : RateCode) (cycles : Nat) :
    quietAtLeast6 rate cycles = true ↔ 6 * rate.bitCycles ≤ cycles := by
  simp [quietAtLeast6]

/-! ## The line engine's part of an attempt end (R73, R81, R82) -/

/-- The outcomes that are line errors (R73). -/
theorem isLineError_iff (o : AttemptOutcome) :
    o.isLineError = true ↔ o = .bitError ∨ o = .formatError ∨ o = .lineFault := by
  cases o <;> simp [AttemptOutcome.isLineError]

/-- A line error raises the run up to 16, LOST leaves it, a SENT_CLEAN returns it to 0 (R81). -/
theorem runAfter_eq (run : Nat) (o : AttemptOutcome) :
    runAfter run o = if o.isLineError = true then min (run + 1) 16 else if o = .lost then run else 0 := by
  cases o <;> rfl

/-- Each outcome is counted in one counter (R73, R87). -/
theorem countersAfter_eq (c : Counters) (o : AttemptOutcome) :
    countersAfter c o =
      if o.isLineError = true then { c with txErrors := satInc c.txErrors }
      else if o = .lost then { c with lostArb := satInc c.lostArb }
      else { c with txSent := satInc c.txSent } := by
  cases o <;> rfl

/-- The phase an outcome other than a stuck line calls for (R73). -/
theorem phaseAfter_eq {o : AttemptOutcome} (h : o ≠ .lineFault) :
    o.phaseAfter = if o.isLineError = true then .recovering else if o = .lost then .receiving else .idle := by
  cases o with
  | lineFault => exact absurd rfl h
  | lost | bitError | formatError | sentClean _ => rfl

/-- A raised run stands at 16 exactly when it stood at 15 or more; the part is muted then (R81, R82). -/
theorem leaveAttempt_eq (o : AttemptOutcome) (rest : Option Frame) (s : State) :
    leaveAttempt o rest s =
      { s with
        hp := { s.hp with
          cause := if o.isLineError = true ∧ 15 ≤ s.le.errorRun then s.hp.cause ||| 0x20#9 else s.hp.cause },
        le := { s.le with
          slot := none, counters := countersAfter s.le.counters o, errorRun := runAfter s.le.errorRun o,
          muted := s.le.muted || (o.isLineError && decide (15 ≤ s.le.errorRun)),
          phase := o.phaseAfter, frame := rest, txd := .released } } := by
  unfold leaveAttempt muteIfDue
  simp only [State.updLe_fields]
  by_cases hline : o.isLineError = true
  · by_cases hrun : 15 ≤ s.le.errorRun
    · have hfull : runAfter s.le.errorRun o = Config.muteThreshold := by
        rw [runAfter_eq, if_pos hline]
        exact Nat.min_eq_right (by omega)
      rw [if_pos ⟨hline, hfull⟩, if_pos ⟨hline, hrun⟩]
      simp only [hline, hrun, decide_true, Bool.and_true, Bool.or_true]
      rfl
    · have hless : runAfter s.le.errorRun o ≠ Config.muteThreshold := by
        rw [runAfter_eq, if_pos hline, Config.muteThreshold]
        omega
      rw [if_neg (fun h => hless h.2), if_neg (fun h => hrun h.2)]
      simp only [hrun, decide_false, Bool.and_false, Bool.or_false]
      rfl
  · rw [if_neg (fun h => hline h.1), if_neg (fun h => hline h.1)]
    simp only [Bool.not_eq_true] at hline
    simp only [hline, Bool.false_and, Bool.or_false]
    rfl

/-- A stuck line leaves the attempt for FAULT as a line error (R73, R81, R82). -/
theorem leaveAttempt_lineFault (s : State) :
    leaveAttempt .lineFault none s =
      { s with
        hp := { s.hp with cause := if 15 ≤ s.le.errorRun then s.hp.cause ||| 0x20#9 else s.hp.cause },
        le := { s.le with
          slot := none, txd := .released, phase := .fault, frame := none,
          errorRun := min (s.le.errorRun + 1) 16, muted := s.le.muted || decide (15 ≤ s.le.errorRun),
          counters := { s.le.counters with txErrors := satInc s.le.counters.txErrors } } } := by
  rw [leaveAttempt_eq, runAfter_eq, countersAfter_eq]
  simp only [AttemptOutcome.isLineError, AttemptOutcome.phaseAfter, if_true, true_and, Bool.true_and]

/-- An attempt end with a cell in the slot: the line engine's part, the reception of the own frame unless LOST, and the
settlement of the cell (R49, R73, R105). -/
theorem endAttempt_of_slot {s : State} {id : CellId} (h : s.le.slot = some id) (o : AttemptOutcome)
    (rest : Option Frame) :
    endAttempt o rest s =
      settleAttempt id o
        (if o = .lost then leaveAttempt o rest s else abandonReception (leaveAttempt o rest s)) := by
  unfold endAttempt
  rw [h]

/-! ## The entry into FAULT (R79) -/

/-- FAULT is entered: the fault flag and the LINE cause set, no frame followed, TXD released, the quiet run 0 (R79). -/
def faultEntered (s : State) : State :=
  { s with
    hp := { s.hp with cause := s.hp.cause ||| 0x20#9 },
    le := { s.le with phase := .fault, fault := true, frame := none, txd := .released, quietRun := 0 } }

section
variable {s : State}

/-- In OFF and in LOOPBACK the line is not decoded (R79, R83). -/
theorem enterFault_of_not_decoded (h : s.le.phase = .off ∨ s.le.mode = .loopback) : enterFault s = s := by
  unfold enterFault
  rw [if_pos h]

/-- A period that goes on in FAULT only holds the quiet run at 0 (R80). -/
theorem enterFault_of_fault (hloop : s.le.mode ≠ .loopback) (h : s.le.phase = .fault) :
    enterFault s = { s with le := { s.le with quietRun := 0 } } := by
  unfold enterFault
  rw [if_neg (by simp [h, hloop]), if_pos h]
  rfl

/-- In JOINING, IDLE and RECOVERING there is nothing to abandon (R79). -/
theorem enterFault_of_no_frame (hloop : s.le.mode ≠ .loopback)
    (h : s.le.phase = .joining ∨ s.le.phase = .idle ∨ s.le.phase = .recovering) :
    enterFault s = atBoundary (faultEntered s) := by
  obtain h | h | h := h <;>
    · simp [enterFault, hloop, h, Phase.isAttempt]
      rfl

/-- A frame followed as a receiver is abandoned first (R79, R105). -/
theorem enterFault_of_receiving (hloop : s.le.mode ≠ .loopback) (h : s.le.phase = .receiving) :
    enterFault s = atBoundary (faultEntered (abandonReception s)) := by
  simp [enterFault, hloop, h, Phase.isAttempt]
  rfl

/-- An attempt in progress ends LINE_FAULT first (R73, R79). -/
theorem enterFault_of_attempt (hloop : s.le.mode ≠ .loopback) (h : s.le.phase.isAttempt = true) {id : CellId}
    (hslot : s.le.slot = some id) :
    enterFault s = atBoundary (faultEntered
      (settleAttempt id .lineFault (abandonReception (leaveAttempt .lineFault none s)))) := by
  have hoff : s.le.phase ≠ .off := fun hp => by simp [hp, Phase.isAttempt] at h
  have hfault : s.le.phase ≠ .fault := fun hp => by simp [hp, Phase.isAttempt] at h
  have hended : (endAttempt .lineFault none s).le.phase = .fault := by
    simp [endAttempt_of_slot hslot, leaveAttempt_eq, AttemptOutcome.phaseAfter]
  unfold enterFault
  rw [if_neg (by simp [hoff, hloop]), if_neg hfault, if_pos h]
  simp only [hended, reduceCtorEq, if_false]
  rw [endAttempt_of_slot hslot]
  rfl

end

/-! ## The end of an attempt at a cell (R73) -/

/-- An attempt end at a cell enters FAULT on a stuck line, ends the attempt on any other outcome, and changes nothing
when the last reading gives none (R73, R79). -/
theorem attemptEndAt_of_frame {f : Frame} {s : State} (h : s.le.frame = some f) {cells line : CellsRead}
    (hline : line = decodedLine f (lastCell (frameShape f).1 (frameShape f).2) cells s) (quiet : Nat) :
    (attemptOutcomeAt f line s = none → attemptEndAt cells quiet s = s)
      ∧ (attemptOutcomeAt f line s = some .lineFault → attemptEndAt cells quiet s = enterFault s)
      ∧ ∀ o, attemptOutcomeAt f line s = some o → o ≠ .lineFault →
        attemptEndAt cells quiet s =
          atBoundary
            (endAttempt o (frameAfter o { followCells f line s with kept := keptBits f line s })
              (measureQuiet quiet s)) := by
  subst hline
  unfold attemptEndAt
  simp only [h]
  refine ⟨fun ho => by rw [ho], fun ho => by rw [ho], fun o ho hne => ?_⟩
  rw [ho]
  cases o with
  | lineFault => exact absurd rfl hne
  | lost | bitError | formatError | sentClean _ => rfl

/-- A LOST attempt leaves a receiver on the frame's grid, with the header bits read so far; every other outcome leaves no
frame (R70, R73). -/
theorem frameAfter_eq (o : AttemptOutcome) (f : Frame) :
    frameAfter o f =
      if o = .lost then
        some { newFrame .receiver with kept := f.kept, cell := f.cell, expected := f.expected, driven := f.driven }
      else none := by
  cases o <;> rfl

/-- ATTEMPT_END in an attempt is the end at its last cell, and the decisions of its event (R73). -/
theorem exec_attemptEnd {s : State} (h : s.le.phase.isAttempt = true) (before : CellsRead) (last : CellPulses)
    (ending : AttemptEnding) :
    exec (.attemptEnd before last ending) s =
      .next (concludeAttempt ending.moment (attemptEndAt (before ++ [last]) ending.quiet s)) :=
  congrArg Host.Outcome.next (if_pos h)

/-- STUCK_LINE of 64 bit times is the entry into FAULT, and the decisions of its event (R79). -/
theorem exec_stuckLine {dominant : Nat} {s : State} (h : 64 * s.ae.rate.bitCycles ≤ dominant) :
    exec (.stuckLine dominant) s = .next (conclude (enterFault s)) :=
  congrArg Host.Outcome.next (if_pos (by simpa [isStuck] using h))

end Sys2Proof.Machine

namespace Sys2Proof.Proofs

open Sys2Proof.Machine

/-- Settles O53: a stuck line enters FAULT by the phase it comes in, after the frame or the attempt in progress has been
left; the quiet run ends FAULT and RECOVERING. -/
theorem stuckLineAndRecovery : Obligations.StuckLineAndRecovery := by
  refine ⟨fun dominant s hd h => ?notDecoded, fun dominant s hd hloop => ⟨fun h => ?noFrame, fun h => ?receiving,
    fun id u v h hslot hv hu => ?attempt, fun h => ?goesOn⟩, fun quiet s h hq => ?exit, fun quiet s h => ⟨fun hq => ?recovered,
    fun hq => ?tooShort⟩⟩
  case notDecoded => rw [exec_stuckLine hd, enterFault_of_not_decoded h]
  case noFrame =>
    rw [exec_stuckLine hd, enterFault_of_no_frame hloop h]
    rfl
  case receiving =>
    refine ⟨_, rfl, ?_⟩
    rw [exec_stuckLine hd, enterFault_of_receiving hloop h]
    rfl
  case attempt =>
    rw [exec_stuckLine hd, enterFault_of_attempt hloop h hslot, leaveAttempt_lineFault, ← hv, ← hu]
    rfl
  case goesOn => rw [exec_stuckLine hd, enterFault_of_fault hloop h]
  case exit => exact congrArg Host.Outcome.next (if_pos ⟨h, (quietAtLeast8_iff _ _).2 hq⟩)
  case recovered => exact congrArg Host.Outcome.next (if_pos ⟨h, (quietAtLeast6_iff _ _).2 hq⟩)
  case tooShort =>
    exact congrArg Host.Outcome.next (if_neg fun hc => absurd ((quietAtLeast6_iff _ _).1 hc.2) (by omega))

/-- Settles O41: ATTEMPT_END is the end at its last cell; a stuck line there is the entry into FAULT, and any other outcome
the line engine's part, the abandonment and the settlement. -/
theorem attemptEnds : Obligations.AttemptEnds := by
  refine ⟨fun id c f before line last ending o s u ha hslot _ hf hline ho hne hu => ?ends,
    fun f before last ending dominant s ha hf ho hd => ⟨fun hm => ?asStuckLine, fun id u v hslot hv hu => ?stuck⟩,
    fun f before last ending s ha hf ho => ?goesOn,
    fun before last ending s => ⟨fun ha => ?noAttempt, fun ha hf => ?noFrame⟩, isAttempt_iff, isLineError_iff⟩
  case ends =>
    have hleft : leaveAttempt o (frameAfter o { followCells f line s with kept := keptBits f line s })
        (measureQuiet ending.quiet s) = u := by
      rw [leaveAttempt_eq, hu, runAfter_eq, countersAfter_eq, phaseAfter_eq hne, frameAfter_eq]
      rfl
    rw [exec_attemptEnd ha, (attemptEndAt_of_frame hf hline ending.quiet).2.2 o ho hne,
      endAttempt_of_slot (s := measureQuiet ending.quiet s) hslot, hleft]
  case asStuckLine =>
    rw [exec_attemptEnd ha, exec_stuckLine hd, (attemptEndAt_of_frame hf rfl ending.quiet).2.1 ho, hm]
    rfl
  case stuck =>
    have hloop : s.le.mode ≠ .loopback := fun hm => by
      obtain ⟨x, hx⟩ := attemptOutcomeAt_loop hm ho
      cases hx
    rw [exec_attemptEnd ha, (attemptEndAt_of_frame hf rfl ending.quiet).2.1 ho, enterFault_of_attempt hloop ha hslot,
      leaveAttempt_lineFault, ← hv, ← hu]
    rfl
  case goesOn => rw [exec_attemptEnd ha, (attemptEndAt_of_frame hf rfl ending.quiet).1 ho]
  case noAttempt => exact congrArg Host.Outcome.next (if_neg (by simp [ha]))
  case noFrame => rw [exec_attemptEnd ha, attemptEndAt, hf]

end Sys2Proof.Proofs
end

section
/-! PROOFS. The win of arbitration (R43, R70). -/

namespace Sys2Proof.Machine

/-- A saturating count, as a number. -/
theorem toNat_satInc {w : Nat} (x : BitVec w) : (satInc x).toNat = min (2 ^ w - 1) (x.toNat + 1) := by
  have hx := x.isLt
  unfold satInc
  split
  · next h =>
    rw [h, BitVec.toNat_allOnes]
    omega
  · next h =>
    have hne : x.toNat ≠ 2 ^ w - 1 := fun e => h (BitVec.eq_of_toNat_eq (e.trans BitVec.toNat_allOnes.symm))
    have hnext : (x + 1).toNat = x.toNat + 1 := by
      rw [BitVec.toNat_add, BitVec.ofNat_eq_ofNat, BitVec.toNat_ofNat, Nat.add_mod_mod]
      exact Nat.mod_eq_of_lt (show x.toNat + 1 < 2 ^ w by omega)
    omega

/-- The cell of the slot is the one offered. -/
theorem offeredCell_of_slot {s : State} {id : CellId} {c : TxCell} (h : s.le.slot = some id) (hc : s.cell id = .tx c) :
    offeredCell s = some c := by
  unfold offeredCell
  simp only [h, hc]

/-- The count of each class from 1 to 3 after a win report (R43). -/
theorem get_passed_winReport (won : ClassId) (s : State) {d : ClassId} (hd : d ≠ 0) :
    (winReport won s).sch.passed.get d = countAfterWin won d (s.classList d != []) (s.sch.passed.get d) :=
  match d, hd with
  | 1, _ => rfl
  | 2, _ => rfl
  | 3, _ => rfl

/-- A class's count after a win, as a number (R43). -/
theorem toNat_countAfterWin (won c : ClassId) (waiting : Bool) (count : BitVec 4) :
    (countAfterWin won c waiting count).toNat =
      if c = won then 0 else if won < c ∧ waiting = true then min 15 (count.toNat + 1) else count.toNat := by
  unfold countAfterWin
  rw [apply_ite BitVec.toNat, apply_ite BitVec.toNat, toNat_satInc]
  rfl

/-- ARBITRATION_WON with a frame in progress and a cell in the slot: the win report is given in ARBITRATING alone (R70). -/
theorem exec_arbitrationWon_of_slot {s : State} {f : Frame} {id : CellId} {c : TxCell} (hf : s.le.frame = some f)
    (hslot : s.le.slot = some id) (hc : s.cell id = .tx c) :
    exec .arbitrationWon s =
      .next (if s.le.phase = .arbitrating then winReport c.cls (setPhase .sending s) else s) := by
  change execArbitrationWon s = _
  unfold execArbitrationWon
  simp only [hf, offeredCell_of_slot hslot hc]

end Sys2Proof.Machine

namespace Sys2Proof.Proofs

open Sys2Proof.Machine

/-- Settles O39: the event is the win report in ARBITRATING, and its counts are read class by class. -/
theorem arbitrationWon : Obligations.ArbitrationWon := by
  refine ⟨fun id c f s hphase hslot hc hf =>
    ⟨(winReport c.cls (setPhase .sending s)).sch.passed, ?_, fun d hd => ?_⟩, fun s hphase => ?_⟩
  · rw [exec_arbitrationWon_of_slot hf hslot hc, if_pos hphase]
    rfl
  · have hlist : (setPhase .sending s).classList d = s.classList d := rfl
    rw [get_passed_winReport _ _ hd, toNat_countAfterWin, hlist]
    simp only [bne_iff_ne, setPhase_frame]
  · change execArbitrationWon s = _
    unfold execArbitrationWon
    split
    · rw [if_neg hphase]
    · rfl

end Sys2Proof.Proofs
end

section
/-! PROOFS. An administrative command that passes its checks (R159, R161), and COUNTS_READ (R88, R172). -/

namespace Sys2Proof.Machine

/-! ## The end of a record's read (R159, R161) -/

/-- The record's command in execution, AR's head moved past it (R159). -/
def adminExecuting (tag : Word) (c : AdminCommand) (s : State) : State :=
  { adminRecordRead s with
    ae := { s.ae with
      phase := .executing, current := some { tag := tag, index := s.rct.admin.head, command := c } } }

/-- The end of a transfer on the bus, outside RESETTING, is taken by its owner (R187). -/
theorem transferEnd_of_onBus {owner : BusOwner} {d : Direction} {s : State} (h : onBusOf owner d s = true)
    (hr : s.hp.engine ≠ .resetting) (take : State → State) :
    transferEnd owner d take s = conclude (take (clearBus s)) := by
  unfold transferEnd
  rw [if_pos h, if_neg hr]

/-- The row of an administrative command, where its record's read is due to end, judges the command (R159). -/
theorem adminCommandEnd_of_due {s : State} (h : AdminFetchDue s) (tag : Word) (c : AdminCommand) (quiet : Nat) :
    adminCommandEnd tag c quiet s = conclude (judgeCommand c true quiet (adminExecuting tag c s)) := by
  obtain ⟨hbus, hphase, hresetting, hhalted⟩ := h
  unfold adminCommandEnd
  rw [transferEnd_of_onBus hbus hresetting, whenFetching, if_pos (show (clearBus s).ae.phase = .fetching from hphase)]
  unfold takeAdminRecord
  dsimp only
  rw [if_neg (show (advanceAdminHead (clearBus s)).hp.engine ≠ .halted from hhalted)]
  rfl

/-- A command in range, in the state it requires, is executed (R161). -/
theorem judgeCommand_of_passed {c : AdminCommand} {s : State} (hrange : adminInRange c = true)
    (hstate : adminStateHolds s c = true) (quiet : Nat) : judgeCommand c true quiet s = performCommand c quiet s := by
  unfold judgeCommand
  simp only [hrange, hstate, Bool.true_eq_false, or_self, if_false]

/-! ## COUNTS_READ (R88, R172) -/

/-- An address is a multiple of 32 when its five low bits are 0. -/
theorem alignedTo32_iff (a : Addr) : alignedTo32 a = true ↔ a.toNat % 32 = 0 := by
  simp only [alignedTo32, beq_iff_eq, ← BitVec.toNat_inj, BitVec.extractLsb'_toNat, Nat.shiftRight_zero]
  rfl

/-- The end of a command in execution: its result joins the list, and the engine is IDLE (R162). -/
theorem endCommand_of_current {s : State} {c : CurrentCommand} (h : s.ae.current = some c) (status : AdminStatus)
    (area : List Byte) :
    endCommand status area s =
      { s with
        cw := { s.cw with
          pending := s.cw.pending ++ [.admin { status := status, tag := c.tag, index := c.index, area := area }] },
        ae := { s.ae with phase := .idle, current := none, awaited := .nothing } } := by
  unfold endCommand
  rw [h]
  rfl

/-- The clear flag of a COUNTS_READ in execution. -/
theorem clearFlagSet_of_countsRead {s : State} {c : CurrentCommand} {clear : Byte} {a : Addr}
    (h : s.ae.current = some c) (hc : c.command = .countsRead clear a) : clearFlagSet s = true ↔ clear = 1 := by
  obtain ⟨tag, index, command⟩ := c
  subst hc
  simp [clearFlagSet, h]

end Sys2Proof.Machine

namespace Sys2Proof.Proofs

open Sys2Proof.Machine

/-- Settles O27: the row executes the command, and the end of its write ends it by result and clear flag. -/
theorem countsRead : Obligations.CountsRead := by
  refine ⟨fun tag clear a s hdue hclear ha => ?asked,
    fun result c clear a copy s hbus hr hawaited hcurrent hc hclear hcopy => ?ended⟩
  case asked =>
    have hrange : adminInRange (.countsRead clear a) = true := by
      simp [adminInRange, hclear, alignedTo32_iff, ha]
    change Host.Outcome.next (adminCommandEnd tag (.countsRead clear a) 0 s) = _
    rw [adminCommandEnd_of_due hdue, judgeCommand_of_passed hrange rfl]
    rfl
  case ended =>
    have hflag := clearFlagSet_of_countsRead (s := clearBus s) hcurrent hc
    change Host.Outcome.next (transferEnd _ _ (takeCountsEnd result) s) = _
    rw [transferEnd_of_onBus hbus hr]
    unfold takeCountsEnd
    rw [if_pos (show (clearBus s).ae.awaited = .countsWriteEnd from hawaited)]
    cases result with
    | busError =>
      rw [endCommand_of_current (s := dropSnapshot (clearBus s)) hcurrent]
      rfl
    | written =>
      by_cases hset : clear = 1
      · have hcleared : clearCounters (clearBus s) =
            (clearBus s).updLe (fun l => { l with counters := lowerCounters l.counters copy }) := by
          simp only [clearCounters, State.updLe, clearBus, State.updHp, hcopy]
        dsimp only
        rw [if_pos (hflag.2 hset), hcleared, 
          endCommand_of_current (s := dropSnapshot ((clearBus s).updLe _)) hcurrent]
        simp only [hset, and_self, if_true]
        rfl
      · dsimp only
        rw [if_neg (fun h => hset (hflag.1 h)), endCommand_of_current (s := dropSnapshot (clearBus s)) hcurrent]
        simp only [hset, and_false, if_false, if_true]
        rfl

end Sys2Proof.Proofs
end

section
/-! PROOFS. Joins and frame starts (R6, R13, R20, R60, R66, R67, R69, R80, R83). -/

namespace Sys2Proof.Machine

section
variable {s : State}

/-! ## The beginning of an attempt (R69) -/

/-- A run of 7 3/4 bit times, in quarters of a cycle. -/
theorem quietAllowsJoin_iff (rate : RateCode) (cycles : Nat) :
    quietAllowsJoin rate cycles = true ↔ 31 * rate.bitCycles ≤ 4 * cycles := by
  simp [quietAllowsJoin]

/-- An engine that is ready and RUNNING, with a transmit cell in its slot, may begin an attempt (R69). -/
theorem mayStart_of_slot {id : CellId} {c : TxCell} (hphase : s.le.phase = .idle) (hrun : s.hp.engine = .running)
    (hslot : s.le.slot = some id) (hc : s.cell id = .tx c)
    (hmode : s.le.mode = .online ∧ s.le.muted = false ∨ s.le.mode = .loopback) : mayStart s = true := by
  unfold mayStart
  rw [offeredCell_of_slot hslot hc, (lineReady_iff s).2 ⟨hphase, hmode⟩, hrun]
  rfl

/-- What an attempt at an SOF edge needs: a plain moment, a cell in the slot, an engine that is ready and RUNNING
(R60, R69). -/
theorem mayStartAt_needs {moment : SofMoment} (h : mayStartAt moment s = true) :
    moment = .plain ∧ s.le.slot ≠ none ∧ s.le.phase = .idle
      ∧ (s.le.mode = .online ∧ s.le.muted = false ∨ s.le.mode = .loopback) ∧ s.hp.engine = .running := by
  obtain ⟨hplain, hstart⟩ := mayStartAt_iff.1 h
  refine ⟨hplain, fun hslot => ?_, lineReady_and hstart⟩
  simp [mayStart, offeredCell, hslot] at hstart

/-- An SOF is driven when an attempt may begin and the quiet run stands at 8 bit times (R13, R69). -/
theorem exec_attemptStart_driven (moment : SofMoment) (quiet : Nat) (s : State) :
    exec (.attemptStart (.driven moment) quiet) s =
      .next (if mayStartAt moment s = true ∧ 8 * s.ae.rate.bitCycles ≤ quiet then startAttempt s else s) := by
  simp only [← quietAtLeast8_iff]
  rfl

/-! ## SOF edges (R60, R67, R69) -/

/-- An SOF edge in IDLE begins an attempt when one may begin at it and the run stands at 7 3/4 bit times (R13, R69). -/
theorem sofEdge_of_join {moment : SofMoment} {quiet : Nat} (hphase : s.le.phase = .idle)
    (hloop : s.le.mode ≠ .loopback) (hstart : mayStartAt moment s = true)
    (hquiet : 31 * s.ae.rate.bitCycles ≤ 4 * quiet) : sofEdge moment quiet s = startAttempt s := by
  unfold sofEdge
  rw [if_pos ⟨hphase, hloop⟩, if_pos ⟨hstart, (quietAllowsJoin_iff _ _).2 hquiet⟩]

/-- An SOF edge in IDLE that is not joined is followed as a receiver (R67). -/
theorem sofEdge_of_no_join {moment : SofMoment} {quiet : Nat} (hphase : s.le.phase = .idle)
    (hloop : s.le.mode ≠ .loopback)
    (h : ¬(mayStartAt moment s = true ∧ 31 * s.ae.rate.bitCycles ≤ 4 * quiet)) :
    sofEdge moment quiet s = startReceiving s := by
  unfold sofEdge
  rw [if_pos ⟨hphase, hloop⟩, if_neg (by rwa [quietAllowsJoin_iff])]

/-- Outside IDLE, and in LOOPBACK, an SOF edge is a pulse like any other (R20, R66, R80, R83). -/
theorem sofEdge_of_no_frame (moment : SofMoment) (quiet : Nat) (h : s.le.phase ≠ .idle ∨ s.le.mode = .loopback) :
    sofEdge moment quiet s = restartQuiet s := by
  unfold sofEdge
  exact if_neg fun hc => h.elim (· hc.1) (hc.2 ·)

/-! ## Pulses outside a frame (R6, R20, R66, R80) -/

/-- Outside LOOPBACK a pulse between frames starts the quiet run again (R6). -/
theorem restartQuiet_of_between (h : s.le.phase.isBetweenFrames = true) (hloop : s.le.mode ≠ .loopback) :
    restartQuiet s = { s with le := { s.le with quietRun := 0 } } := by
  unfold restartQuiet
  exact if_pos ⟨h, hloop⟩

/-- In OFF, in the frame phases and in LOOPBACK a pulse restarts nothing (R83). -/
theorem restartQuiet_of_not_between (h : s.le.phase.isBetweenFrames = false ∨ s.le.mode = .loopback) :
    restartQuiet s = s := by
  unfold restartQuiet
  refine if_neg fun hc => h.elim (fun hp => ?_) (hc.2 ·)
  rw [hp] at hc
  exact absurd hc.1 (by decide)

/-- FRAME_START of an SOF is its edge (R67). -/
theorem exec_frameStart_of_sof {pulse : PulseRead} (h : classifyPulse s.ae.rate pulse.length = .sof) (quiet : Nat) :
    exec (.frameStart quiet pulse) s = .next (sofEdge pulse.moment quiet s) := by
  change execFrameStart quiet pulse s = _
  unfold execFrameStart
  rw [h]

/-- FRAME_START of any other pulse: a glitch is disregarded, and a stuck period is read in FAULT alone (R3, R79). -/
theorem exec_frameStart_of_not_sof {pulse : PulseRead} (h : classifyPulse s.ae.rate pulse.length ≠ .sof) (quiet : Nat) :
    exec (.frameStart quiet pulse) s =
      .next (if classifyPulse s.ae.rate pulse.length = .glitch
          ∨ classifyPulse s.ae.rate pulse.length = .stuck ∧ s.le.phase ≠ .fault then s
        else restartQuiet s) := by
  change execFrameStart quiet pulse s = _
  unfold execFrameStart
  cases hclass : classifyPulse s.ae.rate pulse.length with
  | sof => exact absurd hclass h
  | glitch | data1 | data0 | invalid | breakPulse => simp
  | stuck => by_cases hfault : s.le.phase = .fault <;> simp [hfault]

end

end Sys2Proof.Machine

namespace Sys2Proof.Proofs

open Sys2Proof.Machine

/-- Settles O42: each reading is judged by the phase, by whether an attempt may begin, and by the class of the pulse. -/
theorem joinsAndFrameStarts : Obligations.JoinsAndFrameStarts := by
  refine ⟨fun quiet s hphase => ?joining,
    fun id c quiet s t hphase hrun hslot hc hmode ht => ?attempt,
    fun quiet length moment s hphase hloop hno hclass => ?received,
    fun quiet moment s hno => ?notDriven,
    fun quiet moment pulse s h => ?noEvent,
    fun quiet moment pulse s t hloop hphase ht => ?outside,
    fun quiet pulse s hphase hloop => ?otherPulse⟩
  case joining =>
    have hexec : exec (.joinComplete quiet) s = .next (conclude (joinIfQuiet (measureQuiet quiet s))) :=
      congrArg Host.Outcome.next (if_pos hphase)
    rw [hexec]
    refine ⟨fun hq => ?_, fun hq => ?_⟩
    · exact congrArg (Host.Outcome.next ∘ conclude) (if_pos ((quietAtLeast8_iff _ _).2 hq))
    · exact congrArg (Host.Outcome.next ∘ conclude) (if_neg fun h =>
        absurd ((quietAtLeast8_iff _ _).1 h) (Nat.not_le.2 hq))
  case attempt =>
    have hstart : mayStartAt .plain s = true := mayStartAt_iff.2 ⟨rfl, mayStart_of_slot hphase hrun hslot hc hmode⟩
    have hbegun : startAttempt s = t := ht ▸ rfl
    refine ⟨fun hq => ?_, fun honline hq => ?_⟩
    · rw [exec_attemptStart_driven, if_pos ⟨hstart, hq⟩, hbegun]
    · have hedge : sofEdge .plain quiet s = t :=
        (sofEdge_of_join hphase (by simp [honline]) hstart hq).trans hbegun
      refine ⟨congrArg Host.Outcome.next hedge, fun length hclass => ?_⟩
      rw [exec_frameStart_of_sof hclass, hedge]
  case received =>
    have hedge : sofEdge moment quiet s = startReceiving s := by
      refine sofEdge_of_no_join hphase hloop fun ⟨hstart, hquiet⟩ => ?_
      obtain ⟨hplain, hslot, -, hmode, hrun⟩ := mayStartAt_needs hstart
      obtain h | h | h | h | h | h := hno
      · exact hslot h
      · exact hmode.elim (fun hm => h hm.1) hloop
      · exact hmode.elim (fun hm => by simp [h] at hm) hloop
      · exact h hrun
      · omega
      · simp [h] at hplain
    refine ⟨startReceiving s, rfl, ?_, congrArg Host.Outcome.next hedge⟩
    rw [exec_frameStart_of_sof hclass, hedge]
  case notDriven =>
    rw [exec_attemptStart_driven]
    refine congrArg Host.Outcome.next (if_neg fun ⟨hstart, hquiet⟩ => ?_)
    obtain ⟨hplain, hslot, hphase, hmode, hrun⟩ := mayStartAt_needs hstart
    obtain h | h | h | h | h | h | h | ⟨h, hmuted⟩ := hno
    · simp [h] at hplain
    · omega
    · exact h hphase
    · exact h hrun
    · exact hslot h
    · simp [h] at hmode
    · simp [h] at hmode
    · simp [h, hmuted] at hmode
  case noEvent =>
    have hidle : s.le.phase ≠ .idle ∨ s.le.mode = .loopback := by
      obtain h | h | h | h | h | h := h <;> simp [h]
    have hkept : restartQuiet s = s := restartQuiet_of_not_between (by
      obtain h | h | h | h | h | h := h <;> simp [h, Phase.isBetweenFrames])
    refine ⟨congrArg Host.Outcome.next ((sofEdge_of_no_frame moment quiet hidle).trans hkept), ?_⟩
    by_cases hsof : classifyPulse s.ae.rate pulse.length = .sof
    · rw [exec_frameStart_of_sof hsof, sofEdge_of_no_frame _ _ hidle, hkept]
    · rw [exec_frameStart_of_not_sof hsof, hkept, ite_self]
  case outside =>
    have hidle : s.le.phase ≠ .idle ∨ s.le.mode = .loopback := by
      obtain h | h | h := hphase <;> simp [h]
    have hkept : restartQuiet s = t := ht ▸ restartQuiet_of_between (by
      obtain h | h | h := hphase <;> simp [h, Phase.isBetweenFrames]) hloop
    refine ⟨congrArg Host.Outcome.next ((sofEdge_of_no_frame moment quiet hidle).trans hkept), ?_⟩
    by_cases hsof : classifyPulse s.ae.rate pulse.length = .sof
    · rw [exec_frameStart_of_sof hsof, sofEdge_of_no_frame _ _ hidle, hkept]
      simp [hsof]
    · rw [exec_frameStart_of_not_sof hsof, hkept]
  case otherPulse =>
    have hkept := restartQuiet_of_between (s := s) (by simp [hphase, Phase.isBetweenFrames]) hloop
    refine ⟨fun hclass => ?_, fun hclass => ?_⟩
    · rw [exec_frameStart_of_not_sof (by obtain h | h | h | h := hclass <;> simp [h]), hkept,
        if_neg (by obtain h | h | h | h := hclass <;> simp [h])]
    · rw [exec_frameStart_of_not_sof (by obtain h | h := hclass <;> simp [h]),
        if_pos (by obtain h | h := hclass <;> simp [h, hphase])]

end Sys2Proof.Proofs
end

section
/-! PROOFS. The header end (R74), what an originator drives (R15, R16, R69, R71, R72), and the line decoded (R83). -/

namespace Sys2Proof.Machine

/-! ## What an originator drives (R15, R16, R69) -/

/-- An originator's image is that of the cell in its slot (R69). -/
theorem drivenImage_of_originator {f : Frame} {s : State} {id : CellId} {c : TxCell} (hrole : f.role = .originator)
    (hslot : s.le.slot = some id) (hc : s.cell id = .tx c) :
    drivenImage f s = imageBits (drivenHead c s.ae.nodeId).bits c.payload := by
  unfold drivenImage
  rw [hrole, offeredCell_of_slot hslot hc]

/-- An image is the head's 32 bits, the payload's and sixteen of the check (R8). -/
theorem imageBits_length (head : BitVec 32) (payload : List Byte) :
    (imageBits head payload).length = 48 + 8 * payload.length := by
  simp [imageBits]
  omega

/-- Without an answer of its own a node drives nothing in the response cells (R17, R76). -/
theorem answerBit_eq_none {f : Frame} (h : f.answer = none ∨ f.answerAllowed = false) (drive : SlotDrive) (cell : Nat) :
    answerBit f drive cell = none := by
  unfold answerBit
  obtain h | h := h
  · rw [h]
  · split
    · rfl
    · simp [h]

/-- The bit an originator drives in each part of its frame (R15, R16). -/
theorem ownBit_of_originator {f : Frame} (hrole : f.role = .originator) (image : List Bool) (part : Part) (cell : Nat) :
    ownBit f image part cell =
      if part = .header ∨ part = .control ∨ part = .payload ∨ part = .check then image[cell - 1]?
      else if part = .slotMark then some false
      else none := by
  cases part with
  | slotMark => simp [ownBit, hrole]
  | header | control | payload | check | sofPart | eod | response | eof => simp [ownBit]

/-- The pulse an originator drives in each part of its frame, but for an answer of its own (R15, R16, R69). -/
theorem pulseIn_of_originator {f : Frame} {cell : Nat} {part : Part} (hrole : f.role = .originator)
    (hpart : f.partOf cell = some part) (hanswer : part ≠ .response ∨ f.answer = none ∨ f.answerAllowed = false)
    (image : List Bool) (drive : SlotDrive) :
    pulseIn f image drive cell =
      if part = .header ∨ part = .control ∨ part = .payload ∨ part = .check then
        (image[cell - 1]?).map DrivenPulse.ofBit
      else if part = .sofPart then some .sof
      else if part = .slotMark then some .slotMark
      else none := by
  unfold pulseIn
  rw [hpart]
  cases part with
  | response => simp [answerBit_eq_none (hanswer.resolve_left (fun h => h rfl))]
  | sofPart | slotMark => simp [hrole]
  | header | control | payload | check | eod | eof => simp

/-! ## The line decoded (R83) -/

/-- Outside LOOPBACK the line decoded is RXD. -/
theorem decodedLine_of_rxd {s : State} (h : s.le.mode ≠ .loopback) (f : Frame) (last : Nat) (cells : CellsRead) :
    decodedLine f last cells s = cells := by
  unfold decodedLine
  rw [if_neg h]

/-- In LOOPBACK the line decoded is the internal line (R83). -/
theorem decodedLine_of_loopback {s : State} (h : s.le.mode = .loopback) (f : Frame) (last : Nat) (cells : CellsRead) :
    decodedLine f last cells s =
      lineOfOwnPulses s.ae.rate (pulseIn f (drivenImage f s) f.slotDrive) (last + 1 - f.cell) f.cell f.expected := by
  unfold decodedLine
  rw [if_pos h]

/-- A cell of the internal line carries the pulse due in it alone, at its expected start (R83). -/
theorem pulses_lineOfOwnPulses (rate : RateCode) (due : Nat → Option DrivenPulse) (n number e : Nat) :
    ∀ g ∈ gridOf rate number e (lineOfOwnPulses rate due n number e),
      g.pulses = ((due g.number).map (drivePulse rate g.expected [])).toList := by
  induction n generalizing number e with
  | zero => simp [lineOfOwnPulses, gridOf]
  | succ n ih =>
    intro g hg
    simp only [lineOfOwnPulses, gridOf, List.mem_cons] at hg
    obtain rfl | hg := hg
    · cases due number <;> rfl
    · exact ih _ _ g hg

/-! ## The header end (R74) -/

/-- The answer-allowed flag: ONLINE and unmuted, or LOOPBACK (R74). -/
theorem answerAllowed_iff (s : State) :
    answerAllowed s = true ↔ s.le.mode = .online ∧ s.le.muted = false ∨ s.le.mode = .loopback := by
  simp [answerAllowed]

/-- HEADER_END with cells that reach the end of cell 32 and a legal control byte (R74). -/
theorem exec_headerEnd_of_reached {cells line : CellsRead} {bits : BitVec 32} {h : FrameHead} {f : Frame} {s : State}
    (hf : s.le.frame = some f) (hphase : s.le.phase = .sending ∨ s.le.phase = .receiving) (hpoint : f.point = .start)
    (hline : decodedLine f 32 cells s = line) (hreach : reaches f 32 line s = true)
    (hkept : keptBits f line s = lineBits bits) (hlegal : FrameHead.ofBits bits = some h) :
    exec (.headerEnd cells) s = .next (reachHeaderEnd (followCells f line s) bits h s) := by
  have hbits : headBits f line s = bits := by
    rw [headBits, hkept, ofNat_bitsToNat_lineBits]
  subst hline
  change execHeaderEnd cells s = _
  unfold execHeaderEnd
  simp only [hf]
  rw [if_pos ⟨hphase, hpoint, hreach⟩, hbits, hlegal]

end Sys2Proof.Machine

namespace Sys2Proof.Proofs

open Sys2Proof.Machine

/-- Settles O46: the bits read up to cell 32 are the head's, of the frame followed or of the frame driven; the grid of the
internal line carries the pulses due. -/
theorem headerEnds : Obligations.HeaderEnds := by
  refine ⟨fun cells bits h f s hphase hloop hf hrole hpoint hreach hbits hlegal =>
      ⟨answerAllowed s, ?allowed, ?receiver⟩,
    fun cells line id c f s hphase hf hrole hpoint hcell hslot hc hlength hkept hline hreach =>
      ⟨answerAllowed s, answerAllowed_iff s, ?originator⟩,
    fun id c f h image drive cell part s hrole hslot hc hh himage hpart => ⟨hh.symm, ?image, ?own, fun hanswer => ?pulse⟩,
    fun f line s => ⟨rfl, rfl⟩,
    fun f last cells s => ⟨fun hloop => decodedLine_of_rxd hloop f last cells, fun hloop => ?internal⟩⟩
  case allowed => simp [answerAllowed_iff, hloop]
  case receiver =>
    rw [exec_headerEnd_of_reached hf (.inr hphase) hpoint (decodedLine_of_rxd hloop f 32 cells) hreach hbits hlegal]
    simp only [reachHeaderEnd, followCells, hrole, reduceCtorEq, decide_false]
    rfl
  case originator =>
    have himage : 32 ≤ (drivenImage f s).length := by
      rw [drivenImage_of_originator hrole hslot hc, imageBits_length]
      omega
    have hread : keptBits f line s = lineBits (drivenHead c s.ae.nodeId).bits := by
      rw [keptBits, hkept, hline, bits_of_reaches (hline ▸ hreach) (by omega) himage, hcell,
        drivenImage_of_originator hrole hslot hc, imageBits, List.append_assoc]
      exact List.take_left' (lineBits_length _)
    rw [exec_headerEnd_of_reached hf (.inl hphase) hpoint hline.symm hreach hread (FrameHead.ofBits_bits hlength)]
    simp only [reachHeaderEnd, followCells, hrole, decide_true]
    rfl
  case image =>
    rw [drivenImage_of_originator hrole hslot hc, himage, hh]
    rfl
  case own => exact ownBit_of_originator hrole image part cell
  case pulse => exact pulseIn_of_originator hrole hpart hanswer image drive
  case internal =>
    rw [decodedLine_of_loopback hloop]
    refine ⟨lineOfOwnPulses_length _ _ _ _ _, fun g hg => ?_⟩
    rw [pulses_lineOfOwnPulses _ _ _ _ _ g hg]
    cases pulseIn f (drivenImage f s) f.slotDrive g.number with
    | none => rfl
    | some p => simp [drivePulse]

end Sys2Proof.Proofs
end

section
/-! PROOFS. The response window (R16, R17, R71, R72, R76, R84): the cells of the EOD and of a slot, what the internal line
carries in a slot, and the TXD of a responder. -/

namespace Sys2Proof.Machine

/-- The cells on the grid are numbered on from the first. -/
theorem number_of_mem_gridOf (rate : RateCode) (line : CellsRead) (n e : Nat) :
    ∀ g ∈ gridOf rate n e line, n ≤ g.number ∧ g.number < n + line.length := by
  induction line generalizing n e with
  | nil => simp [gridOf]
  | cons pulses rest ih =>
    intro g hg
    simp only [gridOf, List.mem_cons] at hg
    rw [List.length_cons]
    obtain rfl | hg := hg
    · exact ⟨Nat.le_refl n, by dsimp only; omega⟩
    · obtain ⟨hlow, hhigh⟩ := ih _ _ g hg
      omega

/-! ## The cells of a frame whose head is known (R8, R16) -/

section
variable {f : Frame} {h : FrameHead} {line : CellsRead} {slot : Slot} {s : State}

/-- The shape of a frame is that of its head. -/
theorem frameShape_of_head (hhead : f.head = some h) : frameShape f = (h.length, h.mode) := by
  unfold frameShape
  rw [hhead]

/-- Cells that reach the end of cell `last` are those from the next cell to read on. -/
theorem length_of_reaches {last : Nat} (hreach : reaches f last line s = true) : f.cell + line.length = last + 1 := by
  simp only [reaches, Bool.and_eq_true, beq_iff_eq] at hreach
  exact hreach.1

/-- The first response cell of a slot. -/
theorem firstResponse_eq (length : Nat) (slot : Slot) : firstResponse length slot = 52 + 8 * length + 17 * slot.val := by
  unfold firstResponse slotStart
  omega

/-- The last check cell of a frame whose head is known. -/
theorem checkCell_of_head (hhead : f.head = some h) : checkCell f = 48 + 8 * h.length := by
  rw [checkCell, frameShape_of_head hhead]

/-- The last response cell of a slot. -/
theorem slotEndCell_of_head (hhead : f.head = some h) (slot : Slot) :
    slotEndCell f slot = 67 + 8 * h.length + 17 * slot.val := by
  rw [slotEndCell, frameShape_of_head hhead, firstResponse_eq]
  omega

/-- The slot of the window that begins at the point reached (R23). -/
theorem nextSlot_of_point (hhead : f.head = some h) (hslot : slot.val < h.mode.slotCount)
    (hpoint : slot = 0 ∧ f.point = .checkEnd ∨ ∃ k : Slot, f.point = .slot k ∧ slot.val = k.val + 1) :
    nextSlot f = some slot.val := by
  unfold nextSlot
  rw [frameShape_of_head hhead]
  obtain ⟨rfl, hp⟩ | ⟨k, hp, hk⟩ := hpoint
  · rw [hp]
    exact if_pos hslot
  · rw [hp, hk]
    exact if_pos (hk ▸ hslot)

/-- In LOOPBACK every cell of the frame lets it go on, and the internal line reaches the cell asked for (R83). -/
theorem reaches_of_loopback {last : Nat} (hloop : s.le.mode = .loopback) (hhead : f.head = some h)
    (hcell : f.cell ≤ last + 1) (hlast : last ≤ 56 + 8 * h.length + 17 * h.mode.slotCount) (cells : CellsRead) :
    reaches f last (decodedLine f last cells s) s = true := by
  have hlen : (decodedLine f last cells s).length = last + 1 - f.cell := by
    rw [decodedLine_of_loopback hloop, lineOfOwnPulses_length]
  rw [reaches, hlen, Bool.and_eq_true, beq_iff_eq, List.all_eq_true]
  refine ⟨by omega, fun g hg => ?_⟩
  obtain ⟨-, hnumber⟩ := number_of_mem_gridOf _ _ _ _ g hg
  obtain ⟨-, -, -, -, -, -, -, -, -, hnone⟩ := partOfCell_iff h.length h.mode g.number
  obtain ⟨part, hpart⟩ : ∃ part, f.partOf g.number = some part := by
    rw [← Option.ne_none_iff_exists', Frame.partOf, frameShape_of_head hhead]
    intro hn
    have := hnone.1 hn
    omega
  exact (goesOn_iff f s g).2 ⟨part, hpart, .inl hloop⟩

end

/-! ## The EOD (R71) -/

/-- A quiet EOD cell, in which nobody drives, lets the frame go on (R19, R71). -/
theorem goesOn_of_quiet_eod {f : Frame} {s : State} {g : GridCell} (hpart : f.partOf g.number = some .eod)
    (hquiet : g.pulses = []) : goesOn f s g = true := by
  refine (goesOn_iff f s g).2 ⟨.eod, hpart, .inr ?_⟩
  rw [GridCell.reading, hquiet, readCell_nil]
  rfl

/-- Two quiet cells reach the end of the EOD, on RXD and on the internal line (R71, R83). -/
theorem reaches_of_quiet_eod {f : Frame} {h : FrameHead} {s : State} (hhead : f.head = some h)
    (hcell : f.cell = 49 + 8 * h.length) :
    reaches f (50 + 8 * h.length) (decodedLine f (50 + 8 * h.length) [[], []] s) s = true := by
  by_cases hloop : s.le.mode = .loopback
  · exact reaches_of_loopback hloop hhead (by omega) (by omega) _
  · rw [decodedLine_of_rxd hloop, reaches, Bool.and_eq_true, beq_iff_eq, List.all_eq_true]
    refine ⟨by simp [hcell]; omega, fun g hg => goesOn_of_quiet_eod ?_ ?_⟩
    · obtain ⟨hlow, hhigh⟩ := number_of_mem_gridOf _ _ _ _ g hg
      obtain ⟨-, -, -, -, -, heod, -⟩ := partOfCell_iff h.length h.mode g.number
      rw [List.length_cons, List.length_singleton] at hhigh
      rw [Frame.partOf, frameShape_of_head hhead]
      exact heod.2 (by omega)
    · simp only [Frame.grid, gridOf, List.mem_cons, List.not_mem_nil, or_false] at hg
      obtain rfl | rfl := hg <;> rfl

/-! ## The drive of an answer in the cells read (R17, R76) -/

section
variable {f : Frame} {h : FrameHead} {line : CellsRead} {slot : Slot} {s : State} {a : Answer}

/-- Without an answer it may give a node's drive stays as it was. -/
theorem slotDriveAfter_of_no_answer (hno : f.answer = none ∨ f.answerAllowed = false) :
    slotDriveAfter f line s = f.slotDrive := by
  unfold slotDriveAfter
  split
  · rfl
  · next a ha => exact if_neg (by simp [hno.resolve_left (by simp [ha])])

/-- Cells that end with the answer's slot, and hold all of it, give the fate of the drive (R17). -/
theorem slotDriveAfter_of_slot (hhead : f.head = some h) (ha : f.answer = some a) (hslot : a.slot = slot)
    (hallowed : f.answerAllowed = true) (hcell : f.cell ≤ 52 + 8 * h.length + 17 * slot.val)
    (hend : f.cell + line.length = 68 + 8 * h.length + 17 * slot.val) :
    slotDriveAfter f line s = driveSlot 0 a.bits (slotReadings f line s) := by
  have hstart : 52 + 8 * h.length + 17 * slot.val - f.cell = line.length - 16 := by omega
  have hlen : ((f.grid line s).drop (line.length - 16)).length = 16 := by
    rw [List.length_drop, Frame.grid, gridOf_length]
    omega
  unfold slotDriveAfter
  simp only [ha, frameShape_of_head hhead, firstResponse_eq, hslot]
  rw [if_pos ⟨hallowed, hcell, by omega⟩, hstart, List.take_of_length_le (by omega)]
  rfl

/-- The seventeen cells of another slot leave the drive as it was (R17). -/
theorem slotDriveAfter_of_other_slot (hhead : f.head = some h) (hcell : f.cell = 51 + 8 * h.length + 17 * slot.val)
    (hend : f.cell + line.length = 68 + 8 * h.length + 17 * slot.val)
    (hother : f.answer.map (fun a => a.slot) ≠ some slot) : slotDriveAfter f line s = f.slotDrive := by
  unfold slotDriveAfter
  split
  · rfl
  · next a ha =>
    have hne : a.slot.val ≠ slot.val := fun e => hother (by rw [ha, Option.map_some, Fin.ext e])
    simp only [frameShape_of_head hhead, firstResponse_eq]
    exact if_neg (by omega)

/-! ## A slot on the internal line (R83, R84) -/

/-- While a drive goes on, the answer's bits stand in its slot's response cells (R17). -/
theorem answerBit_of_going (hhead : f.head = some h) (ha : f.answer = some a) (hallowed : f.answerAllowed = true)
    {drive : SlotDrive} (hdrive : ∀ k, drive ≠ .withdrawn k) (cell : Nat) :
    answerBit f drive cell =
      if 52 + 8 * h.length + 17 * a.slot.val ≤ cell then a.bits[cell - (52 + 8 * h.length + 17 * a.slot.val)]?
      else none := by
  unfold answerBit
  simp only [ha, frameShape_of_head hhead, firstResponse_eq, hallowed, true_and]
  split
  · cases drive with
    | withdrawn k => exact absurd rfl (hdrive k)
    | pending | complete => rfl
  · rfl

/-- An answer is sixteen bits (R17). -/
theorem Answer.bits_length (a : Answer) : a.bits.length = 16 := by simp [Answer.bits]

/-- A response cell of the internal line reads as the answer's bit, or quiet (R17, R83). -/
theorem reading_of_response (rate : RateCode) {cell : Nat} (hpart : f.partOf cell = some .response) (image : List Bool)
    (drive : SlotDrive) :
    (match pulseIn f image drive cell with
      | some p => Reading.ofSymbol (classifyPulse rate (p.cycles rate))
      | none => .quiet) = (answerBit f drive cell).elim .quiet .data := by
  unfold pulseIn
  rw [hpart]
  cases answerBit f drive cell with
  | none => rfl
  | some b =>
    simp only [Option.map_some, classify_driven]
    cases b <;> rfl

/-- The response cells of a slot read, on the internal line, as the answer's bits there, or quiet (R83, R84). -/
theorem slotReadings_of_loopback (hloop : s.le.mode = .loopback) (hhead : f.head = some h)
    (hslot : slot.val < h.mode.slotCount) (hcell : f.cell = 51 + 8 * h.length + 17 * slot.val) (cells : CellsRead) :
    slotReadings f (decodedLine f (67 + 8 * h.length + 17 * slot.val) cells s) s =
      (List.range' (52 + 8 * h.length + 17 * slot.val) 16).map
        (fun k => (answerBit f f.slotDrive k).elim .quiet .data) := by
  have hcount : 67 + 8 * h.length + 17 * slot.val + 1 - f.cell = 17 := by omega
  rw [slotReadings, Frame.grid, decodedLine_of_loopback hloop, lineOfOwnPulses_length, hcount, List.map_drop,
    readings_lineOfOwnPulses, hcell, ← List.map_drop, List.drop_range']
  refine (congrArg (List.map _) (congrArg (List.range' · 16) (by omega))).trans (List.map_congr_left fun k hk => ?_)
  rw [List.mem_range'_1] at hk
  refine reading_of_response s.ae.rate ?_ _ _
  obtain ⟨-, -, -, -, -, -, -, hresponse, -⟩ := partOfCell_iff h.length h.mode k
  rw [Frame.partOf, frameShape_of_head hhead]
  exact hresponse.2 ⟨slot.val, hslot, by omega⟩

/-- In the answer's slot the internal line carries the answer (R83, R84). -/
theorem slotReadings_of_own_answer (hloop : s.le.mode = .loopback) (hhead : f.head = some h)
    (hwindow : slot.val < h.mode.slotCount) (hcell : f.cell = 51 + 8 * h.length + 17 * slot.val)
    (hdrive : ∀ k, f.slotDrive ≠ .withdrawn k) (hallowed : f.answerAllowed = true) (ha : f.answer = some a)
    (hslot : a.slot = slot) (cells : CellsRead) :
    slotReadings f (decodedLine f (67 + 8 * h.length + 17 * slot.val) cells s) s = a.bits.map .data := by
  rw [slotReadings_of_loopback hloop hhead hwindow hcell]
  refine List.ext_getElem (by simp [Answer.bits_length]) fun i hi hi' => ?_
  have hbit : i < a.bits.length := by simpa using hi'
  simp only [List.getElem_map, List.getElem_range', Nat.one_mul]
  rw [answerBit_of_going hhead ha hallowed hdrive, hslot, if_pos (by omega), Nat.add_sub_cancel_left,
    List.getElem?_eq_getElem hbit]
  rfl

/-- In every other slot the internal line is quiet (R83, R84). -/
theorem slotReadings_of_other_slot (hloop : s.le.mode = .loopback) (hhead : f.head = some h)
    (hwindow : slot.val < h.mode.slotCount) (hcell : f.cell = 51 + 8 * h.length + 17 * slot.val)
    (hdrive : ∀ k, f.slotDrive ≠ .withdrawn k) (hallowed : f.answerAllowed = true)
    (hother : f.answer.map (fun a => a.slot) ≠ some slot) (cells : CellsRead) :
    slotReadings f (decodedLine f (67 + 8 * h.length + 17 * slot.val) cells s) s = List.replicate 16 .quiet := by
  rw [slotReadings_of_loopback hloop hhead hwindow hcell, List.eq_replicate_iff]
  refine ⟨by simp, fun r hr => ?_⟩
  obtain ⟨k, hk, rfl⟩ := List.mem_map.1 hr
  rw [List.mem_range'_1] at hk
  have hnone : answerBit f f.slotDrive k = none := by
    cases ha : f.answer with
    | none => exact answerBit_eq_none (.inl ha) _ _
    | some a =>
      have hne : a.slot.val ≠ slot.val := fun e => hother (by rw [ha, Option.map_some, Fin.ext e])
      rw [answerBit_of_going hhead ha hallowed hdrive]
      split
      · exact List.getElem?_eq_none (by rw [Answer.bits_length]; omega)
      · rfl
  rw [hnone]
  rfl

/-- The reading of a response code (R18). -/
def ResponseCode.reading : ResponseCode → SlotReading
  | .ack => .ack
  | .busy => .busy
  | .reject => .reject

/-- An answer read as driven is classified as itself (R17, R18). -/
theorem classifySlot_of_answer (a : Answer) :
    classifySlot (a.bits.map .data) = some (.read a.code.reading a.value) := by
  rw [Answer.bits, classifySlot_of_bits]
  cases a.code <;> rfl

/-- An answer read as driven is carried to its end (R17). -/
theorem driveSlot_of_answer (a : Answer) : driveSlot 0 a.bits (a.bits.map .data) = .complete :=
  (driveSlot_eq_complete_iff 0 a.bits a.bits rfl).2 rfl

/-! ## The slot ends (R72, R76) -/

/-- EOD_END with an own frame at its check end, whose window follows (R71). -/
theorem exec_eodEnd_of_reached (hf : s.le.frame = some f) (hphase : s.le.phase = .sending) (hpoint : f.point = .checkEnd)
    (hhead : f.head = some h) (hmode : h.mode ≠ .noWindow)
    (hreach : reaches f (50 + 8 * h.length) (decodedLine f (50 + 8 * h.length) [[], []] s) s = true) :
    exec .eodEnd s =
      .next (s.updLe (fun l =>
        { l with
          phase := .windowOut, txd := originatorDrive s,
          frame := some (followCells f (decodedLine f (50 + 8 * h.length) [[], []] s) s) })) := by
  have hcell : checkCell f + 2 = 50 + 8 * h.length := by
    rw [checkCell_of_head hhead]
    omega
  change execEodEnd s = _
  unfold execEodEnd
  simp only [hf, hcell, frameShape_of_head hhead]
  rw [if_pos ⟨hphase, hpoint, hmode, hreach⟩]

/-- SLOT_END of an own frame, whose cells reach the end of the next slot (R72). -/
theorem exec_slotEnd_of_windowOut {cells line : CellsRead} (hf : s.le.frame = some f) (hphase : s.le.phase = .windowOut)
    (hhead : f.head = some h) (hnext : nextSlot f = some slot.val)
    (hline : decodedLine f (67 + 8 * h.length + 17 * slot.val) cells s = line)
    (hreach : reaches f (67 + 8 * h.length + 17 * slot.val) line s = true) :
    exec (.slotEnd slot cells) s =
      .next (originatorSlotEnd (followCells f line s) slot h.mode (slotReadings f line s) s) := by
  subst hline
  change execSlotEnd slot cells s = _
  unfold execSlotEnd
  simp only [hf, slotEndCell_of_head hhead, frameShape_of_head hhead]
  rw [if_pos ⟨hphase, hnext, hreach⟩]

/-- The originator keeps the classification and drives the next mark, if there is one (R72). -/
theorem originatorSlotEnd_of_class {mode : ResponseMode} {readings : List Reading} {c : SlotClass}
    (hc : classifySlot readings = some c) (f : Frame) (slot : Slot) (s : State) :
    originatorSlotEnd f slot mode readings s =
      s.updLe (fun l =>
        { l with
          frame := some { f with point := .slot slot, slots := f.slots ++ [c] },
          txd := if slot.val + 1 < mode.slotCount then originatorDrive s else .released }) := by
  unfold originatorSlotEnd
  rw [hc]

/-- SLOT_END of a frame followed, whose cells reach the end of a later slot of the window (R76). -/
theorem exec_slotEnd_of_receiving {cells : CellsRead} (hf : s.le.frame = some f) (hphase : s.le.phase = .receiving)
    (hloop : s.le.mode ≠ .loopback) (hhead : f.head = some h) (hlater : isLaterSlot f h.mode slot = true)
    (hreach : reaches f (67 + 8 * h.length + 17 * slot.val) cells s = true) :
    exec (.slotEnd slot cells) s = .next (receiverSlotEnd (followCells f cells s) slot s) := by
  change execSlotEnd slot cells s = _
  unfold execSlotEnd
  simp only [hf, slotEndCell_of_head hhead, frameShape_of_head hhead, decodedLine_of_rxd hloop]
  rw [if_neg (by simp [hphase]), if_pos ⟨hphase, hlater, hreach⟩]

/-- A receiver's answer falls due after slot `k` when it stands in the next slot of the window (R76). -/
theorem answersNext_of_slot (hhead : f.head = some h) (hpoint : f.point = .slot slot) :
    answersNext f = true ↔
      f.answerAllowed = true ∧ slot.val + 1 < h.mode.slotCount
        ∧ f.answer.map (fun a => a.slot.val) = some (slot.val + 1) := by
  unfold answersNext nextSlot
  simp only [hpoint, frameShape_of_head hhead]
  cases f.answer with
  | none => simp
  | some a =>
    simp only [Bool.and_eq_true, beq_iff_eq, Option.map_some, Option.some.injEq]
    split
    · next hlt =>
      exact and_congr_right fun _ => ⟨fun e => ⟨hlt, (Option.some.inj e).symm⟩, fun e => congrArg some e.2.symm⟩
    · next hge => simp [hge]

end

end Sys2Proof.Machine

namespace Sys2Proof.Proofs

open Sys2Proof.Machine

/-- Settles O51: two quiet cells end the EOD; an originator classifies a slot's last sixteen cells, which on the internal
line are its own answer or quiet; a receiver goes on, with its drive judged over the slot of its answer. -/
theorem windowEvents : Obligations.WindowEvents := by
  refine ⟨fun line f h s hphase hf hpoint hhead hmode hline hcell => ?eod,
    fun f h slot cells c s hphase hf hhead hwindow hpoint honline _ hreach hc => ?originator,
    fun f h slot cells line c s hphase hf hhead hwindow hpoint hloop hrole hcell hdrive hallowed hline hc => ?loopback,
    fun f h slot cells s hphase hloop hf hhead hpoint hwindow hreach => ⟨?receiver, fun a ha hslot hallowed hcell => ?inSlot,
      fun hno => ?elsewhere⟩⟩
  case eod =>
    subst hline
    exact exec_eodEnd_of_reached hf hphase hpoint hhead hmode (reaches_of_quiet_eod hhead hcell)
  case originator =>
    have hdriving : originatorDrive s = .driving := if_pos honline
    have hrxd := decodedLine_of_rxd (s := s) (by simp [honline]) f (67 + 8 * h.length + 17 * slot.val) cells
    rw [exec_slotEnd_of_windowOut hf hphase hhead (nextSlot_of_point hhead hwindow hpoint) hrxd hreach,
      originatorSlotEnd_of_class (readings := Machine.slotReadings f cells s) hc, hdriving]
    rfl
  case loopback =>
    have hreleased : originatorDrive s = .released := if_neg (by simp [hloop])
    have hreach := reaches_of_loopback (last := 67 + 8 * h.length + 17 * slot.val) hloop hhead (by omega) (by omega) cells
    have hend := length_of_reaches hreach
    rw [← hline] at hreach hend
    have hread : classifySlot (Machine.slotReadings f line s) = some c
        ∧ slotDriveAfter f line s =
          if f.answer.map (fun a => a.slot) = some slot then .complete else f.slotDrive := by
      by_cases hown : f.answer.map (fun a => a.slot) = some slot
      · obtain ⟨a, ha, hslot⟩ := Option.map_eq_some_iff.1 hown
        have hbits := slotReadings_of_own_answer hloop hhead hwindow hcell hdrive hallowed ha hslot cells
        rw [← hline] at hbits
        rw [slotDriveAfter_of_slot hhead ha hslot hallowed (by omega) (by omega), hbits, if_pos hown,
          classifySlot_of_answer, driveSlot_of_answer, hc, ha]
        refine ⟨?_, rfl⟩
        simp only [hslot, if_true]
        rfl
      · have hquiet := slotReadings_of_other_slot hloop hhead hwindow hcell hdrive hallowed hown cells
        rw [← hline] at hquiet
        rw [slotDriveAfter_of_other_slot hhead hcell (by omega) hown, hquiet, if_neg hown]
        refine ⟨?_, rfl⟩
        rw [hc]
        cases ha : f.answer with
        | none => rfl
        | some a =>
          have hne : a.slot ≠ slot := fun e => hown (by rw [ha, Option.map_some, e])
          simp only [hne, if_false]
          rfl
    rw [exec_slotEnd_of_windowOut hf hphase hhead (nextSlot_of_point hhead hwindow hpoint) hline.symm hreach,
      originatorSlotEnd_of_class hread.1, hreleased, ite_self, ← hread.2]
    rfl
  case receiver =>
    have hlater : isLaterSlot f h.mode slot = true := by
      unfold isLaterSlot
      obtain hp | ⟨k, hp, hk⟩ := hpoint
      · simp [hp, hwindow]
      · simpa [hp, hwindow] using hk
    rw [exec_slotEnd_of_receiving hf hphase hloop hhead hlater hreach]
    have hnext := answersNext_of_slot (f := { followCells f cells s with point := .slot slot }) hhead rfl
    unfold receiverSlotEnd takeUpAnswer responderDrive
    simp only [State.updLe, hphase, hnext, true_and]
    rfl
  case inSlot =>
    exact slotDriveAfter_of_slot hhead ha hslot hallowed hcell (by
      have := length_of_reaches hreach
      omega)
  case elsewhere =>
    have hend := length_of_reaches hreach
    obtain hno | hno | ⟨hcell, hother⟩ := hno
    · exact slotDriveAfter_of_no_answer (.inl hno)
    · exact slotDriveAfter_of_no_answer (.inr hno)
    · exact slotDriveAfter_of_other_slot hhead hcell (by omega) hother

end Sys2Proof.Proofs
end

section
/-! PROOFS. The frame end and the abandonment of a frame followed (R19, R77, R105), and what is taken at a boundary phase
in HALTED (R89). -/

namespace Sys2Proof.Machine

/-! ## Boundary phases (R65, R89) -/

/-- The boundary phases (R65). -/
theorem isBoundary_iff (p : Phase) :
    p.isBoundary = true ↔ p = .off ∨ p = .joining ∨ p = .idle ∨ p = .recovering ∨ p = .fault := by
  cases p <;> simp [Phase.isBoundary]

/-- OFF: TXD released, no frame followed, the fault flag cleared with a LINE cause if it was set (R86, R89). -/
theorem goOff_eq (s : State) :
    goOff s =
      { s with
        hp := { s.hp with cause := if s.le.fault = true then s.hp.cause ||| 0x20#9 else s.hp.cause },
        le := { s.le with phase := .off, txd := .released, frame := none, fault := false } } := by
  unfold goOff clearFault
  by_cases hfault : s.le.fault = true
  · simp only [State.updLe_fields, hfault, if_true]
    rfl
  · rw [Bool.not_eq_true] at hfault
    simp only [State.updLe_fields, hfault, Bool.false_eq_true, if_false]
    rw [← hfault]
    rfl

/-- In HALTED the engine goes to OFF at a boundary phase (R89). -/
theorem atBoundary_of_halted {s : State} (hboundary : s.le.phase.isBoundary = true) (hhalted : s.hp.engine = .halted) :
    atBoundary s = goOff s := by
  unfold atBoundary
  rw [if_pos hboundary, hhalted]

/-- Inside a frame, and in RUNNING without a pending mode, nothing is taken (R85). -/
theorem atBoundary_of_nothing {s : State}
    (h : s.le.phase.isBoundary = false ∨ s.hp.engine = .running ∧ s.le.pendingMode = none) : atBoundary s = s := by
  unfold atBoundary
  obtain h | ⟨hrunning, hpending⟩ := h
  · rw [h]
    rfl
  · rw [hrunning, hpending]
    exact ite_self s

/-! ## The abandonment report (R105) -/

section
variable {s : State} {r : Reception}

/-- Without a reception record there is nothing to abandon. -/
theorem abandonReception_of_none (h : s.au.reception = none) : abandonReception s = s := by
  unfold abandonReception
  rw [h]

/-- A record that holds no cell is cleared. -/
theorem abandonReception_of_no_cell (h : s.au.reception = some r) (hcell : r.cell = none) :
    abandonReception s = clearReception s := by
  unfold abandonReception
  simp only [h, hcell]

/-- A cell still held is freed and counted in RX_FORMAT_ERRORS. -/
theorem abandonReception_of_cell (h : s.au.reception = some r) {id : CellId} (hcell : r.cell = some id) :
    abandonReception s = dropReceptionCell id (countFormatError (clearReception s)) := by
  unfold abandonReception
  simp only [h, hcell]

end

/-! ## The readings that break a frame (R10, R19) -/

/-- The format errors of a node that does not drive the cell (R19). -/
theorem isFormatError_iff (p : Part) (r : Reading) :
    isFormatError p r = true ↔
      r = .invalid ∨ r = .breakPulse ∨ (r = .sof ∧ p ≠ .sofPart)
        ∨ (r = .quiet ∧ (p = .header ∨ p = .control ∨ p = .payload ∨ p = .check ∨ p = .slotMark))
        ∨ ((∃ bit, r = .data bit) ∧ (p = .eod ∨ p = .eof)) ∨ (r = .data true ∧ p = .slotMark) := by
  cases r with
  | invalid | breakPulse | stuck | sof | quiet => cases p <;> simp [isFormatError]
  | data bit => cases p <;> simp [isFormatError]

/-- A cell in which the node drives nothing breaks the frame exactly by a reading of R19. -/
theorem attemptReading_undriven (p : Part) (r : Reading) :
    attemptReading p none r = some .formatError ↔ isFormatError p r = true := by
  cases r with
  | stuck => cases p <;> simp [attemptReading, isFormatError]
  | quiet | data _ | invalid | sof | breakPulse => simp [attemptReading]

/-- A receiver drives no data cell and no mark (R15, R16). -/
theorem ownBit_of_receiver {f : Frame} (hrole : f.role = .receiver) (s : State) (part : Part) (cell : Nat) :
    ownBit f (drivenImage f s) part cell = none := by
  have himage : drivenImage f s = [] := by
    unfold drivenImage
    rw [hrole]
  cases part with
  | slotMark => simp [ownBit, hrole]
  | header | control | payload | check | sofPart | eod | response | eof => simp [ownBit, himage]

/-- The abandonment at the last cell read, when every cell before it lets the frame go on (R77). -/
theorem abandons_append {f : Frame} {before : CellsRead} {pulses : CellPulses} {g : GridCell} {s : State}
    (hg : g = { number := f.cell + before.length, expected := gridEnd s.ae.rate f.cell f.expected before,
                pulses := pulses })
    (hbefore : ∀ g ∈ gridOf s.ae.rate f.cell f.expected before, goesOn f s g = true)
    (hdue : cellIsDue s.le.phase f g.number = true) :
    abandons f (before ++ [pulses]) s = true ↔
      cellOutcome f s g = some .formatError
        ∨ g.number = 32 ∧ goesOn f s g = true ∧ FrameHead.ofBits (headBits f (before ++ [pulses]) s) = none := by
  have hgrid : f.grid (before ++ [pulses]) s = gridOf s.ae.rate f.cell f.expected before ++ [g] := by
    rw [Frame.grid, gridOf_append, hg]
    rfl
  unfold abandons
  rw [hgrid, List.getLast?_concat, List.dropLast_concat]
  simp only [hdue, List.all_eq_true.mpr hbefore, Bool.and_self, Bool.true_and, Bool.or_eq_true, Bool.and_eq_true,
    beq_iff_eq, and_assoc]

/-- A receiver that has read up to cell 32 abandons the frame there exactly when the control byte is illegal (R10, R77). -/
theorem abandons_of_header {f : Frame} {cells : CellsRead} {bits : BitVec 32} {s : State}
    (hphase : s.le.phase = .receiving) (hpoint : f.point = .start) (hcell : f.cell ≤ 32)
    (hreach : reaches f 32 cells s = true) (hkept : keptBits f cells s = lineBits bits) :
    abandons f cells s = true ↔ FrameHead.ofBits bits = none := by
  have hlen := length_of_reaches hreach
  obtain ⟨before, pulses, rfl⟩ : ∃ before pulses, cells = before ++ [pulses] :=
    ⟨cells.dropLast, cells.getLast (by rintro rfl; simp at hlen; omega), (List.dropLast_concat_getLast _).symm⟩
  rw [List.length_append, List.length_singleton] at hlen
  have hnumber : f.cell + before.length = 32 := by omega
  rw [reaches, Bool.and_eq_true, List.all_eq_true, Frame.grid, gridOf_append] at hreach
  obtain ⟨-, hall⟩ := hreach
  have hgoes := hall _ (List.mem_append_right _ (List.mem_singleton_self _))
  obtain ⟨-, hnone⟩ := Bool.and_eq_true_iff.1 hgoes
  rw [beq_iff_eq] at hnone
  have hdue : cellIsDue s.le.phase f (f.cell + before.length) = true := by
    rw [hphase, hnumber]
    simp [cellIsDue, hpoint]
  rw [abandons_append rfl (fun g hg => hall g (List.mem_append_left _ hg)) hdue, hnone, headBits, hkept,
    ofNat_bitsToNat_lineBits]
  exact ⟨fun h => (h.resolve_left nofun).2.2, fun h => .inr ⟨hnumber, hgoes, h⟩⟩

/-! ## The events -/

/-- FRAME_END past the check end, with cells that reach the last EOF cell (R77). -/
theorem exec_frameEnd_of_reached {cells : CellsRead} {f : Frame} {h : FrameHead} {s : State}
    (hphase : s.le.phase = .receiving) (hf : s.le.frame = some f) (hhead : f.head = some h) (hstart : f.point ≠ .start)
    (hheader : f.point ≠ .headerEnd)
    (hreach : reaches f (56 + 8 * h.length + 17 * h.mode.slotCount) cells s = true) (quiet : Nat) :
    exec (.frameEnd { cells := cells, quiet := quiet }) s = .next (conclude (endFrame quiet s)) := by
  have hpast : pastCheck f = true := by
    unfold pastCheck
    cases hp : f.point with
    | start => exact absurd hp hstart
    | headerEnd => exact absurd hp hheader
    | checkEnd | slot _ => rfl
  change execFrameEnd _ s = _
  unfold execFrameEnd
  simp only [hf, frameShape_of_head hhead]
  rw [if_pos ⟨hphase, hpast, hreach⟩]

/-- FRAME_ABANDONED of a frame that breaks at the last cell read (R77). -/
theorem exec_frameAbandoned_of_abandons {cells : CellsRead} {f : Frame} {s : State} (hphase : s.le.phase = .receiving)
    (hf : s.le.frame = some f) (h : abandons f cells s = true) (quiet : Nat) :
    exec (.frameAbandoned cells quiet) s = .next (conclude (abandonFrame quiet s)) := by
  change execFrameAbandoned cells quiet s = _
  unfold execFrameAbandoned
  simp only [hf]
  rw [if_pos ⟨hphase, h⟩]

end Sys2Proof.Machine

namespace Sys2Proof.Proofs

open Sys2Proof.Machine

/-- Settles O52: a receiver drives nothing, so that R19 alone breaks its frame; both ends clear the record and take what
waits at a boundary phase. -/
theorem frameEnds : Obligations.FrameEnds := by
  refine ⟨fun cells quiet f h s hphase hf hhead hstart hheader hreach =>
      exec_frameEnd_of_reached hphase hf hhead hstart hheader hreach quiet,
    fun cells quiet f s u hphase hf h hu => hu ▸ exec_frameAbandoned_of_abandons hphase hf h quiet,
    ⟨fun s h => abandonReception_of_none h, fun r s h hcell => abandonReception_of_no_cell h hcell,
      fun r id c s v h hcell hc hv => ?freed⟩,
    ⟨fun f before pulses part number expected s hn he hbefore hphase hloop hrole hdue hpart => ?formatError,
      fun f cells bits s hphase hpoint hcell hreach hkept =>
        (abandons_of_header hphase hpoint hcell hreach hkept).trans FrameHead.ofBits_eq_none,
      isFormatError_iff⟩,
    isBoundary_iff, fun s hboundary hhalted => (atBoundary_of_halted hboundary hhalted).trans (goOff_eq s),
    fun s h => atBoundary_of_nothing h,
    fun cells quiet f h s hphase hf hhead hstart hheader hhalted hreach => ?halted⟩
  case freed =>
    rw [abandonReception_of_cell h hcell, dropReceptionCell_eq (s := countFormatError (clearReception s)) (v := v) hc hv]
    rfl
  case formatError =>
    subst hn he
    have hbreaks : cellOutcome f s
        { number := f.cell + before.length, expected := gridEnd s.ae.rate f.cell f.expected before,
          pulses := pulses } = some .formatError ↔
        isFormatError part (readCell s.ae.rate (gridEnd s.ae.rate f.cell f.expected before) pulses) = true := by
      rw [cellOutcome, if_neg hloop]
      simp only [hpart, ownBit_of_receiver hrole]
      exact attemptReading_undriven _ _
    rw [abandons_append rfl hbefore (hphase ▸ hdue), hbreaks]
    exact ⟨fun hn => or_iff_left fun h => hn h.1, fun _ => .inl⟩
  case halted =>
    refine ⟨_, exec_frameEnd_of_reached hphase hf hhead hstart hheader hreach quiet, ?_⟩
    have hoff := atBoundary_of_halted (s := (clearReception s).updLe fun l =>
      { l with phase := .idle, frame := none, txd := .released, quietRun := quiet }) rfl hhalted
    rw [endFrame, hoff, goOff_eq]
    simp only [conclude_frame, and_self]

end Sys2Proof.Proofs
end

section
/-! PROOFS. The check end (R12, R75, R76, R102 to R104, R132, R141): the payload and the check read, the report of the
result, and the TXD of a responder whose slot comes next. -/

namespace Sys2Proof.Machine

/-! ## The payload and the check as read (R8, R71, R75) -/

/-- An originator at its check end has read the payload and the check it drives (R71, R75). -/
theorem payload_and_check_of_originator {f : Frame} {h : FrameHead} {id : CellId} {c : TxCell} {s : State}
    {cells : CellsRead} (hrole : f.role = .originator) (hcell : f.cell = 33) (hslot : s.le.slot = some id)
    (hc : s.cell id = .tx c) (hhead : f.head = some h) (hh : h = drivenHead c s.ae.nodeId)
    (hlength : c.payload.length = c.length)
    (hreach : reaches f (48 + 8 * h.length) (decodedLine f (48 + 8 * h.length) cells s) s = true) :
    payloadRead f (decodedLine f (48 + 8 * h.length) cells s) s = c.payload
      ∧ checkRead f (decodedLine f (48 + 8 * h.length) cells s) s = frameCheck h.bits c.payload := by
  have himage := drivenImage_of_originator hrole hslot hc
  have hhl : h.length = c.payload.length := by rw [hh, hlength]; rfl
  have hbits : dataBits s.ae.rate (f.grid (decodedLine f (48 + 8 * h.length) cells s) s) =
      payloadBits c.payload ++ lineBits (frameCheck h.bits c.payload) := by
    rw [bits_of_reaches hreach (by rw [frameShape_of_head hhead]) (by rw [himage, imageBits_length, hhl]), himage, hcell,
      ← hh, imageBits, List.append_assoc, List.drop_left' (lineBits_length _)]
    exact List.take_of_length_le (by simp [hhl]; omega)
  rw [payloadRead, checkRead, hbits, frameShape_of_head hhead, hhl, bytesOfBits_payloadBits,
    List.drop_left' (payloadBits_length _), ofNat_bitsToNat_lineBits]
  exact ⟨rfl, rfl⟩

/-- CHECK_END with cells that reach the last check cell (R75). -/
theorem exec_checkEnd_of_reached {payloadCells checkCells line : CellsRead} {f : Frame} {h : FrameHead} {s : State}
    (hf : s.le.frame = some f) (hphase : s.le.phase = .sending ∨ s.le.phase = .receiving)
    (hpoint : f.point = .headerEnd) (hhead : f.head = some h)
    (hline : decodedLine f (48 + 8 * h.length) (payloadCells ++ checkCells) s = line)
    (hreach : reaches f (48 + 8 * h.length) line s = true) :
    exec (.checkEnd payloadCells checkCells) s =
      .next (conclude (reachCheckEnd (followCells f line s) (payloadRead f line s) (checkRead f line s) s)) := by
  subst hline
  change execCheckEnd payloadCells checkCells s = _
  unfold execCheckEnd
  simp only [hf, checkCell_of_head hhead]
  rw [if_pos ⟨hphase, hpoint, hreach⟩]

/-! ## The report of the result (R102 to R104) -/

section
variable {r : Reception} {id : CellId} {s : State}

/-- A good check of a stored frame commits it (R102). -/
theorem checkCall_of_commit (hr : s.au.reception = some r) (hcell : r.cell = some id) {c : RxCell}
    (hc : s.cell id = .rx c) (payload : List Byte) :
    checkCall true payload s =
      commitToRing c.ring id
        (countRxAccepted
          ((settleReception true r.answer r s).setCell id
            (.rx { c with payload := payload, arrivalTick := s.sch.tick, answer := confirmedSlot r.answer }))) := by
  unfold checkCall commitReception
  simp only [hr, hcell, hc, if_true]

/-- A good check of a frame without a cell confirms its answer (R103). -/
theorem checkCall_of_confirm (hr : s.au.reception = some r) (hcell : r.cell = none) (payload : List Byte) :
    checkCall true payload s = confirmAnswer r s := by
  unfold checkCall
  simp only [hr, hcell, if_true]

/-- A bad check of a frame without a cell cancels its answer (R104). -/
theorem checkCall_of_cancel (hr : s.au.reception = some r) (hcell : r.cell = none) (payload : List Byte) :
    checkCall false payload s = settleReception false none r s := by
  unfold checkCall cancelReception
  simp only [hr, hcell, Bool.false_eq_true, if_false]

/-- A bad check of a stored frame frees its cell, and counts it (R104). -/
theorem checkCall_of_drop (hr : s.au.reception = some r) (hcell : r.cell = some id) (payload : List Byte) :
    checkCall false payload s = dropReceptionCell id (countCheckError (settleReception false none r s)) := by
  unfold checkCall cancelReception
  simp only [hr, hcell, Bool.false_eq_true, if_false]

/-- An answer confirmed at a good check: a BUSY is counted (R103). -/
theorem confirmAnswer_eq (r : Reception) (s : State) :
    confirmAnswer r s =
      updCounters
        (fun c =>
          if r.answer.map (fun a => a.code) = some .busy then { c with busyAnswered := satInc c.busyAnswered } else c)
        (settleReception true r.answer r s) := by
  unfold confirmAnswer
  cases r.answer with
  | none => rfl
  | some a =>
    obtain ⟨slot, code, value⟩ := a
    cases code <;> rfl

end

/-! ## TXD at the check end (R76) -/

/-- TXD taken up before a commit is TXD taken up after it. -/
theorem takeUpAnswer_commitToRing (r : ArrivalId) (id : CellId) (s : State) :
    takeUpAnswer (commitToRing r id s) = commitToRing r id (takeUpAnswer s) :=
  (commitToRing_updLe r id _ s).symm

/-- TXD taken up before the close of a ring is TXD taken up after it. -/
theorem takeUpAnswer_arrivalClosed (r : ArrivalId) (s : State) :
    takeUpAnswer (arrivalClosed r s) = arrivalClosed r (takeUpAnswer s) :=
  (arrivalClosed_updLe r _ s).symm

/-- A receiver's answer falls due after the check end when it stands in the first slot of a window (R76). -/
theorem answersNext_of_checkEnd {f : Frame} {h : FrameHead} (hhead : f.head = some h) (hpoint : f.point = .checkEnd) :
    answersNext f = true ↔
      f.answerAllowed = true ∧ h.mode ≠ .noWindow ∧ f.answer.map (fun a => a.slot) = some 0 := by
  have hwindow : 0 < h.mode.slotCount ↔ h.mode ≠ .noWindow := by cases h.mode <;> simp [ResponseMode.slotCount]
  unfold answersNext nextSlot
  simp only [hpoint, frameShape_of_head hhead]
  cases f.answer with
  | none => simp
  | some a =>
    simp only [Bool.and_eq_true, beq_iff_eq, Option.map_some, Option.some.injEq]
    split
    · next hw =>
      exact and_congr_right fun _ =>
        ⟨fun e => ⟨hwindow.1 hw, Fin.ext (Option.some.inj e).symm⟩, fun e => by rw [e.2]; rfl⟩
    · next hw => simp [mt hwindow.2 hw]

/-- The state at the check end before the report: the register has run, and TXD is released (R71, R75). -/
def checkRun (f : Frame) (register : BitVec 16) (s : State) : State :=
  s.updLe (fun l =>
    { l with frame := some { f with point := .checkEnd, checkRegister := register }, txd := .released })

/-- The state at the check end with the reception settled, before TXD is taken up (R75). -/
def checkSettled (f : Frame) (register : BitVec 16) (good : Bool) (r : Reception) (s : State) : State :=
  settleReception good (if good = true then r.answer else none) r (checkRun f register s)

/-- The check end is the report of the result, and the answer taken up (R75, R76). -/
theorem reachCheckEnd_eq {f : Frame} {payload : List Byte} {register : BitVec 16}
    (h : register = runCheck f.checkRegister (payloadBits payload)) (check : BitVec 16) (s : State) :
    reachCheckEnd f payload check s =
      takeUpAnswer (checkCall (register == check) payload (checkRun f register s)) := by
  subst h
  rfl

/-- After a settled reception a responder drives when the check is good and its answer stands in the first slot of the
window (R64, R76). -/
theorem takeUpAnswer_checkSettled {f : Frame} {h : FrameHead} (hhead : f.head = some h) (register check : BitVec 16)
    (r : Reception) (s : State) :
    takeUpAnswer (checkSettled f register (register == check) r s) =
      { s with
        le := { s.le with
          txd :=
            if s.le.phase = .receiving ∧ s.le.mode = .online ∧ s.le.muted = false ∧ f.answerAllowed = true
                ∧ register = check ∧ h.mode ≠ .noWindow ∧ r.answer.map (fun a => a.slot) = some 0 then .driving
            else .released,
          frame := some
            { f with
              point := .checkEnd, checkRegister := register, answer := if register = check then r.answer else none } },
        au := { s.au with
          reception := some
            { r with
              check := some (decide (register = check)), cell := none,
              answer := if register = check then r.answer else none } } } := by
  have hnext := answersNext_of_checkEnd
    (f := { f with
      point := .checkEnd, checkRegister := register, answer := if register = check then r.answer else none }) hhead rfl
  unfold takeUpAnswer checkSettled checkRun settleReception beginReception responderDrive
  simp only [State.updLe, State.updAu, Option.map_some, beq_iff_eq, hnext]
  by_cases hcheck : register = check
  · simp [hcheck]
  · simp [hcheck]

/-! ## The handing over of a cell (R132, R141) -/

/-- On an OPEN ring the cell joins the tail of the pending list (R132). -/
theorem commitToRing_opened {r : ArrivalId} {s : State} (h : (s.arrival r).state = .opened) (id : CellId) :
    commitToRing r id s = arrivalDecision (s.setArrivalPending r (s.arrivalPending r ++ [id])) := if_pos h

/-- The slot an ACK is confirmed in: that of an answer whose code is ACK (R102). -/
theorem confirmedSlot_eq (answer : Option Answer) :
    confirmedSlot answer =
      match answer with
      | some { slot := slot, code := .ack, value := _ } => some slot
      | _ => none := by
  cases answer with
  | none => rfl
  | some a =>
    obtain ⟨slot, code, value⟩ := a
    cases code <;> rfl

end Sys2Proof.Machine

namespace Sys2Proof.Proofs

open Sys2Proof.Machine

/-- Settles O49: the bits read give payload and check; the result is reported by check and cell, and TXD is taken up from
the settled reception, which neither the commit nor the drop of a cell touches. -/
theorem checkEnds : Obligations.CheckEnds := by
  refine ⟨fun payloadCells checkCells line payload check register f h r s u hf hpoint hhead hline hreach hread hr hregister
      hu => ?_, fun r id s h => commitToRing_opened h id, fun r id c s v hs hc hring hv => ?closed⟩
  case closed =>
    refine commitToRing_closed hs hc hring (hv.trans ?_)
    simp only [satInc_eq (top := (0xFFFF : BitVec 16)) rfl]
  have hphase : s.le.phase = .sending ∨ s.le.phase = .receiving := by
    obtain ⟨hp, -⟩ | ⟨hp, -⟩ := hread
    · exact .inr hp
    · exact .inl hp
  obtain ⟨hpayload, hcheck⟩ : payloadRead f line s = payload ∧ checkRead f line s = check := by
    obtain ⟨-, hpayload, hcheck⟩ | ⟨-, hrole, hcell, id, c, hslot, hc, hh, hlength, hpayload, hcheck⟩ := hread
    · rw [payloadRead, checkRead, frameShape_of_head hhead]
      exact ⟨hpayload.symm, hcheck.symm⟩
    · rw [hpayload, hcheck, hline]
      exact payload_and_check_of_originator hrole hcell hslot hc hhead hh hlength (hline ▸ hreach)
  have hsettled : takeUpAnswer (checkSettled (followCells f line s) register (register == check) r s) = u :=
    (takeUpAnswer_checkSettled (f := followCells f line s) hhead register check r s).trans hu.symm
  rw [exec_checkEnd_of_reached hf hphase hpoint hhead hline.symm hreach, hpayload, hcheck,
    reachCheckEnd_eq (f := followCells f line s) hregister]
  refine ⟨fun id c hgood hcell hc => ?commit, fun hgood hcell => ?confirm, fun hbad hcell => ?cancel,
    fun id c hbad hcell hc => ⟨_, rfl, ?drop⟩⟩
  case commit =>
    have hgood' : (register == check) = true := beq_iff_eq.2 hgood
    rw [hgood'] at hsettled ⊢
    rw [checkCall_of_commit (s := checkRun _ _ s) hr hcell hc, takeUpAnswer_commitToRing, confirmedSlot_eq, ← hsettled]
    rfl
  case confirm =>
    have hgood' : (register == check) = true := beq_iff_eq.2 hgood
    rw [hgood'] at hsettled ⊢
    rw [checkCall_of_confirm (s := checkRun _ _ s) hr hcell, confirmAnswer_eq, ← hsettled]
    obtain ⟨entry, action, solicited, cell, answer, result⟩ := r
    cases answer with
    | none => rfl
    | some a =>
      obtain ⟨slot, code, value⟩ := a
      cases code <;> rfl
  case cancel =>
    have hbad' : (register == check) = false := beq_eq_false_iff_ne.2 hbad
    rw [hbad'] at hsettled ⊢
    rw [checkCall_of_cancel (s := checkRun _ _ s) hr hcell, ← hsettled]
    rfl
  case drop =>
    have hbad' : (register == check) = false := beq_eq_false_iff_ne.2 hbad
    rw [hbad'] at hsettled ⊢
    rw [checkCall_of_drop (s := checkRun _ _ s) hr hcell,
      dropReceptionCell_eq (s := countCheckError (settleReception false none r (checkRun _ _ s))) hc rfl,
      apply_ite takeUpAnswer, takeUpAnswer_arrivalClosed, ← hsettled]
    rfl

end Sys2Proof.Proofs
end

section
/-! PROOFS. FILTER_WRITE and FILTER_READ, and the form of an acceptance entry (R107, R108, R170, R171, 11.5). -/

namespace Sys2Proof.Machine

/-! ## Action codes (11.5) -/

/-- The code of an action names it (R170). -/
@[simp] theorem Action.ofCode_code (a : Action) : ofCode a.code = some a := by
  cases a <;> rfl

/-- A code that names an action is that action's (R170). -/
theorem Action.code_of_ofCode {b : Byte} {a : Action} (h : ofCode b = some a) : a.code = b := by
  unfold ofCode at h
  split_ifs at h with hcode hcode hcode
  all_goals
    obtain rfl := Option.some.inj h
    exact hcode.symm

/-! ## Flag bits and numbers in a byte (11.5) -/

/-- In a flags byte bit 0 is the valid flag, bit 1 the respond flag, and the others are reserved (11.5). -/
theorem extract_of_append_flags (reserved : BitVec 6) (respond valid : Bool) :
    (reserved ++ BitVec.ofBool respond ++ BitVec.ofBool valid).getLsbD 0 = valid
      ∧ (reserved ++ BitVec.ofBool respond ++ BitVec.ofBool valid).getLsbD 1 = respond
      ∧ (reserved ++ BitVec.ofBool respond ++ BitVec.ofBool valid).extractLsb' 2 6 = reserved := by
  refine ⟨?_, ?_, ?_⟩
  · rw [BitVec.getLsbD_append]
    simp
  · rw [BitVec.getLsbD_append, BitVec.getLsbD_append]
    simp
  · simp (disch := decide) [BitVec.extractLsb'_append_eq_of_le, -Nat.reduceAdd]

/-- A flags byte is its reserved bits, its respond flag and its valid flag (11.5). -/
theorem append_of_extract_flags (flags : Byte) :
    flags.extractLsb' 2 6 ++ BitVec.ofBool (flags.getLsbD 1) ++ BitVec.ofBool (flags.getLsbD 0) = flags := by
  refine BitVec.eq_of_getLsbD_eq fun i hi => ?_
  rw [BitVec.getLsbD_append, BitVec.getLsbD_append]
  match i, hi with
  | 0, _ => simp
  | 1, _ => simp
  | i + 2, hi => simp [show i < 6 by omega, Nat.add_comm 2 i]

/-- A number below 256 keeps its value in a byte. -/
theorem toNat_ofNat_val {n : Nat} (hn : n ≤ 256) (x : Fin n) : (BitVec.ofNat 8 x.val).toNat = x.val := by
  rw [BitVec.toNat_ofNat]
  exact Nat.mod_eq_of_lt (x.isLt.trans_le hn)

/-- A byte within the range of a number is that number's. -/
theorem ofNat_val_ofNat {n : Nat} [NeZero n] {b : Byte} (hb : b.toNat < n) :
    BitVec.ofNat 8 (Fin.ofNat n b.toNat).val = b := by
  rw [Fin.val_ofNat, Nat.mod_eq_of_lt hb, BitVec.ofNat_toNat, BitVec.setWidth_eq]

/-- A topic keeps its value in a byte. -/
theorem toNat_setWidth_topic (x : BitVec 6) : (x.setWidth 8).toNat = x.toNat :=
  BitVec.toNat_setWidth_of_le (by decide)

/-- A topic is the low six bits of its byte. -/
theorem extractLsb'_setWidth_topic (x : BitVec 6) : (x.setWidth 8).extractLsb' 0 6 = x := by
  refine BitVec.eq_of_toNat_eq ?_
  rw [BitVec.extractLsb'_toNat, Nat.shiftRight_zero, toNat_setWidth_topic]
  exact Nat.mod_eq_of_lt x.isLt

/-- A byte below 64 is its low six bits. -/
theorem setWidth_extractLsb'_topic {b : Byte} (hb : b.toNat < 64) : (b.extractLsb' 0 6).setWidth 8 = b := by
  refine BitVec.eq_of_toNat_eq ?_
  rw [toNat_setWidth_topic, BitVec.extractLsb'_toNat, Nat.shiftRight_zero]
  exact Nat.mod_eq_of_lt hb

/-! ## The form of an entry (11.5) -/

/-- The form of an entry spells the entry with hit count 0 (R170, R171). -/
theorem entryOfForm_toForm (e : Entry) : entryOfForm e.toForm = some { e with hits := 0 } := by
  obtain ⟨hvalid, hrespond, hreserved⟩ := extract_of_append_flags 0#6 e.respond e.valid
  have hring := toNat_ofNat_val (by decide) e.ring
  have hslot := toNat_ofNat_val (by decide) e.slot
  have hvalue := toNat_setWidth_topic e.topicValue
  have hmask := toNat_setWidth_topic e.topicMask
  unfold entryOfForm Entry.toForm
  simp only [Action.ofCode_code]
  rw [if_pos ⟨hreserved, hring.trans_lt e.ring.isLt, hslot.trans_lt e.slot.isLt, hvalue.trans_lt e.topicValue.isLt,
    hmask.trans_lt e.topicMask.isLt⟩, hvalid, hrespond, hring, hslot, Fin.ofNat_val_eq_self, Fin.ofNat_val_eq_self,
    extractLsb'_setWidth_topic, extractLsb'_setWidth_topic]

/-- A form that spells an entry is that entry's (R170, R193). -/
theorem toForm_of_entryOfForm {f : EntryForm} {e : Entry} (h : entryOfForm f = some e) : e.toForm = f := by
  unfold entryOfForm at h
  split at h
  · cases h
  · next action haction =>
    split at h
    · next hlegal =>
      obtain ⟨hreserved, hring, hslot, hvalue, hmask⟩ := hlegal
      obtain rfl := Option.some.inj h
      unfold Entry.toForm
      simp only [← hreserved, append_of_extract_flags, Action.code_of_ofCode haction, ofNat_val_ofNat hring,
        ofNat_val_ofNat hslot, setWidth_extractLsb'_topic hvalue, setWidth_extractLsb'_topic hmask]
    · cases h

/-- An entry spelled by a form has hit count 0 (R107). -/
theorem hits_of_entryOfForm {f : EntryForm} {e : Entry} (h : entryOfForm f = some e) : e.hits = 0 := by
  have hself : some { e with hits := 0 } = some e := by rw [← entryOfForm_toForm, toForm_of_entryOfForm h, h]
  exact (congrArg Entry.hits (Option.some.inj hself)).symm

/-! ## The end of a command (R162) -/

/-- A command ended where its record's read has ended leaves its result, and the engine IDLE (R159, R162). -/
theorem endCommand_adminExecuting (tag : Word) (c : AdminCommand) (status : AdminStatus) (area : List Byte) (s : State) :
    endCommand status area (adminExecuting tag c s) = adminResulted tag status area s := by
  rw [endCommand_of_current (s := adminExecuting tag c s) rfl]
  rfl

/-- A table write before the end of a command is one after it (R107). -/
theorem endCommand_setEntry (status : AdminStatus) (area : List Byte) (i : Fin 32) (e : Entry) (s : State) :
    endCommand status area (s.setEntry i e) = (endCommand status area s).setEntry i e := by
  have hcurrent : (s.setEntry i e).ae.current = s.ae.current := rfl
  unfold endCommand
  rw [hcurrent]
  cases s.ae.current <;> rfl

end Sys2Proof.Machine

namespace Sys2Proof.Proofs

open Sys2Proof.Machine

/-- Settles O26: each row executes its command in its own event, and the form and the entry determine each other, but for
the hit count. -/
theorem acceptanceTableCommands : Obligations.AcceptanceTableCommands := by
  refine ⟨⟨fun tag index f e s hdue hindex hf => ⟨?write, hits_of_entryOfForm hf⟩, fun tag index s hdue hindex => ?read⟩,
    ⟨fun f => rfl, fun e => ⟨extract_of_append_flags 0#6 e.respond e.valid, rfl, toNat_ofNat_val (by decide) e.ring,
      toNat_ofNat_val (by decide) e.slot, rfl, rfl, rfl, toNat_setWidth_topic _, toNat_setWidth_topic _, rfl, rfl⟩⟩,
    entryOfForm_toForm, fun f e hf => toForm_of_entryOfForm hf⟩
  case write =>
    have hrange : adminInRange (.filterWrite index f) = true := by
      simp [adminInRange, hindex, hf]
    change Host.Outcome.next (adminCommandEnd tag (.filterWrite index f) 0 s) = _
    rw [adminCommandEnd_of_due hdue, judgeCommand_of_passed hrange rfl]
    simp only [performCommand, performFilterWrite, hf, endCommand_setEntry, endCommand_adminExecuting]
    rfl
  case read =>
    have hrange : adminInRange (.filterRead index) = true := by
      simp [adminInRange, hindex]
    change Host.Outcome.next (adminCommandEnd tag (.filterRead index) 0 s) = _
    rw [adminCommandEnd_of_due hdue, judgeCommand_of_passed hrange rfl]
    simp only [performCommand, performFilterRead, endCommand_adminExecuting]
    rfl

end Sys2Proof.Proofs
end

section
/-! PROOFS. Masked matching and the entry that decides (R92, R93). -/

namespace Sys2Proof.Machine

/-! ## Masked fields (R92) -/

/-- A masked comparison looks at the bits set in the mask (R92). -/
theorem maskedEq_iff {w : Nat} (field value mask : BitVec w) :
    maskedEq field value mask = true ↔
      ∀ i < w, mask.getLsbD i = true → field.getLsbD i = value.getLsbD i := by
  rw [maskedEq, beq_iff_eq, BitVec.eq_of_getLsbD_eq_iff]
  refine forall₂_congr fun i _ => ?_
  rw [BitVec.getLsbD_and, BitVec.getLsbD_and]
  cases mask.getLsbD i <;> simp

/-- Value bits outside the mask play no part (R92). -/
theorem maskedEq_congr {w : Nat} {v value mask : BitVec w} (h : v &&& mask = value &&& mask) (field : BitVec w) :
    maskedEq field v mask = maskedEq field value mask := by
  rw [maskedEq, h, maskedEq]

/-- Mask 0 matches every value (R92). -/
theorem maskedEq_zero {w : Nat} (field value : BitVec w) : maskedEq field value 0#w = true := by
  simp [maskedEq]

/-- The full mask matches one value (R92). -/
theorem maskedEq_allOnes {w : Nat} (field value : BitVec w) :
    maskedEq field value (BitVec.allOnes w) = true ↔ field = value := by
  simp [maskedEq]

/-- A mask of all bits from `k` on matches the fields that lie in the value's block of `2 ^ k` (R92). -/
theorem maskedEq_of_block {w k : Nat} {mask : BitVec w} (hmask : mask = BitVec.allOnes w <<< k)
    (field value : BitVec w) :
    maskedEq field value mask = true ↔ field.toNat / 2 ^ k = value.toNat / 2 ^ k := by
  subst hmask
  rw [maskedEq_iff, ← Nat.shiftRight_eq_div_pow, ← Nat.shiftRight_eq_div_pow, ← BitVec.toNat_ushiftRight,
    ← BitVec.toNat_ushiftRight, BitVec.toNat_inj, BitVec.eq_of_getLsbD_eq_iff]
  simp only [BitVec.getLsbD_ushiftRight, BitVec.getLsbD_shiftLeft, BitVec.getLsbD_allOnes]
  constructor
  · intro h i _
    by_cases hi : k + i < w
    · exact h (k + i) hi (by simp; omega)
    · rw [BitVec.getLsbD_of_ge _ _ (by omega), BitVec.getLsbD_of_ge _ _ (by omega)]
  · intro h i hi hmask
    have hk : k ≤ i := by simp at hmask; omega
    have hbit := h (i - k) (by omega)
    rwa [Nat.add_sub_cancel' hk] at hbit

/-! ## Entries (R92) -/

/-- An entry matches by its valid flag and its three masked fields (R92). -/
theorem Entry.matchesHead_iff (e : Entry) (h : FrameHead) :
    e.matchesHead h = true ↔
      e.valid = true ∧ maskedEq h.target e.targetValue e.targetMask = true
        ∧ maskedEq h.topic e.topicValue e.topicMask = true ∧ maskedEq h.source e.sourceValue e.sourceMask = true := by
  simp [Entry.matchesHead, and_assoc]

/-! ## The deciding entry (R93) -/

/-- The deciding entry is the matching one that no matching entry stands below (R93). -/
theorem decidingEntry_eq_some_iff (i : Fin 32) (h : FrameHead) (s : State) :
    decidingEntry s h = some i ↔
      (s.entry i).matchesHead h = true ∧ ∀ j < i, (s.entry j).matchesHead h = false := by
  rw [decidingEntry, ← Fin.find?_eq_find?_finRange, Fin.find?_eq_some_iff]

/-- No entry decides a frame that none matches (R93). -/
theorem decidingEntry_eq_none_iff (h : FrameHead) (s : State) :
    decidingEntry s h = none ↔ ∀ i, (s.entry i).matchesHead h = false := by
  rw [decidingEntry, ← Fin.find?_eq_find?_finRange, Fin.find?_eq_none_iff]

/-- A frame that is not exempt is decided by the first entry that matches (R93, R95). -/
theorem headerCall_of_first {i : Fin 32} {h : FrameHead} {own : Bool} {s : State}
    (hexempt : ¬(own = true ∧ (s.le.mode = .listen ∨ s.le.mode = .online)))
    (hmatch : (s.entry i).matchesHead h = true) (hfirst : ∀ j < i, (s.entry j).matchesHead h = false) (allowed : Bool) :
    headerCall h own allowed s = decideFrame i h allowed s := by
  unfold headerCall
  rw [if_neg hexempt, (decidingEntry_eq_some_iff i h s).2 ⟨hmatch, hfirst⟩]

end Sys2Proof.Machine

namespace Sys2Proof.Proofs

open Sys2Proof.Machine

/-- Settles O47: an entry matches by its masked fields, which are judged bit by bit; the guide's examples are masks of all
bits from one place on. -/
theorem acceptanceMatching : Obligations.AcceptanceMatching := by
  refine ⟨fun e h => ?bits, fun i h own allowed s hexempt hmatch hfirst =>
      headerCall_of_first hexempt hmatch hfirst allowed,
    fun cells bits h f s hphase hloop hf hpoint hreach hbits hlegal => ?handed, fun e h hvalid ht hp hs => ?every,
    fun e h hvalid ht hp hs => ?one, maskedEq_zero, maskedEq_zero, fun e h v hv => ?target, fun e h v hv => ?topic,
    fun e h v hv => ?source, fun t => ?group, fun t => maskedEq_allOnes t 0, fun v t _ => maskedEq_allOnes t v,
    fun t => ?block⟩
  case bits => simp only [Entry.matchesHead_iff, maskedEq_iff]
  case handed =>
    rw [exec_headerEnd_of_reached hf (.inr hphase) hpoint (decodedLine_of_rxd hloop f 32 cells) hreach hbits hlegal]
    exact ⟨_, _, s.updLe _, rfl, rfl⟩
  case every =>
    rw [Entry.matchesHead_iff, ht, hp, hs]
    exact ⟨hvalid, maskedEq_zero _ _, maskedEq_zero _ _, maskedEq_zero _ _⟩
  case one =>
    rw [Entry.matchesHead_iff, ht, hp, hs, and_iff_right hvalid]
    exact and_congr (maskedEq_allOnes _ _) (and_congr (maskedEq_allOnes _ _) (maskedEq_allOnes _ _))
  case target => simp only [Entry.matchesHead, maskedEq_congr hv]
  case topic => simp only [Entry.matchesHead, maskedEq_congr hv]
  case source => simp only [Entry.matchesHead, maskedEq_congr hv]
  case group =>
    have hlt := t.isLt
    rw [maskedEq_of_block (k := 4) (mask := 240#8) rfl]
    change t.toNat / 16 = 15 ↔ 240 ≤ t.toNat
    omega
  case block =>
    rw [maskedEq_of_block (k := 4) (mask := 48#6) rfl]
    change t.toNat / 16 = 2 ↔ 32 ≤ t.toNat ∧ t.toNat ≤ 47
    omega

end Sys2Proof.Proofs
end

section
/-! PROOFS. The acceptance unit's decision at a header end (R93 to R101, R109, R110). -/

namespace Sys2Proof.Machine

/-! ## Followed silently (R93, R95) -/

/-- An exempt frame is followed silently (R95). -/
theorem headerCall_of_exempt {own : Bool} {s : State}
    (hexempt : own = true ∧ (s.le.mode = .listen ∨ s.le.mode = .online)) (h : FrameHead) (allowed : Bool) :
    headerCall h own allowed s = beginReception silentReception s := if_pos hexempt

/-- A frame that no entry matches is followed silently (R93). -/
theorem headerCall_of_unmatched {h : FrameHead} {s : State} (hnone : ∀ i, (s.entry i).matchesHead h = false)
    (own allowed : Bool) : headerCall h own allowed s = beginReception silentReception s := by
  unfold headerCall
  rw [(decidingEntry_eq_none_iff h s).2 hnone]
  exact ite_self _

/-! ## The entry that decides (R93, R96, R97) -/

/-- The deciding entry's hit count rises by 1, up to 65535 (R93). -/
theorem countHit_eq (i : Fin 32) (s : State) :
    countHit i s = s.setEntry i { s.entry i with
      hits := if (s.entry i).hits = 0xFFFF then 0xFFFF else (s.entry i).hits + 1 } := by
  rw [countHit, satInc_eq (top := (0xFFFF : BitVec 16)) rfl]

/-- A frame may be answered when it has a window, the entry responds, and an answer is allowed (R97). -/
theorem answerable_iff (e : Entry) (h : FrameHead) (allowed : Bool) :
    answerable e h allowed = true ↔ h.mode ≠ .noWindow ∧ e.respond = true ∧ allowed = true := by
  simp [answerable, and_assoc]

/-- An ACCEPT into an OPEN ring stays one (R96). -/
theorem effectiveAction_of_opened {e : Entry} {s : State} (haction : e.action = .accept)
    (hring : (s.arrival e.ring).state = .opened) : effectiveAction s e = .accept := by
  rw [effectiveAction, if_neg (fun h => h.2 hring), haction]

/-- REFUSE stays REFUSE (R96). -/
theorem effectiveAction_of_refuse {e : Entry} (haction : e.action = .refuse) (s : State) :
    effectiveAction s e = .refuse := by
  simp [effectiveAction, haction]

/-- A DISCARD, and an ACCEPT into a ring that is not OPEN, discard (R96). -/
theorem effectiveAction_of_discard {e : Entry} {s : State}
    (h : e.action = .discard ∨ e.action = .accept ∧ (s.arrival e.ring).state ≠ .opened) :
    effectiveAction s e = .discard := by
  obtain haction | hclosed := h
  · simp [effectiveAction, haction]
  · exact if_pos hclosed

/-- The hit count plays no part in an action (R96). -/
theorem effectiveAction_countHit (i : Fin 32) (e : Entry) (s : State) :
    effectiveAction (countHit i s) e = effectiveAction s e := rfl

/-! ## Receive claims (R32, R110) -/

/-- In HALTED the pool refuses a receive claim (R32, R110). -/
theorem judgeReceiveClaim_of_halted {s : State} (h : s.hp.engine = .halted) (solicited : Bool) :
    judgeReceiveClaim solicited s = .halted := by
  simp [judgeReceiveClaim, poolRefuses, h]

/-- In RUNNING a receive claim is judged by RX_HOLD or RX_LIMIT alone (R32). -/
theorem judgeReceiveClaim_of_running {s : State} (h : s.hp.engine = .running) (solicited : Bool) :
    judgeReceiveClaim solicited s =
      if (if solicited = true then s.cp.rxHold else s.cp.rxLimit) ≤ s.cp.rxInUse then
        if solicited = true then .hold else .limit
      else .granted := by
  cases solicited <;> simp [judgeReceiveClaim, poolRefuses, h]

/-! ## An effective ACCEPT (R98, R101) -/

section
variable {i : Fin 32} {e : Entry} {h : FrameHead} {solicited : Bool} {s : State}

/-- A granted claim takes the lowest free cell; ACK is planned for a solicited frame (R98, R101). -/
theorem acceptFrame_of_granted {id : CellId} (hclaim : judgeReceiveClaim solicited s = .granted)
    (hfree : lowestFree s = some id) :
    acceptFrame i e h solicited s = beginReception
      { entry := some i, action := some .accept, solicited := solicited, cell := some id,
        answer := if solicited = true then some (plannedAnswer e h .ack) else none, check := none }
      (grantRx id (freshRx e.ring i h) s) := by
  unfold acceptFrame
  simp only [hclaim, hfree]

/-- A claim refused at RX_HOLD has BUSY planned (R98). -/
theorem acceptFrame_of_hold (hclaim : judgeReceiveClaim solicited s = .hold) :
    acceptFrame i e h solicited s = beginReception
      { entry := some i, action := some .accept, solicited := solicited, cell := none,
        answer := some (plannedAnswer e h .busy), check := none } s := by
  unfold acceptFrame
  simp only [hclaim]

/-- A claim refused at RX_LIMIT is counted, and sets OVERRUN (R98). -/
theorem acceptFrame_of_limit (hclaim : judgeReceiveClaim solicited s = .limit) :
    acceptFrame i e h solicited s = beginReception
      { entry := some i, action := some .accept, solicited := solicited, cell := none, answer := none, check := none }
      (setCause .overrun (countRxDropped s)) := by
  unfold acceptFrame
  simp only [hclaim]

/-- A claim refused in HALTED leaves the frame without cell and answer (R110). -/
theorem acceptFrame_of_halted (hclaim : judgeReceiveClaim solicited s = .halted) :
    acceptFrame i e h solicited s = beginReception
      { entry := some i, action := some .accept, solicited := solicited, cell := none, answer := none, check := none }
      s := by
  unfold acceptFrame
  simp only [hclaim]

end

/-! ## The decision by effective action (R96, R98, R99) -/

section
variable {i : Fin 32} {s : State} (h : FrameHead) (allowed : Bool)

/-- An effective ACCEPT is decided by its receive claim (R98). -/
theorem decideFrame_of_accept (haction : effectiveAction s (s.entry i) = .accept) :
    decideFrame i h allowed s =
      acceptFrame i (s.entry i) h (answerable (s.entry i) h allowed) (countHit i s) := by
  unfold decideFrame
  simp only [effectiveAction_countHit, haction]

/-- An effective REFUSE plans REJECT where the frame may be answered (R99). -/
theorem decideFrame_of_refuse (haction : effectiveAction s (s.entry i) = .refuse) :
    decideFrame i h allowed s =
      refuseFrame i (s.entry i) h (answerable (s.entry i) h allowed) (countHit i s) := by
  unfold decideFrame
  simp only [effectiveAction_countHit, haction]

/-- An effective DISCARD is followed silently (R96). -/
theorem decideFrame_of_discard (haction : effectiveAction s (s.entry i) = .discard) :
    decideFrame i h allowed s = beginReception
      { entry := some i, action := some .discard, solicited := answerable (s.entry i) h allowed, cell := none,
        answer := none, check := none } (countHit i s) := by
  unfold decideFrame
  simp only [effectiveAction_countHit, haction]

end

end Sys2Proof.Machine

namespace Sys2Proof.Proofs

open Sys2Proof.Machine

/-- Settles O48: the first entry that matches decides, by its effective action, and an ACCEPT by the pool's answer to the
claim. -/
theorem acceptanceDecision : Obligations.AcceptanceDecision := by
  refine ⟨fun r s => rfl, fun h own allowed s hsilent => ?silent,
    fun i e h own allowed solicited s u hexempt he hmatch hfirst hsolicited hu => ?decided⟩
  case silent =>
    obtain hexempt | hnone := hsilent
    · exact headerCall_of_exempt hexempt h allowed
    · exact headerCall_of_unmatched hnone own allowed
  case decided =>
    subst he
    obtain rfl : solicited = answerable (s.entry i) h allowed :=
      Bool.eq_iff_iff.2 (hsolicited.trans (answerable_iff _ h allowed).symm)
    obtain rfl : u = countHit i s := hu.trans (countHit_eq i s).symm
    rw [headerCall_of_first hexempt hmatch hfirst]
    refine ⟨fun id haction hring hrun hroom hfree => ?granted, fun haction hring hrun hsol hfull => ?hold,
      fun haction hring hrun hsol hfull => ?limit, fun haction hrun => ?refused, fun haction hring hhalt => ?halted,
      fun haction hhalt => ?refusedHalted, fun hdiscard => ?discarded⟩
    case granted =>
      have hclaim := (judgeReceiveClaim_of_running (s := countHit i s) hrun (answerable (s.entry i) h allowed)).trans
        (if_neg (Nat.not_le.2 hroom))
      rw [decideFrame_of_accept h allowed (effectiveAction_of_opened haction hring),
        acceptFrame_of_granted (s := countHit i s) hclaim hfree]
      rfl
    case hold =>
      rw [decideFrame_of_accept h allowed (effectiveAction_of_opened haction hring), hsol]
      exact acceptFrame_of_hold ((judgeReceiveClaim_of_running (s := countHit i s) hrun true).trans (if_pos hfull))
    case limit =>
      rw [decideFrame_of_accept h allowed (effectiveAction_of_opened haction hring), hsol]
      exact acceptFrame_of_limit ((judgeReceiveClaim_of_running (s := countHit i s) hrun false).trans (if_pos hfull))
    case refused =>
      have hanswers : (countHit i s).hp.engine ≠ .halted := by
        rw [show (countHit i s).hp.engine = .running from hrun]
        decide
      rw [decideFrame_of_refuse h allowed (effectiveAction_of_refuse haction s), refuseFrame]
      simp only [hanswers, ne_eq, not_false_eq_true, and_true]
      rfl
    case halted =>
      rw [decideFrame_of_accept h allowed (effectiveAction_of_opened haction hring)]
      exact acceptFrame_of_halted (judgeReceiveClaim_of_halted (s := countHit i s) hhalt _)
    case refusedHalted =>
      rw [decideFrame_of_refuse h allowed (effectiveAction_of_refuse haction s), refuseFrame,
        if_neg (fun hanswered => hanswered.2 hhalt)]
    case discarded => exact decideFrame_of_discard h allowed (effectiveAction_of_discard hdiscard)

end Sys2Proof.Proofs
end

section
/-! PROOFS. The fields of a send record, and its validation (R121, R193, 11.2). -/

namespace Sys2Proof.Machine

/-! ## Low and high bits of a field -/

/-- The high bits of a field are 0 when its value fits in the low ones. -/
theorem extractLsb'_high_eq_zero_iff {w low high : Nat} (hw : low + high = w) (x : BitVec w) :
    x.extractLsb' low high = 0#high ↔ x.toNat < 2 ^ low := by
  have hx : x.toNat < 2 ^ high * 2 ^ low := by
    rw [← Nat.pow_add, Nat.add_comm, hw]
    exact x.isLt
  have hpos : 0 < 2 ^ low := Nat.two_pow_pos low
  rw [← BitVec.toNat_inj, BitVec.extractLsb'_toNat, Nat.shiftRight_eq_div_pow,
    Nat.mod_eq_of_lt ((Nat.div_lt_iff_lt_mul hpos).2 hx), BitVec.toNat_ofNat, Nat.zero_mod,
    Nat.div_eq_zero_iff_lt hpos]

/-- A value that fits in the low bits of a field is the value of those bits. -/
theorem toNat_extractLsb'_low {w low : Nat} {x : BitVec w} (hx : x.toNat < 2 ^ low) :
    (x.extractLsb' 0 low).toNat = x.toNat := by
  rw [BitVec.extractLsb'_toNat, Nat.shiftRight_zero, Nat.mod_eq_of_lt hx]

/-! ## Reserved bytes and fields (R121, R193) -/

/-- A stretch of bytes is 0 when each of its bytes is. -/
theorem zeroAt_span_iff (r : Record) (lo hi : Nat) :
    zeroAt r (span lo hi) = true ↔ ∀ i, lo ≤ i → i < hi → byteAt r i = 0 := by
  simp only [zeroAt, span, List.all_map, List.all_eq_true, List.mem_range, Function.comp_apply, beq_iff_eq]
  constructor
  · intro h i hlo hhi
    have hi := h (i - lo) (by omega)
    rwa [Nat.add_sub_cancel' hlo] at hi
  · exact fun h j hj => h (lo + j) (Nat.le_add_right lo j) (by omega)

/-- The reserved bytes and bits are 0 when the reserved bytes are, and each field fits in its bits. -/
theorem sendReservedZero_iff (r : Record) :
    sendReservedZero r = true ↔
      (∀ i, 12 ≤ i → i < 32 → byteAt r i = 0) ∧ (byteAt r 1).toNat < 2 ^ 6 ∧ (byteAt r 2).toNat < 2 ^ 2
        ∧ (byteAt r 4).toNat < 2 ^ 4 ∧ (byteAt r 5).toNat < 2 ^ 6 := by
  simp only [sendReservedZero, Bool.and_eq_true, beq_iff_eq, zeroAt_span_iff, and_assoc,
    extractLsb'_high_eq_zero_iff (low := 6) (high := 2) rfl, extractLsb'_high_eq_zero_iff (low := 2) (high := 6) rfl,
    extractLsb'_high_eq_zero_iff (low := 4) (high := 4) rfl]

/-- With its reserved bits 0, the mode byte is its code. -/
theorem sendModeCode_eq_iff {r : Record} (h : (byteAt r 2).toNat < 2 ^ 2) (code : BitVec 2) :
    sendModeCode r = code ↔ byteAt r 2 = code.setWidth 8 := by
  rw [← BitVec.toNat_inj, ← BitVec.toNat_inj, sendModeCode, toNat_extractLsb'_low h,
    BitVec.toNat_setWidth_of_le (by decide)]

/-- With its reserved bits 0, the length byte is the length. -/
theorem sendLength_eq {r : Record} (h : (byteAt r 5).toNat < 2 ^ 6) : sendLength r = (byteAt r 5).toNat :=
  toNat_extractLsb'_low h

/-- A target is one node's when it is from 1 to 239. -/
theorem isSharedTarget_eq_false_iff (target : Byte) :
    isSharedTarget target = false ↔ 1 ≤ target.toNat ∧ target.toNat ≤ 239 := by
  have hzero : target = 0 ↔ target.toNat = 0 := by rw [← BitVec.toNat_inj]; rfl
  simp only [isSharedTarget, Bool.or_eq_false_iff, beq_eq_false_iff_ne, ne_eq, hzero, decide_eq_false_iff_not]
  omega

/-- The validation, each field by the value of its byte (R121). -/
theorem sendRecordValid_iff (r : Record) :
    sendRecordValid r = true ↔
      (∀ i, 12 ≤ i → i < 32 → byteAt r i = 0)
        ∧ (byteAt r 1).toNat < 64 ∧ (byteAt r 2).toNat < 3 ∧ (byteAt r 4).toNat < 16 ∧ (byteAt r 5).toNat ≤ 32
        ∧ (byteAt r 3 ≠ 0 → byteAt r 2 = 2)
        ∧ (byteAt r 2 = 1 → 1 ≤ (byteAt r 0).toNat ∧ (byteAt r 0).toNat ≤ 239) := by
  have hthree : byteAt r 2 = 3 ↔ (byteAt r 2).toNat = 3 := by rw [← BitVec.toNat_inj]; rfl
  simp only [sendRecordValid, Bool.and_eq_true, sendReservedZero_iff, bne_iff_ne, decide_eq_true_eq, Bool.or_eq_true,
    beq_iff_eq, Bool.not_eq_true', Bool.and_eq_false_imp, isSharedTarget_eq_false_iff]
  constructor
  · rintro ⟨⟨⟨⟨⟨hzero, htopic, hmode, hbudget, hlength⟩, hlegal⟩, hmost⟩, hexpect⟩, hsingle⟩
    rw [sendModeCode_eq_iff hmode] at hexpect hsingle
    rw [ne_eq, sendModeCode_eq_iff hmode, show BitVec.setWidth 8 3#2 = 3 from rfl, hthree] at hlegal
    rw [sendLength_eq hlength] at hmost
    exact ⟨hzero, htopic, by omega, hbudget, hmost, hexpect.resolve_left, hsingle⟩
  · rintro ⟨hzero, htopic, hmode, hbudget, hmost, hexpect, hsingle⟩
    have hbits : (byteAt r 2).toNat < 2 ^ 2 := by omega
    have hlength : (byteAt r 5).toNat < 2 ^ 6 := by omega
    rw [ne_eq, sendModeCode_eq_iff hbits, sendModeCode_eq_iff hbits, sendModeCode_eq_iff hbits, sendLength_eq hlength,
      show BitVec.setWidth 8 3#2 = 3 from rfl, hthree]
    exact ⟨⟨⟨⟨⟨hzero, htopic, hbits, hbudget, hlength⟩, by omega⟩, hmost⟩, Decidable.or_iff_not_imp_left.2 hexpect⟩,
      hsingle⟩

end Sys2Proof.Machine

namespace Sys2Proof.Proofs

open Sys2Proof.Machine

/-- Settles O16: a field's reserved bits are 0 exactly when its byte is below their weight, and then the byte is the
field's value. -/
theorem sendRecordValidation : Obligations.SendRecordValidation := sendRecordValid_iff

end Sys2Proof.Proofs
end

section
/-! PROOFS. The fetch end: the verdict, the cell filled, and the tail of its class list (R42, R58, R120, R122). -/

namespace Sys2Proof.Machine

/-- A cell that joins the tail of a class list leaves the other lists and the passed-over counts as they are (R42). -/
theorem joinTail_eq (cls : ClassId) (id : CellId) (s : State) :
    joinTail cls id s =
      { s with sch := { s.sch with lists := s.sch.lists.set cls.val (s.classList cls ++ [id]) } } := by
  have hne : ¬(s.classList cls ++ [id] = [] ∧ s.sch.lists[cls.val] ≠ []) := fun h =>
    List.append_ne_nil_of_right_ne_nil _ (List.cons_ne_nil id []) h.1
  simp only [joinTail, setClassList, State.updSch, if_neg hne]

/-- A mode code a record may hold names its mode, which a fetched cell takes (R120). -/
theorem getD_ofCode_sendModeCode {r : Record} (h : (byteAt r 2).toNat < 3) :
    (ResponseMode.ofCode (sendModeCode r)).getD .noWindow =
      if byteAt r 2 = 0 then .noWindow else if byteAt r 2 = 1 then .single else .roll := by
  have hbits : (byteAt r 2).toNat < 2 ^ 2 := by omega
  have htwo : byteAt r 2 ≠ 0 → byteAt r 2 ≠ 1 → byteAt r 2 = 2 := by
    simp only [ne_eq, ← BitVec.toNat_inj, BitVec.ofNat_eq_ofNat, BitVec.toNat_ofNat]
    omega
  have hcode0 : sendModeCode r = 0 ↔ byteAt r 2 = 0 := sendModeCode_eq_iff hbits 0
  have hcode1 : sendModeCode r = 1 ↔ byteAt r 2 = 1 := sendModeCode_eq_iff hbits 1
  have hcode2 : sendModeCode r = 2 ↔ byteAt r 2 = 2 := sendModeCode_eq_iff hbits 2
  simp only [ResponseMode.ofCode, hcode0, hcode1, hcode2]
  by_cases h0 : byteAt r 2 = 0
  · rw [if_pos h0, if_pos h0, Option.getD_some]
  · rw [if_neg h0, if_neg h0]
    by_cases h1 : byteAt r 2 = 1
    · rw [if_pos h1, if_pos h1, Option.getD_some]
    · rw [if_neg h1, if_neg h1, if_pos (htwo h0 h1), Option.getD_some]

/-- With its reserved bits 0, a budget of 0 is a budget byte of 0. -/
theorem sendBudget_eq_zero_iff {r : Record} (h : (byteAt r 4).toNat < 2 ^ 4) :
    sendBudget r = 0 ↔ byteAt r 4 = 0 := by
  rw [← BitVec.toNat_inj, ← BitVec.toNat_inj, sendBudget, toNat_extractLsb'_low h]
  rfl

/-- A valid record fills every field of its cell, with the budget and the deadline the scheduler sets (R42, R58,
R120). -/
theorem filledCell_of_valid {r : Record} (h : sendRecordValid r = true) (c : TxCell) (b : BitVec 4) (tick : Word) :
    filledCell c none (.data r) b tick =
      { c with
        target := byteAt r 0, topic := (byteAt r 1).setWidth 6,
        mode := if byteAt r 2 = 0 then .noWindow else if byteAt r 2 = 1 then .single else .roll,
        expect := byteAt r 3, length := (byteAt r 5).toNat,
        payload := (r.toList.drop 32).take (byteAt r 5).toNat, tag := word r 8,
        budget := if byteAt r 4 = 0 then b else (byteAt r 4).setWidth 4,
        deadline := if half r 6 = 0 then none else some (tick + (half r 6).setWidth 32) } := by
  obtain ⟨-, -, hmode, hbudget, hlength, -, -⟩ := (sendRecordValid_iff r).1 h
  simp only [filledCell, TxCell.fromRecord, getD_ofCode_sendModeCode hmode,
    sendLength_eq (r := r) (Nat.lt_of_le_of_lt hlength (by decide)), sendBudget_eq_zero_iff (r := r) hbudget,
    BitVec.setWidth_eq_extractLsb' (show 6 ≤ 8 by decide), BitVec.setWidth_eq_extractLsb' (show 4 ≤ 8 by decide)]
  rfl

end Sys2Proof.Machine

namespace Sys2Proof.Proofs

open Sys2Proof.Machine

/-- Settles O15: the end of the read is the fetch engine's, and the fields of a valid record are the values of its
bytes. -/
theorem fetchEnds : Obligations.FetchEnds := by
  refine ⟨fun result f s hbus hr hf => ?event, joinTail_eq, fun i n => rfl,
    fun st r => ⟨rfl, rfl, fun hst => ⟨if_neg hst, fun hv => ?valid, fun hv => ?invalid⟩⟩,
    fun c r b tick hv => filledCell_of_valid hv c b tick, fun c v r b tick => ⟨rfl, rfl⟩⟩
  case event =>
    change Host.Outcome.next (transferEnd _ _ (takeFetchEnd result) s) = _
    rw [transferEnd_of_onBus hbus hr]
    unfold takeFetchEnd
    rw [show (clearBus s).fe.inFlight = some f from hf]
    rfl
  all_goals
    unfold fetchVerdict
    rw [if_neg hst]
    dsimp only
    rw [hv]
    rfl

end Sys2Proof.Proofs
end

section
/-! PROOFS. The fetch decision and the beginning of a fetch (R24, R25, R31, R34, R117 to R119). -/

namespace Sys2Proof.Machine

/-! ## One ring of a decision (R31, R117) -/

/-- A ring is eligible when it is OPEN, has no fetch in flight, and its tail stands off its head (R117). -/
theorem fetchEligible_iff (r : SendId) (s : State) :
    fetchEligible s r = true ↔
      (s.send r).state = .opened ∧ (s.send r).fetchInFlight = false
        ∧ ringDistance (s.send r).tail (s.send r).head (s.send r).size ≠ 0 := by
  simp only [fetchEligible, Bool.and_eq_true, beq_iff_eq, Bool.not_eq_true', decide_eq_true_eq, Nat.pos_iff_ne_zero,
    and_assoc]

/-- The pool's answer to a transmit claim while RUNNING: the limit before the reserve (R31). -/
theorem judgeTransmitClaim_of_running {s : State} (h : s.hp.engine = .running) (cls : ClassId) :
    judgeTransmitClaim cls s =
      if s.cp.txLimit ≤ s.cp.txInUse then .limit
      else if cls ≠ 0 ∧ s.cp.txLimit ≤ s.cp.lowInUse + 2 then .reserve else .granted := by
  unfold judgeTransmitClaim poolRefuses
  rw [h]
  rfl

/-! ## The rings passed by (R34, R118) -/

/-- A decision passes the ring by: it is not eligible, or its claim is refused for the reserve (R31, R118). -/
abbrev PassedBy (s : State) (r : SendId) : Prop :=
  fetchEligible s r = true →
    s.cp.txInUse < s.cp.txLimit ∧ (s.send r).cls ≠ 0 ∧ s.cp.txLimit ≤ s.cp.lowInUse + 2

/-- The state with a notice owed as well, when a claim was refused (R34). -/
def noticeOwedIf (refused : Bool) (s : State) : State :=
  { s with cp := { s.cp with noticeOwed := s.cp.noticeOwed || refused } }

/-- No refusal changes nothing. -/
theorem noticeOwedIf_false (s : State) : noticeOwedIf false s = s := by
  simp only [noticeOwedIf, Bool.or_false]

/-- A refusal owes the notice, and so does every one before it. -/
theorem noticeOwedIf_oweNotice (refused : Bool) (s : State) :
    noticeOwedIf refused (oweNotice s) = noticeOwedIf true s := by
  simp only [noticeOwedIf, oweNotice, State.updCp, Bool.true_or, Bool.or_true]

/-- The rings passed by leave the rest of the visit with the refusals among them (R34, R118). -/
theorem fetchVisit_append {s : State} (hrun : s.hp.engine = .running) {passed : List SendId}
    (h : ∀ r ∈ passed, PassedBy s r) (rest : List SendId) (reserved : Bool) :
    fetchVisit (passed ++ rest) reserved s =
      fetchVisit rest (reserved || passed.any (fetchEligible s)) (noticeOwedIf (passed.any (fetchEligible s)) s) := by
  induction passed generalizing s reserved with
  | nil => rw [List.nil_append, List.any_nil, Bool.or_false, noticeOwedIf_false]
  | cons r passed ih =>
    have hrest := fun q hq => h q (List.mem_cons_of_mem r hq)
    rw [List.cons_append, fetchVisit, List.any_cons]
    by_cases he : fetchEligible s r = true
    · obtain ⟨hroom, hcls, hreserve⟩ := h r List.mem_cons_self he
      have hclaim : judgeTransmitClaim (s.send r).cls s = .reserve := by
        rw [judgeTransmitClaim_of_running hrun, if_neg (Nat.not_le.2 hroom), if_pos ⟨hcls, hreserve⟩]
      rw [if_pos he, hclaim]
      dsimp only
      rw [ih (s := oweNotice s) hrun hrest, noticeOwedIf_oweNotice, he, Bool.true_or, Bool.true_or, Bool.or_true]
    · rw [if_neg he, ih hrun hrest, Bool.eq_false_of_not_eq_true he, Bool.false_or]

/-! ## The order of a decision (R118) -/

/-- A decision visits the ring at the pointer, then the seven after it (R118). -/
theorem fetchOrder_eq (p : SendId) : fetchOrder p = (List.range 8).map (fun j => p + Fin.ofNat 8 j) := rfl

/-- The rings before the `k`-th of a decision, that one, and the rest. -/
theorem fetchOrder_split (p : SendId) {k : Nat} (hk : k < 8) :
    ∃ rest, fetchOrder p = (List.range k).map (fun j => p + Fin.ofNat 8 j) ++ (p + Fin.ofNat 8 k) :: rest := by
  obtain ⟨m, hm⟩ := Nat.exists_eq_add_of_lt hk
  have hrange : List.range 8 = List.range k ++ k :: (List.range m).map (fun j => k + (j + 1)) := by
    rw [hm, Nat.add_assoc, List.range_add, List.range_succ_eq_map, List.map_cons, List.map_map, Nat.add_zero]
    rfl
  rw [fetchOrder_eq, hrange, List.map_append, List.map_cons]
  exact ⟨_, rfl⟩

/-- Every ring is visited. -/
theorem mem_fetchOrder (p r : SendId) : r ∈ fetchOrder p :=
  List.mem_map.2 ⟨r - p, List.mem_finRange _, add_sub_cancel p r⟩

/-- Some ring before the `k`-th is eligible. -/
theorem any_fetchEligible_before_iff (s : State) (k : Nat) :
    ((List.range k).map (fun j => s.fe.pointer + Fin.ofNat 8 j)).any (fetchEligible s) = true ↔
      ∃ j < k, fetchEligible s (s.fe.pointer + Fin.ofNat 8 j) = true := by
  simp only [List.any_map, List.any_eq_true, List.mem_range, Function.comp_apply]

/-! ## The decision (R34, R118) -/

section
variable {s : State} (hrun : s.hp.engine = .running) (hfree : s.fe.inFlight = none)
include hrun hfree

/-- A decision that passes the first `k` rings by goes on with the next one (R118). -/
theorem fetchDecision_of_passed {k : Nat} (hk : k < 8)
    (h : ∀ j < k, PassedBy s (s.fe.pointer + Fin.ofNat 8 j)) :
    ∃ (refused : Bool) (rest : List SendId),
      (refused = true ↔ ∃ j < k, fetchEligible s (s.fe.pointer + Fin.ofNat 8 j) = true)
        ∧ fetchDecision s =
          fetchVisit ((s.fe.pointer + Fin.ofNat 8 k) :: rest) refused (noticeOwedIf refused s) := by
  obtain ⟨rest, hrest⟩ := fetchOrder_split s.fe.pointer hk
  refine ⟨_, rest, any_fetchEligible_before_iff s k, ?_⟩
  unfold fetchDecision
  rw [if_pos ⟨hrun, hfree⟩, hrest, fetchVisit_append hrun (fun r hr => ?_), Bool.false_or]
  obtain ⟨j, hj, rfl⟩ := List.mem_map.1 hr
  exact h j (List.mem_range.1 hj)

/-- A decision that passes every ring by waits when it has refused one (R34, R118). -/
theorem fetchDecision_of_all_passed (h : ∀ r, PassedBy s r) :
    ∃ refused : Bool, (refused = true ↔ ∃ r, fetchEligible s r = true)
      ∧ fetchDecision s = setFetchWaiting refused (noticeOwedIf refused s) := by
  refine ⟨(fetchOrder s.fe.pointer).any (fetchEligible s), ?_, ?_⟩
  · simp only [List.any_eq_true, mem_fetchOrder, true_and]
  · unfold fetchDecision
    rw [if_pos ⟨hrun, hfree⟩]
    simpa only [List.append_nil, Bool.false_or, fetchVisit] using
      fetchVisit_append hrun (fun r (_ : r ∈ fetchOrder s.fe.pointer) => h r) [] false

end

/-- A granted claim with a free cell begins the fetch of the ring (R118, R119). -/
theorem fetchVisit_of_granted {s : State} {r : SendId} {id : CellId} (he : fetchEligible s r = true)
    (hclaim : judgeTransmitClaim (s.send r).cls s = .granted) (hid : lowestFree s = some id) (rest : List SendId)
    (reserved : Bool) : fetchVisit (r :: rest) reserved s = beginFetch r id s := by
  simp only [fetchVisit, he, hclaim, hid, if_true]

/-- A claim refused at the limit ends the visit (R34, R118). -/
theorem fetchVisit_of_limit {s : State} {r : SendId} (he : fetchEligible s r = true)
    (hclaim : judgeTransmitClaim (s.send r).cls s = .limit) (rest : List SendId) (reserved : Bool) :
    fetchVisit (r :: rest) reserved s = setFetchWaiting true (oweNotice s) := by
  simp only [fetchVisit, he, hclaim, if_true]

/-! ## The beginning of a fetch (R119) -/

/-- A send ring changed reads back. -/
theorem State.updSend_send (r : SendId) (f : SendRing → SendRing) (s : State) :
    (s.updSend r f).send r = f (s.send r) := by
  rw [State.send_updSend, if_pos rfl]

/-- Two changes of one send ring are one. -/
theorem State.updSend_updSend (r : SendId) (f g : SendRing → SendRing) (s : State) :
    (s.updSend r f).updSend r g = s.updSend r (fun c => g (f c)) := by
  simp [State.updSend, State.updRct]

/-- The fetch engine and a send ring change in either order. -/
theorem State.updFe_updSend (r : SendId) (f : SendRing → SendRing) (g : FetchEngine → FetchEngine) (s : State) :
    (s.updSend r f).updFe g = (s.updFe g).updSend r f := rfl

/-- What the beginning of a fetch changes (R24, R25, R119). -/
theorem beginFetch_eq (r : SendId) (id : CellId) (s : State) :
    beginFetch r id s =
      { s with
        hp := { s.hp with
          waiting := s.hp.waiting.put
            (some { direction := .read, address := entryAddress (s.send r).base 64 (s.send r).head,
                    bytes := [] }) .fe },
        fe := { pointer := r + 1, inFlight := some { ring := r, index := (s.send r).head, cell := id },
                waiting := false },
        cp := { s.cp with
          cells := s.cp.cells.set id.val (.tx (freshTx r (s.send r).head (s.send r).cls)),
          txInUse := s.cp.txInUse + 1,
          lowInUse := if (s.send r).cls = 0 then s.cp.lowInUse else s.cp.lowInUse + 1 },
        rct := { s.rct with
          send := s.rct.send.set r.val
            { s.send r with held := (s.send r).held + 1, fetchInFlight := true } } } := by
  unfold beginFetch grantTx
  dsimp only [freshTx]
  rw [State.updFe_updSend, State.updSend_updSend]
  rfl

end Sys2Proof.Machine

namespace Sys2Proof.Proofs

open Sys2Proof.Machine

/-- Settles O17: the visit passes by the rings refused for the reserve, and the first other eligible ring decides it. -/
theorem fetchDecision : Obligations.FetchDecision := by
  refine ⟨⟨fetchEligible_iff, fun a b n => rfl⟩,
    ⟨fun s h => ?none, fun k id s hrun hfree hk hpassed he hroom hreserve hid => ?granted,
      fun k s hrun hfree hk hpassed he hfull => ?limit, fun s hrun hfree hpassed => ?refused, fun s => rfl⟩,
    beginFetch_eq⟩
  case none => exact if_neg fun hboth => h.elim (fun hne => hne hboth.1) (fun hne => hne hboth.2)
  case granted =>
    obtain ⟨refused, rest, hrefused, hdecision⟩ := fetchDecision_of_passed hrun hfree hk hpassed
    have hclaim : judgeTransmitClaim (s.send (s.fe.pointer + Fin.ofNat 8 k)).cls s = .granted := by
      rw [judgeTransmitClaim_of_running hrun, if_neg (Nat.not_le.2 hroom),
        if_neg fun hboth => hreserve.elim hboth.1 (Nat.not_lt.2 hboth.2)]
    refine ⟨s.cp.noticeOwed || refused, by rw [Bool.or_eq_true, hrefused], ?_⟩
    rw [hdecision, fetchVisit_of_granted (s := noticeOwedIf refused s) he hclaim hid]
    rfl
  case limit =>
    obtain ⟨refused, rest, hrefused, hdecision⟩ :=
      fetchDecision_of_passed hrun hfree hk fun j hj hj' => absurd hj' (by rw [hpassed j hj]; decide)
    have hclaim : judgeTransmitClaim (s.send (s.fe.pointer + Fin.ofNat 8 k)).cls s = .limit := by
      rw [judgeTransmitClaim_of_running hrun, if_pos hfull]
    rw [hdecision, fetchVisit_of_limit (s := noticeOwedIf refused s) he hclaim]
    rfl
  case refused => exact fetchDecision_of_all_passed hrun hfree hpassed

end Sys2Proof.Proofs
end

section
/-! PROOFS. OPEN_SEND, OPEN_ARRIVAL and CLOSE_RING (R114, R124, R126, R131, R140, R141, R166 to R169). -/

namespace Sys2Proof.Machine

/-! ## Ring numbers (R192) -/

/-- Ring numbers 1 to 8 name the send rings. -/
theorem ofNumber_send {n : Nat} {r : SendId} (h : n = r.val + 1) : RingName.ofNumber n = some (.send r) := by
  subst h
  unfold RingName.ofNumber
  rw [if_neg (Nat.succ_ne_zero _), if_pos (by omega), Nat.add_sub_cancel, Fin.ofNat_val_eq_self]

/-- Ring numbers 9 to 12 name the arrival rings. -/
theorem ofNumber_arrival {n : Nat} {r : ArrivalId} (h : n = r.val + 9) : RingName.ofNumber n = some (.arrival r) := by
  subst h
  unfold RingName.ofNumber
  rw [if_neg (by omega), if_neg (by omega), if_pos (by omega), Nat.add_sub_cancel, Fin.ofNat_val_eq_self]

/-- A send ring's number names it. -/
theorem sendOfNumber_of_eq {n : Nat} {r : SendId} (h : n = r.val + 1) : sendOfNumber n = some r := by
  rw [sendOfNumber, ofNumber_send h]

/-- An arrival ring's number names it. -/
theorem arrivalOfNumber_of_eq {n : Nat} {r : ArrivalId} (h : n = r.val + 9) : arrivalOfNumber n = some r := by
  rw [arrivalOfNumber, ofNumber_arrival h]

/-! ## The end of a command and the rings (R162) -/

/-- A change of the rings before the end of a command is one after it. -/
theorem endCommand_updRct (status : AdminStatus) (area : List Byte) (f : RingTable → RingTable) (s : State) :
    endCommand status area (s.updRct f) = (endCommand status area s).updRct f := by
  unfold endCommand
  rw [show (s.updRct f).ae.current = s.ae.current from rfl]
  cases s.ae.current <;> rfl

/-- A send ring changed before the end of a command is one changed after it. -/
theorem endCommand_updSend (status : AdminStatus) (area : List Byte) (r : SendId) (f : SendRing → SendRing)
    (s : State) :
    endCommand status area (s.updSend r f) = (endCommand status area s).updSend r f :=
  endCommand_updRct status area _ s

/-- And so is an arrival ring. -/
theorem endCommand_updArrival (status : AdminStatus) (area : List Byte) (r : ArrivalId)
    (f : ArrivalRing → ArrivalRing) (s : State) :
    endCommand status area (s.updArrival r f) = (endCommand status area s).updArrival r f :=
  endCommand_updRct status area _ s

/-- A command that waited for an event ends with its result, and the engine IDLE (R162). -/
theorem endCommand_adminWaits (tag : Word) (c : AdminCommand) (awaited : Awaited) (status : AdminStatus)
    (area : List Byte) (s : State) :
    endCommand status area (adminWaits tag c awaited s) = adminResulted tag status area s := by
  rw [endCommand_of_current (s := adminWaits tag c awaited s) rfl]
  rfl

/-- The row of a command that passes its checks, where its record's read is due to end, executes it (R159, R161). -/
theorem adminCommandEnd_of_passed {c : AdminCommand} {s : State} (hdue : AdminFetchDue s)
    (hrange : adminInRange c = true) (hstate : adminStateHolds s c = true) (tag : Word) (quiet : Nat) :
    adminCommandEnd tag c quiet s = conclude (performCommand c quiet (adminExecuting tag c s)) := by
  have hsame : adminStateHolds (adminExecuting tag c s) c = adminStateHolds s c := by
    cases c <;> rfl
  rw [adminCommandEnd_of_due hdue, judgeCommand_of_passed hrange (hsame.trans hstate)]

/-! ## The close of a send ring (R124, R126, R168) -/

/-- A class list put back as it is changes nothing. -/
theorem setClassList_self (c : ClassId) (s : State) : setClassList c (s.classList c) s = s := by
  have hlist : s.sch.lists.set c.val (s.classList c) = s.sch.lists := Vector.set_getElem_self c.isLt
  have hpassed : ¬(s.classList c = [] ∧ s.sch.lists[c.val] ≠ []) := fun h => h.2 h.1
  simp only [setClassList, State.updSch, hlist, if_neg hpassed]

/-- A list without a cell of the ring keeps all its cells (R40). -/
theorem splitDeparting_of_none {ofRing : CellId → Bool} {l : List CellId} (h : ∀ id ∈ l, ofRing id = false)
    (verdict : CellId → Option Verdict) : splitDeparting ofRing verdict l = ([], l) := by
  induction l with
  | nil => rfl
  | cons id l ih =>
    simp [splitDeparting, h id List.mem_cons_self, ih fun j hj => h j (List.mem_cons_of_mem id hj)]

/-- A flush leaves the send rings as they are (R61). -/
theorem send_flushRing (r q : SendId) (s : State) : (flushRing r s).send q = s.send q := by
  simp only [State.send, flushRing_frame]

/-- The flush of a ring that holds no cell changes nothing (R61). -/
theorem flushRing_of_no_cell {r : SendId} {s : State} (h : ∀ id, isOfRing s r id = false) : flushRing r s = s := by
  have htargets : flushTargets r s = [] := by
    simp only [flushTargets, List.append_eq_nil_iff, List.filter_eq_nil_iff, h, Bool.false_eq_true,
      not_false_eq_true, implies_true, and_self]
  have hmarks : flushMarks r s = s := by
    rw [flushMarks, htargets, List.foldl_nil]
  have hoff : offeredOfRing s r = false := by
    simp only [← Bool.not_eq_true, offeredOfRing_iff, h, Bool.false_eq_true, and_false, exists_false, not_false_eq_true]
  rw [flushRing_eq, hmarks, verdictDepartures_of_not_offered hoff, splitDeparting_of_none fun id _ => h id]
  exact setClassList_self _ s

/-- In a sound pool a send ring with no cells held has no cell (R30). -/
theorem PoolSound.isOfRing_eq_false {s : State} (h : PoolSound s) {r : SendId} (hheld : (s.send r).held = 0)
    (id : CellId) : isOfRing s r id = false := by
  obtain ⟨-, ⟨hsend, -⟩, -⟩ := h
  refine Bool.eq_false_of_not_eq_true fun hr => ?_
  obtain ⟨c, hc, hring⟩ := (isOfRing_iff s r id).1 hr
  have hone := countP_ge_one (s := s) id (Cell.isOfSend r) (by rw [hc]; exact beq_iff_eq.2 hring)
  rw [← hsend, hheld] at hone
  omega

/-- A send ring with cells held stays as it is (R126). -/
theorem closeIfDrainedSend_of_held {r : SendId} {s : State} (h : (s.send r).held ≠ 0) : closeIfDrainedSend r s = s :=
  if_neg fun hboth => h hboth.2

/-- A DRAINING send ring that holds no cell becomes CLOSED, and the CLOSE_RING that waits for it ends DONE (R126). -/
theorem closeIfDrainedSend_of_waiting {r : SendId} {s : State} (hheld : (s.send r).held = 0) (tag : Word)
    (c : AdminCommand) :
    closeIfDrainedSend r ((adminWaits tag c .ringClosed s).updSend r (fun c => { c with state := .draining })) =
      (adminResulted tag .done [] s).updSend r (fun c => { c with state := .closed }) := by
  unfold closeIfDrainedSend
  rw [if_pos (by rw [State.updSend_send]; exact ⟨rfl, hheld⟩), State.updSend_updSend, endCloseRing,
    if_pos (by rfl), endCommand_updSend, endCommand_adminWaits]

/-! ## The close of an arrival ring (R140, R141, R168) -/

/-- A free leaves a ring's state and its unnotified records as they are (R35). -/
theorem arrival_freeCell (id : CellId) (r : ArrivalId) (s : State) :
    ((freeCell id s).arrival r).state = (s.arrival r).state
      ∧ ((freeCell id s).arrival r).unnotified = (s.arrival r).unnotified := by
  unfold freeCell
  split
  · exact ⟨rfl, rfl⟩
  · exact ⟨rfl, rfl⟩
  · rw [State.arrival_updArrival]
    split
    · next heq =>
      subst heq
      exact ⟨rfl, rfl⟩
    · exact ⟨rfl, rfl⟩

/-- So does a discard (R132). -/
theorem arrival_discardCell (id : CellId) (r : ArrivalId) (s : State) :
    ((discardCell r id s).arrival r).state = (s.arrival r).state
      ∧ ((discardCell r id s).arrival r).unnotified = (s.arrival r).unnotified := by
  unfold discardCell
  obtain ⟨hstate, hunnotified⟩ :=
    arrival_freeCell id r (s.updArrival r (fun c => { c with discards := satInc c.discards }))
  rw [hstate, hunnotified, State.updArrival_arrival]
  exact ⟨rfl, rfl⟩

/-- So does the discard of all its pending cells (R140). -/
theorem arrival_discardPending (r : ArrivalId) (s : State) :
    ((discardPending r s).arrival r).state = (s.arrival r).state
      ∧ ((discardPending r s).arrival r).unnotified = (s.arrival r).unnotified := by
  have key := foldl_keeps (fun s : State => ((s.arrival r).state, (s.arrival r).unnotified))
    (fun s id => discardCell r id s) (fun s id => Prod.ext_iff.2 (arrival_discardCell id r s)) (s.arrivalPending r)
    (s.setArrivalPending r [])
  exact Prod.ext_iff.1 key

/-- The close of an arrival ring on which the CLOSE_RING of the record just read waits (R141, R169). -/
theorem arrivalClosed_of_waiting {tag : Word} {c : AdminCommand} {r : ArrivalId} {s d : State}
    (hhp : d.hp.cause = s.hp.cause) (hcw : d.cw = s.cw) (hae : d.ae = (adminWaits tag c .ringClosed s).ae)
    (hunnotified : (d.arrival r).unnotified = (s.arrival r).unnotified) :
    arrivalClosed r d =
      { d.updArrival r (fun c => { c with state := .closed, unnotified := 0, timer := none }) with
        hp := { d.hp with
          cause := if 0 < (s.arrival r).unnotified then s.hp.cause ||| BitVec.twoPow 9 (1 + r.val)
                   else s.hp.cause },
        cw := { s.cw with
          pending := s.cw.pending ++
            [.admin { status := .done, tag := tag, index := s.rct.admin.head,
                      area := [(d.arrival r).discards.extractLsb' 0 8, (d.arrival r).discards.extractLsb' 8 8] }] },
        ae := { s.ae with phase := .idle, current := none, awaited := .nothing } } := by
  unfold arrivalClosed
  rw [hhp, hcw, hae, hunnotified]
  rfl

end Sys2Proof.Machine

namespace Sys2Proof.Proofs

open Sys2Proof.Machine

/-- Settles O23: the ring opens in the event of its command's record, before the command ends. -/
theorem openRings : Obligations.OpenRings := by
  refine ⟨fun tag p r s hdue hrange hring hclosed => ?send, fun tag p r s hdue hrange hring hclosed => ?arrival⟩
  case send =>
    have hname := sendOfNumber_of_eq hring
    have hstate : adminStateHolds s (.openSend p) = true := by
      simp only [adminStateHolds, hname, hclosed, beq_self_eq_true]
    change Host.Outcome.next (adminCommandEnd tag (.openSend p) 0 s) = _
    rw [adminCommandEnd_of_passed hdue hrange hstate]
    simp only [performCommand, performOpenSend, hname, endCommand_updSend, endCommand_adminExecuting]
  case arrival =>
    have hname := arrivalOfNumber_of_eq hring
    have hstate : adminStateHolds s (.openArrival p) = true := by
      simp only [adminStateHolds, hname, hclosed, beq_self_eq_true]
    change Host.Outcome.next (adminCommandEnd tag (.openArrival p) 0 s) = _
    rw [adminCommandEnd_of_passed hdue hrange hstate]
    simp only [performCommand, performOpenArrival, hname, endCommand_updArrival, endCommand_adminExecuting]

/-- Settles O24: a ring that holds no cell closes in the event of the command; any other one is left DRAINING with the
command waiting for it. -/
theorem closeRing : Obligations.CloseRing := by
  refine ⟨fun tag ring r s hdue hring hopen => ?send, fun tag ring r s d hdue hring hopen hd => ?arrival⟩
  case send =>
    have hname := ofNumber_send hring
    have hrange : adminInRange (.closeRing ring) = true := by
      simp only [adminInRange, closeRingInRange, sendOfNumber_of_eq hring, Option.isSome_some, Bool.true_or]
    have hstate : adminStateHolds s (.closeRing ring) = true := by
      simpa only [adminStateHolds, hname, bne_iff_ne] using hopen
    have hexec : exec (.closeRing tag ring) s = .next (conclude (closeIfDrainedSend r (flushRing r
        ((adminWaits tag (.closeRing ring) .ringClosed s).updSend r (fun c => { c with state := .draining }))))) := by
      change Host.Outcome.next (adminCommandEnd tag (.closeRing ring) 0 s) = _
      rw [adminCommandEnd_of_passed hdue hrange hstate]
      simp only [performCommand, performCloseRing, hname]
      rfl
    rw [hexec]
    refine ⟨fun hheld => ?_, fun hpool hheld => ?_⟩
    · rw [closeIfDrainedSend_of_held (by rwa [send_flushRing, State.updSend_send])]
    · rw [flushRing_of_no_cell (s := (adminWaits tag (.closeRing ring) .ringClosed s).updSend r _)
        (PoolSound.isOfRing_eq_false (s := s) hpool hheld), closeIfDrainedSend_of_waiting hheld]
  case arrival =>
    have hname := ofNumber_arrival hring
    have hrange : adminInRange (.closeRing ring) = true := by
      simp only [adminInRange, closeRingInRange, arrivalOfNumber_of_eq hring, Option.isSome_some, Bool.or_true]
    have hstate : adminStateHolds s (.closeRing ring) = true := by
      simpa only [adminStateHolds, hname, bne_iff_ne] using hopen
    have hexec : exec (.closeRing tag ring) s = .next (conclude (closeIfDrainedArrival r d)) := by
      change Host.Outcome.next (adminCommandEnd tag (.closeRing ring) 0 s) = _
      rw [adminCommandEnd_of_passed hdue hrange hstate, hd]
      simp only [performCommand, performCloseRing, hname]
      rfl
    obtain ⟨hdraining, hunnotified⟩ := arrival_discardPending r
      ((adminWaits tag (.closeRing ring) .ringClosed s).updArrival r (fun c => { c with state := .draining }))
    rw [← hd, State.updArrival_arrival] at hdraining hunnotified
    rw [hexec, closeIfDrainedArrival_eq]
    refine ⟨fun hheld => by rw [if_neg fun hboth => hheld hboth.2], fun hheld => ?_⟩
    rw [if_pos ⟨hdraining, hheld⟩, arrivalClosed_of_waiting (tag := tag) (c := .closeRing ring) (s := s) ?_ ?_ ?_
      hunnotified]
    all_goals
      subst hd
      simp only [discardPending_frame]
      rfl

end Sys2Proof.Proofs
end

section
/-! PROOFS. Coalescing, and the expiry of the coalescing timers (R137, R138, R153). -/

namespace Sys2Proof.Machine

/-- A cause asked for on a condition changes CAUSE alone. -/
theorem setCauseIf_eq (b : Bool) (c : Cause) (s : State) :
    setCauseIf b c s =
      s.updHp (fun h => { h with cause := if b = true then h.cause ||| BitVec.twoPow 9 c.bit else h.cause }) := by
  cases b <;> rfl

/-- The record that reaches the coalescing count is notified with those before it (R137). -/
theorem coalesce_of_reached {count unnotified : Nat} (h : count ≤ unnotified + 1) (delay : BitVec 8)
    (timer : Option Word) (tick : Word) : coalesce count delay unnotified timer tick = (0, none, true) := if_pos h

/-- A record below the coalescing count is counted; the first one starts the timer when a delay is set (R137). -/
theorem coalesce_of_below {count unnotified : Nat} (h : unnotified + 1 < count) (delay : BitVec 8)
    (timer : Option Word) (tick : Word) :
    coalesce count delay unnotified timer tick =
      (unnotified + 1, if unnotified = 0 ∧ delay ≠ 0 then some (tick + delay.setWidth 32) else timer, false) := by
  unfold coalesce
  rw [if_neg (Nat.not_le.2 h)]
  split
  · next hfirst =>
    obtain ⟨rfl, -⟩ := hfirst
    rfl
  · rfl

end Sys2Proof.Machine

namespace Sys2Proof.Proofs

open Sys2Proof.Machine

/-- Settles O32: the record that reaches the count sets the cause, one below it is counted; a timer that expires notifies
what is unnotified. -/
theorem coalescing : Obligations.Coalescing := by
  refine ⟨fun s => ⟨fun hreached => ?reached, fun hbelow => ?below⟩, fun r s hrun htimer => ?arrival,
    fun s hrun htimer => ?completion⟩
  case reached =>
    unfold coalesceCompletion
    dsimp only
    rw [coalesce_of_reached hreached]
    rfl
  case below =>
    unfold coalesceCompletion
    dsimp only
    rw [coalesce_of_below hbelow]
    rfl
  case arrival =>
    rw [← notifyArrival_eq]
    exact congrArg _ (if_pos ⟨hrun, htimer⟩)
  case completion =>
    refine congrArg _ ((if_pos ⟨hrun, htimer⟩).trans ?_)
    unfold expireCompletionTimer
    simp only [setCauseIf_eq, decide_eq_true_eq]
    rfl

end Sys2Proof.Proofs
end

section
/-! PROOFS. The arrival writer's decision, and the beginning of a write (R133, R134). -/

namespace Sys2Proof.Machine

/-- A ring is ready when it is OPEN with a pending cell and room, and no arrival write is in flight (R133). -/
theorem arrivalReady_iff (s : State) (r : ArrivalId) :
    arrivalReady s r = true ↔
      (s.arrival r).state = .opened ∧ s.arrivalPending r ≠ []
        ∧ (∀ q : ArrivalId, (s.arrival q).writeInFlight = false)
        ∧ ringDistance (s.arrival r).tail (s.arrival r).head (s.arrival r).size + 1 < (s.arrival r).size := by
  simp only [arrivalReady, arrivalWriting, Bool.and_eq_true, beq_iff_eq, bne_iff_ne, Bool.not_eq_true',
    List.any_eq_false, List.mem_finRange, forall_const, Bool.not_eq_true, decide_eq_true_eq, and_assoc]

/-- A decision visits the ring at the pointer, then the three after it (R133). -/
theorem getElem_arrivalOrder (p : ArrivalId) {k : Nat} (hk : k < (arrivalOrder p).length) :
    (arrivalOrder p)[k] = p + Fin.ofNat 4 k := by
  have hlt : k < 4 := by simpa only [arrivalOrder, List.length_map, List.length_finRange] using hk
  have hfin : (⟨k, hlt⟩ : Fin 4) = Fin.ofNat 4 k := Fin.ext (Nat.mod_eq_of_lt hlt).symm
  simp only [arrivalOrder, List.getElem_map, List.getElem_finRange, Fin.cast_mk, hfin]

/-- The first ready ring from the pointer is the one a decision takes (R133). -/
theorem find?_arrivalOrder {s : State} {p : ArrivalId} {k : Nat} (hk : k < 4)
    (hready : arrivalReady s (p + Fin.ofNat 4 k) = true)
    (hfirst : ∀ j < k, arrivalReady s (p + Fin.ofNat 4 j) = false) :
    (arrivalOrder p).find? (arrivalReady s) = some (p + Fin.ofNat 4 k) := by
  refine List.find?_eq_some_iff_getElem.2 ⟨hready, k, hk, getElem_arrivalOrder p hk, fun j hj => ?_⟩
  rw [getElem_arrivalOrder, hfirst j hj]
  rfl

/-- A decision begins nothing while the engine is not RUNNING, a write is in flight, or no ring is ready (R133). -/
theorem arrivalDecision_of_nothing {s : State}
    (h : s.hp.engine ≠ .running ∨ s.aw.inFlight ≠ none ∨ ∀ r, arrivalReady s r = false) : arrivalDecision s = s := by
  unfold arrivalDecision
  split
  · next hmay =>
    obtain ⟨hrun, hfree⟩ := hmay
    have hnone : (arrivalOrder s.aw.pointer).find? (arrivalReady s) = none := by
      have hready := (h.resolve_left (absurd hrun)).resolve_left (absurd hfree)
      exact List.find?_eq_none.2 fun r _ => by rw [hready r]; exact Bool.false_ne_true
    rw [hnone]
  · rfl

/-- What the beginning of a write changes (R134). -/
theorem beginArrivalWrite_of_cons {s : State} {r : ArrivalId} {id : CellId} {rest : List CellId} {c : RxCell}
    (hpending : s.arrivalPending r = id :: rest) (hc : s.cell id = .rx c) :
    beginArrivalWrite r s =
      { (s.updArrival r (fun a => { a with writeInFlight := true })) with
        hp := { s.hp with
          waiting := s.hp.waiting.put
            (some { direction := .write, address := entryAddress (s.arrival r).base 64 (s.arrival r).tail,
                    bytes := c.arrivalRecord (s.arrival r).lapTag }) .aw },
        aw := { pending := s.aw.pending.set r.val rest, pointer := r + 1,
                inFlight := some { cell := id, ring := r, index := (s.arrival r).tail } } } := by
  have hrecord : arrivalRecordOf s r id = c.arrivalRecord (s.arrival r).lapTag := by
    rw [arrivalRecordOf, hc]
  unfold beginArrivalWrite
  rw [hpending, ← hrecord]
  rfl

end Sys2Proof.Machine

namespace Sys2Proof.Proofs

open Sys2Proof.Machine

/-- Settles O29: the decision takes the first ready ring in the order it visits them, and begins the write of its head
pending cell. -/
theorem arrivalDecision : Obligations.ArrivalDecision := by
  refine ⟨fun s => arrivalDecision_of_nothing, arrivalReady_iff,
    fun k r id rest c s hrun hfree hk hr hready hfirst hpending hc => ?_⟩
  subst hr
  unfold Machine.arrivalDecision
  rw [if_pos ⟨hrun, hfree⟩, find?_arrivalOrder hk hready hfirst]
  exact beginArrivalWrite_of_cons hpending hc

end Sys2Proof.Proofs
end

section
/-! PROOFS. The end of an arrival write: delivery, fault, and the last cell of a DRAINING ring (R35, R132, R135, R137, R139
to R141). -/

namespace Sys2Proof.Machine

/-! ## An arrival ring changed beside another block -/

/-- An arrival ring and the host port change in either order. -/
theorem State.updHp_updArrival (r : ArrivalId) (f : ArrivalRing → ArrivalRing) (g : HostPort → HostPort) (s : State) :
    (s.updArrival r f).updHp g = (s.updHp g).updArrival r f := rfl

/-- An arrival ring and the cell pool change in either order. -/
theorem State.updCp_updArrival (r : ArrivalId) (f : ArrivalRing → ArrivalRing) (g : CellPool → CellPool) (s : State) :
    (s.updArrival r f).updCp g = (s.updCp g).updArrival r f := rfl

/-- An arrival ring and the arrival writer change in either order. -/
theorem State.updAw_updArrival (r : ArrivalId) (f : ArrivalRing → ArrivalRing) (g : ArrivalWriter → ArrivalWriter)
    (s : State) : (s.updArrival r f).updAw g = (s.updAw g).updArrival r f := rfl

/-! ## A delivered record (R135, R137) -/

/-- A ring's context after a record that counts for its notification (R137). -/
def ArrivalRing.counted (tick : Word) (a : ArrivalRing) : ArrivalRing :=
  { a with
    unnotified := if a.count ≤ a.unnotified + 1 then 0 else a.unnotified + 1,
    timer := if a.count ≤ a.unnotified + 1 then none
             else if a.unnotified = 0 ∧ a.delay ≠ 0 then some (tick + a.delay.setWidth 32)
             else a.timer }

/-- A record counted changes the ring's context, and sets its cause when it reaches the coalescing count (R137). -/
theorem coalesceArrival_eq (r : ArrivalId) (s : State) :
    coalesceArrival r s =
      (s.updHp (fun h =>
        { h with
          cause := if (s.arrival r).count ≤ (s.arrival r).unnotified + 1 then h.cause ||| BitVec.twoPow 9 (1 + r.val)
                   else h.cause })).updArrival r (ArrivalRing.counted s.sch.tick) := by
  have hcounted : s.updArrival r (ArrivalRing.counted s.sch.tick) =
      s.updArrival r (fun a =>
        { a with
          unnotified := ((s.arrival r).counted s.sch.tick).unnotified,
          timer := ((s.arrival r).counted s.sch.tick).timer }) := rfl
  rw [← State.updHp_updArrival, hcounted]
  unfold coalesceArrival ArrivalRing.counted
  dsimp only
  by_cases h : (s.arrival r).count ≤ (s.arrival r).unnotified + 1
  · simp only [coalesce_of_reached h, if_pos h]
    rfl
  · simp only [coalesce_of_below (Nat.lt_of_not_le h), if_neg h]
    rfl

/-- A receive cell is freed (R35). -/
theorem freeCell_of_rx {s : State} {id : CellId} {c : RxCell} (h : s.cell id = .rx c) :
    freeCell id s =
      (s.updCp (fun p => { p with cells := p.cells.set id.val .free, rxInUse := p.rxInUse - 1 })).updArrival c.ring
        (fun a => { a with held := a.held - 1 }) := by
  unfold freeCell
  rw [h]
  rfl

/-- A ring's context after its record is delivered (R135, R137). -/
def ArrivalRing.delivered (tick : Word) (a : ArrivalRing) : ArrivalRing :=
  ArrivalRing.counted tick
    { a with
      tail := (a.tail + 1) % a.size, lapTag := if (a.tail + 1) % a.size = 0 then !a.lapTag else a.lapTag,
      writeInFlight := false, held := a.held - 1 }

/-- The state after a record is delivered, and before its ring may become CLOSED (R135, R137). -/
def recordDelivered (w : ArrivalWrite) (s : State) : State :=
  { (s.updArrival w.ring (ArrivalRing.delivered s.sch.tick)) with
    hp := { s.hp with
      cause := if (s.arrival w.ring).count ≤ (s.arrival w.ring).unnotified + 1 then
                 s.hp.cause ||| BitVec.twoPow 9 (1 + w.ring.val) else s.hp.cause },
    aw := { s.aw with inFlight := none },
    cp := { s.cp with cells := s.cp.cells.set w.cell.val .free, rxInUse := s.cp.rxInUse - 1 } }

/-- A delivered record: the ring becomes CLOSED when it is DRAINING and held only this cell (R135, R141). -/
theorem arrivalDelivered_eq {w : ArrivalWrite} {c : RxCell} {s : State} (hc : s.cell w.cell = .rx c)
    (hring : c.ring = w.ring) :
    arrivalDelivered w s = closeIfDrainedArrival w.ring (recordDelivered w s) := by
  have hcell : (clearArrivalWrite w.ring (advanceArrivalTail w.ring s)).cell w.cell = .rx c := hc
  have hmoved : clearArrivalWrite w.ring (advanceArrivalTail w.ring s) =
      (s.updAw (fun w => { w with inFlight := none })).updArrival w.ring (fun a =>
        { a with
          tail := nextIndex a.tail a.size, lapTag := if nextIndex a.tail a.size = 0 then !a.lapTag else a.lapTag,
          writeInFlight := false }) := by
    unfold clearArrivalWrite advanceArrivalTail
    rw [State.updAw_updArrival, State.updArrival_updArrival]
  unfold arrivalDelivered
  rw [coalesceArrival_eq, freeCell_of_rx hcell, hring, hmoved]
  simp only [State.updCp_updArrival, State.updHp_updArrival, State.updArrival_updArrival, State.updArrival_arrival]
  rfl

/-- The ring of a delivered record. -/
theorem arrival_recordDelivered (w : ArrivalWrite) (s : State) :
    (recordDelivered w s).arrival w.ring = (s.arrival w.ring).delivered s.sch.tick :=
  State.updArrival_arrival w.ring _ s

/-- A ring closed with the record just delivered notifies it, by the count reached or by the close (R137, R141). -/
theorem arrivalClosed_recordDelivered_hp (w : ArrivalWrite) (s : State) :
    (arrivalClosed w.ring (recordDelivered w s)).hp =
      { s.hp with cause := s.hp.cause ||| BitVec.twoPow 9 (1 + w.ring.val) } := by
  unfold arrivalClosed
  rw [arrival_recordDelivered]
  by_cases h : (s.arrival w.ring).count ≤ (s.arrival w.ring).unnotified + 1
  · simp only [ArrivalRing.delivered, ArrivalRing.counted, recordDelivered, if_pos h, Nat.lt_irrefl, if_false]
  · simp only [ArrivalRing.delivered, ArrivalRing.counted, recordDelivered, if_neg h, Nat.succ_pos, if_true]

/-! ## The close of a ring (R141) -/

/-- A ring closed has no unnotified records and no timer; the others are as before (R141). -/
theorem arrival_arrivalClosed (r q : ArrivalId) (s : State) :
    (arrivalClosed r s).arrival q =
      if r = q then { s.arrival r with state := .closed, unnotified := 0, timer := none } else s.arrival q :=
  State.arrival_updArrival s r q fun a => { a with state := .closed, unnotified := 0, timer := none }

/-- The close of a ring ends the CLOSE_RING that waits for it, with its discard count (R141, R162). -/
theorem arrivalClosed_waiting {s : State} (ha : s.ae.awaited = .ringClosed) {cmd : CurrentCommand}
    (hcmd : s.ae.current = some cmd) (r : ArrivalId) :
    (arrivalClosed r s).cw =
        { s.cw with
          pending := s.cw.pending ++
            [.admin { status := .done, tag := cmd.tag, index := cmd.index,
                      area := [(s.arrival r).discards.extractLsb' 0 8, (s.arrival r).discards.extractLsb' 8 8] }] }
      ∧ (arrivalClosed r s).ae = { s.ae with phase := .idle, current := none, awaited := .nothing } := by
  simp only [arrivalClosed, ha, hcmd, if_true, and_self]

/-- With no CLOSE_RING waiting the close leaves the completion writer and the admin engine as they are (R141). -/
theorem arrivalClosed_not_waiting {s : State} (h : s.ae.awaited ≠ .ringClosed ∨ s.ae.current = none) (r : ArrivalId) :
    (arrivalClosed r s).cw = s.cw ∧ (arrivalClosed r s).ae = s.ae := by
  have hnone : (if s.ae.awaited = .ringClosed then s.ae.current else none) = none :=
    ite_eq_right_iff.2 fun ha => h.resolve_left (absurd ha)
  simp only [arrivalClosed, hnone, and_self]

/-! ## A host-bus error (R139, R140) -/

/-- A failed write faults a ring that is not DRAINING: its cells are discarded, the records delivered before are notified,
and a notice joins the completion pending list (R139). -/
theorem arrivalFaulted_eq {w : ArrivalWrite} {s d : State}
    (hd : d = discardPending w.ring (discardCell w.ring w.cell
      ({ s with aw := { s.aw with inFlight := none } }.updArrival w.ring
        (fun r => { r with state := .faulted, writeInFlight := false })))) :
    arrivalFaulted w s =
      { (d.updArrival w.ring (fun r => { r with unnotified := 0, timer := none })) with
        hp := { d.hp with
          cause := if 0 < (s.arrival w.ring).unnotified then s.hp.cause ||| BitVec.twoPow 9 (1 + w.ring.val)
                   else s.hp.cause },
        cw := { s.cw with
          pending := s.cw.pending ++
            [.ringFault { ring := w.ring, index := w.index, lost := 1 + (s.arrivalPending w.ring).length }] } } := by
  have hdiscarded : discardPending w.ring (discardCell w.ring w.cell
      (clearArrivalWrite w.ring (s.updArrival w.ring (fun c => { c with state := .faulted })))) = d := by
    rw [hd, clearArrivalWrite, State.updAw_updArrival, State.updArrival_updArrival]
    rfl
  have hunnotified : (d.arrival w.ring).unnotified = (s.arrival w.ring).unnotified := by
    rw [hd, (arrival_discardPending _ _).2, (arrival_discardCell _ _ _).2, State.updArrival_arrival]
    rfl
  have hcause : d.hp.cause = s.hp.cause := by
    simp only [hd, discardPending_frame, discardCell_frame, State.updArrival_fields]
  have hcw : d.cw = s.cw := by
    simp only [hd, discardPending_frame, discardCell_frame, State.updArrival_fields]
  unfold arrivalFaulted
  dsimp only
  rw [hdiscarded, notifyArrival_eq, hunnotified, hcause, ← hcw]
  rfl

/-- A failed write on a DRAINING ring discards its cell, as a commit to that ring would; a ring that held only this cell
becomes CLOSED (R140, R141). -/
theorem arrivalLostDraining_eq {w : ArrivalWrite} {c : RxCell} {s v : State}
    (hstate : (s.arrival w.ring).state = .draining) (hc : s.cell w.cell = .rx c) (hring : c.ring = w.ring)
    (hv : v = { ((clearArrivalWrite w.ring s).updArrival w.ring
        (fun a => { a with held := a.held - 1, discards := satInc a.discards })) with
      cp := { s.cp with cells := s.cp.cells.set w.cell.val .free, rxInUse := s.cp.rxInUse - 1 } }) :
    arrivalLostDraining w s = if (s.arrival w.ring).held ≤ 1 then arrivalClosed w.ring v else v := by
  have hcleared : (clearArrivalWrite w.ring s).arrival w.ring = { s.arrival w.ring with writeInFlight := false } :=
    State.updArrival_arrival w.ring _ _
  have hnot : ((clearArrivalWrite w.ring s).arrival w.ring).state ≠ .opened := by
    rw [hcleared, hstate]
    nofun
  have hcommit : arrivalLostDraining w s = commitToRing w.ring w.cell (clearArrivalWrite w.ring s) := (if_neg hnot).symm
  rw [hcommit, commitToRing_closed hnot hc hring hv, hcleared]
  simp only [hstate, true_and]

/-! ## The event (R133, R187) -/

/-- The end of an arrival write on the bus, outside RESETTING, is taken by the arrival writer (R187). -/
theorem exec_arrivalWriteEnd {s : State} (hbus : onBusOf (.requester .aw) .write s = true)
    (hr : s.hp.engine ≠ .resetting) (result : WriteEnd) :
    exec (.arrivalWriteEnd result) s = .next (conclude (takeArrivalEnd result (clearBus s))) :=
  congrArg Host.Outcome.next (transferEnd_of_onBus hbus hr _)

section
variable {w : ArrivalWrite} {s : State} (hw : s.aw.inFlight = some w)
include hw

/-- A write without error delivers its record, and a write decision follows (R133, R135). -/
theorem takeArrivalEnd_written : takeArrivalEnd .written s = arrivalDecision (arrivalDelivered w s) := by
  unfold takeArrivalEnd
  rw [hw]

/-- A failed write on a DRAINING ring loses its cell, and a write decision follows (R133, R140). -/
theorem takeArrivalEnd_busError_of_draining (hstate : (s.arrival w.ring).state = .draining) :
    takeArrivalEnd .busError s = arrivalDecision (arrivalLostDraining w s) := by
  unfold takeArrivalEnd
  rw [hw]
  dsimp only
  rw [if_pos hstate]

/-- A failed write on any other ring faults it, and a write decision follows (R133, R139). -/
theorem takeArrivalEnd_busError_of_not_draining (hstate : (s.arrival w.ring).state ≠ .draining) :
    takeArrivalEnd .busError s = arrivalDecision (arrivalFaulted w s) := by
  unfold takeArrivalEnd
  rw [hw]
  dsimp only
  rw [if_neg hstate]

end

end Sys2Proof.Machine

namespace Sys2Proof.Proofs

open Sys2Proof.Machine

/-- Settles O28: a delivered record is one state, which the close of the ring then takes on if it held only this cell; a
failed write is a fault, or on a DRAINING ring one discard. -/
theorem arrivalWriteEnds : Obligations.ArrivalWriteEnds := by
  refine ⟨fun w c s hbus hr hw hc hring => ⟨fun hstays => ?delivered, fun hdraining hheld => ?closed⟩,
    ⟨fun w s d hbus hr hw hopen hd => ?faulted,
      fun w c s u hbus hr hw hdraining hc hring hu => ?lost⟩,
    fun r id c s hc hring => ?discard⟩
  case delivered =>
    rw [exec_arrivalWriteEnd hbus hr, takeArrivalEnd_written (s := clearBus s) hw,
      arrivalDelivered_eq (s := clearBus s) hc hring, closeIfDrainedArrival_eq, arrival_recordDelivered, if_neg]
    · rfl
    · rintro ⟨hstate, hzero⟩
      have hmore := hstays.resolve_left (absurd hstate)
      have hzero : (s.arrival w.ring).held - 1 = 0 := hzero
      omega
  case closed =>
    have hlast : ((recordDelivered w (clearBus s)).arrival w.ring).state = .draining
        ∧ ((recordDelivered w (clearBus s)).arrival w.ring).held = 0 := by
      rw [arrival_recordDelivered]
      exact ⟨hdraining, Nat.sub_eq_zero_of_le hheld.le⟩
    refine ⟨arrivalClosed w.ring (recordDelivered w (clearBus s)), ?_, ?_, arrivalClosed_recordDelivered_hp w _, rfl, rfl,
      rfl, rfl, rfl, rfl, rfl, rfl, rfl, fun q hq => ?_, fun ha cmd hcmd => ?_, fun h => ?_, rfl⟩
    · rw [exec_arrivalWriteEnd hbus hr, takeArrivalEnd_written (s := clearBus s) hw,
        arrivalDelivered_eq (s := clearBus s) hc hring, closeIfDrainedArrival_eq, if_pos hlast]
    · rw [arrival_arrivalClosed, if_pos rfl, arrival_recordDelivered]
      simp only [ArrivalRing.delivered, ArrivalRing.counted, show (clearBus s).arrival w.ring = s.arrival w.ring from rfl,
        hheld]
    · rw [arrival_arrivalClosed, if_neg hq.symm]
      exact (State.arrival_updArrival _ _ _ _).trans (if_neg hq.symm)
    · have hdiscards : ((recordDelivered w (clearBus s)).arrival w.ring).discards = (s.arrival w.ring).discards := by
        rw [arrival_recordDelivered]
        rfl
      rw [← hdiscards]
      exact arrivalClosed_waiting (s := recordDelivered w (clearBus s)) ha hcmd w.ring
    · exact arrivalClosed_not_waiting (s := recordDelivered w (clearBus s)) h w.ring
  case faulted =>
    have hnot : (s.arrival w.ring).state ≠ .draining := by
      rw [hopen]
      nofun
    rw [exec_arrivalWriteEnd hbus hr, takeArrivalEnd_busError_of_not_draining (s := clearBus s) hw hnot,
      arrivalFaulted_eq (s := clearBus s) hd]
    rfl
  case lost =>
    have hone : u = { ((clearArrivalWrite w.ring (clearBus s)).updArrival w.ring
          (fun a => { a with held := a.held - 1, discards := satInc a.discards })) with
        cp := { s.cp with cells := s.cp.cells.set w.cell.val .free, rxInUse := s.cp.rxInUse - 1 } } := by
      rw [hu, clearArrivalWrite, State.updArrival_updArrival]
      simp only [satInc_eq (top := (0xFFFF : BitVec 16)) rfl]
      rfl
    have hlost : arrivalLostDraining w (clearBus s) =
        if (s.arrival w.ring).held ≤ 1 then arrivalClosed w.ring u else u :=
      arrivalLostDraining_eq (s := clearBus s) hdraining hc hring hone
    rw [exec_arrivalWriteEnd hbus hr, takeArrivalEnd_busError_of_draining (s := clearBus s) hw hdraining, hlost]
    refine ⟨fun hmore => ?_, fun hlast => ?_⟩
    · rw [if_neg (Nat.not_le.2 hmore)]
    · rw [if_pos hlast.le]
  case discard =>
    subst hring
    rw [discardCell_of_rx hc, cellDiscarded]
    simp only [satInc_eq (top := (0xFFFF : BitVec 16)) rfl]

end Sys2Proof.Proofs
end

section
/-! PROOFS. The bytes of completion records, of the arrival record and of the counters block (R134, R148 to R150, R192,
R194, 11.4, 11.6, 11.7). -/

namespace Sys2Proof.Machine

/-! ## Bytes (R192, R194) -/

/-- The two bytes of an index are its value and its 256ths (R192). -/
theorem leIndex_eq (n : Nat) : leIndex n = [BitVec.ofNat 8 n, BitVec.ofNat 8 (n / 256)] := by
  have hlow : (BitVec.ofNat 16 n).extractLsb' 0 8 = BitVec.ofNat 8 n := by
    refine BitVec.eq_of_toNat_eq ?_
    simp only [BitVec.extractLsb'_toNat, BitVec.toNat_ofNat, Nat.shiftRight_zero]
    omega
  have hhigh : (BitVec.ofNat 16 n).extractLsb' 8 8 = BitVec.ofNat 8 (n / 256) := by
    refine BitVec.eq_of_toNat_eq ?_
    simp only [BitVec.extractLsb'_toNat, BitVec.toNat_ofNat, Nat.shiftRight_eq_div_pow]
    omega
  rw [leIndex, leHalf, hlow, hhigh]

/-- Bytes cut or filled to `n` are `n` bytes (R194). -/
theorem length_padTo (n : Nat) (l : List Byte) : (padTo n l).length = n := by
  simp only [padTo, List.length_append, List.length_take, List.length_replicate]
  omega

/-- Bytes that fit are all kept (R194). -/
theorem padTo_of_le {n : Nat} {l : List Byte} (h : l.length ≤ n) :
    padTo n l = l ++ List.replicate (n - l.length) 0 := by
  rw [padTo, List.take_of_length_le h]

/-! ## Completion records (11.4) -/

/-- The reading code stands above the slot number in the first byte of a response list entry (11.4). -/
theorem ResponseEntry.bytes_eq (e : ResponseEntry) :
    e.bytes = [BitVec.ofNat 8 (8 * e.reading.code.toNat + e.slot.val), e.value] := by
  obtain ⟨slot, reading, value⟩ := e
  have hfirst : ∀ (reading : SlotReading) (slot : Slot),
      BitVec.ofNat 3 0 ++ reading.code ++ BitVec.ofNat 3 slot.val =
        BitVec.ofNat 8 (8 * reading.code.toNat + slot.val) := by
    intro reading
    cases reading <;> decide
  rw [ResponseEntry.bytes, hfirst]

/-- A response list takes two bytes for each entry (11.4). -/
theorem length_responseBytes (l : List ResponseEntry) : (l.flatMap ResponseEntry.bytes).length = 2 * l.length := by
  induction l with
  | nil => rfl
  | cons e l ih =>
    rw [List.flatMap_cons, List.length_append, ih, List.length_cons]
    simp only [ResponseEntry.bytes, List.length_cons, List.length_nil]
    omega

/-- A completion record is 16 bytes and the response area's 16 (11.4). -/
theorem length_completionBytes (lapTag : Bool) (ring index : Nat) (status failure attempts lost : Byte) (tag : Word)
    (responses : Nat) (area : List Byte) :
    (completionBytes lapTag ring index status failure attempts lost tag responses area).length = 32 := by
  rw [completionBytes, List.length_append, length_padTo]
  rfl

/-- The record of a transmit cell, byte by byte (R148, R150). -/
theorem TxCell.completionRecord_eq {c : TxCell} (h : c.responses.length ≤ 8) (status : SendStatus) (lap : Bool) :
    c.completionRecord status lap =
      [if lap then 1 else 0, BitVec.ofNat 8 (c.ring.val + 1)] ++ leIndex c.index
        ++ [status.code, c.lastFailure.code, c.attemptsUsed.setWidth 8, c.lostCount] ++ leWord c.tag
        ++ [BitVec.ofNat 8 c.responses.length, 0, 0, 0]
        ++ c.responses.flatMap (fun e => [BitVec.ofNat 8 (8 * e.reading.code.toNat + e.slot.val), e.value])
        ++ List.replicate (16 - 2 * c.responses.length) 0 := by
  have hlength := length_responseBytes c.responses
  rw [TxCell.completionRecord, completionBytes, padTo_of_le (by omega), hlength, ← List.append_assoc]
  simp only [boolByte, funext ResponseEntry.bytes_eq]

/-- The record of a RING_FAULT notice, byte by byte (R139, R148). -/
theorem FaultNotice.completionRecord_eq (n : FaultNotice) (lap : Bool) :
    n.completionRecord lap =
      [if lap then 1 else 0, BitVec.ofNat 8 (n.ring.val + 9)] ++ leIndex n.index ++ [7, 0, 0, 0] ++ leWord 0
        ++ [0, 0, 0, 0] ++ leIndex n.lost ++ List.replicate 14 0 := rfl

/-! ## The arrival record (11.6) -/

/-- The 32 bytes that end an arrival record: the payload, filled with 0 (R134, R194). -/
theorem RxCell.padTo_payload {c : RxCell} (hpayload : c.payload.length = c.length) (hlength : c.length ≤ 32) :
    padTo 32 (c.payload.take c.length) = c.payload ++ List.replicate (32 - c.length) 0 := by
  rw [List.take_of_length_le hpayload.le, padTo_of_le (hpayload.trans_le hlength), hpayload]

end Sys2Proof.Machine

namespace Sys2Proof.Proofs

open Sys2Proof.Machine

/-- Settles O30: the heads of the records are of fixed length, and what follows them is filled to its length with 0. -/
theorem recordLayouts : Obligations.RecordLayouts := by
  refine ⟨fun c status lap h => TxCell.completionRecord_eq h status lap,
    fun c status lap => length_completionBytes _ _ _ _ _ _ _ _ _ _,
    fun a lap => ⟨length_completionBytes _ _ _ _ _ _ _ _ _ _, rfl, fun harea => congrArg _ (padTo_of_le harea)⟩,
    FaultNotice.completionRecord_eq, fun c lap hpayload hlength => ?arrival,
    fun c => ⟨rfl, rfl, rfl, rfl, rfl, rfl, rfl, rfl, rfl⟩, ⟨rfl, rfl, rfl, rfl, rfl⟩, fun w => rfl, leIndex_eq⟩
  case arrival =>
    have hend := RxCell.padTo_payload hpayload hlength
    have hsize := length_padTo 32 (c.payload.take c.length)
    obtain ⟨ring, entry, cls, target, topic, source, mode, length, payload, answer, arrivalTick⟩ := c
    cases answer with
    | none => exact ⟨congrArg (· + 32) hsize, rfl, rfl, rfl, rfl, rfl, hend⟩
    | some slot => exact ⟨congrArg (· + 32) hsize, rfl, rfl, rfl, rfl, rfl, hend⟩

end Sys2Proof.Proofs
end

section
/-! PROOFS. The decisions at the end of an event: the completion writer's and the admin engine's (R147, R148, R158). -/

namespace Sys2Proof.Machine

/-! ## The completion writer (R147) -/

/-- CR takes a write in RUNNING, when it is OPEN with room for one more record and no write of its own in flight
(R147). -/
theorem completionReady_iff (s : State) :
    completionReady s = true ↔
      s.hp.engine = .running ∧ s.rct.completion.state = .opened ∧ s.rct.completion.writeInFlight = false
        ∧ ringDistance s.rct.completion.tail s.rct.completion.head s.rct.completion.size + 1
            < s.rct.completion.size := by
  simp only [completionReady, Bool.and_eq_true, beq_iff_eq, Bool.not_eq_true', decide_eq_true_eq, and_assoc]

/-- The head entry's write begins when CR is ready for it (R147). -/
theorem completionDecision_of_ready {s : State} {e : CompletionEntry} {rest : List CompletionEntry}
    (hpending : s.cw.pending = e :: rest) (hready : completionReady s = true) :
    completionDecision s = beginCompletionWrite e rest s := by
  unfold completionDecision
  rw [hpending]
  exact if_pos hready

/-- With an empty list, or with CR not ready, no write begins (R147). -/
theorem completionDecision_of_nothing {s : State} (h : s.cw.pending = [] ∨ completionReady s = false) :
    completionDecision s = s := by
  unfold completionDecision
  obtain h | h := h
  · rw [h]
  · rw [h]
    split <;> rfl

/-! ## The admin engine (R158) -/

/-- A fetch may begin from IDLE in RUNNING, when AR is OPEN with a posted record and no fetch in flight, and fewer than
four results wait (R158). -/
theorem adminMayFetch_iff (s : State) :
    adminMayFetch s = true ↔
      s.ae.phase = .idle ∧ s.hp.engine = .running ∧ s.rct.admin.state = .opened ∧ s.rct.admin.fetchInFlight = false
        ∧ ringDistance s.rct.admin.tail s.rct.admin.head s.rct.admin.size ≠ 0 ∧ adminResultsPending s < 4 := by
  change _ ↔ _ ∧ _ ∧ _ ∧ _ ∧ _ ∧ adminResultsPending s < Config.adminResultCap
  simp only [adminMayFetch, Bool.and_eq_true, beq_iff_eq, Bool.not_eq_true', decide_eq_true_eq, Nat.pos_iff_ne_zero,
    and_assoc]

/-! ## The end of an event -/

/-- Outside RUNNING the end of an event is the arbiter's decision alone (R45, R147, R158, R187). -/
theorem conclude_of_not_running {s : State} (h : s.hp.engine ≠ .running) : conclude s = arbitrate s := by
  have hoffer : offerDecision s = s := if_neg fun hboth => h hboth.1
  have hwriter : completionDecision s = s :=
    completionDecision_of_nothing (.inr (Bool.eq_false_of_not_eq_true fun hr => h ((completionReady_iff s).1 hr).1))
  have hadmin : adminDecision s = s := if_neg fun hf => h ((adminMayFetch_iff s).1 hf).2.1
  rw [conclude, concludeWithoutOffer, hoffer, hwriter, hadmin]

end Sys2Proof.Machine

namespace Sys2Proof.Proofs

open Sys2Proof.Machine

/-- Settles O33: each decision is begun on one condition, and the opposite condition leaves the state as it is. -/
theorem completionAndAdminDecisions : Obligations.CompletionAndAdminDecisions := by
  refine ⟨fun s => ⟨rfl, rfl, rfl, ?results⟩, ⟨fun id status c s hc => ?record, fun _ _ => rfl, fun _ _ => rfl⟩,
    fun e rest s hpending hrun hopen hfree hroom => ?writes, fun s h => ?writesNothing,
    fun s hidle hrun hopen hfree hposted hfew => ?fetches, fun s h => ?fetchesNothing⟩
  case results =>
    have hkind : CompletionEntry.isAdmin = fun e => match e with | .admin _ => true | _ => false := by
      funext e
      cases e <;> rfl
    exact congrArg (fun p => (s.cw.pending.filter p).length) hkind
  case record =>
    simp only [entryRecord, hc]
  case writes =>
    exact completionDecision_of_ready hpending ((completionReady_iff s).2 ⟨hrun, hopen, hfree, hroom⟩)
  case writesNothing =>
    refine completionDecision_of_nothing (h.imp_right fun hnot => Bool.eq_false_of_not_eq_true fun hready => ?_)
    obtain ⟨hrun, hopen, hfree, hroom⟩ := (completionReady_iff s).1 hready
    obtain hnot | hnot | hnot | hnot := hnot
    · exact hnot hrun
    · exact hnot hopen
    · exact Bool.false_ne_true (hfree.symm.trans hnot)
    · exact Nat.not_le.2 hroom hnot
  case fetches =>
    exact if_pos ((adminMayFetch_iff s).2 ⟨hidle, hrun, hopen, hfree, hposted, hfew⟩)
  case fetchesNothing =>
    refine if_neg fun hfetch => ?_
    obtain ⟨hidle, hrun, hopen, hfree, hposted, hfew⟩ := (adminMayFetch_iff s).1 hfetch
    obtain hnot | hnot | hnot | hnot | hnot | hnot := h
    · exact hnot hidle
    · exact hnot hrun
    · exact hnot hopen
    · exact Bool.false_ne_true (hfree.symm.trans hnot)
    · exact hposted hnot
    · exact Nat.not_le.2 hfew hnot

end Sys2Proof.Proofs
end

section
/-! PROOFS. The end of a completion write: the release of its entry, or the entry into HALTED (R35, R89, R126, R151,
R154, R182). -/

namespace Sys2Proof.Machine

/-! ## The close of a send ring (R126) -/

/-- A send ring that is not DRAINING, or holds cells, stays as it is (R126). -/
theorem closeIfDrainedSend_of_not_drained {r : SendId} {s : State}
    (h : (s.send r).state ≠ .draining ∨ (s.send r).held ≠ 0) : closeIfDrainedSend r s = s :=
  if_neg fun hboth => h.elim (fun hstate => hstate hboth.1) fun hheld => hheld hboth.2

/-- A DRAINING send ring that holds no cell becomes CLOSED, and gives its end to the CLOSE_RING that waits (R126). -/
theorem closeIfDrainedSend_of_drained {r : SendId} {s : State} (hstate : (s.send r).state = .draining)
    (hheld : (s.send r).held = 0) :
    closeIfDrainedSend r s = endCloseRing [] (s.updSend r (fun c => { c with state := .closed })) :=
  if_pos ⟨hstate, hheld⟩

/-! ## The entry of a written record (R35, R151) -/

/-- A transmit cell is freed (R35). -/
theorem freeCell_of_tx {s : State} {id : CellId} {c : TxCell} (h : s.cell id = .tx c) :
    freeCell id s =
      (s.updCp (fun p =>
        { p with
          cells := p.cells.set id.val .free, txInUse := p.txInUse - 1,
          lowInUse := if c.cls = 0 then p.lowInUse else p.lowInUse - 1 })).updSend c.ring
        (fun r => { r with held := r.held - 1 }) := by
  unfold freeCell
  rw [h]
  rfl

/-- The entry of a transmit cell returns its cell to the pool (R34, R35, R126). -/
theorem releaseEntry_of_tx {s : State} {id : CellId} {c : TxCell} (h : s.cell id = .tx c) (status : SendStatus) :
    releaseEntry (.cell id status) s = closeIfDrainedSend c.ring (roomNotice (freeCell id s)) := by
  unfold releaseEntry
  dsimp only
  rw [h]

/-- Any other entry is done with (R151). -/
theorem releaseEntry_of_no_tx {s : State} {e : CompletionEntry}
    (h : ∀ id status c, e = .cell id status → s.cell id ≠ .tx c) : releaseEntry e s = s := by
  unfold releaseEntry
  split
  · next id status =>
    split
    · next c hc => exact absurd hc (h id status c rfl)
    · rfl
  · rfl
  · rfl

/-! ## The event (R182, R187) -/

/-- The end of a completion write on the bus, outside RESETTING, is taken by the completion writer (R187). -/
theorem exec_completionWriteEnd {s : State} (hbus : onBusOf (.requester .cw) .write s = true)
    (hr : s.hp.engine ≠ .resetting) (result : WriteEnd) :
    exec (.completionWriteEnd result) s = .next (conclude (takeCompletionEnd result (clearBus s))) :=
  congrArg Host.Outcome.next (transferEnd_of_onBus hbus hr _)

/-- A write without error: the tail moves, the entry is released, and the record is counted (R151, R153). -/
theorem takeCompletionEnd_written {s : State} {w : CompletionWrite} (h : s.cw.inFlight = some w) :
    takeCompletionEnd .written s = completionWritten w s := by
  unfold takeCompletionEnd
  rw [h]

/-- A failed write halts a RUNNING engine (R154). -/
theorem takeCompletionEnd_busError_of_running {s : State} {w : CompletionWrite} (h : s.cw.inFlight = some w)
    (hrun : s.hp.engine = .running) : takeCompletionEnd .busError s = enterHalted .crWrite s := by
  unfold takeCompletionEnd
  rw [h]
  exact if_pos hrun

/-- A failed write changes nothing in any other engine state (R154). -/
theorem takeCompletionEnd_busError_of_not_running {s : State} (h : s.hp.engine ≠ .running) :
    takeCompletionEnd .busError s = s := by
  unfold takeCompletionEnd
  split
  · rfl
  · exact if_neg h

/-- The entry into HALTED: the HALT cause, the tick stopped, and OFF at once from a boundary phase, with the LINE cause
if the fault flag was set (R89, R182). -/
theorem enterHalted_eq (reason : HaltReason) (s : State) :
    enterHalted reason s =
      { s with
        hp := { s.hp with
          engine := .halted, haltReason := reason,
          cause := if s.le.phase.isBoundary = true ∧ s.le.fault = true then s.hp.cause ||| 0x100#9 ||| 0x20#9
                   else s.hp.cause ||| 0x100#9 },
        le := if s.le.phase.isBoundary = true then
            { s.le with phase := .off, txd := .released, frame := none, fault := false }
          else s.le,
        sch := { s.sch with tickRunning := false } } := by
  unfold enterHalted
  dsimp only
  by_cases hboundary : s.le.phase.isBoundary = true
  · rw [atBoundary_of_halted, goOff_eq]
    · simp only [hboundary, true_and, if_true]
      rfl
    · exact hboundary
    · rfl
  · rw [atBoundary_of_nothing]
    · simp only [hboundary]
      rfl
    · exact .inl (Bool.eq_false_of_not_eq_true hboundary)

end Sys2Proof.Machine

namespace Sys2Proof.Proofs

open Sys2Proof.Machine

/-- Settles O31: a written record releases its entry by kind; a failed one halts the engine, after which the arbiter
alone decides. -/
theorem completionWriteEnds : Obligations.CompletionWriteEnds := by
  refine ⟨fun w s u hbus hr hw hu => ?written, fun w s hbus hw hrun => ?halts, fun s hbus hhalted => ?halted,
    fun r s => ⟨closeIfDrainedSend_of_not_drained,
      fun hstate hheld => ⟨fun hnone => ?closes, fun cmd ha hcmd => ?ends⟩⟩⟩
  case written =>
    have hexec : exec (.completionWriteEnd .written) s =
        .next (conclude (coalesceCompletion (releaseEntry w.entry u))) := by
      rw [exec_completionWriteEnd hbus hr, takeCompletionEnd_written (s := clearBus s) hw, hu]
      rfl
    have hcells : u.cell = s.cell := by
      rw [hu]
      rfl
    refine ⟨fun id status c hentry hc => ?_, fun hother => ?_⟩
    · have hcell : u.cell id = .tx c := by rw [hcells, hc]
      rw [hexec, hentry, releaseEntry_of_tx hcell, freeCell_of_tx hcell, hu]
      rfl
    · rw [hexec, releaseEntry_of_no_tx (by rwa [hcells])]
  case halts =>
    have hr : s.hp.engine ≠ .resetting := by
      rw [hrun]
      nofun
    rw [exec_completionWriteEnd hbus hr, takeCompletionEnd_busError_of_running (s := clearBus s) hw hrun,
      enterHalted_eq, conclude_of_not_running (by nofun)]
    rfl
  case halted =>
    have hr : s.hp.engine ≠ .resetting := by
      rw [hhalted]
      nofun
    have hnot : (clearBus s).hp.engine ≠ .running := by
      rw [(clearBus_frame s).1, hhalted]
      nofun
    rw [exec_completionWriteEnd hbus hr, takeCompletionEnd_busError_of_not_running hnot, conclude_of_not_running hnot]
    rfl
  case closes =>
    rw [closeIfDrainedSend_of_drained hstate hheld, endCloseRing_eq]
    have hnobody : (if s.ae.awaited = .ringClosed then s.ae.current else none) = none :=
      ite_eq_right_iff.2 fun ha => hnone.resolve_left (absurd ha)
    simp only [State.updSend_fields, hnobody]
  case ends =>
    rw [closeIfDrainedSend_of_drained hstate hheld, endCloseRing_eq]
    have hbody : (if s.ae.awaited = .ringClosed then s.ae.current else none) = some cmd := (if_pos ha).trans hcmd
    simp only [State.updSend_fields, hbody]

end Sys2Proof.Proofs
end

section
/-! PROOFS. The completion pending list grows at its tail alone until the completion writer's decision at an event's end
takes its head (R146, R147): every operation an event is made of keeps what stands in the list, in its order. -/

namespace Sys2Proof.Machine

/-- Whatever has joined the completion pending list since `s` stands behind what stood in it then, and nothing has left
(R146). -/
def PendingGrows (s t : State) : Prop := s.cw.pending <+: t.cw.pending

namespace PendingGrows

variable {s t u : State}

theorem refl (s : State) : PendingGrows s s := List.prefix_rfl

/-- The completion writer stands as before. -/
theorem congr (h : PendingGrows s u) (ht : t.cw = u.cw) : PendingGrows s t := by
  unfold PendingGrows
  rwa [ht]

/-- An entry joins at the tail (R146). -/
theorem joinPending (h : PendingGrows s u) (e : CompletionEntry) : PendingGrows s (joinPending e u) :=
  List.IsPrefix.trans h (List.prefix_append _ _)

/-! ## The admin engine (chapter 9) -/

theorem endCommand (h : PendingGrows s u) (status : AdminStatus) (area : List Byte) :
    PendingGrows s (endCommand status area u) := by
  unfold Machine.endCommand
  split
  · exact h
  · exact h.joinPending _

theorem endCloseRing (h : PendingGrows s u) (area : List Byte) : PendingGrows s (endCloseRing area u) :=
  ite_keeps h (h.endCommand _ _)

theorem reportMode (h : PendingGrows s u) : PendingGrows s (reportMode u) := ite_keeps h (h.endCommand _ _)

/-! ## The scheduler (chapter 3) -/

theorem completeCell (h : PendingGrows s u) (id : CellId) (status : SendStatus) :
    PendingGrows s (completeCell id status u) :=
  joinPending (h.congr (by simp)) _

theorem setVerdict (h : PendingGrows s u) (v : Verdict) (id : CellId) : PendingGrows s (setVerdict v id u) :=
  h.congr (by simp)

theorem verdictDepartures (h : PendingGrows s u) (r : SendId) : PendingGrows s (verdictDepartures r u) := by
  unfold Machine.verdictDepartures
  split
  · exact h
  · exact foldl_keeps_prop (PendingGrows s) _ (fun _ _ hb => hb.completeCell _ _) _ _ h

theorem withdrawOffer (h : PendingGrows s u) : PendingGrows s (withdrawOffer u) := by
  unfold Machine.withdrawOffer
  split
  · exact h
  · split
    · exact h
    · split
      · exact verdictDepartures (u := joinHead _ _ (emptySlot u)) h _
      · exact h

theorem settleAttempt (h : PendingGrows s u) (id : CellId) (o : AttemptOutcome) :
    PendingGrows s (settleAttempt id o u) := by
  unfold Machine.settleAttempt
  split
  · dsimp only
    split
    · exact h
    · exact (completeCell (u := u.setCell id _) h id _).verdictDepartures _
  · exact h

theorem expireCell (h : PendingGrows s u) (id : CellId) (c : TxCell) : PendingGrows s (expireCell id c u) := by
  unfold Machine.expireCell
  split
  · split
    · exact h.setVerdict _ _
    · exact (completeCell (u := emptySlot u) h id _).verdictDepartures _
  · split
    · exact (h.setVerdict _ _).verdictDepartures _
    · exact h

theorem flushRing (h : PendingGrows s u) (r : SendId) : PendingGrows s (flushRing r u) :=
  verdictDepartures (foldl_keeps_prop (PendingGrows s) _ (fun _ _ hb => hb.setVerdict _ _) _ _ h) r

theorem fetchDecision (h : PendingGrows s u) : PendingGrows s (fetchDecision u) := h.congr (by simp)

theorem takeFetchEnd (h : PendingGrows s u) (result : ReadEnd) : PendingGrows s (takeFetchEnd result u) := by
  unfold Machine.takeFetchEnd
  split
  · exact h
  · refine fetchDecision (verdictDepartures ?_ _)
    exact h.congr (by simp)

/-! ## The rings that close, and the arrival writer (R126, chapter 7) -/

theorem closeIfDrainedSend (h : PendingGrows s u) (r : SendId) : PendingGrows s (closeIfDrainedSend r u) :=
  ite_keeps h (endCloseRing (u := State.updSend _ _ u) h _)

theorem closeIfDrainedArrival (h : PendingGrows s u) (r : ArrivalId) : PendingGrows s (closeIfDrainedArrival r u) :=
  ite_keeps h (endCloseRing (h.congr (by simp)) _)

theorem arrivalDecision (h : PendingGrows s u) : PendingGrows s (arrivalDecision u) := h.congr (by simp)

theorem takeArrivalEnd (h : PendingGrows s u) (result : WriteEnd) : PendingGrows s (takeArrivalEnd result u) := by
  unfold Machine.takeArrivalEnd
  split
  · exact h
  · refine arrivalDecision ?_
    cases result with
    | written => exact closeIfDrainedArrival (h.congr (by simp)) _
    | busError =>
      dsimp only
      split
      · exact closeIfDrainedArrival (h.congr (by simp)) _
      · exact joinPending (h.congr (by simp)) _

theorem commitToRing (h : PendingGrows s u) (r : ArrivalId) (id : CellId) : PendingGrows s (commitToRing r id u) := by
  unfold Machine.commitToRing
  split
  · exact h.congr (by simp)
  · exact closeIfDrainedArrival (h.congr (by simp)) r

theorem dropReceptionCell (h : PendingGrows s u) (id : CellId) : PendingGrows s (dropReceptionCell id u) := by
  unfold Machine.dropReceptionCell
  split
  · exact closeIfDrainedArrival (h.congr (by simp)) _
  · exact h

/-! ## The reception (chapter 5) -/

theorem checkCall (h : PendingGrows s u) (good : Bool) (payload : List Byte) :
    PendingGrows s (checkCall good payload u) := by
  unfold Machine.checkCall
  split
  · exact h
  · split
    · split
      · unfold commitReception
        split
        · exact commitToRing (h.congr (by simp)) _ _
        · exact h
      · exact h.congr (by simp)
    · unfold cancelReception
      split
      · exact dropReceptionCell (h.congr (by simp)) _
      · exact h

theorem abandonReception (h : PendingGrows s u) : PendingGrows s (abandonReception u) := by
  unfold Machine.abandonReception
  split
  · exact h
  · split
    · exact dropReceptionCell (h.congr (by simp)) _
    · exact h

/-! ## The line engine (chapter 4) -/

theorem takeMode (h : PendingGrows s u) (m : LineMode) : PendingGrows s (takeMode m u) := by
  have applied : PendingGrows s (applyMode u.le.mode m
      (u.updLe fun l => { l with mode := m, pendingMode := none, errorRun := 0, muted := false })) :=
    h.congr (by simp)
  exact reportMode (ite_keeps applied applied.withdrawOffer)

theorem atBoundary (h : PendingGrows s u) : PendingGrows s (atBoundary u) := by
  obtain heq | heq | ⟨m, heq⟩ := atBoundary_cases u <;> rw [heq]
  · exact h
  · exact h.congr (by simp)
  · exact h.takeMode m

theorem endAttempt (h : PendingGrows s u) (o : AttemptOutcome) (rest : Option Frame) :
    PendingGrows s (endAttempt o rest u) := by
  unfold Machine.endAttempt
  split
  · exact h
  · have left : PendingGrows s (leaveAttempt o rest u) := h.congr (by simp)
    dsimp only
    refine settleAttempt ?_ _ _
    split
    · exact left
    · exact left.abandonReception

theorem enterFault (h : PendingGrows s u) : PendingGrows s (enterFault u) := by
  have ended : PendingGrows s (if u.le.phase.isAttempt then Machine.endAttempt .lineFault none u else u) :=
    ite_keeps h (h.endAttempt _ _)
  unfold Machine.enterFault
  split
  · exact h
  · split
    · exact h
    · exact atBoundary (congr (ite_keeps ended ended.abandonReception) rfl)

theorem attemptEndAt (h : PendingGrows s u) (cells : CellsRead) (quiet : Nat) :
    PendingGrows s (attemptEndAt cells quiet u) := by
  unfold Machine.attemptEndAt
  split
  · exact h
  · dsimp only
    split
    · exact h
    · exact h.enterFault
    · exact atBoundary (endAttempt (u := measureQuiet quiet u) h _ _)

/-! ## The whole part -/

theorem enterHalted (h : PendingGrows s u) (reason : HaltReason) : PendingGrows s (enterHalted reason u) :=
  atBoundary (congr (u := u) h rfl)

theorem takeBootEnd (h : PendingGrows s u) (result : ReadEnd) : PendingGrows s (takeBootEnd result u) := by
  unfold Machine.takeBootEnd judgeBoot
  refine ite_keeps h ?_
  split
  · exact h.enterHalted _
  · split
    · exact h.congr (by simp [enterRunning])
    · exact h.enterHalted _

theorem coalesceCompletion (h : PendingGrows s u) : PendingGrows s (coalesceCompletion u) := h.congr (by simp)

theorem completionWritten (h : PendingGrows s u) (w : CompletionWrite) : PendingGrows s (completionWritten w u) := by
  have cleared : PendingGrows s ((advanceCompletionTail u).updCw (fun c => { c with inFlight := none })) := h
  refine coalesceCompletion ?_
  unfold releaseEntry
  split
  · split
    · exact closeIfDrainedSend (cleared.congr (by simp)) _
    · exact cleared
  · exact cleared
  · exact cleared

theorem takeCompletionEnd (h : PendingGrows s u) (result : WriteEnd) :
    PendingGrows s (takeCompletionEnd result u) := by
  unfold Machine.takeCompletionEnd
  split
  · exact h
  · cases result with
    | written => exact h.completionWritten _
    | busError => exact ite_keeps h (h.enterHalted _)

/-! ## The administrative commands (chapter 9) -/

theorem performCommand (h : PendingGrows s u) (c : AdminCommand) (quiet : Nat) :
    PendingGrows s (performCommand c quiet u) := by
  cases c with
  | nodeSet p =>
    simp only [Machine.performCommand, performNodeSet]
    split
    · refine endCommand ?_ _ _
      split
      · exact h.congr (by simp)
      · exact h
    · exact h.endCommand _ _
  | lineMode code =>
    simp only [Machine.performCommand, performLineMode]
    split
    · refine atBoundary (h.congr ?_)
      split <;> rfl
    · exact h
  | openSend p =>
    simp only [Machine.performCommand, performOpenSend]
    split
    · exact endCommand (u := State.updSend _ _ u) h _ _
    · exact h
  | openArrival p =>
    simp only [Machine.performCommand, performOpenArrival]
    split
    · exact endCommand (u := State.updArrival _ _ u) h _ _
    · exact h
  | closeRing ring =>
    simp only [Machine.performCommand, performCloseRing]
    split
    · exact closeIfDrainedSend (flushRing (u := awaitEvent _ (State.updSend _ _ u)) h _) _
    · exact closeIfDrainedArrival (h.congr (by simp)) _
    · exact h
  | filterWrite index form =>
    simp only [Machine.performCommand, performFilterWrite]
    split
    · exact endCommand (u := u.setEntry _ _) h _ _
    · exact h
  | filterRead index => exact h.endCommand _ _
  | countsRead clear address => exact h

theorem judgeCommand (h : PendingGrows s u) (c : AdminCommand) (reservedZero : Bool) (quiet : Nat) :
    PendingGrows s (judgeCommand c reservedZero quiet u) := by
  unfold Machine.judgeCommand
  split
  · exact h.endCommand _ _
  · split
    · exact h.endCommand _ _
    · exact h.performCommand c quiet

theorem takeAdminRecord (h : PendingGrows s u) (tag : Word) (reading : AdminReading) (quiet : Nat) :
    PendingGrows s (takeAdminRecord tag reading quiet u) := by
  have advanced : PendingGrows s (advanceAdminHead u) := h
  simp only [Machine.takeAdminRecord]
  split
  · exact advanced
  · cases reading with
    | unknown => exact advanced.joinPending _
    | command c reservedZero => exact judgeCommand (u := State.updAe _ (advanceAdminHead u)) h c reservedZero quiet

theorem takeAdminEnd (h : PendingGrows s u) (result : ReadEnd) (quiet : Nat) :
    PendingGrows s (takeAdminEnd result quiet u) := by
  cases result with
  | data r => exact KeptByEvents.whenFetching h fun _ => h.takeAdminRecord _ _ _
  | busError => exact KeptByEvents.whenFetching h fun _ => h.joinPending _

theorem takeCountsEnd (h : PendingGrows s u) (result : WriteEnd) : PendingGrows s (takeCountsEnd result u) := by
  unfold Machine.takeCountsEnd
  refine ite_keeps h ?_
  cases result with
  | written =>
    refine endCommand ?_ _ _
    split <;> exact h
  | busError => exact endCommand (u := dropSnapshot u) h _ _

end PendingGrows

end Sys2Proof.Machine
end

section
/-! PROOFS. One command and the completion pending list (R146, R147): its operations let the list grow at the tail, and
the decisions at its end take at most the head. -/

namespace Sys2Proof.Machine

/-- Unless RESET is reached, at most the list's head has left, for the write in flight at CR's tail, and what has joined
has joined at the tail (R146, R147). -/
def PendingFifo (s t : State) : Prop :=
  t.hp.engine ≠ .reset →
    ∃ dropped added, s.cw.pending ++ added = dropped ++ t.cw.pending
      ∧ (dropped = [] ∨ ∃ e, dropped = [e] ∧ t.cw.inFlight = some { entry := e, index := t.rct.completion.tail })

section
variable {s t u : State}

/-- A list that has only grown lost nothing. -/
theorem PendingGrows.fifo (h : PendingGrows s t) : PendingFifo s t := fun _ =>
  let ⟨added, hadded⟩ := h
  ⟨[], added, hadded, .inl rfl⟩

/-- The completion writer's decision takes no entry, or the head for the write in flight at CR's tail (R147). -/
theorem completionDecision_pending (s : State) :
    (completionDecision s).cw.pending = s.cw.pending
      ∨ ∃ e, s.cw.pending = e :: (completionDecision s).cw.pending
        ∧ (completionDecision s).cw.inFlight =
            some { entry := e, index := (completionDecision s).rct.completion.tail } := by
  cases hpending : s.cw.pending with
  | nil => exact .inl (by rw [completionDecision_of_nothing (.inl hpending), hpending])
  | cons e rest =>
    by_cases hready : completionReady s = true
    · rw [completionDecision_of_ready hpending hready]
      exact .inr ⟨e, rfl, rfl⟩
    · rw [completionDecision_of_nothing (.inr (Bool.eq_false_of_not_eq_true hready)), hpending]
      exact .inl rfl

/-- The admin engine's and the arbiter's decisions leave the list and CR to the completion writer's (R158, R187). -/
theorem concludeWithoutOffer_completion (s : State) :
    (concludeWithoutOffer s).cw = (completionDecision s).cw
      ∧ (concludeWithoutOffer s).rct.completion = (completionDecision s).rct.completion := by
  simp [concludeWithoutOffer]

/-- The decisions at an event's end take at most the head of the list as the event has left it. -/
theorem PendingGrows.concludeWithoutOffer (h : PendingGrows s u) : PendingFifo s (concludeWithoutOffer u) := by
  intro _
  obtain ⟨added, hadded⟩ := h
  obtain ⟨hcw, hring⟩ := concludeWithoutOffer_completion u
  rw [hcw, hring]
  obtain hkept | ⟨e, hhead, hwrite⟩ := completionDecision_pending u
  · exact ⟨[], added, by rw [hkept, hadded]; rfl, .inl rfl⟩
  · exact ⟨[e], added, by rw [hadded, hhead]; rfl, .inr ⟨e, rfl, hwrite⟩⟩

theorem PendingGrows.conclude (h : PendingGrows s u) : PendingFifo s (conclude u) :=
  PendingGrows.concludeWithoutOffer (h.congr (by simp))

theorem PendingGrows.concludeAttempt (h : PendingGrows s u) (m : EndMoment) : PendingFifo s (concludeAttempt m u) := by
  cases m with
  | plain => exact h.conclude
  | beforeNext => exact h.concludeWithoutOffer

namespace PendingFifo

theorem refl (s : State) : PendingFifo s s := (PendingGrows.refl s).fifo

/-- The completion writer stands as before the event. -/
theorem of_cw (h : t.cw = s.cw) : PendingFifo s t := ((PendingGrows.refl s).congr h).fifo

/-- A soft reset reaches RESET (R190). -/
theorem softResetState (s u : State) : PendingFifo s (softResetState u) := fun hr => absurd rfl hr

/-! ## Register writes (chapter 10) -/

theorem writeControl (s : State) (value : Word) : PendingFifo s (writeControl value s) := by
  unfold Machine.writeControl
  split
  · unfold beginSoftReset
    dsimp only
    split
    · exact softResetState s _
    · exact of_cw rfl
  · split
    · exact of_cw rfl
    · exact refl s

theorem windowWrite (s : State) (r : Register) (value : Word) : PendingFifo s (windowWrite r value s) := by
  refine ite_keeps (refl s) ?_
  cases r with
  | control => exact writeControl s value
  | status => exact refl s
  | bootLo | bootHi => exact ite_keeps (refl s) (of_cw rfl)
  | post =>
    obtain heq | heq | ⟨n, heq⟩ := writePost_cases value s
    all_goals rw [writeRegister, heq]
    · exact of_cw rfl
    · exact PendingGrows.conclude (.congr (.refl s) rfl)
    · exact PendingGrows.conclude (.congr (.refl s) (by simp))
  | release =>
    obtain heq | heq | ⟨n, heq⟩ := writeRelease_cases value s
    all_goals rw [writeRegister, heq]
    · exact of_cw rfl
    · exact PendingGrows.conclude (.congr (.refl s) rfl)
    · exact PendingGrows.conclude (.congr (.refl s) (by simp))
  | cause | mask => exact of_cw rfl

/-! ## Ends of transfers (10.5) -/

/-- The end of a transfer whose owner only lets the list grow. -/
theorem transferEnd (s : State) (owner : BusOwner) (d : Direction) {take : State → State}
    (htake : ∀ {u}, PendingGrows s u → PendingGrows s (take u)) : PendingFifo s (transferEnd owner d take s) := by
  obtain heq | heq | heq := transferEnd_cases owner d take s <;> rw [heq]
  · exact refl s
  · exact softResetState s s
  · exact PendingGrows.conclude (htake (.congr (.refl s) (by simp)))

theorem adminCommandEnd (s : State) (tag : Word) (c : AdminCommand) (quiet : Nat) :
    PendingFifo s (adminCommandEnd tag c quiet s) :=
  transferEnd s _ _ fun h => KeptByEvents.whenFetching h fun _ => h.takeAdminRecord _ _ _

/-! ## Line events (chapter 4) -/

theorem execAttemptStart {kind : SofKind} {quiet : Nat} (ht : execAttemptStart kind quiet s = .next t) :
    PendingFifo s t := by
  cases ht
  cases kind with
  | driven m => exact ite_keeps (refl s) (of_cw rfl)
  | edgeRead m => exact of_cw (by simp)

theorem execFrameStart {quiet : Nat} {pulse : PulseRead} (ht : execFrameStart quiet pulse s = .next t) :
    PendingFifo s t := by
  cases ht
  have restarts : PendingFifo s (restartQuiet s) := of_cw (by simp)
  cases classifyPulse s.ae.rate pulse.length with
  | sof => exact of_cw (by simp)
  | data1 | data0 | invalid | breakPulse => exact restarts
  | stuck => exact ite_keeps (refl s) restarts
  | glitch => exact refl s

theorem execArbitrationWon (ht : execArbitrationWon s = .next t) : PendingFifo s t := by
  cases ht
  split
  · exact ite_keeps (refl s) (of_cw rfl)
  · exact refl s

theorem execHeaderEnd {cells : CellsRead} (ht : execHeaderEnd cells s = .next t) : PendingFifo s t := by
  cases ht
  split
  · dsimp only
    split
    · split
      · exact of_cw (by simp)
      · exact refl s
    · exact refl s
  · exact refl s

theorem execCheckEnd {payload check : CellsRead} (ht : execCheckEnd payload check s = .next t) : PendingFifo s t := by
  cases ht
  split
  · refine ite_keeps (refl s) (PendingGrows.conclude (.congr (PendingGrows.checkCall (u := s.updLe _) ?_ _ _) rfl))
    exact .refl s
  · exact refl s

theorem execEodEnd (ht : execEodEnd s = .next t) : PendingFifo s t := by
  cases ht
  split
  · exact ite_keeps (refl s) (of_cw rfl)
  · exact refl s

theorem execSlotEnd {slot : Slot} {cells : CellsRead} (ht : execSlotEnd slot cells s = .next t) : PendingFifo s t := by
  cases ht
  split
  · dsimp only
    split
    · exact of_cw (by simp)
    · exact ite_keeps (refl s) (of_cw (by simp))
  · exact refl s

theorem execFrameEnd {tail : TailRead} (ht : execFrameEnd tail s = .next t) : PendingFifo s t := by
  cases ht
  split
  · exact ite_keeps (refl s) (PendingGrows.conclude (PendingGrows.atBoundary (.congr (.refl s) rfl)))
  · exact refl s

theorem execFrameAbandoned {cells : CellsRead} {quiet : Nat} (ht : execFrameAbandoned cells quiet s = .next t) :
    PendingFifo s t := by
  cases ht
  split
  · exact ite_keeps (refl s)
      (PendingGrows.conclude (PendingGrows.atBoundary (.congr (PendingGrows.abandonReception (.refl s)) rfl)))
  · exact refl s

/-! ## Timers (R57 to R59, R138, R153) -/

theorem expireDeadline (s : State) (id : CellId) : PendingFifo s (expireDeadline id s) := by
  unfold Machine.expireDeadline
  split
  · exact ite_keeps (refl s) (PendingGrows.conclude (PendingGrows.expireCell (.refl s) _ _))
  · exact refl s

/-! ## One command -/

/-- Every command treats the list first in, first out. -/
theorem exec {i : Instr} (ht : exec i s = .next t) : PendingFifo s t := by
  have grown := PendingGrows.refl s
  cases i with
  | resetPinAssert => cases ht; exact fun hr => absurd rfl hr
  | resetPinRelease => cases ht; exact of_cw rfl
  | softResetComplete => cases ht; exact ite_keeps (refl s) (softResetState s s)
  | softReset value | enable value | bootLoWrite value | bootHiWrite value | post value | release value
  | causeWrite value | maskWrite value => cases ht; exact windowWrite s _ value
  | registerWrite r width value => cases ht; exact ite_keeps (refl s) (windowWrite s r value)
  | bootReadEnd result => cases ht; exact transferEnd s _ _ fun h => h.takeBootEnd result
  | fetchEnd result => cases ht; exact transferEnd s _ _ fun h => h.takeFetchEnd result
  | adminFetchEnd result quiet => cases ht; exact transferEnd s _ _ fun h => h.takeAdminEnd result quiet
  | nodeSet tag _ | lineMode tag _ _ | openSend tag _ | openArrival tag _ | closeRing tag _ | filterWrite tag _ _
  | filterRead tag _ | countsRead tag _ _ => cases ht; exact adminCommandEnd s tag _ _
  | countsWriteEnd result => cases ht; exact transferEnd s _ _ fun h => h.takeCountsEnd result
  | arrivalWriteEnd result => cases ht; exact transferEnd s _ _ fun h => h.takeArrivalEnd result
  | completionWriteEnd result => cases ht; exact transferEnd s _ _ fun h => h.takeCompletionEnd result
  | tick => cases ht; exact ite_keeps (refl s) (of_cw rfl)
  | deadlineExpiry id => cases ht; exact expireDeadline s id
  | arrivalTimerExpiry r => cases ht; exact ite_keeps (refl s) (of_cw (by simp))
  | crTimerExpiry => cases ht; exact ite_keeps (refl s) (of_cw (by simp))
  | joinComplete quiet => cases ht; exact ite_keeps (refl s) (grown.congr (by simp)).conclude
  | attemptStart kind quiet => exact execAttemptStart ht
  | frameStart quiet pulse => exact execFrameStart ht
  | arbitrationWon => exact execArbitrationWon ht
  | attemptEnd before last ending => cases ht; exact ite_keeps (refl s) ((grown.attemptEndAt _ _).concludeAttempt _)
  | headerEnd cells => exact execHeaderEnd ht
  | checkEnd payload check => exact execCheckEnd ht
  | slotEnd slot cells => exact execSlotEnd ht
  | frameEnd tail => exact execFrameEnd ht
  | frameAbandoned cells quiet => exact execFrameAbandoned ht
  | stuckLine dominant => cases ht; exact ite_keeps (refl s) grown.enterFault.conclude
  | faultExit quiet | recoveryEnd quiet => cases ht; exact ite_keeps (refl s) (grown.congr (by simp)).conclude
  | eodEnd => exact execEodEnd ht

end PendingFifo

end

end Sys2Proof.Machine

namespace Sys2Proof.Proofs

open Sys2Proof.Machine

/-- Settles O55: within an event the list only grows, at its tail, and the decision at the event's end takes at most its
head. -/
theorem completionListIsFifo : Obligations.CompletionListIsFifo := fun _ _ _ ht => PendingFifo.exec ht

end Sys2Proof.Proofs
end

section
/-! PROOFS. The ranges and the states by which the administrative commands are judged (R161, R164 to R172, R192,
11.5). -/

namespace Sys2Proof.Machine

/-! ## Ring numbers (R192) -/

/-- A number names a send ring when it is from 1 to 8. -/
theorem isSome_sendOfNumber_iff (n : Nat) : (sendOfNumber n).isSome = true ↔ 1 ≤ n ∧ n ≤ 8 := by
  unfold sendOfNumber RingName.ofNumber
  split_ifs <;> simp <;> omega

/-- A number names an arrival ring when it is from 9 to 12. -/
theorem isSome_arrivalOfNumber_iff (n : Nat) : (arrivalOfNumber n).isSome = true ↔ 9 ≤ n ∧ n ≤ 12 := by
  unfold arrivalOfNumber RingName.ofNumber
  split_ifs <;> simp <;> omega

/-! ## Sizes, addresses and codes -/

/-- A ring size is valid when it is one of the powers of two from 8 to 1024 (R114, R131). -/
theorem sizeValid_iff (n : Nat) : sizeValid n = true ↔ ∃ k, 3 ≤ k ∧ k ≤ 10 ∧ n = 2 ^ k := by
  simp only [sizeValid, List.contains_iff_mem, List.mem_cons, List.not_mem_nil, or_false]
  constructor
  · rintro (rfl | rfl | rfl | rfl | rfl | rfl | rfl | rfl)
    exacts [⟨3, by decide⟩, ⟨4, by decide⟩, ⟨5, by decide⟩, ⟨6, by decide⟩, ⟨7, by decide⟩, ⟨8, by decide⟩,
      ⟨9, by decide⟩, ⟨10, by decide⟩]
  · rintro ⟨k, hlow, hhigh, rfl⟩
    interval_cases k <;> decide

/-- An address is a multiple of 64 when its six low bits are 0. -/
theorem alignedTo64_iff (a : Addr) : alignedTo64 a = true ↔ a.toNat % 64 = 0 := by
  simp only [alignedTo64, beq_iff_eq, ← BitVec.toNat_inj, BitVec.extractLsb'_toNat, Nat.shiftRight_zero]
  rfl

/-- Codes 0 to 3 name the line modes (R165). -/
theorem isSome_modeOfCode_iff (code : Byte) : (LineMode.ofCode code).isSome = true ↔ code.toNat ≤ 3 := by
  unfold LineMode.ofCode
  simp only [← BitVec.toNat_inj, BitVec.ofNat_eq_ofNat, BitVec.toNat_ofNat]
  split_ifs <;> simp <;> omega

/-- Codes 0 to 2 name the actions (11.5). -/
theorem actionOfCode_eq_none_iff (code : Byte) : Action.ofCode code = none ↔ 2 < code.toNat := by
  unfold Action.ofCode
  simp only [← BitVec.toNat_inj, BitVec.ofNat_eq_ofNat, BitVec.toNat_ofNat]
  split_ifs <;> simp <;> omega

/-- A form spells an entry when its reserved flag bits are 0 and each field is in range (R170, R193). -/
theorem isSome_entryOfForm_iff (f : EntryForm) :
    (entryOfForm f).isSome = true ↔
      f.flags.toNat < 4 ∧ f.action.toNat ≤ 2 ∧ f.ring.toNat ≤ 3 ∧ f.slot.toNat ≤ 7 ∧ f.topicValue.toNat ≤ 63
        ∧ f.topicMask.toNat ≤ 63 := by
  have hflags := extractLsb'_high_eq_zero_iff (low := 2) (high := 6) rfl f.flags
  have haction := actionOfCode_eq_none_iff f.action
  unfold entryOfForm
  cases hcode : Action.ofCode f.action with
  | none =>
    have habove := haction.1 hcode
    refine iff_of_false nofun fun h => ?_
    omega
  | some action =>
    have hbelow : ¬2 < f.action.toNat := fun h => Option.some_ne_none action (hcode.symm.trans (haction.2 h))
    dsimp only
    rw [Option.isSome_ite, hflags]
    omega

end Sys2Proof.Machine

namespace Sys2Proof.Proofs

open Sys2Proof.Machine

/-- Settles O20: each check is a conjunction of bounds on the parameters, and each state check reads one field. -/
theorem adminRangesAndStates : Obligations.AdminRangesAndStates := by
  refine ⟨fun p => ?nodeSet, isSome_modeOfCode_iff, fun p => ?openSend, fun p => ?openArrival, fun ring => ?closeRing,
    fun index f => ?filterWrite, fun index => decide_eq_true_iff, fun clear a => ?countsRead, fun p s => beq_iff_eq,
    fun code s => ?modeHolds, fun p r s hring => ?sendClosed, fun p r s hring => ?arrivalClosed,
    fun ring r s hring => ?sendOpen, fun ring r s hring => ?arrivalOpen⟩
  case nodeSet =>
    simp only [adminInRange, nodeSetInRange, Bool.and_eq_true, decide_eq_true_eq, and_assoc]
  case openSend =>
    simp only [adminInRange, openSendInRange, Bool.and_eq_true, decide_eq_true_eq, isSome_sendOfNumber_iff,
      alignedTo64_iff, sizeValid_iff, and_assoc]
  case openArrival =>
    simp only [adminInRange, openArrivalInRange, Bool.and_eq_true, decide_eq_true_eq, isSome_arrivalOfNumber_iff,
      alignedTo64_iff, sizeValid_iff, and_assoc]
  case closeRing =>
    simp only [adminInRange, closeRingInRange, Bool.or_eq_true, isSome_sendOfNumber_iff, isSome_arrivalOfNumber_iff]
    omega
  case filterWrite =>
    simp only [adminInRange, Bool.and_eq_true, decide_eq_true_eq, isSome_entryOfForm_iff]
  case countsRead =>
    simp only [adminInRange, Bool.and_eq_true, decide_eq_true_eq, alignedTo32_iff]
  case modeHolds =>
    simp only [adminStateHolds, Bool.not_eq_true', Bool.and_eq_false_imp, beq_iff_eq, beq_eq_false_iff_ne, not_and,
      ne_eq]
  case sendClosed => simp only [adminStateHolds, sendOfNumber_of_eq hring, beq_iff_eq]
  case arrivalClosed => simp only [adminStateHolds, arrivalOfNumber_of_eq hring, beq_iff_eq]
  case sendOpen => simp only [adminStateHolds, ofNumber_send hring, bne_iff_ne]
  case arrivalOpen => simp only [adminStateHolds, ofNumber_arrival hring, bne_iff_ne]

end Sys2Proof.Proofs
end

section
/-! PROOFS. The bytes of an admin record and the command it spells (R159, R161, R192, R193, 11.3). -/

namespace Sys2Proof.Machine

/-! ## Fields of more than one byte (R192) -/

/-- Two fields in a row are a value when they are its high and its low bits. -/
theorem append_eq_iff {m n : Nat} (a : BitVec m) (b : BitVec n) (x : BitVec (m + n)) :
    a ++ b = x ↔ x.extractLsb' 0 n = b ∧ x.extractLsb' n m = a := by
  constructor
  · rintro rfl
    exact ⟨BitVec.extractLsb'_append_eq_right, BitVec.extractLsb'_append_eq_left⟩
  · rintro ⟨rfl, rfl⟩
    exact BitVec.extractLsb'_append_extractLsb'

/-- Bits of a field of a value are bits of the value. -/
theorem extractLsb'_of_field {w low len start n : Nat} (h : start + n ≤ len) (x : BitVec w) :
    (x.extractLsb' low len).extractLsb' start n = x.extractLsb' (low + start) n := by
  refine BitVec.eq_of_getLsbD_eq fun i hi => ?_
  simp only [BitVec.getLsbD_extractLsb', hi, decide_true, Bool.true_and, show start + i < len by omega, Nat.add_assoc]

/-- The eight bytes of an address (R192). -/
theorem leAddr_eq (x : Addr) :
    leAddr x =
      [x.extractLsb' 0 8, x.extractLsb' 8 8, x.extractLsb' 16 8, x.extractLsb' 24 8, x.extractLsb' 32 8,
        x.extractLsb' 40 8, x.extractLsb' 48 8, x.extractLsb' 56 8] := by
  simp (disch := decide) only [leAddr, leWord, extractLsb'_of_field, List.cons_append, List.nil_append,
    Nat.reduceAdd]

/-- A two-byte field is read least significant byte first. -/
theorem half_eq_iff (r : Record) (i : Nat) (x : BitVec 16) :
    half r i = x ↔ leHalf x = [byteAt r i, byteAt r (i + 1)] := by
  simp only [leHalf, List.cons.injEq, and_true]
  exact append_eq_iff (m := 8) (n := 8) _ _ x

/-- And so is a four-byte one. -/
theorem word_eq_iff (r : Record) (i : Nat) (x : Word) :
    word r i = x ↔ leWord x = [byteAt r i, byteAt r (i + 1), byteAt r (i + 2), byteAt r (i + 3)] := by
  have hparts : word r i = x ↔ x.extractLsb' 0 16 = half r i ∧ x.extractLsb' 16 16 = half r (i + 2) :=
    append_eq_iff (m := 16) (n := 16) _ _ x
  rw [hparts, eq_comm, half_eq_iff, @eq_comm _ _ (half r (i + 2)), half_eq_iff]
  simp (disch := decide) only [leHalf, leWord, extractLsb'_of_field, List.cons.injEq, and_true, and_assoc,
    Nat.reduceAdd]

/-- And so is an address. -/
theorem addr_eq_iff (r : Record) (i : Nat) (x : Addr) :
    addr r i = x ↔
      leAddr x =
        [byteAt r i, byteAt r (i + 1), byteAt r (i + 2), byteAt r (i + 3), byteAt r (i + 4), byteAt r (i + 5),
          byteAt r (i + 6), byteAt r (i + 7)] := by
  have hparts : addr r i = x ↔ x.extractLsb' 0 32 = word r i ∧ x.extractLsb' 32 32 = word r (i + 4) :=
    append_eq_iff (m := 32) (n := 32) _ _ x
  rw [hparts, eq_comm, word_eq_iff, @eq_comm _ _ (word r (i + 4)), word_eq_iff, leAddr]
  simp only [leWord, List.cons_append, List.nil_append, List.cons.injEq, and_true, and_assoc]

/-! ## The bytes of a record (R192) -/

/-- A record is its 64 bytes. -/
theorem record_ext {r q : Record} (h : ∀ i < 64, byteAt r i = byteAt q i) : r = q := by
  refine Vector.ext fun i hi => ?_
  have hbyte := h i hi
  simpa [byteAt, hi] using hbyte

/-- The bytes of a command's record up to its last parameter (11.3). -/
def spelledBytes (tag : Word) (c : AdminCommand) : List Byte :=
  [adminCode c, 0, 0, 0] ++ leWord tag ++ adminParameterBytes c

/-- A command has at most 16 parameter bytes (11.3). -/
theorem length_adminParameterBytes_le (c : AdminCommand) : (adminParameterBytes c).length ≤ 16 := by
  cases c <;> simp [adminParameterBytes, leHalf, leAddr_eq, entryFormBytes]

/-- The record holds the spelled bytes, and 0 in every other one. -/
theorem toList_adminRecord (tag : Word) (c : AdminCommand) :
    (adminRecord tag c).toList =
      spelledBytes tag c ++ List.replicate (56 - (adminParameterBytes c).length) 0 := by
  have hlength : (spelledBytes tag c).length = 8 + (adminParameterBytes c).length := by
    simp [spelledBytes, leWord]
    omega
  have hbytes : adminRecordBytes tag c =
      spelledBytes tag c ++ List.replicate (56 - (adminParameterBytes c).length) 0 := by
    have hle := length_adminParameterBytes_le c
    rw [adminRecordBytes, ← spelledBytes, padTo_of_le (by omega), hlength]
    congr 2
    omega
  rw [← hbytes]
  have hsize : (adminRecordBytes tag c).length = 64 := length_padTo 64 _
  refine List.ext_getElem (by simp [hsize]) fun i hi hi' => ?_
  simp [adminRecord, hi']

/-- A byte of the record that spells a command. -/
theorem byteAt_adminRecord (tag : Word) (c : AdminCommand) (i : Nat) :
    byteAt (adminRecord tag c) i = (spelledBytes tag c).getD i 0 := by
  rw [byteAt, toList_adminRecord]
  by_cases hi : i < (spelledBytes tag c).length
  · rw [List.getD_append _ _ _ _ hi]
  · rw [List.getD_append_right _ _ _ _ (Nat.le_of_not_lt hi), List.getD_eq_default _ _ (Nat.le_of_not_lt hi)]
    simp

/-! ## The reserved bytes (R193) -/

/-- A stretch of offsets. -/
theorem mem_span (lo hi i : Nat) : i ∈ span lo hi ↔ lo ≤ i ∧ i < hi := by
  simp only [span, List.mem_map, List.mem_range]
  exact ⟨by rintro ⟨j, hj, rfl⟩; omega, fun h => ⟨i - lo, by omega, by omega⟩⟩

/-- The bytes at a list of offsets are 0 when each of them is. -/
theorem zeroAt_iff (r : Record) (offsets : List Nat) : zeroAt r offsets = true ↔ ∀ i ∈ offsets, byteAt r i = 0 := by
  simp only [zeroAt, List.all_eq_true, beq_iff_eq]

/-- Bytes 1 to 3 are reserved in every record. -/
theorem mem_adminReservedOffsets_of_lt (c : AdminCommand) {i : Nat} (hlow : 1 ≤ i) (hhigh : i < 4) :
    i ∈ adminReservedOffsets c := by
  have hspan : i ∈ span 1 4 := (mem_span 1 4 i).2 ⟨hlow, hhigh⟩
  cases c <;> exact List.mem_append_left _ (by simp only [hspan, List.mem_append, true_or])

/-- And so is every byte past a command's last parameter. -/
theorem mem_adminReservedOffsets_of_past {c : AdminCommand} {i : Nat} (hpast : 8 + (adminParameterBytes c).length ≤ i)
    (hi : i < 64) : i ∈ adminReservedOffsets c := by
  cases c <;>
  · simp only [adminParameterBytes, leHalf, leAddr_eq, entryFormBytes, List.length_append, List.length_cons,
      List.length_nil] at hpast
    simp only [adminReservedOffsets, List.mem_append, mem_span]
    omega

/-- The record that spells a command has its reserved bytes 0. -/
theorem zeroAt_adminRecord (tag : Word) (c : AdminCommand) :
    zeroAt (adminRecord tag c) (adminReservedOffsets c) = true := by
  simp only [zeroAt, byteAt_adminRecord]
  cases c <;> rfl

/-! ## A record and the command it spells (R161) -/

/-- The code byte of a record names its command. -/
theorem byteAt_zero_of_adminCommandOf {r : Record} {c : AdminCommand} (h : adminCommandOf r = some c) :
    byteAt r 0 = adminCode c := by
  unfold adminCommandOf at h
  split at h
  case h_9 => cases h
  all_goals
    next hcode =>
    cases h
    exact BitVec.eq_of_toNat_eq hcode

/-- The parameter bytes of a command are those of the record read as it, whose reserved bytes are 0. -/
theorem adminParameterBytes_of_adminCommandOf {r : Record} {c : AdminCommand} (h : adminCommandOf r = some c)
    (hzero : ∀ i ∈ adminReservedOffsets c, byteAt r i = 0) :
    adminParameterBytes c = (List.range (adminParameterBytes c).length).map (fun j => byteAt r (8 + j)) := by
  have hsize := (half_eq_iff r 10 _).1 rfl
  have hbase := (addr_eq_iff r 16 _).1 rfl
  unfold adminCommandOf at h
  split at h
  case h_9 => cases h
  all_goals
    cases h
    simp only [adminReservedOffsets, List.mem_append, mem_span] at hzero
  case h_3 =>
    have hreserved : [0, 0, 0, 0] = [byteAt r 12, byteAt r 13, byteAt r 14, byteAt r 15] := by simp [hzero]
    rw [adminParameterBytes, hsize, hbase, hreserved]
    rfl
  case h_4 =>
    have hreserved : [byteAt r 12, 0, 0, 0] = [byteAt r 12, byteAt r 13, byteAt r 14, byteAt r 15] := by simp [hzero]
    rw [adminParameterBytes, hsize, hbase, hreserved]
    rfl
  case h_8 =>
    have hreserved : [byteAt r 8, 0, 0, 0, 0, 0, 0, 0] =
        [byteAt r 8, byteAt r 9, byteAt r 10, byteAt r 11, byteAt r 12, byteAt r 13, byteAt r 14, byteAt r 15] := by
      simp [hzero]
    rw [adminParameterBytes, hbase, hreserved]
    rfl
  all_goals rfl

/-- The spelled bytes of a command are the first bytes of the record read as it, whose reserved bytes are 0. -/
theorem spelledBytes_of_adminCommandOf {r : Record} {c : AdminCommand} (h : adminCommandOf r = some c)
    (hzero : ∀ i ∈ adminReservedOffsets c, byteAt r i = 0) :
    spelledBytes (adminTag r) c = (List.range (8 + (adminParameterBytes c).length)).map (byteAt r) := by
  have hfirst : [adminCode c, 0, 0, 0] = [byteAt r 0, byteAt r 1, byteAt r 2, byteAt r 3] := by
    rw [byteAt_zero_of_adminCommandOf h, hzero 1 (mem_adminReservedOffsets_of_lt c (by decide) (by decide)),
      hzero 2 (mem_adminReservedOffsets_of_lt c (by decide) (by decide)),
      hzero 3 (mem_adminReservedOffsets_of_lt c (by decide) (by decide))]
  have htag : leWord (adminTag r) = [byteAt r 4, byteAt r 5, byteAt r 6, byteAt r 7] := (word_eq_iff r 4 _).1 rfl
  rw [List.range_add, List.map_append, List.map_map, spelledBytes, hfirst, htag,
    adminParameterBytes_of_adminCommandOf h hzero, List.length_map, List.length_range]
  rfl

/-- A record read as a command, its reserved bytes 0, is the one that spells the command under its tag. -/
theorem eq_adminRecord_of_adminCommandOf {r : Record} {c : AdminCommand} (h : adminCommandOf r = some c)
    (hzero : zeroAt r (adminReservedOffsets c) = true) : r = adminRecord (adminTag r) c := by
  rw [zeroAt_iff] at hzero
  refine record_ext fun i hi => ?_
  rw [byteAt_adminRecord, spelledBytes_of_adminCommandOf h hzero]
  by_cases hlt : i < 8 + (adminParameterBytes c).length
  · simp [List.getD_eq_getElem?_getD, hlt]
  · rw [List.getD_eq_default _ _ (by simpa using hlt),
      hzero i (mem_adminReservedOffsets_of_past (Nat.le_of_not_lt hlt) hi)]

/-- The tag of the record that spells a command. -/
theorem adminTag_adminRecord (tag : Word) (c : AdminCommand) : adminTag (adminRecord tag c) = tag := by
  rw [adminTag, word_eq_iff]
  simp only [byteAt_adminRecord]
  rfl

/-- A two-byte field of the record that spells a command. -/
theorem half_adminRecord {tag : Word} {c : AdminCommand} {i : Nat} {x : BitVec 16}
    (h : leHalf x = [(spelledBytes tag c).getD i 0, (spelledBytes tag c).getD (i + 1) 0]) :
    half (adminRecord tag c) i = x := by
  rwa [half_eq_iff, byteAt_adminRecord, byteAt_adminRecord]

/-- An address in the record that spells a command. -/
theorem addr_adminRecord {tag : Word} {c : AdminCommand} {i : Nat} {x : Addr}
    (h : leAddr x = (List.range 8).map (fun j => (spelledBytes tag c).getD (i + j) 0)) :
    addr (adminRecord tag c) i = x := by
  simp only [addr_eq_iff, byteAt_adminRecord]
  exact h

/-- The record that spells a command reads as it. -/
theorem adminCommandOf_adminRecord (tag : Word) (c : AdminCommand) :
    adminCommandOf (adminRecord tag c) = some c := by
  unfold adminCommandOf
  cases c with
  | nodeSet _ | lineMode _ | closeRing _ | filterWrite _ _ | filterRead _ =>
    simp only [entryFormAt, byteAt_adminRecord]
    rfl
  | openSend p =>
    have hsize : half (adminRecord tag (.openSend p)) 10 = p.size := half_adminRecord rfl
    have hbase : addr (adminRecord tag (.openSend p)) 16 = p.base := addr_adminRecord rfl
    simp only [hsize, hbase, byteAt_adminRecord]
    rfl
  | openArrival p =>
    have hsize : half (adminRecord tag (.openArrival p)) 10 = p.size := half_adminRecord rfl
    have hbase : addr (adminRecord tag (.openArrival p)) 16 = p.base := addr_adminRecord rfl
    simp only [hsize, hbase, byteAt_adminRecord]
    rfl
  | countsRead clear a =>
    have haddress : addr (adminRecord tag (.countsRead clear a)) 16 = a := addr_adminRecord rfl
    simp only [haddress, byteAt_adminRecord]
    rfl

/-- What a record reads as: a known command with its reserved bytes 0 (R161, R193). -/
theorem readAdminRecord_eq_command_iff (r : Record) (c : AdminCommand) (z : Bool) :
    readAdminRecord r = .command c z ↔ adminCommandOf r = some c ∧ zeroAt r (adminReservedOffsets c) = z := by
  unfold readAdminRecord
  cases h : adminCommandOf r with
  | none => simp
  | some d =>
    simp only [AdminReading.command.injEq, Option.some.injEq]
    constructor <;> rintro ⟨rfl, hz⟩ <;> exact ⟨rfl, hz⟩

/-! ## The row of a command (R159) -/

/-- An administrative command's row is the end of its record's fetch (R159). -/
theorem exec_commandRow (tag : Word) (quiet : Nat) (c : AdminCommand) (s : State) :
    exec (commandRow tag quiet c) s = .next (adminCommandEnd tag c quiet s) := by
  cases c <;> rfl

/-- The end of the fetch of the record that spells a command is the command's row (R159, R161). -/
theorem exec_adminFetchEnd_adminRecord (tag : Word) (c : AdminCommand) (quiet : Nat) (s : State) :
    exec (.adminFetchEnd (.data (adminRecord tag c)) quiet) s = .next (adminCommandEnd tag c quiet s) := by
  have hread : readAdminRecord (adminRecord tag c) = .command c true :=
    (readAdminRecord_eq_command_iff _ c true).2 ⟨adminCommandOf_adminRecord tag c, zeroAt_adminRecord tag c⟩
  change Host.Outcome.next (transferEnd _ _ (takeAdminEnd (.data (adminRecord tag c)) quiet) s) = _
  unfold takeAdminEnd
  dsimp only
  rw [adminTag_adminRecord, hread]
  rfl

end Sys2Proof.Machine

namespace Sys2Proof.Proofs

open Sys2Proof.Machine

/-- Settles O18: the spelled bytes of a command determine it, and a record whose reserved bytes are 0 is its spelled
bytes filled with 0. -/
theorem adminRecordSpellsCommand : Obligations.AdminRecordSpellsCommand := by
  refine ⟨fun tag c => ⟨adminTag_adminRecord tag c, ?reads⟩, fun r c h => ?spells,
    fun tag code parameters zeros c hc hzeros => ?bytes,
    fun tag c quiet s => ⟨_, exec_adminFetchEnd_adminRecord tag c quiet s, exec_commandRow tag quiet c s⟩⟩
  case reads =>
    exact (readAdminRecord_eq_command_iff _ c true).2 ⟨adminCommandOf_adminRecord tag c, zeroAt_adminRecord tag c⟩
  case spells =>
    obtain ⟨hcommand, hzero⟩ := (readAdminRecord_eq_command_iff r c true).1 h
    exact eq_adminRecord_of_adminCommandOf hcommand hzero
  case bytes =>
    have hspelled : adminCode c = code ∧ adminParameterBytes c = parameters := by
      obtain ⟨p, rfl, rfl, rfl⟩ | ⟨mode, rfl, rfl, rfl⟩ | ⟨p, rfl, rfl, rfl⟩ | ⟨p, rfl, rfl, rfl⟩
        | ⟨ring, rfl, rfl, rfl⟩ | ⟨index, f, rfl, rfl, rfl⟩ | ⟨index, rfl, rfl, rfl⟩ | ⟨clear, a, rfl, rfl, rfl⟩ := hc
      · exact ⟨rfl, rfl⟩
      · exact ⟨rfl, rfl⟩
      · exact ⟨rfl, congrArg (_ ++ ·) (leAddr_eq p.base)⟩
      · exact ⟨rfl, congrArg (_ ++ ·) (leAddr_eq p.base)⟩
      · exact ⟨rfl, rfl⟩
      · exact ⟨rfl, rfl⟩
      · exact ⟨rfl, rfl⟩
      · exact ⟨rfl, congrArg (_ ++ ·) (leAddr_eq a)⟩
    obtain ⟨rfl, rfl⟩ := hspelled
    rw [toList_adminRecord, hzeros]
    rfl

end Sys2Proof.Proofs
end

section
/-! PROOFS. Admin records that execute no command (R159, R160, R161, R173, R193). -/

namespace Sys2Proof.Machine

/-! ## Unknown codes (R161) -/

/-- A record of a code other than 1 to 8 is no command's. -/
theorem adminCommandOf_of_unknown {r : Record} (h : byteAt r 0 = 0 ∨ 8 < (byteAt r 0).toNat) :
    adminCommandOf r = none := by
  have hcode : (byteAt r 0).toNat = 0 ∨ 8 < (byteAt r 0).toNat := h.imp_left (congrArg BitVec.toNat)
  unfold adminCommandOf
  split
  case h_9 => rfl
  all_goals omega

/-- And reads as an unknown command. -/
theorem readAdminRecord_of_unknown {r : Record} (h : byteAt r 0 = 0 ∨ 8 < (byteAt r 0).toNat) :
    readAdminRecord r = .unknown := by
  rw [readAdminRecord, adminCommandOf_of_unknown h]

/-! ## The end of a record's read (R159, R160, R173) -/

/-- The end of an admin read, where it is due, is taken by the admin engine (R157, R187). -/
theorem exec_adminFetchEnd_of_fetching {s : State} (hbus : onBusOf (.requester .ae) .read s = true)
    (hphase : s.ae.phase = .fetching) (hr : s.hp.engine ≠ .resetting) (quiet : Nat) :
    exec (.adminFetchEnd .busError quiet) s = .next (conclude (takeAdminError (clearBus s)))
      ∧ ∀ r, exec (.adminFetchEnd (.data r) quiet) s =
        .next (conclude (takeAdminRecord (adminTag r) (readAdminRecord r) quiet (clearBus s))) := by
  have hend : ∀ result, exec (.adminFetchEnd result quiet) s =
      .next (conclude (takeAdminEnd result quiet (clearBus s))) := fun result => by
    change Host.Outcome.next (transferEnd _ _ (takeAdminEnd result quiet) s) = _
    rw [transferEnd_of_onBus hbus hr]
  have hfetching : (clearBus s).ae.phase = .fetching := hphase
  exact ⟨by rw [hend, takeAdminEnd, whenFetching, if_pos hfetching],
    fun r => by rw [hend, takeAdminEnd, whenFetching, if_pos hfetching]⟩

/-- In HALTED a record gives no command and no result (R173). -/
theorem takeAdminRecord_of_halted {s : State} (h : s.hp.engine = .halted) (tag : Word) (reading : AdminReading)
    (quiet : Nat) : takeAdminRecord tag reading quiet s = idleAdmin (advanceAdminHead s) :=
  if_pos h

/-- Elsewhere an unknown command ends at once (R161). -/
theorem takeAdminRecord_unknown {s : State} (h : s.hp.engine ≠ .halted) (tag : Word) (quiet : Nat) :
    takeAdminRecord tag .unknown quiet (clearBus s) = adminResulted tag .unknownCommand [] s :=
  (if_neg h).trans rfl

/-- And a known one is in execution and judged (R159). -/
theorem takeAdminRecord_command {s : State} (h : s.hp.engine ≠ .halted) (tag : Word) (c : AdminCommand)
    (reservedZero : Bool) (quiet : Nat) :
    takeAdminRecord tag (.command c reservedZero) quiet (clearBus s) =
      judgeCommand c reservedZero quiet (adminExecuting tag c s) :=
  (if_neg h).trans rfl

/-! ## The checks (R161) -/

/-- A parameter out of range or a reserved byte not 0 comes first. -/
theorem judgeCommand_of_invalidField {c : AdminCommand} {reservedZero : Bool}
    (h : adminInRange c = false ∨ reservedZero = false) (tag : Word) (quiet : Nat) (s : State) :
    judgeCommand c reservedZero quiet (adminExecuting tag c s) = adminResulted tag .invalidField [] s := by
  rw [judgeCommand, if_pos h, endCommand_adminExecuting]

/-- The state a command requires is not changed by its record's read. -/
theorem adminStateHolds_adminExecuting (tag : Word) (c : AdminCommand) (s : State) :
    adminStateHolds (adminExecuting tag c s) c = adminStateHolds s c := by
  cases c <;> rfl

/-- A state that does not hold comes next. -/
theorem judgeCommand_of_wrongState {c : AdminCommand} {s : State} (hrange : adminInRange c = true)
    (hstate : adminStateHolds s c = false) (tag : Word) (quiet : Nat) :
    judgeCommand c true quiet (adminExecuting tag c s) = adminResulted tag .wrongState [] s := by
  have hvalid : ¬(adminInRange c = false ∨ true = false) := by
    simp only [hrange, Bool.true_eq_false, or_self, not_false_eq_true]
  rw [judgeCommand, if_neg hvalid, if_pos (by rwa [adminStateHolds_adminExecuting]), endCommand_adminExecuting]

end Sys2Proof.Machine

namespace Sys2Proof.Proofs

open Sys2Proof.Machine

/-- Settles O19: the end of the read takes the record by its reading, and each check that fails ends the command. -/
theorem adminCommandRefused : Obligations.AdminCommandRefused := by
  refine ⟨⟨fun quiet s hbus hphase hr => ?busError, fun r quiet s hdue hcode => ?unknown,
      fun r quiet s hbus hphase hhalted => ?halted⟩,
    fun tag c quiet s hdue => ⟨fun hrange => ?outOfRange, fun hrange hstate => ?wrongState⟩, fun c i => ?offsets,
    fun r c i quiet s hdue hcommand hi hbyte => ?reserved⟩
  case busError =>
    obtain ⟨herror, -⟩ := exec_adminFetchEnd_of_fetching hbus hphase hr quiet
    exact herror
  case unknown =>
    obtain ⟨hbus, hphase, hresetting, hhalted⟩ := hdue
    obtain ⟨-, hdata⟩ := exec_adminFetchEnd_of_fetching hbus hphase hresetting quiet
    rw [hdata, readAdminRecord_of_unknown hcode, takeAdminRecord_unknown hhalted]
    rfl
  case halted =>
    have hresetting : s.hp.engine ≠ .resetting := by
      rw [hhalted]
      nofun
    obtain ⟨-, hdata⟩ := exec_adminFetchEnd_of_fetching hbus hphase hresetting quiet
    rw [hdata, takeAdminRecord_of_halted (s := clearBus s) hhalted]
    rfl
  case outOfRange =>
    rw [exec_commandRow, adminCommandEnd_of_due hdue, judgeCommand_of_invalidField (.inl hrange)]
  case wrongState =>
    rw [exec_commandRow, adminCommandEnd_of_due hdue, judgeCommand_of_wrongState hrange hstate]
  case offsets =>
    cases c <;>
    · simp only [adminReservedOffsets, List.mem_append, mem_span]
      omega
  case reserved =>
    have hread : readAdminRecord r = .command c false := by
      refine (readAdminRecord_eq_command_iff r c false).2 ⟨hcommand, ?_⟩
      rw [← Bool.not_eq_true, zeroAt_iff]
      exact fun hzero => hbyte (hzero i hi)
    obtain ⟨hbus, hphase, hresetting, hhalted⟩ := hdue
    obtain ⟨-, hdata⟩ := exec_adminFetchEnd_of_fetching hbus hphase hresetting quiet
    rw [hdata, hread, takeAdminRecord_command hhalted, judgeCommand_of_invalidField (.inr rfl)]
    rfl

end Sys2Proof.Proofs
end

section
/-! PROOFS. NODE_SET (R34, R36, R164). -/

namespace Sys2Proof.Machine

/-- The pool takes a limit change when no new limit stands below the use it bounds (R36). -/
theorem limitChangeTaken_iff (txLimit rxLimit : Nat) (s : State) :
    limitChangeTaken txLimit rxLimit s = true ↔
      s.cp.txInUse ≤ txLimit ∧ s.cp.lowInUse + 2 ≤ txLimit ∧ s.cp.rxInUse ≤ rxLimit := by
  change _ ↔ _ ∧ s.cp.lowInUse + Config.urgentReserve ≤ txLimit ∧ _
  simp only [limitChangeTaken, Bool.and_eq_true, decide_eq_true_eq, and_assoc]

/-- A rate code in range names its rate (R163, R164). -/
theorem rateOfByte_eq {b : Byte} (h : b.toNat ≤ 2) :
    RateCode.ofByte b = if b = 0 then .kbit20 else if b = 1 then .kbit50 else .kbit100 := by
  have htwo : b ≠ 0 → b ≠ 1 → b = 2 := by
    simp only [ne_eq, ← BitVec.toNat_inj, BitVec.ofNat_eq_ofNat, BitVec.toNat_ofNat]
    omega
  unfold RateCode.ofByte
  by_cases h0 : b = 0
  · subst h0
    rfl
  · by_cases h1 : b = 1
    · subst h1
      rfl
    · rw [htwo h0 h1]
      rfl

/-- The seven values of NODE_SET replaced together (R36, R164). -/
def nodeConfigured (p : NodeSetForm) (s : State) : State :=
  (setLimits p.txLimit.toNat p.rxLimit.toNat p.rxHold.toNat s).updAe (fun a =>
    { a with
      nodeId := p.nodeId,
      rate := if p.rateCode = 0 then .kbit20 else if p.rateCode = 1 then .kbit50 else .kbit100,
      defaultBudget := p.defaultBudget.setWidth 4, yieldValue := p.yieldValue.setWidth 4 })

/-- The values that the model replaces are those of the form in range (R164). -/
theorem nodeConfigured_eq {p : NodeSetForm} (hrate : p.rateCode.toNat ≤ 2) (s : State) :
    (setLimits p.txLimit.toNat p.rxLimit.toNat p.rxHold.toNat s).updAe (fun a =>
      { a with
        nodeId := p.nodeId, rate := RateCode.ofByte p.rateCode, defaultBudget := p.defaultBudget.extractLsb' 0 4,
        yieldValue := p.yieldValue.extractLsb' 0 4 }) = nodeConfigured p s := by
  simp only [nodeConfigured, rateOfByte_eq hrate, BitVec.setWidth_eq_extractLsb' (show 4 ≤ 8 by decide)]

/-- A limit change the pool does not take ends the command (R36, R164). -/
theorem performNodeSet_of_below_use {p : NodeSetForm} {s : State}
    (h : limitChangeTaken p.txLimit.toNat p.rxLimit.toNat s = false) :
    performNodeSet p s = endCommand .limitBelowUse [] s := by
  rw [performNodeSet, h]
  rfl

/-- One it takes replaces the values, and a raise of TX_LIMIT gives a room notice (R34, R164). -/
theorem performNodeSet_of_taken {p : NodeSetForm} {s : State}
    (h : limitChangeTaken p.txLimit.toNat p.rxLimit.toNat s = true) (hrate : p.rateCode.toNat ≤ 2) :
    performNodeSet p s =
      endCommand .done []
        (if s.cp.txLimit < p.txLimit.toNat then roomNotice (nodeConfigured p s) else nodeConfigured p s) := by
  simp only [performNodeSet, h, if_true, nodeConfigured_eq hrate, decide_eq_true_eq]

/-- A room notice that is owed is given: the fetch engine takes a decision (R34). -/
theorem roomNotice_of_owed {s : State} (h : s.cp.noticeOwed = true) :
    roomNotice s = fetchDecision (s.updCp (fun p => { p with noticeOwed := false })) :=
  if_pos h

/-- With none owed, none is given (R34). -/
theorem roomNotice_of_not_owed {s : State} (h : s.cp.noticeOwed = false) : roomNotice s = s := by
  rw [roomNotice, h]
  rfl

/-- A change that does not raise TX_LIMIT, and one made with no notice owed, leaves the fetch engine as it is (R34,
R164). -/
theorem performNodeSet_of_no_notice {p : NodeSetForm} {s : State}
    (h : limitChangeTaken p.txLimit.toNat p.rxLimit.toNat s = true) (hrate : p.rateCode.toNat ≤ 2)
    (hnotice : p.txLimit.toNat ≤ s.cp.txLimit ∨ s.cp.noticeOwed = false) :
    performNodeSet p s = endCommand .done [] (nodeConfigured p s) := by
  rw [performNodeSet_of_taken h hrate]
  obtain hle | hnone := hnotice
  · rw [if_neg (Nat.not_lt.2 hle)]
  · rw [roomNotice_of_not_owed (s := nodeConfigured p s) hnone, ite_self]

/-- A raise of TX_LIMIT while a notice is owed lets it decide before the command ends (R34, R164). -/
theorem performNodeSet_of_notice {p : NodeSetForm} {s : State}
    (h : limitChangeTaken p.txLimit.toNat p.rxLimit.toNat s = true) (hrate : p.rateCode.toNat ≤ 2)
    (hraised : s.cp.txLimit < p.txLimit.toNat) (howed : s.cp.noticeOwed = true) :
    performNodeSet p s =
      endCommand .done [] (fetchDecision ((nodeConfigured p s).updCp (fun c => { c with noticeOwed := false }))) := by
  rw [performNodeSet_of_taken h hrate, if_pos hraised, roomNotice_of_owed (s := nodeConfigured p s) howed]

/-- The result of a command in execution, after its values have been replaced (R162, R164). -/
theorem endCommand_nodeConfigured (tag : Word) (c : AdminCommand) (p : NodeSetForm) (s : State) :
    endCommand .done [] (nodeConfigured p (adminExecuting tag c s)) =
      nodeConfigured p (adminResulted tag .done [] s) := by
  rw [endCommand_of_current (s := nodeConfigured p (adminExecuting tag c s)) rfl]
  rfl

end Sys2Proof.Machine

namespace Sys2Proof.Proofs

open Sys2Proof.Machine

/-- Settles O21: the pool judges the limits, and a raise gives the notice that is owed before the command ends. -/
theorem nodeSet : Obligations.NodeSet := by
  intro tag p s hdue hrange hoffline
  have hrate : p.rateCode.toNat ≤ 2 := by
    simp only [adminInRange, nodeSetInRange, Bool.and_eq_true, decide_eq_true_eq] at hrange
    omega
  have hexec : exec (.nodeSet tag p) s = .next (conclude (performNodeSet p (adminExecuting tag (.nodeSet p) s))) := by
    change Host.Outcome.next (adminCommandEnd tag (.nodeSet p) 0 s) = _
    rw [adminCommandEnd_of_passed hdue hrange (beq_iff_eq.2 hoffline)]
    rfl
  have htaken := limitChangeTaken_iff p.txLimit.toNat p.rxLimit.toNat (adminExecuting tag (.nodeSet p) s)
  rw [hexec]
  refine ⟨fun hbelow => ?belowUse, fun htx hlow hrx => ?taken⟩
  case belowUse =>
    have hrefused : ¬(s.cp.txInUse ≤ p.txLimit.toNat ∧ s.cp.lowInUse + 2 ≤ p.txLimit.toNat
        ∧ s.cp.rxInUse ≤ p.rxLimit.toNat) := by omega
    rw [performNodeSet_of_below_use (Bool.eq_false_of_not_eq_true fun h => hrefused (htaken.1 h)),
      endCommand_adminExecuting]
  case taken =>
    have hlimits := htaken.2 ⟨htx, hlow, hrx⟩
    refine ⟨fun hnotice => ?_, fun hraised howed => ?_⟩
    · rw [performNodeSet_of_no_notice hlimits hrate hnotice, endCommand_nodeConfigured]
      rfl
    · rw [performNodeSet_of_notice hlimits hrate hraised howed]
      rfl

end Sys2Proof.Proofs
end

section
/-! PROOFS. The effect of a line mode on the line engine (R66, R83, R85, R86), and the offer withdrawn on a mode change
(R40, R48). -/

namespace Sys2Proof.Machine

/-! ## The effect of a mode (R66, R83, R86) -/

/-- A mode that is in effect already changes nothing. -/
theorem applyMode_self (m : LineMode) (s : State) : applyMode m m s = s := if_pos rfl

/-- OFFLINE is OFF (R86). -/
theorem applyMode_offline {old : LineMode} (h : LineMode.offline ≠ old) (s : State) :
    applyMode old .offline s = goOff s := if_neg h

/-- LOOPBACK joins at once, with LINE, its fault flag cleared and its quiet run at 8 bit times (R83, R86). -/
theorem applyMode_loopback {old : LineMode} (h : LineMode.loopback ≠ old) (s : State) :
    applyMode old .loopback s =
      { s with
        hp := { s.hp with cause := s.hp.cause ||| 0x20#9 },
        le := { s.le with phase := .idle, quietRun := 8 * s.ae.rate.bitCycles, fault := false } } := by
  unfold applyMode clearFault
  rw [if_neg h]
  by_cases hfault : s.le.fault = true
  · simp only [hfault, if_true]
    simp only [setCause, setPhase, measureQuiet, State.updHp, State.updLe, BitVec.or_assoc, BitVec.or_self]
    rfl
  · rw [Bool.not_eq_true] at hfault
    simp only [hfault, Bool.false_eq_true, if_false]
    rw [← hfault]
    rfl

section
variable {old new : LineMode} (hnew : new = .listen ∨ new = .online) (hne : new ≠ old)
include hnew hne

/-- LISTEN or ONLINE from OFFLINE or LOOPBACK is JOINING with a quiet run from 0 (R66, R86). -/
theorem applyMode_of_off_line (hold : old = .offline ∨ old = .loopback) (s : State) :
    applyMode old new s = { s with le := { s.le with phase := .joining, quietRun := 0 } } := by
  unfold applyMode
  rw [if_neg hne]
  obtain rfl | rfl := hnew <;> exact if_pos hold

/-- Between LISTEN and ONLINE a FAULT stays (R86). -/
theorem applyMode_of_fault (hold : ¬(old = .offline ∨ old = .loopback)) {s : State} (hfault : s.le.phase = .fault) :
    applyMode old new s = s := by
  unfold applyMode
  rw [if_neg hne]
  obtain rfl | rfl := hnew <;> exact (if_neg hold).trans (if_pos hfault)

/-- Another phase is JOINING, which a quiet run of 8 bit times ends at once, with LINE (R66, R86). -/
theorem applyMode_of_on_line (hold : ¬(old = .offline ∨ old = .loopback)) {s : State} (hfault : s.le.phase ≠ .fault) :
    applyMode old new s =
      if 8 * s.ae.rate.bitCycles ≤ s.le.quietRun then
        { s with
          hp := { s.hp with cause := s.hp.cause ||| 0x20#9 },
          le := { s.le with phase := .idle } }
      else { s with le := { s.le with phase := .joining } } := by
  have hjoin : applyMode old new s = joinIfQuiet (setPhase .joining s) := by
    unfold applyMode
    rw [if_neg hne]
    obtain rfl | rfl := hnew <;> exact (if_neg hold).trans (if_neg hfault)
  have hquiet := quietAtLeast8_iff s.ae.rate s.le.quietRun
  rw [hjoin]
  by_cases h : 8 * s.ae.rate.bitCycles ≤ s.le.quietRun
  · rw [if_pos h]
    exact if_pos (hquiet.2 h)
  · rw [if_neg h]
    exact if_neg fun hq => h (hquiet.1 hq)

end

/-- A mode is OFFLINE, LOOPBACK, or one of the two that read the line. -/
theorem LineMode.cases_on_line (m : LineMode) : m = .offline ∨ m = .loopback ∨ m = .listen ∨ m = .online := by
  cases m <;> simp

/-- The quiet run, the phase, the fault flag, the causes and TXD by the mode in effect and the mode taken (R66, R83,
R86). -/
theorem applyMode_line (old new : LineMode) (s : State) :
    (applyMode old new s).le.quietRun =
        (if new ≠ old ∧ new = .loopback then 8 * s.ae.rate.bitCycles
         else if (new = .listen ∨ new = .online) ∧ new ≠ old ∧ (old = .offline ∨ old = .loopback) then 0
         else s.le.quietRun)
      ∧ (applyMode old new s).le.phase =
        (if new = old then s.le.phase
         else if new = .offline then .off
         else if new = .loopback then .idle
         else if old = .offline ∨ old = .loopback then .joining
         else if s.le.phase = .fault then .fault
         else if 8 * s.ae.rate.bitCycles ≤ s.le.quietRun then .idle
         else .joining)
      ∧ (applyMode old new s).le.fault = (if new ≠ old ∧ (new = .offline ∨ new = .loopback) then false else s.le.fault)
      ∧ (applyMode old new s).hp =
        { s.hp with
          cause :=
            if new = old then s.hp.cause
            else if new = .offline then (if s.le.fault = true then s.hp.cause ||| 0x20#9 else s.hp.cause)
            else if new = .loopback then s.hp.cause ||| 0x20#9
            else if old = .offline ∨ old = .loopback ∨ s.le.phase = .fault then s.hp.cause
            else if 8 * s.ae.rate.bitCycles ≤ s.le.quietRun then s.hp.cause ||| 0x20#9
            else s.hp.cause }
      ∧ (applyMode old new s).le.txd = (if new ≠ old ∧ new = .offline then .released else s.le.txd) := by
  by_cases hne : new = old
  · subst hne
    simp [applyMode_self]
  · obtain rfl | rfl | hnew := LineMode.cases_on_line new
    · simp [applyMode_offline hne, goOff_eq, hne]
    · simp [applyMode_loopback hne, hne]
    · have hoff : new ≠ .offline := by rintro rfl; simp at hnew
      have hloop : new ≠ .loopback := by rintro rfl; simp at hnew
      by_cases hold : old = .offline ∨ old = .loopback
      · simp [applyMode_of_off_line hnew hne hold, hne, hoff, hloop, hnew, hold, ← or_assoc]
      · by_cases hfault : s.le.phase = .fault
        · simp [applyMode_of_fault hnew hne hold hfault, hne, hoff, hloop, hold, hfault]
        · rw [applyMode_of_on_line hnew hne hold hfault]
          split <;> simp_all

/-! ## The offer withdrawn (R40, R48) -/

/-- The offered cell is back at the head of its class list, and the slot is empty (R48). -/
def offerWithdrawn (id : CellId) (c : TxCell) (s : State) : State :=
  { s with
    le := { s.le with slot := none },
    sch := { s.sch with lists := s.sch.lists.set c.cls.val (id :: s.classList c.cls) } }

/-- Departures leave the completion write in flight as it is. -/
theorem inFlight_verdictDepartures (r : SendId) (s : State) :
    (verdictDepartures r s).cw.inFlight = s.cw.inFlight := by
  have hcomplete := foldl_keeps (fun s : State => s.cw.inFlight)
    (fun s (p : CellId × Verdict) => completeCell p.1 p.2.status s) (fun b a => by simp [completeCell, joinPending])
  unfold verdictDepartures
  split
  · rfl
  · exact (hcomplete _ _).trans (by simp)

/-- An offer is withdrawn when its SOF has not been reported and the slot holds a transmit cell. -/
abbrev Withdrawable (s : State) : Prop := s.sch.sofReported = false ∧ (offeredCell s).isSome = true

/-- The slot's transmit cell. -/
theorem offeredCell_eq_some_iff (s : State) (c : TxCell) :
    offeredCell s = some c ↔ ∃ id, s.le.slot = some id ∧ s.cell id = .tx c := by
  unfold offeredCell
  cases hslot : s.le.slot with
  | none => simp
  | some id => cases hcell : s.cell id <;> simp [hcell]

section
variable {s : State} {id : CellId} {c : TxCell}

/-- The offered cell is withdrawn, and the ring-oldest marked cells of its ring pass on (R40, R48). -/
theorem withdrawOffer_of_cell (hsof : s.sch.sofReported = false) (hslot : s.le.slot = some id)
    (hc : s.cell id = .tx c) : withdrawOffer s = verdictDepartures c.ring (offerWithdrawn id c s) := by
  unfold withdrawOffer
  rw [hslot]
  dsimp only
  rw [hsof, hc]
  dsimp only
  rw [joinHead_eq]
  rfl

/-- Otherwise nothing is withdrawn (R48). -/
theorem withdrawOffer_of_not (h : ¬Withdrawable s) : withdrawOffer s = s := by
  unfold withdrawOffer
  split
  · rfl
  · next id hslot =>
    split
    · rfl
    · next hsof =>
      split
      · next c hc =>
        have hoffered : offeredCell s = some c := (offeredCell_eq_some_iff s c).2 ⟨id, hslot, hc⟩
        exact absurd ⟨Bool.eq_false_of_not_eq_true hsof, Option.isSome_of_eq_some hoffered⟩ h
      · rfl

/-- A withdrawal empties the slot, and leaves the rest of the line engine and the write in flight as they are. -/
theorem withdrawOffer_slot (s : State) :
    (withdrawOffer s).le.slot = (if Withdrawable s then none else s.le.slot)
      ∧ (withdrawOffer s).cw.inFlight = s.cw.inFlight := by
  by_cases h : Withdrawable s
  · obtain ⟨hsof, hsome⟩ := h
    obtain ⟨c, hoffered⟩ := Option.isSome_iff_exists.1 hsome
    obtain ⟨id, hslot, hc⟩ := (offeredCell_eq_some_iff s c).1 hoffered
    rw [withdrawOffer_of_cell hsof hslot hc, if_pos ⟨hsof, hsome⟩, inFlight_verdictDepartures]
    simp [offerWithdrawn]
  · rw [withdrawOffer_of_not h, if_neg h]
    exact ⟨rfl, rfl⟩

end

/-! ## The withdrawn cell stays or passes on (R40) -/

section
variable (ofRing : CellId → Bool) (verdict : CellId → Option Verdict)

/-- The cells that stay stood in the list. -/
theorem splitDeparting_snd_subset (l : List CellId) : (splitDeparting ofRing verdict l).2 ⊆ l := by
  induction l with
  | nil => exact List.Subset.refl []
  | cons id rest ih =>
    by_cases hr : ofRing id = true
    · cases hv : verdict id with
      | none => simp [splitDeparting, hr, hv]
      | some v => simpa [splitDeparting, hr, hv] using List.subset_cons_of_subset id ih
    · simpa [splitDeparting, hr] using List.subset_cons_of_subset id ih

variable {ofRing verdict} {id : CellId} (hr : ofRing id = true)
include hr

/-- An unmarked cell of the ring at the head of the list holds the others back. -/
theorem splitDeparting_of_unmarked_head (hv : verdict id = none) (rest : List CellId) :
    splitDeparting ofRing verdict (id :: rest) = ([], id :: rest) := by
  simp only [splitDeparting, hr, hv, if_true]

/-- A marked one is the first to depart. -/
theorem departing_of_marked_head {v : Verdict} (hv : verdict id = some v) (rest : List CellId) :
    departing ofRing verdict (id :: rest) = id :: departing ofRing verdict rest
      ∧ (splitDeparting ofRing verdict (id :: rest)).2 = (splitDeparting ofRing verdict rest).2 := by
  simp [departing, splitDeparting, hr, hv]

end

section
variable {s : State} {id : CellId} {c : TxCell}

/-- The withdrawn cell is the head of its class list. -/
theorem classList_offerWithdrawn (id : CellId) (c : TxCell) (s : State) :
    (offerWithdrawn id c s).classList c.cls = id :: s.classList c.cls :=
  Vector.getElem_set_self c.cls.isLt

/-- A withdrawn cell without a verdict stays, and its ring's other cells with it (R40). -/
theorem verdictDepartures_of_unmarked (hc : s.cell id = .tx c) (hcls : (s.send c.ring).cls = c.cls)
    (hv : c.verdict = none) : verdictDepartures c.ring (offerWithdrawn id c s) = offerWithdrawn id c s := by
  have hcls' : ((offerWithdrawn id c s).send c.ring).cls = c.cls := hcls
  have hsplit := splitDeparting_of_unmarked_head (verdict := verdictOf (offerWithdrawn id c s))
    ((isOfRing_of_tx (s := offerWithdrawn id c s) hc c.ring).2 rfl)
    ((verdictOf_of_tx (s := offerWithdrawn id c s) hc).trans hv) (s.classList c.cls)
  rw [verdictDepartures_of_not_offered rfl, hcls', classList_offerWithdrawn, hsplit, List.foldl_nil,
    ← classList_offerWithdrawn id c s, setClassList_self]

/-- A withdrawn cell marked FLUSH is the first to pass on, FLUSHED and disarmed (R40, R41, R58). -/
theorem verdictDepartures_of_flush (hc : s.cell id = .tx c) (hcls : (s.send c.ring).cls = c.cls)
    (hv : c.verdict = some .flush) :
    (id ∉ s.classList c.cls → id ∉ (verdictDepartures c.ring (offerWithdrawn id c s)).classList c.cls)
      ∧ (verdictDepartures c.ring (offerWithdrawn id c s)).cell id = .tx { c with deadline := none }
      ∧ ∃ after, (verdictDepartures c.ring (offerWithdrawn id c s)).cw.pending =
          s.cw.pending ++ .cell id .flushed :: after := by
  have hcls' : ((offerWithdrawn id c s).send c.ring).cls = c.cls := hcls
  have hverdict : verdictOf (offerWithdrawn id c s) id = some .flush :=
    (verdictOf_of_tx (s := offerWithdrawn id c s) hc).trans hv
  obtain ⟨hdeparting, hstay⟩ := departing_of_marked_head
    ((isOfRing_of_tx (s := offerWithdrawn id c s) hc c.ring).2 rfl) hverdict (s.classList c.cls)
  refine ⟨fun hnot => ?_, ?_, ?_⟩
  · rw [classList_verdictDepartures rfl, hcls', if_pos rfl, classList_offerWithdrawn, hstay]
    exact fun hmem => hnot (splitDeparting_snd_subset _ _ _ hmem)
  · rw [cell_verdictDepartures (s := offerWithdrawn id c s) rfl hc, hcls', classList_offerWithdrawn, hdeparting,
      if_pos List.mem_cons_self]
  · rw [pending_verdictDepartures rfl, hcls', classList_offerWithdrawn, hdeparting, List.map_cons, hverdict]
    exact ⟨_, rfl⟩

end

end Sys2Proof.Machine
end

section
/-! PROOFS. LINE_MODE: a mode asked for, held as pending, and taken (R48, R66, R85, R86, R165). -/

namespace Sys2Proof.Machine

/-! ## The mode handed over (R85, R165) -/

/-- The code of a mode names it (R165). -/
theorem LineMode.ofCode_code (m : LineMode) : ofCode (BitVec.ofNat 8 m.code.toNat) = some m := by
  cases m <;> rfl

/-- Code 2 is ONLINE's (R165). -/
theorem LineMode.code_eq_two_iff (m : LineMode) : BitVec.ofNat 8 m.code.toNat = 2 ↔ m = .online := by
  cases m <;> decide

/-- The LINE_MODE of the record just read waits for the line engine, which holds the mode as pending and has measured
its quiet run (R85, R157, R165). -/
def modeAsked (tag : Word) (m : LineMode) (quiet : Nat) (s : State) : State :=
  { adminWaits tag (.lineMode (BitVec.ofNat 8 m.code.toNat)) .modeReport s with
    le := { s.le with quietRun := quiet, pendingMode := some m } }

/-- The row hands the mode over, which is taken at a boundary phase (R85, R165). In phase OFF no quiet run is
measured. -/
theorem exec_lineMode_of_due {s : State} (hdue : AdminFetchDue s) {m : LineMode}
    (hnode : ¬(m = .online ∧ s.ae.nodeId = 0)) (tag : Word) (quiet : Nat) :
    exec (.lineMode tag (BitVec.ofNat 8 m.code.toNat) quiet) s = .next (conclude (atBoundary
      (modeAsked tag m (if s.le.phase = .off then s.le.quietRun else quiet) s))) := by
  have hrange : adminInRange (.lineMode (BitVec.ofNat 8 m.code.toNat)) = true := by
    rw [adminInRange, LineMode.ofCode_code]
    rfl
  have hstate : adminStateHolds s (.lineMode (BitVec.ofNat 8 m.code.toNat)) = true := by
    simpa only [adminStateHolds, Bool.not_eq_true', Bool.and_eq_false_imp, beq_iff_eq, beq_eq_false_iff_ne,
      LineMode.code_eq_two_iff, not_and] using hnode
  change Host.Outcome.next (adminCommandEnd tag (.lineMode _) quiet s) = _
  rw [adminCommandEnd_of_passed hdue hrange hstate, performCommand, performLineMode, LineMode.ofCode_code]
  dsimp only
  have hphase : (adminExecuting tag (.lineMode (BitVec.ofNat 8 m.code.toNat)) s).le.phase = s.le.phase := rfl
  rw [hphase]
  split <;> rfl

/-! ## The mode taken (R48, R85) -/

/-- In RUNNING a pending mode is taken at a boundary phase (R85). -/
theorem atBoundary_of_pending {s : State} {m : LineMode} (hboundary : s.le.phase.isBoundary = true)
    (hrunning : s.hp.engine = .running) (hpending : s.le.pendingMode = some m) : atBoundary s = takeMode m s := by
  unfold atBoundary
  rw [if_pos hboundary, hrunning, hpending]

/-- A mode set: the pending mode, the run and the muted flag are cleared (R85). -/
def modeSet (m : LineMode) (s : State) : State :=
  s.updLe (fun l => { l with mode := m, pendingMode := none, errorRun := 0, muted := false })

/-- The mode in effect, before an offer is withdrawn (R85, R86). -/
def modeApplied (m : LineMode) (s : State) : State := applyMode s.le.mode m (modeSet m s)

/-- The mode in effect, before the admin engine hears of it: an offer is withdrawn on a change out of ONLINE or LOOPBACK
(R48, R85). -/
def modeTaken (m : LineMode) (s : State) : State :=
  if (s.le.mode = .online ∨ s.le.mode = .loopback) ∧ m ≠ s.le.mode then withdrawOffer (modeApplied m s)
  else modeApplied m s

/-- A mode is taken, and the admin engine hears of it (R85). -/
theorem takeMode_eq (m : LineMode) (s : State) : takeMode m s = reportMode (modeTaken m s) := rfl

/-- A LINE_MODE that waits for the report ends DONE with it (R162, R165). -/
theorem reportMode_of_waiting {s : State} {c : CurrentCommand} (hawaited : s.ae.awaited = .modeReport)
    (hcurrent : s.ae.current = some c) :
    reportMode s =
      { s with
        cw := { s.cw with
          pending := s.cw.pending ++ [.admin { status := .done, tag := c.tag, index := c.index, area := [] }] },
        ae := { s.ae with phase := .idle, current := none, awaited := .nothing } } := by
  rw [reportMode, if_pos hawaited, endCommand_of_current hcurrent]

section
variable (m : LineMode) (s : State)

/-- The mode in effect clears the pending mode, the run and the muted flag, and leaves what the offer needs as it is. -/
theorem modeApplied_frame :
    (modeApplied m s).rct = s.rct ∧ (modeApplied m s).fe = s.fe ∧ (modeApplied m s).cp = s.cp
      ∧ (modeApplied m s).sch = s.sch ∧ (modeApplied m s).au = s.au ∧ (modeApplied m s).aw = s.aw
      ∧ (modeApplied m s).cw = s.cw ∧ (modeApplied m s).ae = s.ae ∧ (modeApplied m s).pending = s.pending
      ∧ (modeApplied m s).le.slot = s.le.slot ∧ (modeApplied m s).le.mode = m ∧ (modeApplied m s).le.muted = false
      ∧ (modeApplied m s).le.errorRun = 0 ∧ (modeApplied m s).le.pendingMode = none
      ∧ (modeApplied m s).le.counters = s.le.counters := by
  simp [modeApplied, modeSet]

/-- The withdrawal changes the slot alone of the host port and the line engine. -/
theorem modeTaken_line :
    (modeTaken m s).hp = (modeApplied m s).hp ∧ (modeTaken m s).le.quietRun = (modeApplied m s).le.quietRun
      ∧ (modeTaken m s).le.phase = (modeApplied m s).le.phase ∧ (modeTaken m s).le.fault = (modeApplied m s).le.fault
      ∧ (modeTaken m s).le.txd = (modeApplied m s).le.txd := by
  unfold modeTaken
  split <;> simp

/-- A mode taken leaves the rings, the arrival side and the admin engine as they are, and the counters. -/
theorem modeTaken_frame :
    (modeTaken m s).rct = s.rct ∧ (modeTaken m s).fe = s.fe ∧ (modeTaken m s).au = s.au ∧ (modeTaken m s).aw = s.aw
      ∧ (modeTaken m s).ae = s.ae ∧ (modeTaken m s).pending = s.pending ∧ (modeTaken m s).le.mode = m
      ∧ (modeTaken m s).le.muted = false ∧ (modeTaken m s).le.errorRun = 0 ∧ (modeTaken m s).le.pendingMode = none
      ∧ (modeTaken m s).le.counters = s.le.counters := by
  unfold modeTaken
  split <;> simp [modeApplied_frame]

/-- A mode change withdraws the offer: out of ONLINE or LOOPBACK, with an offered cell whose SOF has not been reported
(R48). -/
abbrev WithdrawsOffer : Prop :=
  (s.le.mode = .online ∨ s.le.mode = .loopback) ∧ m ≠ s.le.mode ∧ Withdrawable s

/-- The offer stands in the mode in effect as it did before. -/
theorem withdrawable_modeApplied_iff : Withdrawable (modeApplied m s) ↔ Withdrawable s := by
  simp only [Withdrawable, offeredCell, State.cell, modeApplied_frame]

/-- Without a withdrawal the mode in effect is all (R48). -/
theorem modeTaken_of_not (h : ¬WithdrawsOffer m s) : modeTaken m s = modeApplied m s := by
  unfold modeTaken
  split
  · next hchange =>
    exact withdrawOffer_of_not fun hw => h ⟨hchange.1, hchange.2, (withdrawable_modeApplied_iff m s).1 hw⟩
  · rfl

/-- The slot is emptied by a withdrawal; the completion write in flight stays. -/
theorem modeTaken_slot :
    (modeTaken m s).le.slot = (if WithdrawsOffer m s then none else s.le.slot)
      ∧ (modeTaken m s).cw.inFlight = s.cw.inFlight := by
  by_cases h : WithdrawsOffer m s
  · obtain ⟨hold, hne, hw⟩ := h
    obtain ⟨hslot, hinFlight⟩ := withdrawOffer_slot (modeApplied m s)
    rw [modeTaken, if_pos ⟨hold, hne⟩, if_pos ⟨hold, hne, hw⟩, hslot, hinFlight,
      if_pos ((withdrawable_modeApplied_iff m s).2 hw)]
    simp [modeApplied_frame]
  · rw [modeTaken_of_not m s h, if_neg h]
    simp [modeApplied_frame]

end

/-- With a withdrawal the scheduler, the pool and the completion list are as the departures leave them (R40, R48). -/
theorem modeTaken_of_withdrawn {m : LineMode} {s : State} {id : CellId} {c : TxCell}
    (hold : s.le.mode = .online ∨ s.le.mode = .loopback) (hne : m ≠ s.le.mode) (hsof : s.sch.sofReported = false)
    (hslot : s.le.slot = some id) (hc : s.cell id = .tx c) :
    (modeTaken m s).sch = (verdictDepartures c.ring (offerWithdrawn id c s)).sch
      ∧ (modeTaken m s).cp = (verdictDepartures c.ring (offerWithdrawn id c s)).cp
      ∧ (modeTaken m s).cw = (verdictDepartures c.ring (offerWithdrawn id c s)).cw := by
  obtain ⟨hrct, -, hcp, hsch, -, -, hcw, -, -, hslot', -⟩ := modeApplied_frame m s
  have hcell : (modeApplied m s).cell id = .tx c := by rw [State.cell, hcp]; exact hc
  rw [modeTaken, if_pos ⟨hold, hne⟩, withdrawOffer_of_cell (by rw [hsch, hsof]) (hslot'.trans hslot) hcell]
  refine verdictDepartures_congr c.ring ?_ hcp hcw (congrArg _ hrct) rfl
  simp only [offerWithdrawn, State.classList, hsch]

end Sys2Proof.Machine

namespace Sys2Proof.Proofs

open Sys2Proof.Machine

/-- Settles O22: the row hands the mode over; at a boundary phase it is in effect, the offer withdrawn, and the command
ended, in this order; in HALTED the engine goes to OFF instead. -/
theorem lineModeCommand : Obligations.LineModeCommand := by
  refine ⟨fun tag m quiet s hdue hnode hframe => ?pending, fun tag m quiet s hdue hnode hboundary hrunning => ?taken,
    fun m s hhalted hboundary => ?halted⟩
  case pending =>
    have hoff : s.le.phase ≠ .off := fun h => by
      rw [h] at hframe
      cases hframe
    rw [exec_lineMode_of_due hdue hnode, if_neg hoff,
      atBoundary_of_nothing (s := modeAsked tag m quiet s) (.inl hframe)]
    rfl
  case halted =>
    have hoff := atBoundary_of_halted (s := { s with le := { s.le with pendingMode := some m } }) hboundary hhalted
    rw [hoff, goOff_eq]
    exact ⟨rfl, rfl, rfl⟩
  case taken =>
    have hexec := exec_lineMode_of_due hdue hnode tag quiet
    generalize (if s.le.phase = .off then s.le.quietRun else quiet) = q at hexec ⊢
    have hframe := modeTaken_frame m (modeAsked tag m q s)
    have hslot := modeTaken_slot m (modeAsked tag m q s)
    have hkept := modeTaken_of_not m (modeAsked tag m q s)
    have hwithdrawn := @modeTaken_of_withdrawn m (modeAsked tag m q s)
    obtain ⟨hhp, hquiet, hphase, hfault, htxd⟩ := modeTaken_line m (modeAsked tag m q s)
    obtain ⟨hquiet', hphase', hfault', hhp', htxd'⟩ := 
      applyMode_line s.le.mode m (modeSet m (modeAsked tag m q s))
    obtain ⟨-, -, hcp, hsch, -, -, hcw, -⟩ := modeApplied_frame m (modeAsked tag m q s)
    have htake : atBoundary (modeAsked tag m q s) = reportMode (modeTaken m (modeAsked tag m q s)) :=
      atBoundary_of_pending hboundary hrunning rfl
    refine ⟨_, hexec, rfl, ?_⟩
    generalize modeTaken m (modeAsked tag m q s) = v at *
    obtain ⟨hrct, hfe, hau, haw, hae, hpending, hmode, hmuted, hrun, hnone, hcounters⟩ := hframe
    rw [htake, reportMode_of_waiting (s := v) (by rw [hae]; rfl) (by rw [hae]; rfl), hae]
    refine ⟨hquiet.trans hquiet', hmode, hmuted, hrun, hnone, hphase.trans hphase', hfault.trans hfault',
      hhp.trans hhp', htxd.trans htxd', hcounters, hslot.1, rfl, hrct, hfe, hau, haw, hslot.2, hpending, fun h => ?kept,
      fun id c hold hne hsof hoffered hc => ⟨_, rfl, ?withdrawn⟩⟩
    case kept =>
      have hv := hkept h
      have hlist : v.cw = s.cw := (congrArg State.cw hv).trans hcw
      exact ⟨(congrArg State.sch hv).trans hsch, (congrArg State.cp hv).trans hcp, by rw [hlist]⟩
    case withdrawn =>
      obtain ⟨hsch, hcp, hcw⟩ := hwithdrawn hold hne hsof hoffered hc
      obtain ⟨hsch', hcp', hcw'⟩ := verdictDepartures_congr c.ring (s := offerWithdrawn id c s)
        (t := offerWithdrawn id c (modeAsked tag m q s)) rfl rfl rfl rfl rfl
      refine ⟨hsch.trans hsch', hcp.trans hcp', by rw [hcw.trans hcw']; rfl,
        fun hcls => ⟨fun hv => ?_, verdictDepartures_of_flush hc hcls⟩⟩
      have hstays := verdictDepartures_of_unmarked hc hcls hv
      exact ⟨(congrArg (·.classList c.cls) hstays).trans (classList_offerWithdrawn id c s),
        (congrArg (·.sch.passed) hstays).trans rfl, (congrArg State.cp hstays).trans rfl,
        (congrArg State.cw hstays).trans rfl⟩

end Sys2Proof.Proofs
end

section
/-! PROOFS. The register window (R175, R191): which command writes which register, and what a write through the open and
the closed window is. -/

namespace Sys2Proof.Machine

/-- The register that a command writes in full, and the value it writes (R175). -/
def writesRegister : Instr → Option (Register × Word)
  | .softReset v | .enable v => some (.control, v)
  | .bootLoWrite v => some (.bootLo, v)
  | .bootHiWrite v => some (.bootHi, v)
  | .post v => some (.post, v)
  | .release v => some (.release, v)
  | .causeWrite v => some (.cause, v)
  | .maskWrite v => some (.mask, v)
  | .registerWrite r .word v => some (r, v)
  | _ => none

/-- A full write to a register is a write through the window, whichever row gives it. -/
theorem exec_of_writesRegister {i : Instr} {r : Register} {v : Word} (h : writesRegister i = some (r, v)) (s : State) :
    exec i s = .next (windowWrite r v s) := by
  unfold writesRegister at h
  split at h <;> cases h <;> rfl

/-- The window takes writes outside RESETTING while the reset pin is not asserted (R175, R191). -/
theorem windowOpen_iff (s : State) : windowOpen s = true ↔ s.hp.pinAsserted = false ∧ s.hp.engine ≠ .resetting := by
  simp [windowOpen]

section
variable {s : State}

theorem windowWrite_of_open (hpin : s.hp.pinAsserted = false) (hr : s.hp.engine ≠ .resetting) (r : Register)
    (v : Word) : windowWrite r v s = writeRegister r v s :=
  if_pos ((windowOpen_iff s).2 ⟨hpin, hr⟩)

theorem windowWrite_of_closed (h : s.hp.engine = .resetting ∨ s.hp.pinAsserted = true) (r : Register) (v : Word) :
    windowWrite r v s = s := by
  refine if_neg fun hopen => ?_
  obtain ⟨hpin, hr⟩ := (windowOpen_iff s).1 hopen
  obtain hresetting | hasserted := h
  · exact hr hresetting
  · rw [hasserted] at hpin
    cases hpin

/-- A full write while the window is open is what its register makes of it (R175). -/
theorem exec_of_open {i : Instr} {r : Register} {v : Word} (h : writesRegister i = some (r, v))
    (hpin : s.hp.pinAsserted = false) (hr : s.hp.engine ≠ .resetting) : exec i s = .next (writeRegister r v s) := by
  rw [exec_of_writesRegister h, windowWrite_of_open hpin hr]

end

/-! ## CONTROL (R177) -/

section
variable {v : Word} {s : State}

theorem writeControl_of_softReset (h : softResetField v = true) : writeControl v s = beginSoftReset s := if_pos h

theorem writeControl_of_enable (hreset : softResetField v = false) (henable : enableField v = true)
    (he : s.hp.engine = .reset) : writeControl v s = startLoading s := by
  rw [writeControl, if_neg (by rw [hreset]; nofun), if_pos ⟨henable, he⟩]

theorem writeControl_of_ignored (hreset : softResetField v = false)
    (he : enableField v = false ∨ s.hp.engine ≠ .reset) : writeControl v s = s := by
  rw [writeControl, if_neg (by rw [hreset]; nofun), if_neg]
  rintro ⟨henable, hengine⟩
  obtain hnot | hnot := he
  · rw [hnot] at henable
    cases henable
  · exact hnot hengine

end

/-! ## Resets (R190, R191) -/

/-- The end of a transfer on the bus of a RESETTING engine reaches RESET (R190). -/
theorem transferEnd_of_resetting {owner : BusOwner} {d : Direction} {s : State} (h : onBusOf owner d s = true)
    (hr : s.hp.engine = .resetting) (take : State → State) : transferEnd owner d take s = softResetState s := by
  unfold transferEnd
  rw [if_pos h, if_pos hr]

/-- A command that ends a transfer is the transfer's end, taken by its owner (10.5). -/
theorem exec_of_endsTransfer {i : Instr} {o : BusOwner} {d : Direction} (h : endsTransfer i = some (o, d)) (s : State) :
    ∃ take, exec i s = .next (transferEnd o d take s) := by
  cases i <;> cases h <;> exact ⟨_, rfl⟩

/-- The soft reset at a free bus reaches RESET at once (R190). -/
theorem beginSoftReset_of_free {s : State} (h : s.hp.onBus = none) : beginSoftReset s = afterSoftReset s := if_pos h

/-- The soft reset waits for the transfer on the bus (R190). -/
theorem beginSoftReset_of_busy {s : State} (h : s.hp.onBus ≠ none) :
    beginSoftReset s =
      { s with
        hp := { s.hp with
          engine := .resetting, haltReason := .noReason,
          waiting := { fe := none, ae := none, aw := none, cw := none } },
        le := { s.le with phase := .off, txd := .released, frame := none },
        sch := { s.sch with tickRunning := false } } := if_neg h

end Sys2Proof.Machine

namespace Sys2Proof.Proofs

open Sys2Proof.Machine

/-- Settles O3: both are the spelled states. -/
theorem resetPin : Obligations.ResetPin :=
  ⟨fun _ => ⟨_, rfl, rfl, rfl, rfl, rfl⟩, fun _ => rfl⟩

/-- Settles O4: the write goes by the bus, and every way out of RESETTING gives the state after a soft reset. -/
theorem softReset : Obligations.SoftReset := by
  refine ⟨⟨fun v s hv hpin hr hbus => ?free, fun v s hv hpin hr hbus => ?busy, fun s hr => ?complete,
    fun v s hr => ?ignored⟩, fun c o d s hc hr hbus => ?transfer⟩
  case free =>
    rw [exec_of_open rfl hpin hr, writeRegister, writeControl_of_softReset hv, beginSoftReset_of_free hbus]
  case busy =>
    rw [exec_of_open rfl hpin hr, writeRegister, writeControl_of_softReset hv, beginSoftReset_of_busy hbus]
  case complete => exact congrArg Host.Outcome.next (if_pos hr)
  case ignored => rw [exec_of_writesRegister rfl, windowWrite_of_closed (.inl hr)]
  case transfer =>
    obtain ⟨take, htake⟩ := exec_of_endsTransfer hc s
    rw [htake, transferEnd_of_resetting hbus hr]
    rfl

/-- Settles O5: with SOFT_RESET 0 the engine state decides. -/
theorem enableStartsLoading : Obligations.EnableStartsLoading := by
  intro v s henable hreset hpin
  refine ⟨fun he => ?_, fun he => ?_⟩
  · rw [exec_of_open rfl hpin (by rw [he]; nofun), writeRegister, writeControl_of_enable hreset henable he]
    rfl
  · rw [exec_of_writesRegister rfl]
    by_cases hr : s.hp.engine = .resetting
    · rw [windowWrite_of_closed (.inl hr)]
    · rw [windowWrite_of_open hpin hr, writeRegister, writeControl_of_ignored hreset (.inr he)]

/-- Settles O11: a full write goes through the window by its register alone. -/
theorem registerWindow : Obligations.RegisterWindow := by
  refine ⟨fun r w v s h => ?ignored, fun v s hpin hr => exec_of_open (r := .mask) rfl hpin hr,
    fun v s => ⟨rfl, rfl, rfl, rfl, rfl, rfl, rfl, rfl⟩⟩
  case ignored =>
    by_cases hw : w = .word
    · subst hw
      rw [exec_of_writesRegister rfl]
      obtain hw | rfl | hclosed := h
      · exact absurd rfl hw
      · exact congrArg Host.Outcome.next (ite_self s)
      · rw [windowWrite_of_closed hclosed]
    · exact congrArg Host.Outcome.next (if_neg hw)

end Sys2Proof.Proofs
end

section
/-! PROOFS. POST and RELEASE (R183, R184): the ring a number names, the checks of its index, and the refusal. -/

namespace Sys2Proof.Machine

/-! ## Ring numbers (R192) -/

/-- Numbers above 8 name an arrival ring, CR, or no ring. -/
theorem ofNumber_of_gt {n : Nat} (h : 8 < n) :
    (∃ r, RingName.ofNumber n = some (.arrival r)) ∨ RingName.ofNumber n = some .completion
      ∨ RingName.ofNumber n = none := by
  unfold RingName.ofNumber
  rw [if_neg (by omega), if_neg (by omega)]
  split
  · exact .inl ⟨_, rfl⟩
  · split
    · exact .inr (.inl rfl)
    · exact .inr (.inr rfl)

/-- Numbers below 9 name AR or a send ring. -/
theorem ofNumber_of_lt {n : Nat} (h : n < 9) :
    RingName.ofNumber n = some .admin ∨ ∃ r, RingName.ofNumber n = some (.send r) := by
  unfold RingName.ofNumber
  split
  · exact .inl rfl
  · rw [if_pos (by omega)]
    exact .inr ⟨_, rfl⟩

/-- No ring has a number above 13. -/
theorem ofNumber_eq_none {n : Nat} (h : 13 < n) : RingName.ofNumber n = none := by
  unfold RingName.ofNumber
  rw [if_neg (by omega), if_neg (by omega), if_neg (by omega), if_neg (by omega)]

/-! ## The checks of an index (R183, R184) -/

theorem postIndexTaken_iff (newTail head tail size : Nat) :
    postIndexTaken newTail head tail size = true ↔
      newTail < size ∧ ringDistance tail head size ≤ ringDistance newTail head size := by
  simp [postIndexTaken]

theorem releaseIndexTaken_iff (newHead head tail size : Nat) :
    releaseIndexTaken newHead head tail size = true ↔
      newHead < size ∧ ringDistance newHead head size ≤ ringDistance tail head size := by
  simp [releaseIndexTaken]

/-- A POST write fails its checks by the ring's state, by the range, or by the direction. -/
theorem postChecks_fail {P : Prop} {newTail head tail size : Nat}
    (h : ¬P ∨ size ≤ newTail ∨ ringDistance newTail head size < ringDistance tail head size) :
    ¬(P ∧ postIndexTaken newTail head tail size = true) := by
  rw [postIndexTaken_iff]
  rintro ⟨hstate, hrange, hdir⟩
  exact h.elim (absurd hstate) (Or.rec hrange.not_ge hdir.not_gt)

/-- A RELEASE write fails its checks by the ring's state, by the range, or by the distance. -/
theorem releaseChecks_fail {P : Prop} {newHead head tail size : Nat}
    (h : ¬P ∨ size ≤ newHead ∨ ringDistance tail head size < ringDistance newHead head size) :
    ¬(P ∧ releaseIndexTaken newHead head tail size = true) := by
  rw [releaseIndexTaken_iff]
  rintro ⟨hstate, hrange, hdist⟩
  exact h.elim (absurd hstate) (Or.rec hrange.not_ge hdist.not_gt)

/-- A refused write changes the INDEX_ERROR cause alone. -/
theorem refuseIndex_eq (s : State) : refuseIndex s = { s with hp := { s.hp with cause := s.hp.cause ||| 0x80#9 } } :=
  rfl

section
variable {v : Word} {s : State}

/-! ## POST by ring (R183) -/

theorem writePost_admin (hrun : s.hp.engine = .running) (hring : ringNumberField v = 0) :
    writePost v s =
      if s.rct.admin.state = .opened
          ∧ postIndexTaken (indexField v) s.rct.admin.head s.rct.admin.tail s.rct.admin.size = true then
        conclude (s.updAdmin (fun r => { r with tail := indexField v }))
      else refuseIndex s := by
  unfold writePost
  rw [hring]
  exact if_pos hrun

theorem writePost_send {r : SendId} (hrun : s.hp.engine = .running) (hring : ringNumberField v = r.val + 1) :
    writePost v s =
      if (s.send r).state = .opened
          ∧ postIndexTaken (indexField v) (s.send r).head (s.send r).tail (s.send r).size = true then
        conclude (fetchDecision (s.updSend r (fun r => { r with tail := indexField v })))
      else refuseIndex s := by
  unfold writePost
  rw [ofNumber_send hring]
  exact if_pos hrun

/-- Outside RUNNING, and for the number of no posted ring, the write is refused. -/
theorem writePost_refused (h : s.hp.engine ≠ .running ∨ 8 < ringNumberField v) : writePost v s = refuseIndex s := by
  unfold writePost
  dsimp only
  split
  · next hrun =>
    obtain ⟨r, hname⟩ | hname | hname := ofNumber_of_gt (h.resolve_left (absurd hrun)) <;> rw [hname]
  · rfl

/-! ## RELEASE by ring (R184) -/

theorem writeRelease_arrival {r : ArrivalId} (hrun : s.hp.engine = .running) (hring : ringNumberField v = r.val + 9) :
    writeRelease v s =
      if (s.arrival r).state ≠ .closed
          ∧ releaseIndexTaken (indexField v) (s.arrival r).head (s.arrival r).tail (s.arrival r).size = true then
        conclude (arrivalDecision (s.updArrival r (fun r => { r with head := indexField v })))
      else refuseIndex s := by
  unfold writeRelease
  rw [ofNumber_arrival hring]
  exact if_pos hrun

theorem writeRelease_completion (hrun : s.hp.engine = .running) (hring : ringNumberField v = 13) :
    writeRelease v s =
      if s.rct.completion.state = .opened
          ∧ releaseIndexTaken (indexField v) s.rct.completion.head s.rct.completion.tail s.rct.completion.size
              = true then
        conclude (s.updCompletion (fun r => { r with head := indexField v }))
      else refuseIndex s := by
  unfold writeRelease
  rw [hring]
  exact if_pos hrun

/-- Outside RUNNING, and for the number of no released ring, the write is refused. -/
theorem writeRelease_refused (h : s.hp.engine ≠ .running ∨ ringNumberField v < 9 ∨ 13 < ringNumberField v) :
    writeRelease v s = refuseIndex s := by
  unfold writeRelease
  dsimp only
  split
  · next hrun =>
    obtain hlow | hhigh := h.resolve_left (absurd hrun)
    · obtain hname | ⟨r, hname⟩ := ofNumber_of_lt hlow <;> rw [hname]
    · rw [ofNumber_eq_none hhigh]
  · rfl

end

end Sys2Proof.Machine

namespace Sys2Proof.Proofs

open Sys2Proof.Machine

/-- Settles O7: the ring number picks the ring, whose state and index checks decide. -/
theorem postWrites : Obligations.PostWrites := by
  refine ⟨fun v r s hpin hrun hring hstate hrange hdir => ?send, fun v s hpin hrun hring hstate hrange hdir => ?admin,
    fun v s hpin hr h => ?refused⟩
  case send =>
    rw [exec_of_open rfl hpin (by rw [hrun]; nofun), writeRegister, writePost_send hrun hring,
      if_pos ⟨hstate, (postIndexTaken_iff _ _ _ _).2 ⟨hrange, hdir⟩⟩]
    rfl
  case admin =>
    rw [exec_of_open rfl hpin (by rw [hrun]; nofun), writeRegister, writePost_admin hrun hring,
      if_pos ⟨hstate, (postIndexTaken_iff _ _ _ _).2 ⟨hrange, hdir⟩⟩]
    rfl
  case refused =>
    rw [exec_of_open rfl hpin hr, writeRegister, ← refuseIndex_eq]
    refine congrArg _ ?_
    by_cases hrun : s.hp.engine = .running
    · obtain hnot | hhigh | ⟨hring, hfails⟩ | ⟨r, hring, hfails⟩ := h
      · exact absurd hrun hnot
      · exact writePost_refused (.inr hhigh)
      · exact (writePost_admin hrun hring).trans (if_neg (postChecks_fail hfails))
      · exact (writePost_send hrun hring).trans (if_neg (postChecks_fail hfails))
    · exact writePost_refused (.inl hrun)

/-- Settles O8: the ring number picks the ring, whose state and index checks decide. -/
theorem releaseWrites : Obligations.ReleaseWrites := by
  refine ⟨fun v r s hpin hrun hring hstate hrange hdist => ?arrival,
    fun v s hpin hrun hring hstate hrange hdist => ?completion, fun v s hpin hr h => ?refused⟩
  case arrival =>
    rw [exec_of_open rfl hpin (by rw [hrun]; nofun), writeRegister, writeRelease_arrival hrun hring,
      if_pos ⟨hstate, (releaseIndexTaken_iff _ _ _ _).2 ⟨hrange, hdist⟩⟩]
    rfl
  case completion =>
    rw [exec_of_open rfl hpin (by rw [hrun]; nofun), writeRegister, writeRelease_completion hrun hring,
      if_pos ⟨hstate, (releaseIndexTaken_iff _ _ _ _).2 ⟨hrange, hdist⟩⟩]
    rfl
  case refused =>
    rw [exec_of_open rfl hpin hr, writeRegister, ← refuseIndex_eq]
    refine congrArg _ ?_
    by_cases hrun : s.hp.engine = .running
    · obtain hnot | hlow | hhigh | ⟨hring, hfails⟩ | ⟨r, hring, hfails⟩ := h
      · exact absurd hrun hnot
      · exact writeRelease_refused (.inr (.inl hlow))
      · exact writeRelease_refused (.inr (.inr hhigh))
      · exact (writeRelease_completion hrun hring).trans (if_neg (releaseChecks_fail hfails))
      · exact (writeRelease_arrival hrun hring).trans (if_neg (releaseChecks_fail (hfails.imp_left not_not.2)))
    · exact writeRelease_refused (.inl hrun)

end Sys2Proof.Proofs
end

section
/-! PROOFS. The arbiter (R187, R189): which requests may pass, the first of them from the pointer, and its grant. -/

namespace Sys2Proof.Machine

/-! ## Requests that may pass (R189) -/

theorem onBusOf_iff (o : BusOwner) (d : Direction) (s : State) :
    onBusOf o d s = true ↔ ∃ t, s.hp.onBus = some (o, t) ∧ t.direction = d := by
  unfold onBusOf
  cases h : s.hp.onBus with
  | none => simp
  | some p =>
    obtain ⟨o', t⟩ := p
    simp only [Bool.and_eq_true, beq_iff_eq, Option.some.injEq, Prod.mk.injEq]
    exact ⟨fun ⟨ho, hd⟩ => ⟨t, ⟨ho, rfl⟩, hd⟩, fun ⟨_, ⟨ho, ht⟩, hd⟩ => ⟨ho, ht ▸ hd⟩⟩

/-- Every request may pass in RUNNING, reads alone in HALTED, none elsewhere. -/
theorem mayPass_iff (e : EngineState) (t : Transfer) :
    mayPass e t = true ↔ e = .running ∨ e = .halted ∧ t.direction = .read := by
  cases e <;> simp [mayPass]

theorem passable_eq_some_iff (h : HostPort) (q : Requester) (t : Transfer) :
    passable h q = some t ↔ h.waiting.get q = some t ∧ mayPass h.engine t = true := by
  unfold passable
  cases h.waiting.get q with
  | none => simp
  | some u =>
    simp only [Option.ite_none_right_eq_some, Option.some.injEq]
    exact ⟨fun ⟨hpass, ht⟩ => ⟨ht, ht ▸ hpass⟩, fun ⟨ht, hpass⟩ => ⟨ht ▸ hpass, ht⟩⟩

theorem passable_eq_none_iff (h : HostPort) (q : Requester) :
    passable h q = none ↔ ∀ t, h.waiting.get q = some t → mayPass h.engine t = false := by
  simp only [Option.eq_none_iff_forall_ne_some, ne_eq, passable_eq_some_iff, not_and, Bool.not_eq_true]

/-! ## The order of a decision (R187) -/

/-- The place of a requester in the arbiter's cyclic order. -/
def Requester.place : Requester → Nat
  | .fe => 0
  | .ae => 1
  | .aw => 2
  | .cw => 3

theorem Requester.place_iterate_next (k : Nat) (p : Requester) : (next^[k] p).place = (p.place + k) % 4 := by
  induction k with
  | zero => cases p <;> rfl
  | succ k ih =>
    have hnext (q : Requester) : q.next.place = (q.place + 1) % 4 := by cases q <;> rfl
    rw [Function.iterate_succ_apply', hnext, ih]
    omega

/-- Four steps in a row visit four requesters. -/
theorem Requester.iterate_next_ne {j k : Nat} (hj : j < k) (hk : k < 4) (p : Requester) : next^[j] p ≠ next^[k] p := by
  intro heq
  have hplace := congrArg place heq
  rw [place_iterate_next, place_iterate_next] at hplace
  omega

theorem Requester.mem_order (p q : Requester) : q ∈ p.order := by
  cases p <;> cases q <;> decide

/-- What is granted is a waiting request that may pass. -/
theorem passable_of_nextGrant {h : HostPort} {q : Requester} {t : Transfer} (hg : nextGrant h = some (q, t)) :
    passable h q = some t := by
  obtain ⟨q', -, hq'⟩ := List.exists_of_findSome?_eq_some hg
  obtain ⟨t', ht', hpair⟩ := Option.map_eq_some_iff.1 hq'
  cases hpair
  exact ht'

theorem nextGrant_eq_none_iff (h : HostPort) : nextGrant h = none ↔ ∀ q, passable h q = none := by
  simp [nextGrant, Requester.mem_order]

/-- The first requester from the pointer whose request may pass is granted. -/
theorem nextGrant_of_first {h : HostPort} {k : Nat} {t : Transfer} (hk : k < 4)
    (hfirst : passable h (Requester.next^[k] h.pointer) = some t)
    (hbefore : ∀ j < k, passable h (Requester.next^[j] h.pointer) = none) :
    nextGrant h = some (Requester.next^[k] h.pointer, t) := by
  obtain ⟨rest, hsplit⟩ : ∃ rest, h.pointer.order =
      (List.range k).map (fun j => Requester.next^[j] h.pointer) ++ Requester.next^[k] h.pointer :: rest := by
    interval_cases k <;> exact ⟨_, rfl⟩
  refine List.findSome?_eq_some_iff.2 ⟨_, _, rest, hsplit, by rw [hfirst]; rfl, fun q hq => ?_⟩
  obtain ⟨j, hj, rfl⟩ := List.mem_map.1 hq
  rw [hbefore j (List.mem_range.1 hj)]
  rfl

/-! ## The decision (R187) -/

theorem Waiting.get_put (w : Waiting) (t : Option Transfer) (p q : Requester) :
    (w.put t p).get q = if p = q then t else w.get q := by
  cases p <;> cases q <;> rfl

/-- The grant of a request: it passes to the bus, and the pointer moves past its requester. -/
def granted (q : Requester) (t : Transfer) (s : State) : State :=
  { s with hp := { s.hp with
      onBus := some (.requester q, t), waiting := s.hp.waiting.put none q, pointer := q.next } }

section
variable {s : State}

theorem arbitrate_of_busy (h : s.hp.onBus ≠ none) : arbitrate s = s := by
  unfold arbitrate
  split
  · rfl
  · next hfree => exact absurd hfree h

theorem arbitrate_of_no_grant (h : nextGrant s.hp = none) : arbitrate s = s := by
  unfold arbitrate
  rw [h]
  split <;> rfl

theorem arbitrate_of_grant {q : Requester} {t : Transfer} (hfree : s.hp.onBus = none)
    (h : nextGrant s.hp = some (q, t)) : arbitrate s = granted q t s := by
  unfold arbitrate
  rw [hfree, h]
  rfl

/-- The arbiter changes nothing, or grants a request that may pass. -/
theorem arbitrate_cases (s : State) :
    arbitrate s = s ∨ ∃ q t, mayPass s.hp.engine t = true ∧ arbitrate s = granted q t s := by
  cases hfree : s.hp.onBus with
  | some _ => exact .inl (arbitrate_of_busy (by rw [hfree]; nofun))
  | none =>
    cases hg : nextGrant s.hp with
    | none => exact .inl (arbitrate_of_no_grant hg)
    | some g =>
      obtain ⟨q, t⟩ := g
      exact .inr ⟨q, t, ((passable_eq_some_iff _ _ _).1 (passable_of_nextGrant hg)).2, arbitrate_of_grant hfree hg⟩

/-- In RUNNING the first waiting request from the pointer is granted. -/
theorem arbitrate_of_running {k : Nat} {t : Transfer} (hfree : s.hp.onBus = none) (hrun : s.hp.engine = .running)
    (hk : k < 4) (hfirst : s.hp.waiting.get (Requester.next^[k] s.hp.pointer) = some t)
    (hbefore : ∀ j < k, s.hp.waiting.get (Requester.next^[j] s.hp.pointer) = none) :
    arbitrate s = granted (Requester.next^[k] s.hp.pointer) t s := by
  have hpass : passable s.hp (Requester.next^[k] s.hp.pointer) = some t :=
    (passable_eq_some_iff _ _ _).2 ⟨hfirst, (mayPass_iff _ _).2 (.inl hrun)⟩
  refine arbitrate_of_grant hfree (nextGrant_of_first hk hpass fun j hj => (passable_eq_none_iff _ _).2 fun u hu => ?_)
  rw [hbefore j hj] at hu
  cases hu

end

end Sys2Proof.Machine

namespace Sys2Proof.Proofs

open Sys2Proof.Machine

/-- Settles O14: the decision is a search from the pointer, and in RUNNING the first waiting request from the pointer
stands between the pointer and every other. -/
theorem arbiterRoundRobin : Obligations.ArbiterRoundRobin := by
  refine ⟨⟨⟨rfl, rfl, rfl, rfl⟩, onBusOf_iff⟩, fun s hbusy => arbitrate_of_busy hbusy, fun s hfree hnone => ?nothing,
    fun k t s hfree hk hk' hpass hbefore => ?first, fun k t s hfree hrun hk hwait => ?nearer⟩
  case nothing =>
    refine arbitrate_of_no_grant ((nextGrant_eq_none_iff _).2 fun q => (passable_eq_none_iff _ _).2 fun t ht => ?_)
    obtain ⟨hrun, hwrite⟩ := hnone q t ht
    refine Bool.eq_false_of_not_eq_true fun hpass => ?_
    obtain hr | ⟨hhalted, hread⟩ := (mayPass_iff _ _).1 hpass
    · exact hrun hr
    · rw [hwrite hhalted] at hread
      cases hread
  case first =>
    have hgrant := nextGrant_of_first hk ((passable_eq_some_iff _ _ _).2 ⟨hk', (mayPass_iff _ _).2 hpass⟩)
      fun j hj => (passable_eq_none_iff _ _).2 fun u hu => ?_
    · rw [arbitrate_of_grant hfree hgrant, granted, Function.iterate_succ_apply']
    · obtain ⟨hhalted, hwrite⟩ := hbefore j hj u hu
      simp [mayPass, hhalted, hwrite]
  case nearer =>
    have hsome : ∃ j, (s.hp.waiting.get (Requester.next^[j] s.hp.pointer)).isSome := ⟨k, by rw [hwait]; rfl⟩
    obtain ⟨u, hu⟩ := Option.isSome_iff_exists.1 (Nat.find_spec hsome)
    have hbefore : ∀ j < Nat.find hsome, s.hp.waiting.get (Requester.next^[j] s.hp.pointer) = none := fun j hj =>
      Option.not_isSome_iff_eq_none.1 (Nat.find_min hsome hj)
    have hle : Nat.find hsome ≤ k := Nat.find_min' hsome (by rw [hwait]; rfl)
    generalize Nat.find hsome = j at *
    rw [arbitrate_of_running hfree hrun (by omega) hu hbefore]
    obtain rfl | hlt := hle.eq_or_lt
    · rw [hwait] at hu
      cases hu
      exact .inl rfl
    · refine .inr ⟨nofun, (Waiting.get_put _ _ _ _).trans ((if_neg (Requester.iterate_next_ne hlt hk _)).trans hwait),
        k - (j + 1), by omega, ?_⟩
      change Requester.next^[_] (Requester.next (Requester.next^[j] _)) = _
      rw [← Function.iterate_succ_apply' Requester.next, ← Function.iterate_add_apply, Nat.sub_add_cancel hlt]

end Sys2Proof.Proofs
end

section
/-! PROOFS. What an event leaves of the host port, and what it begins once the engine is HALTED (R142, R155, R179, R185,
R189): every operation an event is made of keeps the engine state, the boot address and MASK, clears no cause, and in
HALTED begins no fetch and no write. -/

namespace Sys2Proof.Machine

/-- Since `s`, no write has passed to the bus, no fetch, no arrival write and no completion write has begun, and a
stopped tick has stood (R142, R155, R189). -/
structure BegunNothing (s t : State) : Prop where
  onBus : ∀ o tr, t.hp.onBus = some (o, tr) → tr.direction = .write → s.hp.onBus = some (o, tr)
  fetch : t.fe.inFlight = none ∨ t.fe.inFlight = s.fe.inFlight
  adminFetch : t.ae.phase = .fetching → s.ae.phase = .fetching
  arrivalWrite : t.aw.inFlight = none ∨ t.aw.inFlight = s.aw.inFlight
  completionWrite : t.cw.inFlight = none ∨ t.cw.inFlight = s.cw.inFlight
  tick : s.sch.tickRunning = false → t.sch.tick = s.sch.tick

theorem BegunNothing.refl (s : State) : BegunNothing s s :=
  ⟨fun _ _ h _ => h, .inr rfl, id, .inr rfl, .inr rfl, fun _ => rfl⟩

/-- The work under way: on the bus, in the two fetching and the two writing blocks, and the tick. -/
def State.work (s : State) :
    Option (BusOwner × Transfer) × Option Fetch × AdminPhase × Option ArrivalWrite × Option CompletionWrite × Word :=
  (s.hp.onBus, s.fe.inFlight, s.ae.phase, s.aw.inFlight, s.cw.inFlight, s.sch.tick)

theorem BegunNothing.congr {s t u : State} (h : BegunNothing s u) (hwork : t.work = u.work) : BegunNothing s t := by
  simp only [State.work, Prod.mk.injEq] at hwork
  obtain ⟨hbus, hfe, hae, haw, hcw, htick⟩ := hwork
  obtain ⟨bus, fe, ae, aw, cw, tick⟩ := h
  exact ⟨by rwa [hbus], by rwa [hfe], by rwa [hae], by rwa [haw], by rwa [hcw], by rwa [htick]⟩

/-- Since `s`, the engine state with its halt reason, the boot address and MASK have stood, no cause has been cleared,
and in HALTED nothing has begun (R179, R185, R189). -/
structure PortKept (s t : State) : Prop where
  engine : t.hp.engine = s.hp.engine
  haltReason : t.hp.haltReason = s.hp.haltReason
  bootLo : t.hp.bootLo = s.hp.bootLo
  bootHi : t.hp.bootHi = s.hp.bootHi
  mask : t.hp.mask = s.hp.mask
  cause : ∀ i, s.hp.cause.getLsbD i = true → t.hp.cause.getLsbD i = true
  halted : s.hp.engine = .halted → BegunNothing s t

/-- The host port's fields that an event keeps. -/
def State.port (s : State) : EngineState × HaltReason × BitVec 26 × Word × BitVec 9 :=
  (s.hp.engine, s.hp.haltReason, s.hp.bootLo, s.hp.bootHi, s.hp.mask)

/-- What an event that begins nothing and sets no cause leaves as it is. -/
def State.front (s : State) := (s.port, s.work, s.hp.cause)

namespace PortKept

variable {s t u : State}

theorem refl (s : State) : PortKept s s := ⟨rfl, rfl, rfl, rfl, rfl, fun _ => id, fun _ => .refl s⟩

/-- An operation that keeps the port's fields, clears no cause, and in HALTED begins nothing. -/
theorem extend (h : PortKept s u) (hport : t.port = u.port)
    (hcause : ∀ i, u.hp.cause.getLsbD i = true → t.hp.cause.getLsbD i = true)
    (hhalted : u.hp.engine = .halted → BegunNothing s u → BegunNothing s t) : PortKept s t := by
  simp only [State.port, Prod.mk.injEq] at hport
  obtain ⟨he, hreason, hlo, hhi, hmask⟩ := hport
  exact ⟨he.trans h.engine, hreason.trans h.haltReason, hlo.trans h.bootLo, hhi.trans h.bootHi, hmask.trans h.mask,
    fun i hi => hcause i (h.cause i hi), fun hs => hhalted (h.engine.trans hs) (h.halted hs)⟩

/-- An operation that begins nothing and clears no cause. -/
theorem congr_of_cause (h : PortKept s u) (hport : t.port = u.port) (hwork : t.work = u.work)
    (hcause : ∀ i, u.hp.cause.getLsbD i = true → t.hp.cause.getLsbD i = true) : PortKept s t :=
  h.extend hport hcause fun _ begun => begun.congr hwork

/-- An operation that begins nothing and leaves CAUSE as it is. -/
theorem congr (h : PortKept s u) (hsame : t.front = u.front) : PortKept s t := by
  simp only [State.front, Prod.mk.injEq] at hsame
  obtain ⟨hport, hwork, hcause⟩ := hsame
  exact h.congr_of_cause hport hwork fun i hi => by rwa [hcause]

/-- A decision taken in RUNNING alone begins nothing in HALTED. -/
theorem decided (h : PortKept s u) (hrun : t = u ∨ u.hp.engine = .running) (hport : t.port = u.port)
    (hcause : t.hp.cause = u.hp.cause) : PortKept s t := by
  obtain rfl | hrun := hrun
  · exact h
  · refine h.extend hport (fun i hi => by rwa [hcause]) fun hhalted => ?_
    rw [hrun] at hhalted
    cases hhalted

theorem setCause (h : PortKept s u) (c : Cause) : PortKept s (setCause c u) :=
  h.congr_of_cause rfl rfl fun i hi => by simp [hi]

theorem setCauseIf (h : PortKept s u) (b : Bool) (c : Cause) : PortKept s (setCauseIf b c u) :=
  ite_keeps h (h.setCause c)

theorem updArrival (h : PortKept s u) (r : ArrivalId) (f : ArrivalRing → ArrivalRing) :
    PortKept s (u.updArrival r f) := h.congr (by rfl)

theorem updCompletion (h : PortKept s u) (f : CompletionRing → CompletionRing) : PortKept s (u.updCompletion f) :=
  h.congr (by rfl)

/-! ## The bus (R187, R189) -/

theorem clearBus (h : PortKept s u) : PortKept s (clearBus u) :=
  h.extend rfl (fun _ => id) fun _ begun => { begun with onBus := nofun }

/-- In HALTED the arbiter passes reads alone (R189). -/
theorem arbitrate (h : PortKept s u) : PortKept s (arbitrate u) := by
  obtain heq | ⟨q, t, hpass, heq⟩ := arbitrate_cases u <;> rw [heq]
  · exact h
  · refine h.extend rfl (fun _ => id) fun hhalted begun => { begun with onBus := fun o tr hbus hwrite => ?_ }
    cases hbus
    obtain hrun | ⟨-, hread⟩ := (mayPass_iff _ _).1 hpass
    · rw [hhalted] at hrun
      cases hrun
    · rw [hwrite] at hread
      cases hread

/-! ## The admin engine (chapter 9) -/

/-- The admin engine changes to a phase other than FETCHING. -/
theorem updAe (h : PortKept s u) {f : AdminEngine → AdminEngine} (hf : (f u.ae).phase ≠ .fetching) :
    PortKept s (u.updAe f) :=
  h.extend rfl (fun _ => id) fun _ begun => { begun with adminFetch := fun hphase => absurd hphase hf }

theorem idleAdmin (h : PortKept s u) : PortKept s (idleAdmin u) := h.updAe nofun

theorem awaitEvent (h : PortKept s u) (a : Awaited) : PortKept s (awaitEvent a u) := h.updAe nofun

theorem joinPending (h : PortKept s u) (e : CompletionEntry) : PortKept s (joinPending e u) := h.congr (by rfl)

theorem endCommand (h : PortKept s u) (status : AdminStatus) (area : List Byte) :
    PortKept s (endCommand status area u) := by
  unfold Machine.endCommand
  split
  · exact h
  · exact (h.joinPending _).idleAdmin

theorem endCloseRing (h : PortKept s u) (area : List Byte) : PortKept s (endCloseRing area u) :=
  ite_keeps h (h.endCommand _ _)

theorem reportMode (h : PortKept s u) : PortKept s (reportMode u) := ite_keeps h (h.endCommand _ _)

/-! ## The scheduler (chapter 3) -/

theorem completeCell (h : PortKept s u) (id : CellId) (status : SendStatus) : PortKept s (completeCell id status u) :=
  joinPending (h.congr (by simp [State.front, State.port, State.work])) _

theorem setVerdict (h : PortKept s u) (v : Verdict) (id : CellId) : PortKept s (setVerdict v id u) :=
  h.congr (by simp [State.front, State.port, State.work])

theorem verdictDepartures (h : PortKept s u) (r : SendId) : PortKept s (verdictDepartures r u) := by
  unfold Machine.verdictDepartures
  split
  · exact h
  · exact foldl_keeps_prop (PortKept s) _ (fun _ _ hb => hb.completeCell _ _) _ _ (h.congr (by rfl))

theorem withdrawOffer (h : PortKept s u) : PortKept s (withdrawOffer u) := by
  unfold Machine.withdrawOffer
  split
  · exact h
  · split
    · exact h
    · split
      · exact verdictDepartures (h.congr (by rfl)) _
      · exact h

theorem settleAttempt (h : PortKept s u) (id : CellId) (o : AttemptOutcome) : PortKept s (settleAttempt id o u) := by
  unfold Machine.settleAttempt
  split
  · dsimp only
    split
    · exact h.congr (by rfl)
    · exact (completeCell (h.congr (by rfl)) id _).verdictDepartures _
  · exact h

theorem expireCell (h : PortKept s u) (id : CellId) (c : TxCell) : PortKept s (expireCell id c u) := by
  unfold Machine.expireCell
  split
  · split
    · exact h.setVerdict _ _
    · exact (completeCell (h.congr (by rfl)) id _).verdictDepartures _
  · split
    · exact (h.setVerdict _ _).verdictDepartures _
    · exact h

theorem flushRing (h : PortKept s u) (r : SendId) : PortKept s (flushRing r u) :=
  verdictDepartures (foldl_keeps_prop (PortKept s) _ (fun _ _ hb => hb.setVerdict _ _) _ _ h) r

theorem offerDecision (h : PortKept s u) : PortKept s (offerDecision u) :=
  h.congr (by simp [State.front, State.port, State.work])

/-! ## The fetch engine (chapter 6) -/

/-- A fetch begins in RUNNING alone (R117). -/
theorem fetchDecision (h : PortKept s u) : PortKept s (fetchDecision u) := by
  refine h.decided ?_ (by simp [State.port]) (by simp)
  unfold Machine.fetchDecision
  split
  · next hrun => exact .inr hrun.1
  · exact .inl rfl

theorem roomNotice (h : PortKept s u) : PortKept s (roomNotice u) :=
  ite_keeps h (fetchDecision (h.congr (by rfl)))

theorem takeFetchEnd (h : PortKept s u) (result : ReadEnd) : PortKept s (takeFetchEnd result u) := by
  unfold Machine.takeFetchEnd
  split
  · exact h
  · next f _ =>
    have ended : PortKept s
        ((u.updSend f.ring fun r => fetchedRing r result).updFe fun e => { e with inFlight := none }) :=
      h.extend rfl (fun _ => id) fun _ begun => { begun with fetch := .inl rfl }
    exact fetchDecision (verdictDepartures (ended.congr (by simp [State.front, State.port, State.work])) _)

/-! ## The arrival writer (chapter 7) -/

/-- An arrival write begins in RUNNING alone (R133). -/
theorem arrivalDecision (h : PortKept s u) : PortKept s (arrivalDecision u) := by
  refine h.decided ?_ (by simp [State.port]) (by simp)
  unfold Machine.arrivalDecision
  split
  · next hrun => exact .inr hrun.1
  · exact .inl rfl

theorem notifyArrival (h : PortKept s u) (r : ArrivalId) : PortKept s (notifyArrival r u) :=
  (h.updArrival r _).setCauseIf _ _

theorem closeIfDrainedArrival (h : PortKept s u) (r : ArrivalId) : PortKept s (closeIfDrainedArrival r u) :=
  ite_keeps h (endCloseRing (notifyArrival (h.congr (by rfl)) r) _)

theorem discardCell (h : PortKept s u) (r : ArrivalId) (id : CellId) : PortKept s (discardCell r id u) :=
  h.congr (by simp [State.front, State.port, State.work])

theorem discardPending (h : PortKept s u) (r : ArrivalId) : PortKept s (discardPending r u) :=
  foldl_keeps_prop (PortKept s) _ (fun _ _ hb => hb.discardCell _ _) _ _ (h.congr (by rfl))

theorem clearArrivalWrite (h : PortKept s u) (r : ArrivalId) : PortKept s (clearArrivalWrite r u) :=
  h.extend rfl (fun _ => id) fun _ begun => { begun with arrivalWrite := .inl rfl }

theorem coalesceArrival (h : PortKept s u) (r : ArrivalId) : PortKept s (coalesceArrival r u) :=
  (h.updArrival r _).setCauseIf _ _

theorem takeArrivalEnd (h : PortKept s u) (result : WriteEnd) : PortKept s (takeArrivalEnd result u) := by
  unfold Machine.takeArrivalEnd
  split
  · exact h
  · next w _ =>
    refine arrivalDecision ?_
    cases result with
    | written =>
      have cleared : PortKept s (Machine.clearArrivalWrite w.ring (advanceArrivalTail w.ring u)) :=
        clearArrivalWrite (h.congr (by rfl)) _
      exact (coalesceArrival (cleared.congr (by simp [State.front, State.port, State.work])) _).closeIfDrainedArrival _
    | busError =>
      dsimp only
      split
      · exact ((h.clearArrivalWrite _).discardCell _ _).closeIfDrainedArrival _
      · have cleared : PortKept s
            (Machine.clearArrivalWrite w.ring (u.updArrival w.ring fun c => { c with state := .faulted })) :=
          clearArrivalWrite (h.congr (by rfl)) _
        exact (((cleared.discardCell _ _).discardPending _).notifyArrival _).joinPending _

theorem commitToRing (h : PortKept s u) (r : ArrivalId) (id : CellId) : PortKept s (commitToRing r id u) := by
  unfold Machine.commitToRing
  split
  · exact arrivalDecision (h.congr (by rfl))
  · exact (h.discardCell r id).closeIfDrainedArrival r

/-! ## The reception (chapter 5) -/

theorem dropReceptionCell (h : PortKept s u) (id : CellId) : PortKept s (dropReceptionCell id u) := by
  unfold Machine.dropReceptionCell
  split
  · exact closeIfDrainedArrival (h.congr (by simp [State.front, State.port, State.work])) _
  · exact h

theorem headerCall (h : PortKept s u) (hd : FrameHead) (own allowed : Bool) :
    PortKept s (headerCall hd own allowed u) := by
  unfold Machine.headerCall
  split
  · exact h.congr (by rfl)
  · split
    · next i _ =>
      have hit : PortKept s (countHit i u) := h.congr (by rfl)
      simp only [decideFrame, acceptFrame]
      split
      · split
        · split
          · exact hit.congr (by rfl)
          · exact hit.congr (by rfl)
        · exact hit.congr (by rfl)
        · have dropped : PortKept s (countRxDropped (countHit i u)) := hit.congr (by rfl)
          exact (dropped.setCause .overrun).congr (by rfl)
        all_goals exact hit.congr (by rfl)
      all_goals exact hit.congr (by rfl)
    · exact h.congr (by rfl)

theorem checkCall (h : PortKept s u) (good : Bool) (payload : List Byte) : PortKept s (checkCall good payload u) := by
  unfold Machine.checkCall
  split
  · exact h
  · split
    · split
      · unfold commitReception
        split
        · exact commitToRing (h.congr (by rfl)) _ _
        · exact h.congr (by rfl)
      · exact h.congr (by simp [State.front, State.port, State.work])
    · unfold cancelReception
      split
      · exact dropReceptionCell (h.congr (by rfl)) _
      · exact h.congr (by rfl)

theorem abandonReception (h : PortKept s u) : PortKept s (abandonReception u) := by
  unfold Machine.abandonReception
  split
  · exact h
  · split
    · exact dropReceptionCell (h.congr (by rfl)) _
    · exact h.congr (by rfl)

/-! ## The line engine (chapter 4) -/

theorem reachHeaderEnd (h : PortKept s u) (f : Frame) (bits : BitVec 32) (hd : FrameHead) :
    PortKept s (reachHeaderEnd f bits hd u) := by
  unfold Machine.reachHeaderEnd
  exact headerCall (h.congr (by rfl)) _ _ _

theorem reachCheckEnd (h : PortKept s u) (f : Frame) (payload : List Byte) (check : BitVec 16) :
    PortKept s (reachCheckEnd f payload check u) := by
  have read : PortKept s (u.updLe fun l =>
      { l with
        frame := some { f with point := .checkEnd, checkRegister := runCheck f.checkRegister (payloadBits payload) },
        txd := .released }) := h.congr (by rfl)
  exact congr (t := Machine.reachCheckEnd f payload check u) (read.checkCall _ payload) (by rfl)

theorem clearFault (h : PortKept s u) : PortKept s (clearFault u) := ite_keeps h (setCause (h.congr (by rfl)) _)

theorem goOff (h : PortKept s u) : PortKept s (goOff u) := clearFault (h.congr (by rfl))

theorem joinIfQuiet (h : PortKept s u) : PortKept s (joinIfQuiet u) := ite_keeps h (setCause (h.congr (by rfl)) _)

theorem applyMode (h : PortKept s u) (old new : LineMode) : PortKept s (applyMode old new u) := by
  unfold Machine.applyMode
  split
  · exact h
  · split
    · exact h.goOff
    · exact setCause (h.clearFault.congr (by rfl)) _
    all_goals
      split
      · exact h.congr (by rfl)
      · exact ite_keeps (joinIfQuiet (h.congr (by rfl))) h

theorem takeMode (h : PortKept s u) (m : LineMode) : PortKept s (takeMode m u) := by
  have applied : PortKept s (Machine.applyMode u.le.mode m
      (u.updLe fun l => { l with mode := m, pendingMode := none, errorRun := 0, muted := false })) :=
    applyMode (h.congr (by rfl)) _ _
  exact reportMode (ite_keeps applied applied.withdrawOffer)

theorem atBoundary (h : PortKept s u) : PortKept s (atBoundary u) := by
  obtain heq | heq | ⟨m, heq⟩ := atBoundary_cases u <;> rw [heq]
  · exact h
  · exact h.goOff
  · exact h.takeMode m

theorem leaveAttempt (h : PortKept s u) (o : AttemptOutcome) (rest : Option Frame) :
    PortKept s (leaveAttempt o rest u) := by
  have left : PortKept s (u.updLe fun l =>
      { l with slot := none, counters := countersAfter l.counters o, errorRun := runAfter l.errorRun o,
               phase := o.phaseAfter, frame := rest, txd := .released }) := h.congr (by rfl)
  exact ite_keeps left (setCause (left.congr (by rfl)) _)

theorem endAttempt (h : PortKept s u) (o : AttemptOutcome) (rest : Option Frame) :
    PortKept s (endAttempt o rest u) := by
  unfold Machine.endAttempt
  split
  · exact h
  · have left := h.leaveAttempt o rest
    exact settleAttempt (ite_keeps left.abandonReception left) _ _

theorem enterFault (h : PortKept s u) : PortKept s (enterFault u) := by
  have ended : PortKept s (if u.le.phase.isAttempt then Machine.endAttempt .lineFault none u else u) :=
    ite_keeps h (h.endAttempt _ _)
  unfold Machine.enterFault
  split
  · exact h
  · split
    · exact h.congr (by rfl)
    · exact atBoundary (setCause ((ite_keeps ended ended.abandonReception).congr (by rfl)) _)

theorem attemptEndAt (h : PortKept s u) (cells : CellsRead) (quiet : Nat) :
    PortKept s (attemptEndAt cells quiet u) := by
  unfold Machine.attemptEndAt
  split
  · exact h
  · dsimp only
    split
    · exact h
    · exact h.enterFault
    · exact atBoundary (endAttempt (h.congr (by rfl)) _ _)

/-! ## The completion writer (chapter 8) and the end of an event -/

theorem closeIfDrainedSend (h : PortKept s u) (r : SendId) : PortKept s (closeIfDrainedSend r u) :=
  ite_keeps h (endCloseRing (h.congr (by rfl)) _)

theorem releaseEntry (h : PortKept s u) (e : CompletionEntry) : PortKept s (releaseEntry e u) := by
  unfold Machine.releaseEntry
  split
  · split
    · exact closeIfDrainedSend (roomNotice (h.congr (by simp [State.front, State.port, State.work]))) _
    · exact h
  · exact h
  · exact h

theorem completionWritten (h : PortKept s u) (w : CompletionWrite) : PortKept s (completionWritten w u) := by
  have cleared : PortKept s ((advanceCompletionTail u).updCw fun c => { c with inFlight := none }) :=
    h.extend rfl (fun _ => id) fun _ begun => { begun with completionWrite := .inl rfl }
  exact ((cleared.releaseEntry w.entry).updCompletion _).setCauseIf _ _

/-- A completion write begins in RUNNING alone (R147). -/
theorem completionDecision (h : PortKept s u) : PortKept s (completionDecision u) := by
  refine h.decided ?_ (by simp [State.port]) (by simp)
  by_cases hready : completionReady u = true
  · exact .inr ((completionReady_iff u).1 hready).1
  · exact .inl (completionDecision_of_nothing (.inr (Bool.eq_false_of_not_eq_true hready)))

/-- An admin fetch begins in RUNNING alone (R158). -/
theorem adminDecision (h : PortKept s u) : PortKept s (adminDecision u) := by
  refine h.decided ?_ (by simp [State.port]) (by simp)
  by_cases hmay : adminMayFetch u = true
  · exact .inr ((adminMayFetch_iff u).1 hmay).2.1
  · exact .inl (if_neg hmay)

theorem concludeWithoutOffer (h : PortKept s u) : PortKept s (concludeWithoutOffer u) :=
  h.completionDecision.adminDecision.arbitrate

theorem conclude (h : PortKept s u) : PortKept s (conclude u) := h.offerDecision.concludeWithoutOffer

theorem concludeAttempt (h : PortKept s u) (m : EndMoment) : PortKept s (concludeAttempt m u) := by
  cases m with
  | plain => exact h.conclude
  | beforeNext => exact h.concludeWithoutOffer

/-! ## The administrative commands (chapter 9) -/

theorem performCommand (h : PortKept s u) (c : AdminCommand) (quiet : Nat) : PortKept s (performCommand c quiet u) := by
  cases c with
  | nodeSet p =>
    simp only [Machine.performCommand, performNodeSet]
    split
    · have set : PortKept s ((setLimits p.txLimit.toNat p.rxLimit.toNat p.rxHold.toNat u).updAe fun a =>
          { a with nodeId := p.nodeId, rate := RateCode.ofByte p.rateCode,
                   defaultBudget := p.defaultBudget.extractLsb' 0 4, yieldValue := p.yieldValue.extractLsb' 0 4 }) :=
        h.congr (by rfl)
      exact endCommand (ite_keeps set set.roomNotice) _ _
    · exact h.endCommand _ _
  | lineMode code =>
    simp only [Machine.performCommand, performLineMode]
    split
    · have measured : PortKept s (if u.le.phase = .off then u else measureQuiet quiet u) :=
        ite_keeps (h.congr (by rfl)) h
      exact atBoundary ((measured.awaitEvent .modeReport).congr (by rfl))
    · exact h
  | openSend p =>
    simp only [Machine.performCommand, performOpenSend]
    split
    · exact endCommand (h.congr (by rfl)) _ _
    · exact h
  | openArrival p =>
    simp only [Machine.performCommand, performOpenArrival]
    split
    · exact endCommand (h.congr (by rfl)) _ _
    · exact h
  | closeRing ring =>
    simp only [Machine.performCommand, performCloseRing]
    split
    · exact closeIfDrainedSend (flushRing (awaitEvent (h.congr (by rfl)) _) _) _
    · exact closeIfDrainedArrival (discardPending (awaitEvent (h.congr (by rfl)) _) _) _
    · exact h
  | filterWrite index form =>
    simp only [Machine.performCommand, performFilterWrite]
    split
    · exact endCommand (h.congr (by rfl)) _ _
    · exact h
  | filterRead index => exact h.endCommand _ _
  | countsRead clear address =>
    have copied : PortKept s (u.updLe fun l => { l with snapshot := some l.counters }) := h.congr (by rfl)
    exact (copied.awaitEvent .countsWriteEnd).congr (by rfl)

theorem judgeCommand (h : PortKept s u) (c : AdminCommand) (reservedZero : Bool) (quiet : Nat) :
    PortKept s (judgeCommand c reservedZero quiet u) := by
  unfold Machine.judgeCommand
  split
  · exact h.endCommand _ _
  · split
    · exact h.endCommand _ _
    · exact h.performCommand c quiet

theorem takeAdminRecord (h : PortKept s u) (tag : Word) (reading : AdminReading) (quiet : Nat) :
    PortKept s (takeAdminRecord tag reading quiet u) := by
  have advanced : PortKept s (advanceAdminHead u) := h.congr (by rfl)
  simp only [Machine.takeAdminRecord]
  split
  · exact advanced.idleAdmin
  · cases reading with
    | unknown => exact (advanced.joinPending _).idleAdmin
    | command c reservedZero =>
      have begun : PortKept s ((advanceAdminHead u).updAe fun a =>
          { a with phase := .executing, current := some { tag := tag, index := u.rct.admin.head, command := c } }) :=
        advanced.updAe nofun
      exact begun.judgeCommand c reservedZero quiet

theorem takeAdminEnd (h : PortKept s u) (result : ReadEnd) (quiet : Nat) :
    PortKept s (takeAdminEnd result quiet u) := by
  cases result with
  | data r => exact KeptByEvents.whenFetching h fun _ => h.takeAdminRecord _ _ _
  | busError => exact KeptByEvents.whenFetching h fun _ => idleAdmin (h.congr (by rfl))

theorem takeCountsEnd (h : PortKept s u) (result : WriteEnd) : PortKept s (takeCountsEnd result u) := by
  unfold Machine.takeCountsEnd
  refine ite_keeps h ?_
  cases result with
  | written =>
    have cleared : PortKept s (if clearFlagSet u then clearCounters u else u) := ite_keeps h (h.congr (by rfl))
    exact endCommand (cleared.congr (by rfl)) _ _
  | busError => exact endCommand (h.congr (by rfl)) _ _

end PortKept

end Sys2Proof.Machine
end

section
/-! PROOFS. Every command and the host port (R179): a command keeps it, or resets it, or takes one of the steps of
R179's table, or writes one of its four registers. -/

namespace Sys2Proof.Machine

/-- The port enters an engine state. -/
def State.enterEngine (e : EngineState) (reason : HaltReason) (s : State) : State :=
  s.updHp fun h => { h with engine := e, haltReason := reason }

/-- What a command does to the host port. -/
inductive HostPortEvent (i : Instr) (s t : State) : Prop
  | kept (h : PortKept s t)
  | pinAsserted (hi : i = .resetPinAssert) (ht : t.hp = { Reset.hostPort with pinAsserted := true })
  | resetReached (he : s.hp.engine = .resetting) (ht : t = softResetState s)
  | softReset (v : Word) (hi : writesRegister i = some (.control, v)) (hv : softResetField v = true)
      (ht : t = beginSoftReset s)
  | loading (v : Word) (hi : writesRegister i = some (.control, v)) (hv : softResetField v = false)
      (he : s.hp.engine = .reset) (ht : t = startLoading s)
  | bootWritten (he : s.hp.engine = .reset) (v : Word)
      (hi : writesRegister i = some (.bootLo, v) ∨ writesRegister i = some (.bootHi, v)) (low : BitVec 26) (high : Word)
      (ht : t = s.updHp fun h => { h with bootLo := low, bootHi := high })
  | causeWritten (v : Word) (hi : writesRegister i = some (.cause, v)) (ht : t = writeCause v s)
  | maskWritten (v : Word) (hi : writesRegister i = some (.mask, v)) (ht : t = writeMask v s)
  | running (he : s.hp.engine = .loading) (ht : PortKept (s.enterEngine .running s.hp.haltReason) t)
  | bootFailed (he : s.hp.engine = .loading) (reason : HaltReason)
      (hreason : reason = .bootRead ∨ reason = .bootInvalid) (ht : PortKept (s.enterEngine .halted reason) t)
  | crFailed (he : s.hp.engine = .running) (ht : PortKept (s.enterEngine .halted .crWrite) t)

theorem judgeBoot_of_valid {r : Record} {b : BootBlock} (h : bootBlockOf r = some b) (s : State) :
    judgeBoot (.data r) s = enterRunning b s := by
  simp only [judgeBoot, h]

theorem judgeBoot_of_invalid {r : Record} (h : bootBlockOf r = none) (s : State) :
    judgeBoot (.data r) s = enterHalted .bootInvalid s := by
  simp only [judgeBoot, h]

/-- The entry into HALTED, after which the end of a transfer is over (R182, R189). -/
theorem PortKept.conclude_enterHalted (reason : HaltReason) (s : State) :
    PortKept (s.enterEngine .halted reason) (Machine.conclude (enterHalted reason (Machine.clearBus s))) := by
  have halted : PortKept (s.enterEngine .halted reason) ((Machine.clearBus s).enterEngine .halted reason) :=
    PortKept.clearBus (.refl _)
  exact conclude (atBoundary ((halted.setCause .halt).congr (by rfl)))

/-- The entry into RUNNING with a valid boot block (R181). -/
theorem PortKept.conclude_enterRunning (b : BootBlock) (s : State) :
    PortKept (s.enterEngine .running s.hp.haltReason) (Machine.conclude (enterRunning b (Machine.clearBus s))) := by
  refine conclude (arrivalDecision ?_)
  exact extend (.refl _) rfl (fun _ => id) nofun

namespace HostPortEvent

variable {i : Instr} {s t : State}

theorem refl (i : Instr) (s : State) : HostPortEvent i s s := .kept (.refl s)

/-- The reset pin's release and the other writes to one field. -/
theorem of_front (h : t.front = s.front) : HostPortEvent i s t := .kept ((PortKept.refl s).congr h)

/-! ## Register writes (chapter 10) -/

theorem writeControl {v : Word} (hi : writesRegister i = some (.control, v)) :
    HostPortEvent i s (writeControl v s) := by
  cases hv : softResetField v with
  | true => exact .softReset v hi hv (writeControl_of_softReset hv)
  | false =>
    by_cases he : enableField v = true ∧ s.hp.engine = .reset
    · exact .loading v hi hv he.2 (writeControl_of_enable hv he.1 he.2)
    · rw [writeControl_of_ignored hv (by simpa [Classical.or_iff_not_imp_left] using he)]
      exact refl i s

theorem writePost (i : Instr) (s : State) (v : Word) : HostPortEvent i s (writePost v s) := by
  have same := PortKept.refl s
  obtain heq | heq | ⟨n, heq⟩ := writePost_cases v s <;> rw [heq]
  · exact .kept (same.setCause _)
  · exact .kept (same.congr (by rfl)).conclude
  · exact .kept (same.congr (by rfl)).fetchDecision.conclude

theorem writeRelease (i : Instr) (s : State) (v : Word) : HostPortEvent i s (writeRelease v s) := by
  have same := PortKept.refl s
  obtain heq | heq | ⟨n, heq⟩ := writeRelease_cases v s <;> rw [heq]
  · exact .kept (same.setCause _)
  · exact .kept (same.updCompletion _).conclude
  · exact .kept (same.updArrival _ _).arrivalDecision.conclude

theorem windowWrite {r : Register} {v : Word} (hi : writesRegister i = some (r, v)) :
    HostPortEvent i s (windowWrite r v s) := by
  refine ite_keeps (refl i s) ?_
  cases r with
  | control => exact writeControl hi
  | status => exact refl i s
  | bootLo =>
    by_cases he : s.hp.engine = .reset
    · exact .bootWritten he v (.inl hi) _ _ (if_pos he)
    · exact (congrArg (HostPortEvent i s) (if_neg he)).mpr (refl i s)
  | bootHi =>
    by_cases he : s.hp.engine = .reset
    · exact .bootWritten he v (.inr hi) _ _ (if_pos he)
    · exact (congrArg (HostPortEvent i s) (if_neg he)).mpr (refl i s)
  | post => exact writePost i s v
  | release => exact writeRelease i s v
  | cause => exact .causeWritten v hi rfl
  | mask => exact .maskWritten v hi rfl

/-- A command that writes a register in full. -/
theorem of_writesRegister {r : Register} {v : Word} (hi : writesRegister i = some (r, v)) (ht : exec i s = .next t) :
    HostPortEvent i s t := by
  rw [exec_of_writesRegister hi] at ht
  cases ht
  exact windowWrite hi

/-! ## Ends of transfers (10.5) -/

/-- The end of a transfer that its owner takes to a state of this kind. -/
theorem transferEnd_of {o : BusOwner} {d : Direction} {take : State → State}
    (htaken : HostPortEvent i s (conclude (take (clearBus s)))) : HostPortEvent i s (transferEnd o d take s) := by
  by_cases hbus : onBusOf o d s = true
  · by_cases hr : s.hp.engine = .resetting
    · exact .resetReached hr (transferEnd_of_resetting hbus hr take)
    · rwa [transferEnd_of_onBus hbus hr]
  · rw [transferEnd, if_neg hbus]
    exact refl i s

/-- The end of a transfer whose owner's rule keeps the port. -/
theorem transferEnd (o : BusOwner) (d : Direction) {take : State → State}
    (htake : ∀ {u}, PortKept s u → PortKept s (take u)) : HostPortEvent i s (transferEnd o d take s) :=
  transferEnd_of (.kept (htake (PortKept.clearBus (.refl s))).conclude)

theorem takeBootEnd (i : Instr) (s : State) (result : ReadEnd) :
    HostPortEvent i s (conclude (takeBootEnd result (clearBus s))) := by
  by_cases he : s.hp.engine = .loading
  · rw [Machine.takeBootEnd, if_pos (show (clearBus s).hp.engine = .loading from he)]
    cases result with
    | busError => exact .bootFailed he _ (.inl rfl) (.conclude_enterHalted _ s)
    | data r =>
      cases hb : bootBlockOf r with
      | some b =>
        rw [judgeBoot_of_valid hb]
        exact .running he (.conclude_enterRunning b s)
      | none =>
        rw [judgeBoot_of_invalid hb]
        exact .bootFailed he _ (.inr rfl) (.conclude_enterHalted _ s)
  · rw [Machine.takeBootEnd, if_neg (show ¬ (clearBus s).hp.engine = .loading from he)]
    exact .kept (PortKept.clearBus (.refl s)).conclude

theorem takeCompletionEnd (i : Instr) (s : State) (result : WriteEnd) :
    HostPortEvent i s (conclude (takeCompletionEnd result (clearBus s))) := by
  have cleared := PortKept.clearBus (.refl s)
  unfold Machine.takeCompletionEnd
  split
  · exact .kept cleared.conclude
  · next w _ =>
    cases result with
    | written => exact .kept (cleared.completionWritten w).conclude
    | busError =>
      dsimp only
      split
      · next he => exact .crFailed he (.conclude_enterHalted _ s)
      · exact .kept cleared.conclude

theorem adminCommandEnd (i : Instr) (s : State) (tag : Word) (c : AdminCommand) (quiet : Nat) :
    HostPortEvent i s (adminCommandEnd tag c quiet s) :=
  transferEnd _ _ fun h => KeptByEvents.whenFetching h fun _ => h.takeAdminRecord _ _ _

end HostPortEvent

/-! ## Line events and timers -/

namespace PortKept

variable {s t : State}

theorem execAttemptStart {kind : SofKind} {quiet : Nat} (ht : execAttemptStart kind quiet s = .next t) :
    PortKept s t := by
  have same := refl s
  cases ht
  cases kind with
  | driven m => exact ite_keeps same (same.congr (by rfl))
  | edgeRead m => exact same.congr (by simp [State.front, State.port, State.work])

theorem execFrameStart {quiet : Nat} {pulse : PulseRead} (ht : execFrameStart quiet pulse s = .next t) :
    PortKept s t := by
  have same := refl s
  have restarts : PortKept s (restartQuiet s) := same.congr (by simp [State.front, State.port, State.work])
  cases ht
  cases classifyPulse s.ae.rate pulse.length with
  | sof => exact same.congr (by simp [State.front, State.port, State.work])
  | data1 | data0 | invalid | breakPulse => exact restarts
  | stuck => exact ite_keeps same restarts
  | glitch => exact same

theorem execArbitrationWon (ht : execArbitrationWon s = .next t) : PortKept s t := by
  have same := refl s
  cases ht
  split
  · exact ite_keeps same (same.congr (by rfl))
  · exact same

theorem execHeaderEnd {cells : CellsRead} (ht : execHeaderEnd cells s = .next t) : PortKept s t := by
  have same := refl s
  cases ht
  split
  · dsimp only
    split
    · split
      · exact same.reachHeaderEnd _ _ _
      · exact same
    · exact same
  · exact same

theorem execCheckEnd {payload check : CellsRead} (ht : execCheckEnd payload check s = .next t) : PortKept s t := by
  have same := refl s
  cases ht
  split
  · exact ite_keeps same (same.reachCheckEnd _ _ _).conclude
  · exact same

theorem execEodEnd (ht : execEodEnd s = .next t) : PortKept s t := by
  have same := refl s
  cases ht
  split
  · exact ite_keeps same (same.congr (by rfl))
  · exact same

theorem execSlotEnd {slot : Slot} {cells : CellsRead} (ht : execSlotEnd slot cells s = .next t) : PortKept s t := by
  have same := refl s
  cases ht
  split
  · dsimp only
    split
    · exact same.congr (by simp [State.front, State.port, State.work])
    · exact ite_keeps same (same.congr (by simp [State.front, State.port, State.work]))
  · exact same

theorem execFrameEnd {tail : TailRead} (ht : execFrameEnd tail s = .next t) : PortKept s t := by
  have same := refl s
  cases ht
  split
  · exact ite_keeps same (atBoundary (same.congr (by rfl))).conclude
  · exact same

theorem execFrameAbandoned {cells : CellsRead} {quiet : Nat} (ht : execFrameAbandoned cells quiet s = .next t) :
    PortKept s t := by
  have same := refl s
  cases ht
  split
  · exact ite_keeps same (atBoundary (same.abandonReception.congr (by rfl))).conclude
  · exact same

/-- A running tick counts; a stopped one stands, in HALTED as everywhere (R57). -/
theorem execTick (ht : execTick s = .next t) : PortKept s t := by
  cases ht
  split
  · next hrun =>
    refine extend (.refl s) rfl (fun _ => id) fun _ begun => { begun with tick := fun hstopped => ?_ }
    rw [hrun] at hstopped
    cases hstopped
  · exact .refl s

theorem expireDeadline (s : State) (id : CellId) : PortKept s (expireDeadline id s) := by
  unfold Machine.expireDeadline
  split
  · exact ite_keeps (.refl s) ((PortKept.refl s).expireCell _ _).conclude
  · exact .refl s

theorem expireCompletionTimer (h : PortKept s t) : PortKept s (expireCompletionTimer t) :=
  (h.updCompletion _).setCauseIf _ _

end PortKept

/-! ## One command -/

/-- Every command is one of the host port's events (R179). -/
theorem exec_hostPort {i : Instr} {s t : State} (ht : exec i s = .next t) : HostPortEvent i s t := by
  have same := PortKept.refl s
  cases i with
  | resetPinAssert => cases ht; exact .pinAsserted rfl rfl
  | resetPinRelease => cases ht; exact .of_front rfl
  | softResetComplete =>
    cases ht
    split
    · next he => exact .resetReached he rfl
    · exact .refl _ s
  | softReset value | enable value | bootLoWrite value | bootHiWrite value | post value | release value
  | causeWrite value | maskWrite value => exact .of_writesRegister rfl ht
  | registerWrite r width value =>
    by_cases hw : width = .word
    · subst hw
      exact .of_writesRegister rfl ht
    · cases ht
      rw [if_neg hw]
      exact .refl _ s
  | bootReadEnd result => cases ht; exact .transferEnd_of (.takeBootEnd _ s result)
  | fetchEnd result => cases ht; exact .transferEnd _ _ fun h => h.takeFetchEnd result
  | adminFetchEnd result quiet => cases ht; exact .transferEnd _ _ fun h => h.takeAdminEnd result quiet
  | nodeSet tag _ | lineMode tag _ _ | openSend tag _ | openArrival tag _ | closeRing tag _ | filterWrite tag _ _
  | filterRead tag _ | countsRead tag _ _ => cases ht; exact .adminCommandEnd _ s tag _ _
  | countsWriteEnd result => cases ht; exact .transferEnd _ _ fun h => h.takeCountsEnd result
  | arrivalWriteEnd result => cases ht; exact .transferEnd _ _ fun h => h.takeArrivalEnd result
  | completionWriteEnd result => cases ht; exact .transferEnd_of (.takeCompletionEnd _ s result)
  | tick => exact .kept (.execTick ht)
  | deadlineExpiry id => cases ht; exact .kept (.expireDeadline s id)
  | arrivalTimerExpiry r => cases ht; exact .kept (ite_keeps same (same.notifyArrival r))
  | crTimerExpiry => cases ht; exact .kept (ite_keeps same same.expireCompletionTimer)
  | joinComplete quiet => cases ht; exact .kept (ite_keeps same (PortKept.joinIfQuiet (same.congr (by rfl))).conclude)
  | attemptStart kind quiet => exact .kept (.execAttemptStart ht)
  | frameStart quiet pulse => exact .kept (.execFrameStart ht)
  | arbitrationWon => exact .kept (.execArbitrationWon ht)
  | attemptEnd before last ending =>
    cases ht; exact .kept (ite_keeps same ((same.attemptEndAt _ _).concludeAttempt _))
  | headerEnd cells => exact .kept (.execHeaderEnd ht)
  | checkEnd payload check => exact .kept (.execCheckEnd ht)
  | slotEnd slot cells => exact .kept (.execSlotEnd ht)
  | frameEnd tail => exact .kept (.execFrameEnd ht)
  | frameAbandoned cells quiet => exact .kept (.execFrameAbandoned ht)
  | stuckLine dominant => cases ht; exact .kept (ite_keeps same same.enterFault.conclude)
  | faultExit quiet => cases ht; exact .kept (ite_keeps same (PortKept.setCause (same.congr (by rfl)) .line).conclude)
  | recoveryEnd quiet => cases ht; exact .kept (ite_keeps same (same.congr (by rfl)).conclude)
  | eodEnd => exact .kept (.execEodEnd ht)

end Sys2Proof.Machine
end

section
/-! PROOFS. The engine state, the causes, the boot address, MASK and the interrupt line (R178, R179, R185, R186), each
read off what a command does to the host port. -/

namespace Sys2Proof.Machine

section
variable {i : Instr} {r : Register} {v : Word}

/-- Of the full writes, a CONTROL write with SOFT_RESET 1 alone starts a reset (R177). -/
theorem startsReset_of_writesRegister (h : writesRegister i = some (r, v)) :
    startsReset i = (r == .control && softResetField v) := by
  unfold writesRegister at h
  split at h
  case h_9 => cases h; cases r <;> rfl
  all_goals cases h <;> rfl

/-- Of the full writes, those to CAUSE write CAUSE. -/
theorem writesCause_of_writesRegister (h : writesRegister i = some (r, v)) : writesCause i = (r == .cause) := by
  unfold writesRegister at h
  split at h
  case h_9 => cases h; cases r <;> rfl
  all_goals cases h <;> rfl

/-- A full write to MASK is MASK's row or a 32-bit write to it. -/
theorem maskWrite_of_writesRegister (h : writesRegister i = some (.mask, v)) :
    i = .maskWrite v ∨ i = .registerWrite .mask .word v := by
  unfold writesRegister at h
  split at h <;> cases h
  · exact .inl rfl
  · exact .inr rfl

end

/-- A soft reset leaves a RESETTING or a RESET engine with no halt reason (R190). -/
theorem beginSoftReset_engine (s : State) :
    ((beginSoftReset s).hp.engine = .resetting ∨ (beginSoftReset s).hp.engine = .reset)
      ∧ (beginSoftReset s).hp.haltReason = .noReason := by
  by_cases hbus : s.hp.onBus = none
  · rw [beginSoftReset_of_free hbus]
    exact ⟨.inr rfl, rfl⟩
  · rw [beginSoftReset_of_busy hbus]
    exact ⟨.inl rfl, rfl⟩

/-- A soft reset keeps the boot address (R178), and MASK until RESET is reached, which clears it (R186). -/
theorem beginSoftReset_registers (s : State) :
    (beginSoftReset s).hp.bootLo = s.hp.bootLo ∧ (beginSoftReset s).hp.bootHi = s.hp.bootHi
      ∧ ((beginSoftReset s).hp.mask = s.hp.mask ∨ (beginSoftReset s).hp.mask = 0) := by
  by_cases hbus : s.hp.onBus = none
  · rw [beginSoftReset_of_free hbus]
    exact ⟨rfl, rfl, .inr rfl⟩
  · rw [beginSoftReset_of_busy hbus]
    exact ⟨rfl, rfl, .inl rfl⟩

/-! ## The interrupt line (R186) -/

theorem irq_iff (s : State) :
    s.irq = true ↔
      s.hp.pinAsserted = false ∧ ∃ i < 9, s.hp.cause.getLsbD i = true ∧ s.hp.mask.getLsbD i = true := by
  have bits : (s.hp.cause &&& s.hp.mask) ≠ 0
      ↔ ∃ i < 9, s.hp.cause.getLsbD i = true ∧ s.hp.mask.getLsbD i = true := by
    rw [ne_eq, ← not_iff_not]
    push Not
    rw [BitVec.eq_of_getLsbD_eq_iff]
    simp
  rw [State.irq, Bool.and_eq_true, bne_iff_ne, bits, Bool.not_eq_true']

theorem irq_of_mask_eq_zero {s : State} (h : s.hp.mask = 0) : s.irq = false := by simp [State.irq, h]

/-! ## The boot address (R178) -/

/-- The boot address is BOOT_HI before BOOT_LO, whose six least significant bits read as 0 (R178). -/
theorem bootAddress_eq (s : State) : s.bootAddress = s.readRegister .bootHi ++ s.readRegister .bootLo :=
  BitVec.append_assoc

theorem bootAddress_mod (s : State) : s.bootAddress.toNat % 64 = 0 := by
  rw [State.bootAddress, BitVec.toNat_append]
  simp [Nat.shiftLeft_eq]

/-- BOOT_LO and BOOT_HI ignore a write outside RESET (R178). -/
theorem windowWrite_boot_of_not_reset {s : State} {r : Register} (hr : r = .bootLo ∨ r = .bootHi)
    (he : s.hp.engine ≠ .reset) (v : Word) : windowWrite r v s = s := by
  refine (congrArg (fun t => if windowOpen s then t else s) ?_).trans (ite_self s)
  obtain rfl | rfl := hr
  · exact if_neg he
  · exact if_neg he

/-- An ENABLE that reaches LOADING has begun the boot block read (R180). -/
theorem loading_of_enable {v : Word} {s t : State} (ht : exec (.enable v) s = .next t) (he : s.hp.engine = .reset)
    (hloading : t.hp.engine = .loading) : t = startLoading s := by
  cases exec_hostPort ht with
  | loading _ _ _ _ ht => exact ht
  | softReset _ _ _ ht =>
    subst ht
    obtain ⟨hresetting | hreset, -⟩ := beginSoftReset_engine s
    · rw [hloading] at hresetting
      cases hresetting
    · rw [hloading] at hreset
      cases hreset
  | kept hkept =>
    have hsame := hkept.engine
    rw [hloading, he] at hsame
    cases hsame
  | pinAsserted hi => cases hi
  | resetReached hr => rw [he] at hr; cases hr
  | bootWritten _ _ hi => obtain hi | hi := hi <;> cases hi
  | causeWritten _ hi => cases hi
  | maskWritten _ hi => cases hi
  | running hl => rw [he] at hl; cases hl
  | bootFailed hl => rw [he] at hl; cases hl
  | crFailed hr => rw [he] at hr; cases hr

end Sys2Proof.Machine

namespace Sys2Proof.Proofs

open Sys2Proof.Machine

/-- Settles O54: each of a command's host port events is a row of R179, and of those a HALTED engine meets, the ones
that reset nothing begin nothing. -/
theorem engineStates : Obligations.EngineStates := by
  refine ⟨fun c s t ht => ?_, fun c s t ht he hno => ?_⟩
  · cases exec_hostPort ht with
    | kept h => exact .inl ⟨h.engine, h.haltReason⟩
    | bootWritten _ _ _ _ _ ht | causeWritten _ _ ht | maskWritten _ _ ht => subst ht; exact .inl ⟨rfl, rfl⟩
    | loading _ _ _ he ht => subst ht; exact .inr (.inl ⟨he, rfl, rfl⟩)
    | running he h => exact .inr (.inr (.inl ⟨he, h.engine, h.haltReason⟩))
    | bootFailed he reason hreason h =>
      refine .inr (.inr (.inr (.inl ⟨he, h.engine, ?_⟩)))
      rwa [h.haltReason]
    | crFailed he h => exact .inr (.inr (.inr (.inr (.inl ⟨he, h.engine, h.haltReason⟩))))
    | pinAsserted hi hport =>
      subst hi
      exact .inr (.inr (.inr (.inr (.inr (.inl ⟨rfl, .inr (by rw [hport]; rfl), by rw [hport]; rfl⟩)))))
    | softReset v hi hv ht =>
      subst ht
      obtain ⟨hengine, hreason⟩ := beginSoftReset_engine s
      have hstarts : startsReset c = true := by rw [startsReset_of_writesRegister hi, hv]; rfl
      exact .inr (.inr (.inr (.inr (.inr (.inl ⟨hstarts, hengine, hreason⟩)))))
    | resetReached he ht => subst ht; exact .inr (.inr (.inr (.inr (.inr (.inr ⟨he, rfl, rfl⟩)))))
  · suffices hbegun : t.hp.engine = s.hp.engine ∧ t.hp.haltReason = s.hp.haltReason ∧ BegunNothing s t by
      obtain ⟨hengine, hreason, ⟨bus, fe, ae, aw, cw, tick⟩⟩ := hbegun
      exact ⟨hengine.trans he, hreason, bus, fe, ae, aw, cw, tick⟩
    cases exec_hostPort ht with
    | kept h => exact ⟨h.engine, h.haltReason, h.halted he⟩
    | causeWritten _ _ ht | maskWritten _ _ ht => subst ht; exact ⟨rfl, rfl, (BegunNothing.refl s).congr rfl⟩
    | pinAsserted hi => subst hi; cases hno
    | softReset v hi hv =>
      rw [startsReset_of_writesRegister hi, hv] at hno
      cases hno
    | resetReached hr | loading _ _ _ hr | bootWritten hr | running hr | bootFailed hr | crFailed hr =>
      rw [he] at hr
      cases hr

/-- Settles O9: the operations of an event set causes and clear none. -/
theorem causes : Obligations.Causes := by
  refine ⟨fun v s hpin hr => ⟨s.hp.cause &&& ~~~(causeField v), exec_of_open (r := .cause) rfl hpin hr, fun i hi => ?_⟩,
    fun c s t i ht hcause hreset hr hi => ?_⟩
  · simp [causeField, hi]
  · cases exec_hostPort ht with
    | kept h => exact h.cause i hi
    | running _ h | bootFailed _ _ _ h | crFailed _ h => exact h.cause i hi
    | loading _ _ _ _ ht | bootWritten _ _ _ _ _ ht | maskWritten _ _ ht => subst ht; exact hi
    | causeWritten v hv =>
      rw [writesCause_of_writesRegister hv] at hcause
      cases hcause
    | pinAsserted hpin => subst hpin; cases hreset
    | softReset v hv hsoft =>
      rw [startsReset_of_writesRegister hv, hsoft] at hreset
      cases hreset
    | resetReached he => exact absurd he hr

/-- Settles O6: BOOT_LO and BOOT_HI change by their own rows in RESET and by the reset pin. -/
theorem bootAddressRegisters : Obligations.BootAddressRegisters := by
  refine ⟨fun v s hpin he => ?written, fun v s he => ?ignored,
    fun s => ⟨rfl, rfl, bootAddress_eq s, bootAddress_mod s⟩, fun v s t he ht hloading => ?read,
    fun s t ht => ?pin, fun c s t ht hkeep hpin => ?kept⟩
  case written =>
    have hr : s.hp.engine ≠ .resetting := by rw [he]; nofun
    rw [exec_of_open (r := .bootLo) rfl hpin hr, exec_of_open (r := .bootHi) rfl hpin hr]
    exact ⟨congrArg Host.Outcome.next (if_pos he), congrArg Host.Outcome.next (if_pos he)⟩
  case ignored =>
    rw [exec_of_writesRegister (r := .bootLo) rfl, exec_of_writesRegister (r := .bootHi) rfl,
      windowWrite_boot_of_not_reset (.inl rfl) he, windowWrite_boot_of_not_reset (.inr rfl) he]
    exact ⟨rfl, rfl⟩
  case read =>
    rw [loading_of_enable ht he hloading]
    rfl
  case pin => cases ht; exact ⟨rfl, rfl⟩
  case kept =>
    cases exec_hostPort ht with
    | kept h => exact ⟨h.bootLo, h.bootHi⟩
    | running _ h | bootFailed _ _ _ h | crFailed _ h => exact ⟨h.bootLo, h.bootHi⟩
    | resetReached _ ht | loading _ _ _ _ ht | causeWritten _ _ ht | maskWritten _ _ ht => subst ht; exact ⟨rfl, rfl⟩
    | softReset _ _ _ ht =>
      subst ht
      obtain ⟨hlo, hhi, -⟩ := beginSoftReset_registers s
      exact ⟨hlo, hhi⟩
    | pinAsserted hi => exact absurd hi hpin
    | bootWritten he v hi =>
      have hno : startsReset c = false := by
        obtain hi | hi := hi <;> exact startsReset_of_writesRegister hi
      obtain hne | hstarts := hkeep
      · exact absurd he hne
      · rw [hno] at hstarts
        cases hstarts

/-- Settles O10: the line is read off CAUSE, MASK and the pin; MASK changes by its row and by the resets. -/
theorem maskAndInterruptLine : Obligations.MaskAndInterruptLine := by
  refine ⟨fun v s hpin hr => ⟨causeField v, exec_of_open (r := .mask) rfl hpin hr, fun i hi => ?write⟩,
    fun s i => ?read, irq_iff, fun s t ht => ?reset, fun s hmask => ?silent, fun c s t ht hno => ?kept,
    fun c s t _ hcause hmask hpin => ?same⟩
  case write => simp [causeField, hi]
  case read =>
    change (s.hp.mask.setWidth 32).getLsbD i = _
    rw [BitVec.getLsbD_setWidth]
    by_cases hi : i < 32
    · simp [hi]
    · simp [hi, BitVec.getLsbD_of_ge s.hp.mask i (by omega)]
  case reset =>
    obtain ht | ⟨he, ht⟩ := ht
    · cases ht
      exact ⟨rfl, rfl, rfl⟩
    · cases ht
      rw [if_pos he]
      exact ⟨rfl, rfl, irq_of_mask_eq_zero rfl⟩
  case silent => exact irq_of_mask_eq_zero hmask
  case kept =>
    cases exec_hostPort ht with
    | kept h => exact .inl h.mask
    | running _ h | bootFailed _ _ _ h | crFailed _ h => exact .inl h.mask
    | loading _ _ _ _ ht | bootWritten _ _ _ _ _ ht | causeWritten _ _ ht => subst ht; exact .inl rfl
    | resetReached _ ht => subst ht; exact .inr rfl
    | pinAsserted _ ht => exact .inr (by rw [ht]; rfl)
    | softReset _ _ _ ht =>
      subst ht
      obtain ⟨-, -, hmask⟩ := beginSoftReset_registers s
      exact hmask
    | maskWritten v hi =>
      obtain ⟨hrow, hwindow⟩ := hno v
      obtain hi | hi := maskWrite_of_writesRegister hi
      · exact absurd hi hrow
      · exact absurd hi hwindow
  case same => rw [State.irq, State.irq, hcause, hmask, hpin]

end Sys2Proof.Proofs
end

section
/-! PROOFS. What a read of each register returns (R175 to R178, R185, R186, 11.9): the fields of STATUS and CONTROL as
slices of the words they are put together in. -/

namespace Sys2Proof.Machine

/-- A use count of the pool fits its five bits of STATUS (11.9). -/
theorem toNat_ofNat_count {n : Nat} (h : n ≤ 28) : (BitVec.ofNat 5 n).toNat = n := by
  rw [BitVec.toNat_ofNat]
  exact Nat.mod_eq_of_lt (by omega)

/-- The fields of STATUS, from bit 31 down, between its reserved bits (11.9). -/
theorem statusWord_fields (s : State) :
    s.statusWord.extractLsb' 29 3 = Config.revision ∧ s.statusWord.extractLsb' 24 5 = BitVec.ofNat 5 s.cp.rxInUse
      ∧ s.statusWord.extractLsb' 16 5 = BitVec.ofNat 5 s.cp.txInUse
      ∧ s.statusWord.extractLsb' 13 1 = BitVec.ofBool s.le.fault
      ∧ s.statusWord.extractLsb' 12 1 = BitVec.ofBool s.le.muted
      ∧ s.statusWord.extractLsb' 8 4 = s.le.phase.code ∧ s.statusWord.extractLsb' 6 2 = s.le.mode.code
      ∧ s.statusWord.extractLsb' 4 2 = s.hp.haltReason.code ∧ s.statusWord.extractLsb' 0 3 = s.hp.engine.code := by
  unfold State.statusWord
  simp (disch := decide) [BitVec.extractLsb'_append_eq_of_le, BitVec.extractLsb'_append_eq_of_add_le, -Nat.reduceAdd]

/-- The reserved bits of STATUS are 0 (11.9). -/
theorem statusWord_reserved (s : State) :
    s.statusWord.extractLsb' 21 3 = 0 ∧ s.statusWord.extractLsb' 14 2 = 0 ∧ s.statusWord.extractLsb' 3 1 = 0 := by
  unfold State.statusWord
  simp (disch := decide) [BitVec.extractLsb'_append_eq_of_le, BitVec.extractLsb'_append_eq_of_add_le, -Nat.reduceAdd]

/-- One bit of a word is the slice of width 1 there. -/
theorem getLsbD_of_extract {w i : Nat} {x : BitVec w} {b : Bool} (h : x.extractLsb' i 1 = BitVec.ofBool b) :
    x.getLsbD i = b := by
  have := congrArg (·.getLsbD 0) h
  simpa using this

/-- Where a slice of a word is 0, so are its bits. -/
theorem getLsbD_of_extract_eq_zero {w start len i : Nat} {x : BitVec w} (h : x.extractLsb' start len = 0)
    (hstart : start ≤ i) (hi : i < start + len) : x.getLsbD i = false := by
  have hbit := congrArg (·.getLsbD (i - start)) h
  simpa [show i - start < len by omega, Nat.add_sub_of_le hstart] using hbit

/-- The bits of the mask over the reserved bits of STATUS (11.9). -/
theorem reserved_bit :
    ∀ i < 32, (0x00E0C008#32).getLsbD i = true → (21 ≤ i ∧ i < 24) ∨ (14 ≤ i ∧ i < 16) ∨ i = 3 := by
  decide

/-- The mask of the reserved bits of STATUS reads 0 (11.9). -/
theorem statusWord_and_reserved (s : State) : s.statusWord &&& 0x00E0C008#32 = 0 := by
  obtain ⟨upper, middle, lower⟩ := statusWord_reserved s
  refine BitVec.eq_of_getLsbD_eq fun i hi => ?_
  rw [BitVec.getLsbD_and, show (0 : Word).getLsbD i = false from BitVec.getLsbD_zero, Bool.and_eq_false_iff,
    Classical.or_iff_not_imp_right, Bool.not_eq_false]
  intro hmask
  obtain ⟨hlo, hhi⟩ | ⟨hlo, hhi⟩ | rfl := reserved_bit i hi hmask
  · exact getLsbD_of_extract_eq_zero upper hlo hhi
  · exact getLsbD_of_extract_eq_zero middle hlo hhi
  · exact getLsbD_of_extract_eq_zero lower (by decide) (by decide)

/-- CONTROL: ENABLE at bit 0, SOFT_RESET at bit 1, the others reserved (R177). -/
theorem controlWord_fields (s : State) :
    s.controlWord.extractLsb' 2 30 = 0
      ∧ s.controlWord.extractLsb' 1 1 = BitVec.ofBool (s.hp.engine == .resetting)
      ∧ s.controlWord.extractLsb' 0 1 = BitVec.ofBool s.hp.enabled := by
  unfold State.controlWord
  simp (disch := decide) [BitVec.extractLsb'_append_eq_of_le, BitVec.extractLsb'_append_eq_of_add_le, -Nat.reduceAdd]

/-- A value in the low bits of a register, with zeros above it. -/
theorem setWidth_fields {n k : Nat} (x : BitVec n) :
    (x.setWidth (n + k)).extractLsb' 0 n = x ∧ (x.setWidth (n + k)).extractLsb' n k = 0 := by
  constructor
  all_goals
    refine BitVec.eq_of_getLsbD_eq fun i hi => ?_
    simp only [BitVec.getLsbD_extractLsb', BitVec.getLsbD_setWidth, Nat.zero_add, hi, decide_true, Bool.true_and]
  · simp [show i < n + k by omega]
  · simp

/-- A cause reads at its own bit (R185). -/
theorem causeWord_getLsbD (s : State) (c : Cause) : (s.hp.cause.setWidth 32).getLsbD c.bit = s.causeSet c := by
  have hbit : c.bit < 32 := by cases c <;> simp only [Cause.bit] <;> omega
  rw [BitVec.getLsbD_setWidth, decide_eq_true hbit, Bool.true_and, State.causeSet]

end Sys2Proof.Machine

namespace Sys2Proof.Proofs

open Sys2Proof.Machine

/-- Settles O12: each field is its slice of the word the register reads. -/
theorem registerReads : Obligations.RegisterReads := by
  intro s htx hrx
  obtain ⟨revision, rx, tx, fault, muted, phase, mode, reason, engine⟩ := statusWord_fields s
  obtain ⟨reserved, softReset, enable⟩ := controlWord_fields s
  obtain ⟨cause, aboveCause⟩ := setWidth_fields (k := 23) s.hp.cause
  obtain ⟨mask, aboveMask⟩ := setWidth_fields (k := 23) s.hp.mask
  refine ⟨⟨revision, ?_, ?_, getLsbD_of_extract fault, getLsbD_of_extract muted, phase, mode, reason, engine,
      statusWord_and_reserved s⟩, ⟨rfl, rfl, rfl, rfl⟩, ⟨getLsbD_of_extract enable, ?_, reserved⟩, ⟨?_, ?_, rfl⟩,
    ⟨rfl, rfl⟩, ⟨cause, aboveCause, mask, aboveMask, causeWord_getLsbD s⟩,
    fun _ _ => setWidth_fields (k := 24) _, fun _ _ => setWidth_fields (k := 16) _, fun _ _ => rfl⟩
  · exact (congrArg BitVec.toNat rx).trans (toNat_ofNat_count hrx)
  · exact (congrArg BitVec.toNat tx).trans (toNat_ofNat_count htx)
  · exact iff_of_eq (congrArg (· = true) (getLsbD_of_extract softReset)) |>.trans beq_iff_eq
  · exact BitVec.extractLsb'_append_eq_left
  · exact BitVec.extractLsb'_append_eq_right

end Sys2Proof.Proofs
end

section
/-! PROOFS. The blocks before the boot (10.2, R180, R181, R182): with every block but the host port at its reset values
no command but a register write, a reset and the end of the boot block read does anything, and that end starts RUNNING
or HALTED. -/

namespace Sys2Proof.Machine

/-- Every block but the host port stands at its reset values, and no request waits (10.2). -/
structure AtReset (s : State) : Prop where
  rct : s.rct = Reset.ringTable
  fe : s.fe = Reset.fetchEngine
  cp : s.cp = Reset.cellPool
  sch : s.sch = Reset.scheduler
  le : s.le = Reset.lineEngine
  aw : s.aw = Reset.arrivalWriter
  cw : s.cw = Reset.completionWriter
  ae : s.ae = Reset.adminEngine
  au : s.au = Reset.acceptanceUnit
  waiting : s.hp.waiting = Reset.hostPort.waiting
  haltReason : s.hp.haltReason = .noReason

/-- Before the boot every block is at its reset values. -/
theorem UnbootedSound.atReset {s : State} (h : UnbootedSound s) (he : s.hp.engine = .reset ∨ s.hp.engine = .loading) :
    AtReset s := by
  obtain ⟨rct, fe, cp, sch, le, aw, cw, ae, au, waiting, reason⟩ := h.1 he
  exact ⟨rct, fe, cp, sch, le, aw, cw, ae, au, waiting, reason⟩

/-! ## Decisions with nothing to decide -/

theorem arbitrate_of_no_request {s : State} (h : s.hp.waiting = Reset.hostPort.waiting) : arbitrate s = s := by
  refine arbitrate_of_no_grant ((nextGrant_eq_none_iff _).2 fun q => (passable_eq_none_iff _ _).2 fun t ht => ?_)
  rw [h] at ht
  cases q <;> cases ht

/-- An event after which no line may start, no record waits for CR, AR is empty and no request waits, ends there. -/
theorem conclude_of_nothing {s : State} (hline : s.le.phase ≠ .idle) (hcw : s.cw.pending = [])
    (har : ringDistance s.rct.admin.tail s.rct.admin.head s.rct.admin.size = 0)
    (hwait : s.hp.waiting = Reset.hostPort.waiting) : conclude s = s := by
  have hoffer : offerDecision s = s := if_neg fun ⟨_, _, hready⟩ => hline ((lineReady_iff s).1 hready).1
  have hadmin : adminDecision s = s := if_neg fun hmay => by
    obtain ⟨-, -, -, -, hbehind, -⟩ := (adminMayFetch_iff s).1 hmay
    exact hbehind har
  rw [conclude, concludeWithoutOffer, hoffer, completionDecision_of_nothing (.inl hcw), hadmin,
    arbitrate_of_no_request hwait]

theorem AtReset.conclude {s : State} (h : AtReset s) : conclude s = s :=
  conclude_of_nothing (by rw [h.le]; nofun) (by rw [h.cw]; rfl) (by rw [h.rct]; rfl) h.waiting

/-! ## The boot block (R180, 11.7) -/

/-- The five checks of R180. -/
theorem bootBlockOf_isSome_iff (r : Record) :
    (bootBlockOf r).isSome = true ↔
      word r 0 = 0x534C3442#32 ∧ (∃ k, 3 ≤ k ∧ k ≤ 10 ∧ (half r 16).toNat = 2 ^ k)
        ∧ (∃ k, 3 ≤ k ∧ k ≤ 10 ∧ (half r 32).toNat = 2 ^ k) ∧ (addr r 8).toNat % 64 = 0
        ∧ (addr r 24).toNat % 32 = 0 ∧ 1 ≤ (byteAt r 34).toNat ∧ (byteAt r 34).toNat ≤ 64 := by
  rw [← sizeValid_iff, ← sizeValid_iff, ← alignedTo64_iff, ← alignedTo32_iff]
  unfold bootBlockOf
  rw [Option.isSome_ite]
  rfl

theorem bootBlockOf_eq {r : Record} {b : BootBlock} (h : bootBlockOf r = some b) :
    b = { arBase := addr r 8, arSize := (half r 16).toNat, crBase := addr r 24, crSize := (half r 32).toNat,
          crCount := (byteAt r 34).toNat, crDelay := byteAt r 35 } := by
  obtain ⟨-, hb⟩ := Option.ite_none_right_eq_some.1 h
  exact (Option.some.inj hb).symm

/-! ## The end of the boot block read (R180 to R182) -/

/-- The boot block read, on the bus of a LOADING engine, ends with its judgement (R180). -/
theorem exec_bootReadEnd {s : State} (he : s.hp.engine = .loading) (hbus : onBusOf .boot .read s = true)
    (result : ReadEnd) : exec (.bootReadEnd result) s = .next (conclude (judgeBoot result (clearBus s))) := by
  have hend := transferEnd_of_onBus hbus (by rw [he]; nofun) (takeBootEnd result)
  rw [takeBootEnd, if_pos (show (clearBus s).hp.engine = .loading from he)] at hend
  exact congrArg Host.Outcome.next hend

/-- The state that a valid boot block gives (R181): AR and CR opened from it, the tick at 0. -/
def runningWith (b : BootBlock) (s : State) : State :=
  { s with
    hp := { s.hp with engine := .running },
    rct := { s.rct with
      admin := { s.rct.admin with state := .opened, base := b.arBase, size := b.arSize },
      completion := { s.rct.completion with
        state := .opened, base := b.crBase, size := b.crSize, count := b.crCount, delay := b.crDelay } },
    sch := { s.sch with tick := 0, tickRunning := true } }

/-- The state that a failed boot read gives (R182). -/
def haltedBy (reason : HaltReason) (s : State) : State :=
  { s with hp := { s.hp with engine := .halted, haltReason := reason, cause := s.hp.cause ||| 0x100#9 } }

namespace AtReset

variable {s : State}

theorem clearBus (h : AtReset s) : AtReset (clearBus s) :=
  ⟨h.rct, h.fe, h.cp, h.sch, h.le, h.aw, h.cw, h.ae, h.au, h.waiting, h.haltReason⟩

/-- The indices that R181 puts at 0 stand there from the reset on. -/
theorem enterRunning_eq (h : AtReset s) (b : BootBlock) : enterRunning b s = arrivalDecision (runningWith b s) := by
  obtain ⟨hp, rct, fe, cp, sch, le, au, aw, cw, ae, pending⟩ := s
  obtain ⟨hrct, -, -, -, -, -, -, -, -, -, -⟩ := h
  subst hrct
  rfl

theorem arrivalReady_eq_false (h : s.aw = Reset.arrivalWriter) (r : ArrivalId) : arrivalReady s r = false := by
  have hlist : s.arrivalPending r = [] := by simp [State.arrivalPending, h, Reset.arrivalWriter]
  simp [arrivalReady, hlist]

/-- RUNNING begins with nothing to decide (R181). -/
theorem conclude_enterRunning (h : AtReset s) (b : BootBlock) :
    Machine.conclude (enterRunning b s) = runningWith b s := by
  rw [h.enterRunning_eq b,
    arrivalDecision_of_nothing (s := runningWith b s) (.inr (.inr (arrivalReady_eq_false h.aw)))]
  refine conclude_of_nothing ?_ ?_ ?_ h.waiting
  · change s.le.phase ≠ .idle
    rw [h.le]
    nofun
  · change s.cw.pending = []
    rw [h.cw]
    rfl
  · change ringDistance s.rct.admin.tail s.rct.admin.head b.arSize = 0
    rw [h.rct]
    simp [ringDistance, Reset.ringTable, Reset.adminRing]

/-- HALTED begins with the tick stopped and the line OFF already, and nothing to decide (R182). -/
theorem conclude_enterHalted (h : AtReset s) (reason : HaltReason) :
    Machine.conclude (enterHalted reason s) = haltedBy reason s := by
  have halted : enterHalted reason s = haltedBy reason s := by
    rw [enterHalted_eq]
    obtain ⟨hp, rct, fe, cp, sch, le, au, aw, cw, ae, pending⟩ := s
    obtain ⟨-, -, -, hsch, hle, -, -, -, -, -, -⟩ := h
    subst hsch hle
    rfl
  rw [halted, conclude_of_not_running (s := haltedBy reason s) nofun,
    arbitrate_of_no_request (s := haltedBy reason s) h.waiting]

end AtReset

end Sys2Proof.Machine

namespace Sys2Proof.Proofs

open Sys2Proof.Machine

/-- Settles O13: the judgement of the block read, and decisions with nothing to decide. -/
theorem bootReadEnds : Obligations.BootReadEnds := by
  refine ⟨bootBlockOf_isSome_iff, fun r b => bootBlockOf_eq, fun r b s hs he hb => ?valid,
    fun result s hs he hinvalid => ?failed⟩
  case valid =>
    rw [exec_bootReadEnd he (hs.2.2 he).1, judgeBoot_of_valid hb,
      (hs.atReset (.inr he)).clearBus.conclude_enterRunning b]
    rfl
  case failed =>
    rw [exec_bootReadEnd he (hs.2.2 he).1]
    have cleared := (hs.atReset (.inr he)).clearBus
    cases result with
    | busError => exact congrArg Host.Outcome.next (cleared.conclude_enterHalted _)
    | data r =>
      rw [judgeBoot_of_invalid (hinvalid r rfl), cleared.conclude_enterHalted]
      rfl

end Sys2Proof.Proofs
end

section
/-! PROOFS. Nothing runs before the boot (10.2, R179, R180). -/

namespace Sys2Proof.Machine

namespace AtReset

variable {s t : State}

theorem phase (h : AtReset s) : s.le.phase = .off := by rw [h.le]; rfl

theorem frame (h : AtReset s) : s.le.frame = none := by rw [h.le]; rfl

theorem tickRunning (h : AtReset s) : s.sch.tickRunning = false := by rw [h.sch]; rfl

theorem restartQuiet (h : AtReset s) : restartQuiet s = s :=
  restartQuiet_of_not_between (.inl (by rw [h.phase]; rfl))

theorem sofEdge (h : AtReset s) (moment : SofMoment) (quiet : Nat) : sofEdge moment quiet s = s :=
  (sofEdge_of_no_frame moment quiet (.inl (by rw [h.phase]; nofun))).trans h.restartQuiet

end AtReset

/-- The commands that reach the host port before the boot: the register window, the resets and the end of the boot block
read. -/
def isPortCommand : Instr → Bool
  | .resetPinAssert | .resetPinRelease | .softResetComplete | .bootReadEnd _ | .registerWrite _ _ _ => true
  | i => (writesRegister i).isSome

/-- With the line OFF, no frame, no cell, the tick stopped and no requester's transfer on the bus, every other command
does nothing. -/
theorem AtReset.exec_of_not_port {i : Instr} {s : State} (h : AtReset s) (hi : isPortCommand i = false)
    (hbus : ∀ q d, onBusOf (.requester q) d s = false) : exec i s = .next s := by
  have notEnded (q : Requester) (d : Direction) (take : State → State) :
      Host.Outcome.next (transferEnd (.requester q) d take s) = (.next s : Host.Outcome State Fault Refusal) := by
    rw [transferEnd, hbus q d]
    rfl
  have stopped : ¬ s.sch.tickRunning = true := by rw [h.tickRunning]; nofun
  cases i with
  | resetPinAssert | resetPinRelease | softResetComplete | bootReadEnd | registerWrite | softReset | enable
  | bootLoWrite | bootHiWrite | post | release | causeWrite | maskWrite => cases hi
  | fetchEnd | adminFetchEnd | nodeSet | lineMode | openSend | openArrival | closeRing | filterWrite | filterRead
  | countsRead | countsWriteEnd | arrivalWriteEnd | completionWriteEnd => exact notEnded _ _ _
  | tick => exact congrArg Host.Outcome.next (if_neg stopped)
  | arrivalTimerExpiry | crTimerExpiry => exact congrArg Host.Outcome.next (if_neg fun hdue => stopped hdue.1)
  | deadlineExpiry id =>
    refine congrArg Host.Outcome.next ?_
    unfold expireDeadline
    split
    · exact if_neg fun hdue => stopped hdue.1
    · rfl
  | joinComplete | faultExit | recoveryEnd =>
    refine congrArg Host.Outcome.next (if_neg ?_)
    rw [h.phase]
    nofun
  | attemptStart kind quiet =>
    cases kind with
    | driven m =>
      refine congrArg Host.Outcome.next (if_neg fun ⟨hmay, _⟩ => ?_)
      simp [mayStartAt, mayStart, lineReady, h.phase] at hmay
    | edgeRead m => exact congrArg Host.Outcome.next (h.sofEdge m quiet)
  | frameStart quiet pulse =>
    by_cases hsof : classifyPulse s.ae.rate pulse.length = .sof
    · rw [exec_frameStart_of_sof hsof, h.sofEdge]
    · rw [exec_frameStart_of_not_sof hsof, h.restartQuiet, ite_self]
  | attemptEnd =>
    refine congrArg Host.Outcome.next (if_neg ?_)
    rw [h.phase]
    nofun
  | arbitrationWon | headerEnd | checkEnd | slotEnd | frameEnd | frameAbandoned | eodEnd =>
    refine congrArg Host.Outcome.next ?_
    rw [h.frame]
  | stuckLine dominant =>
    refine congrArg Host.Outcome.next ?_
    rw [enterFault_of_not_decoded (.inl h.phase), h.conclude, ite_self]

/-! ## The reset states -/

theorem unbootedSound_of_booted {s : State} (hreset : s.hp.engine ≠ .reset) (hloading : s.hp.engine ≠ .loading) :
    UnbootedSound s :=
  ⟨fun he => (he.elim hreset hloading).elim, fun he => absurd he hreset, fun he => absurd he hloading⟩

/-- The state that the reset pin and the end of a soft reset leave (R190, R191). -/
theorem unbootedSound_reset (lo : BitVec 26) (hi : Word) (pin : Bool) (q : List Instr) :
    UnbootedSound { State.reset with
      hp := { Reset.hostPort with bootLo := lo, bootHi := hi, pinAsserted := pin }, pending := q } :=
  ⟨fun _ => ⟨rfl, rfl, rfl, rfl, rfl, rfl, rfl, rfl, rfl, rfl, rfl⟩, fun _ => ⟨rfl, rfl⟩, nofun⟩

theorem unbootedSound_beginSoftReset (s : State) : UnbootedSound (beginSoftReset s) := by
  by_cases hbus : s.hp.onBus = none
  · rw [beginSoftReset_of_free hbus]
    exact unbootedSound_reset _ _ _ _
  · rw [beginSoftReset_of_busy hbus]
    exact unbootedSound_of_booted nofun nofun

/-- What `UnbootedSound` reads of the host port. -/
def HostPort.unbooted (h : HostPort) : EngineState × Waiting × HaltReason × Option (BusOwner × Transfer) × Bool :=
  (h.engine, h.waiting, h.haltReason, h.onBus, h.enabled)

/-- A write to the host port's other fields. -/
theorem UnbootedSound.updHp {s : State} (h : UnbootedSound s) {f : HostPort → HostPort}
    (hf : (f s.hp).unbooted = s.hp.unbooted) : UnbootedSound (s.updHp f) := by
  simp only [HostPort.unbooted, Prod.mk.injEq] at hf
  obtain ⟨he, hwaiting, hreason, hbus, henabled⟩ := hf
  simpa [UnbootedSound, onBusOf, he, hwaiting, hreason, hbus, henabled] using h

/-! ## Before the boot -/

namespace UnbootedSound

variable {s t : State}

theorem bus (h : UnbootedSound s) (he : s.hp.engine = .reset ∨ s.hp.engine = .loading) (q : Requester)
    (d : Direction) : onBusOf (.requester q) d s = false := by
  refine Bool.eq_false_of_not_eq_true fun hon => ?_
  obtain ⟨tr, htr, -⟩ := (onBusOf_iff _ _ _).1 hon
  obtain he | he := he
  · rw [(h.2.1 he).1] at htr
    cases htr
  · obtain ⟨boot, hboot, -⟩ := (onBusOf_iff _ _ _).1 (h.2.2 he).1
    rw [hboot] at htr
    cases htr

theorem startLoading (h : UnbootedSound s) (he : s.hp.engine = .reset) : UnbootedSound (startLoading s) :=
  ⟨fun _ => h.1 (.inl he), nofun, fun _ => ⟨rfl, rfl⟩⟩

theorem writeControl (h : UnbootedSound s) (v : Word) : UnbootedSound (writeControl v s) := by
  refine ite_keeps ?_ (unbootedSound_beginSoftReset s)
  split
  · next hstart => exact h.startLoading hstart.2
  · exact h

/-- Before the boot a POST and a RELEASE are refused (R183, R184). -/
theorem windowWrite (h : UnbootedSound s) (he : s.hp.engine = .reset ∨ s.hp.engine = .loading) (r : Register)
    (v : Word) : UnbootedSound (windowWrite r v s) := by
  have notRunning : s.hp.engine ≠ .running := by obtain he | he := he <;> rw [he] <;> nofun
  have refused : UnbootedSound (refuseIndex s) := h.updHp rfl
  refine ite_keeps h ?_
  cases r with
  | control => exact h.writeControl v
  | status => exact h
  | bootLo | bootHi => exact ite_keeps h (h.updHp rfl)
  | post => exact (congrArg UnbootedSound (if_neg notRunning)).mpr refused
  | release => exact (congrArg UnbootedSound (if_neg notRunning)).mpr refused
  | cause | mask => exact h.updHp rfl

/-- The boot block read ends the time before the boot (R180). -/
theorem bootReadEnd (h : UnbootedSound s) (he : s.hp.engine = .reset ∨ s.hp.engine = .loading) {result : ReadEnd}
    (ht : Machine.exec (.bootReadEnd result) s = .next t) : UnbootedSound t := by
  have cleared := (h.atReset he).clearBus
  have failed (reason : HaltReason) : UnbootedSound (conclude (enterHalted reason (clearBus s))) := by
    rw [cleared.conclude_enterHalted]
    exact unbootedSound_of_booted nofun nofun
  obtain he | he := he
  · cases ht
    rw [transferEnd, if_neg]
    · exact h
    · intro hon
      obtain ⟨tr, htr, -⟩ := (onBusOf_iff _ _ _).1 hon
      rw [(h.2.1 he).1] at htr
      cases htr
  · rw [exec_bootReadEnd he (h.2.2 he).1] at ht
    cases ht
    cases result with
    | busError => exact failed _
    | data r =>
      cases hb : bootBlockOf r with
      | some b =>
        rw [judgeBoot_of_valid hb, cleared.conclude_enterRunning]
        exact unbootedSound_of_booted nofun nofun
      | none =>
        rw [judgeBoot_of_invalid hb]
        exact failed _

/-- A command that a block before the boot takes. -/
theorem exec_of_unbooted (h : UnbootedSound s) (he : s.hp.engine = .reset ∨ s.hp.engine = .loading) {i : Instr}
    (ht : exec i s = .next t) : UnbootedSound t := by
  cases hport : isPortCommand i with
  | false =>
    rw [(h.atReset he).exec_of_not_port hport (h.bus he)] at ht
    cases ht
    exact h
  | true =>
    cases i with
    | resetPinAssert => cases ht; exact unbootedSound_reset _ _ _ _
    | resetPinRelease => cases ht; exact h.updHp rfl
    | softResetComplete => cases ht; exact ite_keeps h (unbootedSound_reset _ _ _ _)
    | bootReadEnd result => exact h.bootReadEnd he ht
    | registerWrite r width v => cases ht; exact ite_keeps h (h.windowWrite he r v)
    | softReset v | enable v | bootLoWrite v | bootHiWrite v | post v | release v | causeWrite v | maskWrite v =>
      cases ht
      exact h.windowWrite he _ v
    | _ => cases hport

/-- A booted engine is back before the boot by a reset alone. -/
theorem exec_of_booted (hreset : s.hp.engine ≠ .reset) (hloading : s.hp.engine ≠ .loading) {i : Instr}
    (ht : exec i s = .next t) : UnbootedSound t := by
  cases exec_hostPort ht with
  | kept hkept => exact unbootedSound_of_booted (by rwa [hkept.engine]) (by rwa [hkept.engine])
  | pinAsserted hi => subst hi; cases ht; exact unbootedSound_reset _ _ _ _
  | resetReached _ ht => subst ht; exact unbootedSound_reset _ _ _ _
  | softReset _ _ _ ht => subst ht; exact unbootedSound_beginSoftReset s
  | loading _ _ _ he => exact absurd he hreset
  | bootWritten he => exact absurd he hreset
  | causeWritten _ _ ht | maskWritten _ _ ht => subst ht; exact unbootedSound_of_booted hreset hloading
  | running he | bootFailed he => exact absurd he hloading
  | crFailed _ h => exact unbootedSound_of_booted (by rw [h.engine]; nofun) (by rw [h.engine]; nofun)

end UnbootedSound

end Sys2Proof.Machine

namespace Sys2Proof.Proofs

open Sys2Proof.Machine

/-- Settles O60: before the boot a command leaves the blocks as they stand; afterwards a reset alone leads back, to the
reset values. -/
theorem nothingRunsBeforeBoot : Obligations.NothingRunsBeforeBoot := by
  intro s t h ht
  refine step_keeps (P := fun s => UnbootedSound s) (fun _ _ h => h) (fun i s t h ht => ?_) h ht
  by_cases he : s.hp.engine = .reset ∨ s.hp.engine = .loading
  · exact h.exec_of_unbooted he ht
  · obtain ⟨hreset, hloading⟩ := not_or.1 he
    exact UnbootedSound.exec_of_booted hreset hloading ht

end Sys2Proof.Proofs
end

section
/-! PROOFS. No command touches the queue, and every command completes (log entry 1): the operations a command is made of
leave the queue as it stands, and so does the whole command. -/

namespace Sys2Proof.Machine

/-- An event that is taken when its condition holds leaves the queue when its operation does. -/
theorem ite_queue {s u : State} {c : Prop} [Decidable c] (hu : u.pending = s.pending) :
    (if c then u else s).pending = s.pending :=
  ite_keeps (P := fun t => t.pending = s.pending) rfl hu

/-! ## Register writes and resets (chapter 10) -/

theorem beginSoftReset_queue (s : State) : (beginSoftReset s).pending = s.pending := by
  unfold beginSoftReset
  dsimp only
  split <;> rfl

theorem writeControl_queue (value : Word) (s : State) : (writeControl value s).pending = s.pending := by
  unfold writeControl
  split
  · exact beginSoftReset_queue s
  · exact ite_queue rfl

theorem writePost_queue (value : Word) (s : State) : (writePost value s).pending = s.pending := by
  obtain heq | heq | ⟨n, heq⟩ := writePost_cases value s <;> simp [heq, refuseIndex]

theorem writeRelease_queue (value : Word) (s : State) : (writeRelease value s).pending = s.pending := by
  obtain heq | heq | ⟨n, heq⟩ := writeRelease_cases value s <;> simp [heq, refuseIndex]

theorem windowWrite_queue (r : Register) (value : Word) (s : State) :
    (windowWrite r value s).pending = s.pending := by
  refine ite_queue ?_
  cases r with
  | control => exact writeControl_queue value s
  | bootLo | bootHi => exact ite_queue rfl
  | post => exact writePost_queue value s
  | release => exact writeRelease_queue value s
  | status | cause | mask => rfl

/-! ## Administrative commands (chapter 9) -/

theorem performCommand_queue (c : AdminCommand) (quiet : Nat) (s : State) :
    (performCommand c quiet s).pending = s.pending := by
  cases c with
  | nodeSet p =>
    simp only [performCommand, performNodeSet]
    split
    · split <;> simp
    · simp
  | lineMode code =>
    simp only [performCommand, performLineMode]
    split
    · split <;> simp
    · rfl
  | openSend p =>
    simp only [performCommand, performOpenSend]
    split <;> simp
  | openArrival p =>
    simp only [performCommand, performOpenArrival]
    split <;> simp
  | closeRing ring =>
    simp only [performCommand, performCloseRing, performCloseSend, performCloseArrival]
    split <;> simp
  | filterWrite index form =>
    simp only [performCommand, performFilterWrite]
    split <;> simp
  | filterRead index => simp [performCommand, performFilterRead]
  | countsRead clear address => simp [performCommand, performCountsRead]

theorem judgeCommand_queue (c : AdminCommand) (reservedZero : Bool) (quiet : Nat) (s : State) :
    (judgeCommand c reservedZero quiet s).pending = s.pending := by
  unfold judgeCommand
  split
  · simp
  · split
    · simp
    · exact performCommand_queue c quiet s

theorem takeAdminRecord_queue (tag : Word) (reading : AdminReading) (quiet : Nat) (s : State) :
    (takeAdminRecord tag reading quiet s).pending = s.pending := by
  simp only [takeAdminRecord]
  split
  · rfl
  · cases reading with
    | unknown => rfl
    | command c reservedZero => exact judgeCommand_queue c reservedZero quiet _

/-! ## Ends of transfers (10.5) -/

theorem transferEnd_queue (owner : BusOwner) (d : Direction) {take : State → State}
    (htake : ∀ u, (take u).pending = u.pending) (s : State) : (transferEnd owner d take s).pending = s.pending := by
  obtain heq | heq | heq := transferEnd_cases owner d take s <;> rw [heq]
  · rfl
  · calc (conclude (take (clearBus s))).pending = (take (clearBus s)).pending := by simp
      _ = s.pending := htake _

theorem adminCommandEnd_queue (tag : Word) (c : AdminCommand) (quiet : Nat) (s : State) :
    (adminCommandEnd tag c quiet s).pending = s.pending :=
  transferEnd_queue _ _ (fun u => ite_queue (takeAdminRecord_queue tag _ quiet u)) s

theorem takeAdminEnd_queue (result : ReadEnd) (quiet : Nat) (s : State) :
    (takeAdminEnd result quiet s).pending = s.pending := by
  cases result with
  | data r => exact ite_queue (takeAdminRecord_queue _ _ quiet s)
  | busError => exact ite_queue rfl

theorem takeBootEnd_queue (result : ReadEnd) (s : State) : (takeBootEnd result s).pending = s.pending := by
  refine ite_queue ?_
  unfold judgeBoot
  split
  · simp
  · split
    · simp [enterRunning]
    · simp

theorem takeCountsEnd_queue (result : WriteEnd) (s : State) : (takeCountsEnd result s).pending = s.pending := by
  refine ite_queue ?_
  cases result with
  | written =>
    have cleared : (if clearFlagSet s then clearCounters s else s).pending = s.pending := ite_queue rfl
    simpa [dropSnapshot] using cleared
  | busError => simp [dropSnapshot]

theorem takeCompletionEnd_queue (result : WriteEnd) (s : State) :
    (takeCompletionEnd result s).pending = s.pending := by
  unfold takeCompletionEnd
  split
  · rfl
  · cases result with
    | written => simp
    | busError => exact ite_queue (by simp)

/-! ## Timers (R59) -/

theorem expireDeadline_queue (id : CellId) (s : State) : (expireDeadline id s).pending = s.pending := by
  unfold expireDeadline
  split
  · exact ite_queue (by simp)
  · rfl

/-! ## Line events (chapter 4) -/

section
variable {s t : State}

theorem execAttemptStart_queue {kind : SofKind} {quiet : Nat} (ht : execAttemptStart kind quiet s = .next t) :
    t.pending = s.pending := by
  cases ht
  cases kind with
  | driven m => exact ite_queue (by simp)
  | edgeRead m => simp

theorem execFrameStart_queue {quiet : Nat} {pulse : PulseRead} (ht : execFrameStart quiet pulse s = .next t) :
    t.pending = s.pending := by
  cases ht
  cases classifyPulse s.ae.rate pulse.length with
  | sof => simp
  | data1 | data0 | invalid | breakPulse => simp
  | stuck => exact ite_queue (by simp)
  | glitch => rfl

theorem execArbitrationWon_queue (ht : execArbitrationWon s = .next t) : t.pending = s.pending := by
  cases ht
  split
  · exact ite_queue (by simp)
  · rfl

theorem execHeaderEnd_queue {cells : CellsRead} (ht : execHeaderEnd cells s = .next t) : t.pending = s.pending := by
  cases ht
  split
  · refine ite_queue ?_
    split
    · simp
    · rfl
  · rfl

theorem execCheckEnd_queue {payload check : CellsRead} (ht : execCheckEnd payload check s = .next t) :
    t.pending = s.pending := by
  cases ht
  split
  · exact ite_queue (by simp)
  · rfl

theorem execEodEnd_queue (ht : execEodEnd s = .next t) : t.pending = s.pending := by
  cases ht
  split
  · exact ite_queue (by simp)
  · rfl

theorem execSlotEnd_queue {slot : Slot} {cells : CellsRead} (ht : execSlotEnd slot cells s = .next t) :
    t.pending = s.pending := by
  cases ht
  split
  · dsimp only
    split
    · simp
    · exact ite_queue (by simp)
  · rfl

theorem execFrameEnd_queue {tail : TailRead} (ht : execFrameEnd tail s = .next t) : t.pending = s.pending := by
  cases ht
  split
  · exact ite_queue (by simp)
  · rfl

theorem execFrameAbandoned_queue {cells : CellsRead} {quiet : Nat} (ht : execFrameAbandoned cells quiet s = .next t) :
    t.pending = s.pending := by
  cases ht
  split
  · exact ite_queue (by simp)
  · rfl

/-! ## One command -/

/-- No command touches the queue. -/
theorem exec_queue {i : Instr} (ht : exec i s = .next t) : t.pending = s.pending := by
  cases i with
  | resetPinAssert | resetPinRelease => cases ht; rfl
  | softResetComplete => cases ht; exact ite_queue rfl
  | softReset value | enable value | bootLoWrite value | bootHiWrite value | post value | release value
  | causeWrite value | maskWrite value => cases ht; exact windowWrite_queue _ value s
  | registerWrite r width value => cases ht; exact ite_queue (windowWrite_queue r value s)
  | bootReadEnd result => cases ht; exact transferEnd_queue _ _ (takeBootEnd_queue result) s
  | fetchEnd result => cases ht; exact transferEnd_queue _ _ (by simp) s
  | adminFetchEnd result quiet => cases ht; exact transferEnd_queue _ _ (takeAdminEnd_queue result quiet) s
  | nodeSet tag _ | lineMode tag _ _ | openSend tag _ | openArrival tag _ | closeRing tag _ | filterWrite tag _ _
  | filterRead tag _ | countsRead tag _ _ => cases ht; exact adminCommandEnd_queue tag _ _ s
  | countsWriteEnd result => cases ht; exact transferEnd_queue _ _ (takeCountsEnd_queue result) s
  | arrivalWriteEnd result => cases ht; exact transferEnd_queue _ _ (by simp) s
  | completionWriteEnd result => cases ht; exact transferEnd_queue _ _ (takeCompletionEnd_queue result) s
  | tick => cases ht; exact ite_queue rfl
  | deadlineExpiry id => cases ht; exact expireDeadline_queue id s
  | arrivalTimerExpiry r => cases ht; exact ite_queue (by simp)
  | crTimerExpiry => cases ht; exact ite_queue (by simp)
  | joinComplete quiet => cases ht; exact ite_queue (by simp)
  | attemptStart kind quiet => exact execAttemptStart_queue ht
  | frameStart quiet pulse => exact execFrameStart_queue ht
  | arbitrationWon => exact execArbitrationWon_queue ht
  | attemptEnd before last ending => cases ht; exact ite_queue (by simp)
  | headerEnd cells => exact execHeaderEnd_queue ht
  | checkEnd payload check => exact execCheckEnd_queue ht
  | slotEnd slot cells => exact execSlotEnd_queue ht
  | frameEnd tail => exact execFrameEnd_queue ht
  | frameAbandoned cells quiet => exact execFrameAbandoned_queue ht
  | stuckLine dominant => cases ht; exact ite_queue (by simp)
  | faultExit quiet | recoveryEnd quiet => cases ht; exact ite_queue (by simp)
  | eodEnd => exact execEodEnd_queue ht

end

/-- Every command completes: no row is refused, and none stops with a fault. -/
theorem exec_completes (i : Instr) (s : State) : ∃ t, exec i s = .next t := by
  cases i <;> exact ⟨_, rfl⟩

end Sys2Proof.Machine

namespace Sys2Proof.Proofs

open Sys2Proof.Machine

/-- Settles O1: the step is the front command by its definition; each command's row gives a next state, and the
operations it is made of leave the queue. -/
theorem stepRunsFrontCommand : Obligations.StepRunsFrontCommand := by
  refine ⟨⟨fun c rest s => rfl, fun s hidle => ?_⟩, fun c s => ?_⟩
  · unfold step
    rw [hidle]
  · obtain ⟨t, ht⟩ := exec_completes c s
    exact ⟨t, ht, exec_queue ht⟩

end Sys2Proof.Proofs
end
